-- ==== Sys2Proof/Word.lean ====
section
/-! DEFINITION. The word types of JTDEC (00_scope.md R9, R10). -/

namespace Sys2Proof

/-- One byte of the input memory IN. -/
abbrev Byte := BitVec 8

/-- A CSR, a command word or a slot element: 32 bits (10_state.md R21, R30). -/
abbrev Word := BitVec 32

/-- A slot number, the 5-bit field of a command word (30_encoding.md R80). -/
abbrev SlotNo := BitVec 5

/-- `wrap32(n)` of R10: the i32 congruent to `n` modulo 2^32, as its 32 bits. -/
abbrev wrap32 (n : Int) : Word := BitVec.ofInt 32 n

/-- A natural number as a u32 register value. -/
abbrev u32 (n : Nat) : Word := BitVec.ofNat 32 n

end Sys2Proof
end

