-- ==== Sys2Proof/Machine/Errors.lean ====
section
/-! DEFINITION. The error codes of 60_exceptions.md R400. -/

namespace Sys2Proof.Machine

/-- The 19 error codes of R400, by name. -/
inductive ErrCode where
  | badCmd
  | badArg
  | trunc
  | badCodec
  | range
  | count
  | codetext
  | ctx
  | arith
  | oob
  | noProgress
  | capacity
  | depth
  | topoStream
  | topoValue
  | topoSplit
  | topoAttr
  | topoConflict
  | state
deriving DecidableEq, Repr

/-- The number of an error code in ERRCODE[7:0] (R400). -/
def errCodeByte : ErrCode → Byte
  | .badCmd => 1
  | .badArg => 2
  | .trunc => 3
  | .badCodec => 4
  | .range => 5
  | .count => 6
  | .codetext => 7
  | .ctx => 8
  | .arith => 9
  | .oob => 10
  | .noProgress => 11
  | .capacity => 12
  | .depth => 13
  | .topoStream => 14
  | .topoValue => 15
  | .topoSplit => 16
  | .topoAttr => 17
  | .topoConflict => 18
  | .state => 19

/-- `raise E(info)` of 00_scope.md R11: an error code and the value ERRINFO takes (R411). -/
structure Err where
  code : ErrCode
  info : Nat
deriving DecidableEq, Repr

end Sys2Proof.Machine
end

