-- ==== Sys2Proof/Config.lean ====
section
/-! DEFINITION. The parameters of 00_scope.md R7 and the free values the spec leaves open.

The OPEN parameters, and the choice of log 21, are plain data that the machine's state carries and no step
changes (log 1), so a statement about every state is a statement about every implementation. Values the spec
leaves to a draw, and OPEN fields at another content than the reference one, are opaque constants: nothing can be
proved about what they are. -/

namespace Sys2Proof

/-- An OPEN configuration field of R7 whose content the spec gives by reference: either that reference
content, or some other content, numbered `k`, that nothing is known about (log 5). -/
inductive OpenField where
  | reference
  | other (k : Nat)
deriving DecidableEq, Repr

/-- What a host read of a slot through SLOT_LEN or SLOT_DATA does while BUSY = 1: two sets of rules give it two
effects and no ruling of 90_conflicts.md chooses, so each is modelled (DESIGN CHOICE, log 21). -/
inductive BusySlotRead where
  /-- refused: 0, and ACCERR is set (10_state.md R31 and R32, 20_memory.md R67, 70_reset_and_hazards.md R452) -/
  | refused
  /-- accepted as while idle: the value from before the command (20_memory.md R69, 70_reset_and_hazards.md R450,
  93_implementation_defined.md 1.1) -/
  | valueBefore
deriving DecidableEq, Repr

/-- The OPEN parameters of R7, and the one point on which the spec's rules contradict each other (log 21). -/
structure Params where
  /-- IN_BYTES, the size of IN -/
  inBytes : Nat
  /-- SLOT_CAP, the most elements in one slot -/
  slotCap : Nat
  maxVtx : Nat
  maxFace : Nat
  maxValence : Nat
  maxDegree : Nat
  maxIncid : Nat
  quantEval : OpenField
  deeringTable : OpenField
  sextantPerm : OpenField
  /-- no parameter of R7 (log 21) -/
  busySlotRead : BusySlotRead
deriving DecidableEq, Repr

/-- The reference values of R7 (log 1: DESIGN CHOICE of the values a run from reset takes), with slot reads while
BUSY = 1 refused (log 21: DESIGN CHOICE). -/
def Params.reference : Params where
  inBytes := 2 ^ 24
  slotCap := 2 ^ 20
  maxVtx := 2 ^ 20
  maxFace := 2 ^ 20
  maxValence := 65536
  maxDegree := 65536
  maxIncid := 2 ^ 22
  quantEval := .reference
  deeringTable := .reference
  sextantPerm := .reference
  busySlotRead := .refused

/-- The ranges R7 gives the OPEN parameters. -/
def Params.wf (p : Params) : Bool :=
  decide (1 ≤ p.inBytes) && decide (p.inBytes ≤ 2 ^ 24) && decide (2 ^ 16 ≤ p.slotCap) &&
    decide (64 ≤ p.maxValence) && decide (64 ≤ p.maxDegree)

namespace Config

/-- MAX_DEPTH of R7: the greatest nesting depth of a stream. -/
def maxDepth : Nat := 8

/-- MAX_CTX_ENTRIES of R7. -/
def maxCtxEntries : Nat := 65535

/-- SYMBOL_BIAS of R7. -/
def symbolBias : Nat := 2

/-- AQ_WINDOW of R7. -/
def aqWindow : Nat := 16

/-- FREE VALUE (log 3): the byte the power-on numbered `epoch` leaves at IN address `addr` (10_state.md R29). -/
opaque powerOnByte (epoch addr : Nat) : Byte

/-- FREE VALUE (log 4): sign and payload of the `i`-th drawn quiet NaN, QNAN_DRAW (45_vertex.md R284). -/
opaque qnanBits (i : Nat) : BitVec 23

/-- FREE VALUE (log 5): QUANT_EVAL at the content numbered `k` (45_vertex.md R282). -/
opaque quantEvalOther (k : Nat) (mn d2 : Word) (maxCode : Nat) (raw : Word) : Word

/-- FREE VALUE (log 5): DEERING_TABLE at the content numbered `k`, entry `i`, as (sin, cos) (45_vertex.md R289). -/
opaque deeringTableOther (k i : Nat) : Word × Word

/-- FREE VALUE (log 5): which of the six orders of three components SEXTANT_PERM at the content numbered
`k` gives the sextant `s` (45_vertex.md R291). -/
opaque sextantPermOther (k s : Nat) : Fin 6

end Config

end Sys2Proof
end

