-- ==== Sys2Proof/Machine/State.lean ====
section
/-! DEFINITION. The state of JTDEC (10_state.md R20) as plain data, the reasons a step can stop, and the
state after power-on reset (70_reset_and_hazards.md R440). -/

namespace Sys2Proof.Machine

/-- IN as a list of (address, byte) pairs: the bytes written since power-on, addresses strictly rising. An
unlisted address holds no value of the machine's own; a read of it gives the power-on byte (log 3). -/
abbrev Memory := List Host.Cell

/-- An entry of the role map (10_state.md R33). -/
structure RoleEntry where
  /-- SLOT, bits 4:0 -/
  slot : SlotNo
  /-- VALID, bit 7 -/
  valid : Bool
deriving DecidableEq, Repr

/-- A vertex of MESH (10_state.md R41). Its valence is the number of its face slots (log 14). -/
structure Vertex where
  vflags : Word
  group : Word
  /-- the face slots, each a face id or none (the document's -1) -/
  vface : List (Option Nat)
deriving DecidableEq, Repr

/-- A face of MESH (10_state.md R42). Its degree is the number of its vertex slots, its empty-slot count the
number of slots that hold none, and nattr the number of set bits of its mask (log 14). -/
structure Face where
  fflags : Word
  /-- the attribute presence mask, bit s for corner s; as many bits as vertex slots -/
  amask : List Bool
  /-- id of the first attribute record -/
  attrBase : Nat
  /-- the vertex slots, each a vertex id or none (the document's -1) -/
  fvtx : List (Option Nat)
deriving DecidableEq, Repr

/-- MESH without its valid flag (10_state.md R40 to R45). -/
structure Mesh where
  vertices : List Vertex
  faces : List Face
  attrCounter : Nat
  ncomp : Nat
deriving DecidableEq, Repr

/-- The empty MESH of R40. -/
def Mesh.empty : Mesh := { vertices := [], faces := [], attrCounter := 0, ncomp := 0 }

/-- The width of a host access (20_memory.md R62, R63). That the host presents 8, 16 or 32 bits and no other width is
the model's (DESIGN CHOICE, log 22). -/
inductive Width where
  | w8
  | w16
  | w32
deriving DecidableEq, Repr

/-- One host access at a 32-bit device offset (20_memory.md R61). -/
inductive HostAccess where
  | read (width : Width) (off : Word)
  | write (width : Width) (off : Word) (v : Word)
deriving DecidableEq, Repr

/-- One move of the total order of 20_memory.md R71: a host access, a turn given to the engine, or a
power-on reset (log 2). -/
inductive Input where
  | access (a : HostAccess)
  | engineTurn
  | powerOn
deriving DecidableEq, Repr

/-- The state of JTDEC and its coming inputs. -/
structure State where
  /-- the OPEN parameters; the model's own field, never changed (logs 1, 21) -/
  params : Params
  /-- CTRL.ENDIAN (R22): 1 is big-endian -/
  endian : Bool
  /-- CTRL.IRQ_EN (R22) -/
  irqEn : Bool
  /-- STATUS.BUSY (R23) -/
  busy : Bool
  /-- STATUS.DONE (R23) -/
  done : Bool
  /-- STATUS.ERR (R23) -/
  err : Bool
  /-- STATUS.ACCERR (R23) -/
  accErr : Bool
  /-- STATUS.MESH_VALID, MESH.valid (R23, R40) -/
  meshValid : Bool
  /-- ERRCODE[7:0] (R24) -/
  errCode : Byte
  /-- ERRINFO (R24) -/
  errInfo : Word
  /-- CMD (R21) -/
  cmd : Word
  /-- ARG0 (R21) -/
  arg0 : Word
  /-- ARG1 (R21) -/
  arg1 : Word
  /-- ARG2 (R21) -/
  arg2 : Word
  /-- RESULT0 (R25) -/
  result0 : Word
  /-- RESULT1 (R25) -/
  result1 : Word
  /-- IN_LEN (R26) -/
  inLen : Word
  /-- ROLEMAP[0..16] (R33) -/
  roleMap : Vector RoleEntry 17
  /-- SLOT_SEL[4:0] (R31) -/
  slotSel : SlotNo
  /-- SLOT_IDX (R31) -/
  slotIdx : Word
  /-- IN (R29) -/
  mem : Memory
  /-- S[0..31] (R30) -/
  slots : Vector (List Word) 32
  /-- LCMD, the latched command word (R36) -/
  lcmd : Word
  /-- LARG0 (R36) -/
  larg0 : Word
  /-- LARG1 (R36) -/
  larg1 : Word
  /-- LARG2 (R36) -/
  larg2 : Word
  /-- the latched ENDIAN (R37) -/
  lEndian : Bool
  /-- the latched IN_LEN (R37) -/
  lInLen : Word
  /-- MESH (R40 to R45) -/
  mesh : Mesh
  /-- the coming moves; the model's own field (log 2) -/
  inputs : List Input
  /-- what the last host read returned; the model's own field (log 11) -/
  hostData : Word
  /-- the number of power-on resets so far, index of IN's drawn contents; the model's own field (log 3) -/
  epoch : Nat
  /-- the number of NaN draws so far; the model's own field (log 4) -/
  draws : Nat
deriving DecidableEq, Repr

/-- The state after power-on reset (R440), with the reference parameters and no coming input (log 1, 2). -/
def State.reset : State where
  params := Params.reference
  endian := false
  irqEn := false
  busy := false
  done := false
  err := false
  accErr := false
  meshValid := false
  errCode := 0
  errInfo := 0
  cmd := 0
  arg0 := 0
  arg1 := 0
  arg2 := 0
  result0 := 0
  result1 := 0
  inLen := 0
  roleMap := Vector.replicate 17 { slot := 0, valid := false }
  slotSel := 0
  slotIdx := 0
  mem := []
  slots := Vector.replicate 32 []
  lcmd := 0
  larg0 := 0
  larg1 := 0
  larg2 := 0
  lEndian := false
  lInLen := 0
  mesh := Mesh.empty
  inputs := []
  hostData := 0
  epoch := 0
  draws := 0

/-- Why the machine stops with a fault. -/
inductive Fault where
  /-- raised by TOPO_RUN (`execTopoRun`) if one of its loops has used up the bound the model gives it. R344 of
  46_topology.md says the loops end, and the bounds are the measures it names, so nothing raises it; were a bound
  too small the model would stop where the hardware goes on (safe, log 9) -/
  | engineStuck
deriving DecidableEq, Repr

/-- Why an instruction is refused. -/
inductive Refusal where
  /-- raised by an arm of `exec` whose instruction has no meaning yet; no arm does (safe) -/
  | notModelled (mnemonic : String)
deriving DecidableEq, Repr

/-- The outcome of a step of JTDEC. -/
abbrev Result := Host.Outcome State Fault Refusal

end Sys2Proof.Machine
end

