-- ==== Sys2Proof/Machine/Flags.lean ====
section
/-! DEFINITION. The flags: STATUS and CTRL as words, the interrupt line, and the write-1-to-clear rule
(10_state.md R21 to R28, 60_exceptions.md R420). -/

namespace Sys2Proof.Machine

/-- The flag `b` at bit `n` of a register word. -/
def flagBit (b : Bool) (n : Nat) : Word := if b then 1#32 <<< n else 0#32

/-- STATUS as it reads (R23): reserved bits read 0. -/
def State.statusWord (s : State) : Word :=
  flagBit s.busy 0 ||| flagBit s.done 1 ||| flagBit s.err 2 ||| flagBit s.accErr 3 ||| flagBit s.meshValid 4

/-- CTRL as it reads (R22): GO and SOFT_RESET are write-only and read 0. -/
def State.ctrlWord (s : State) : Word := flagBit s.endian 8 ||| flagBit s.irqEn 9

/-- The interrupt output, IRQ_EN and (DONE or ERR) (R28, R420). -/
def State.irq (s : State) : Bool := s.irqEn && (s.done || s.err)

/-- What a W1C flag holds after a write whose bit for it is `w` (R21). -/
def w1c (flag w : Bool) : Bool := flag && !w

/-- A write of `v` to STATUS (R23): DONE, ERR and ACCERR are W1C, the rest is read-only. -/
def State.writeStatus (s : State) (v : Word) : State :=
  { s with
    done := w1c s.done (v.getLsbD 1)
    err := w1c s.err (v.getLsbD 2)
    accErr := w1c s.accErr (v.getLsbD 3) }

/-- A refused host access: ACCERR is set and nothing else changes (20_memory.md R67). -/
def State.refuse (s : State) : State := { s with accErr := true }

end Sys2Proof.Machine
end

