-- ==== Sys2Proof/Syntax.lean ====
section
/-! DEFINITION. The instructions of JTDEC: one constructor per row of spec/opcode_table.json.

Eighteen rows are command words (30_encoding.md R83, R100). Eight rows are codec ids, the bytes that
select the codec of a stream (R92, R95). A codec row has no operand of its own: it acts on the stream of
the latched stream command (log 6). -/

namespace Sys2Proof

inductive Instr where
  /-- NOP, R126 -/
  | nop
  /-- DEC_CDP2 sA, R161 -/
  | decCdp2 (a : SlotNo)
  /-- DEC_CDP1 sA, R162 -/
  | decCdp1 (a : SlotNo)
  /-- PRED.LAG1 sA, sB, R265 -/
  | predLag1 (a b : SlotNo)
  /-- PRED.LAG2 sA, sB, R266 -/
  | predLag2 (a b : SlotNo)
  /-- PRED.STRIDE1 sA, sB, R267 -/
  | predStride1 (a b : SlotNo)
  /-- PRED.STRIDE2 sA, sB, R268 -/
  | predStride2 (a b : SlotNo)
  /-- PRED.STRIPINDEX sA, sB, R269 -/
  | predStripindex (a b : SlotNo)
  /-- PRED.RAMP sA, sB, R270 -/
  | predRamp (a b : SlotNo)
  /-- PRED.XOR1 sA, sB, R271 -/
  | predXor1 (a b : SlotNo)
  /-- PRED.XOR2 sA, sB, R272 -/
  | predXor2 (a b : SlotNo)
  /-- PRED.NULL sA, sB, R273 -/
  | predNull (a b : SlotNo)
  /-- DEQ_QUANT sA, sB, R280 -/
  | deqQuant (a b : SlotNo)
  /-- DEQ_EXPMANT sA, sB, sC, R285 -/
  | deqExpmant (a b c : SlotNo)
  /-- DEQ_DEERING sA, sB, sC, sD, M, R288 -/
  | deqDeering (a b c d : SlotNo) (m : BitVec 4)
  /-- VTX_PACK sA, sB, sC, sD, R295 -/
  | vtxPack (a b c d : SlotNo)
  /-- TOPO_RUN, R310 -/
  | topoRun
  /-- TOPO_EMIT, R360 -/
  | topoEmit
  /-- CDP2 codec id 0, R201 -/
  | cdp2Null
  /-- CDP2 codec id 1, R210 -/
  | cdp2Bitlength2
  /-- CDP2 codec id 3, R230 -/
  | cdp2Arithmetic
  /-- CDP2 codec id 4, R245 -/
  | cdp2Chopper
  /-- CDP1 codec id 0, R202 -/
  | cdp1Null
  /-- CDP1 codec id 1, R205 -/
  | cdp1Bitlength1
  /-- CDP1 codec id 2, R220 -/
  | cdp1Huffman
  /-- CDP1 codec id 3, R230 -/
  | cdp1Arithmetic
deriving DecidableEq, Repr

end Sys2Proof
end

