-- ==== Sys2Proof/WellFormed.lean ====
section
/-! DEFINITION. Which instructions have legal operands (30_encoding.md R84, R101). Slot operands are always
legal (40_commands.md R123). An ill-formed instruction still decodes and executes: it ends with E_BADARG. -/

namespace Sys2Proof

/-- The one operand check of the command word: bitsPerNormal of DEQ_DEERING is 0 to 13 (R101). -/
def Instr.wf : Instr → Bool
  | .deqDeering _ _ _ _ m => decide (m.toNat ≤ 13)
  | .nop => true
  | .decCdp2 _ => true
  | .decCdp1 _ => true
  | .predLag1 _ _ => true
  | .predLag2 _ _ => true
  | .predStride1 _ _ => true
  | .predStride2 _ _ => true
  | .predStripindex _ _ => true
  | .predRamp _ _ => true
  | .predXor1 _ _ => true
  | .predXor2 _ _ => true
  | .predNull _ _ => true
  | .deqQuant _ _ => true
  | .deqExpmant _ _ _ => true
  | .vtxPack _ _ _ _ => true
  | .topoRun => true
  | .topoEmit => true
  | .cdp2Null => true
  | .cdp2Bitlength2 => true
  | .cdp2Arithmetic => true
  | .cdp2Chopper => true
  | .cdp1Null => true
  | .cdp1Bitlength1 => true
  | .cdp1Huffman => true
  | .cdp1Arithmetic => true

end Sys2Proof
end

