-- ==== Sys2Proof/Decode.lean ====
section
/-! DEFINITION. Decoding and encoding: the command word (30_encoding.md R80 to R84, R100) and the codec id
bytes of the two stream formats (R92, R95). -/

namespace Sys2Proof

/-- Why a command word or a codec byte is no instruction. -/
inductive Reject where
  /-- OP is not one of 0x00 to 0x09 (R84) -/
  | badOpcode (op : Byte)
  /-- a field the command does not use is not 0 (R82) -/
  | unusedField (op : Byte)
  /-- PRED with M = 9 to 15 (R100); `dst` is the destination slot it names -/
  | predType (dst : SlotNo)
  /-- a reserved codec id (R92, R95) -/
  | badCodec (id : Byte)
deriving DecidableEq, Repr

/-- Something that carries an instruction: a command word, or a codec id byte of one of the two formats,
which "are selected by caller context" (R90). -/
inductive Encoding where
  | cmd (w : Word)
  | cdp2 (id : Byte)
  | cdp1 (id : Byte)
deriving DecidableEq, Repr

/-- OP = w[7:0] (R80). -/
def fieldOp (w : Word) : Byte := w.extractLsb' 0 8

/-- A = w[12:8]. -/
def fieldA (w : Word) : SlotNo := w.extractLsb' 8 5

/-- B = w[17:13]. -/
def fieldB (w : Word) : SlotNo := w.extractLsb' 13 5

/-- C = w[22:18]. -/
def fieldC (w : Word) : SlotNo := w.extractLsb' 18 5

/-- D = w[27:23]. -/
def fieldD (w : Word) : SlotNo := w.extractLsb' 23 5

/-- M = w[31:28]. -/
def fieldM (w : Word) : BitVec 4 := w.extractLsb' 28 4

/-- The "fields used" column of R83, as the mask of the used bits above OP. -/
def usedFields (op : Byte) : Option Word :=
  match op.toNat with
  | 0x00 => some 0x00000000
  | 0x01 => some 0x00001F00
  | 0x02 => some 0x00001F00
  | 0x03 => some 0xF003FF00
  | 0x04 => some 0x0003FF00
  | 0x05 => some 0x007FFF00
  | 0x06 => some 0xFFFFFF00
  | 0x07 => some 0x0FFFFF00
  | 0x08 => some 0x00000000
  | 0x09 => some 0x00000000
  | _ => none

/-- The predictor types of R100. -/
def decodePred (m : BitVec 4) (a b : SlotNo) : Except Reject Instr :=
  match m.toNat with
  | 0 => .ok (.predLag1 a b)
  | 1 => .ok (.predLag2 a b)
  | 2 => .ok (.predStride1 a b)
  | 3 => .ok (.predStride2 a b)
  | 4 => .ok (.predStripindex a b)
  | 5 => .ok (.predRamp a b)
  | 6 => .ok (.predXor1 a b)
  | 7 => .ok (.predXor2 a b)
  | 8 => .ok (.predNull a b)
  | _ => .error (.predType b)

/-- The opcode map of R83, for a word whose unused fields are 0. -/
def decodeOp (w : Word) : Except Reject Instr :=
  match (fieldOp w).toNat with
  | 0x00 => .ok .nop
  | 0x01 => .ok (.decCdp2 (fieldA w))
  | 0x02 => .ok (.decCdp1 (fieldA w))
  | 0x03 => decodePred (fieldM w) (fieldA w) (fieldB w)
  | 0x04 => .ok (.deqQuant (fieldA w) (fieldB w))
  | 0x05 => .ok (.deqExpmant (fieldA w) (fieldB w) (fieldC w))
  | 0x06 => .ok (.deqDeering (fieldA w) (fieldB w) (fieldC w) (fieldD w) (fieldM w))
  | 0x07 => .ok (.vtxPack (fieldA w) (fieldB w) (fieldC w) (fieldD w))
  | 0x08 => .ok .topoRun
  | 0x09 => .ok .topoEmit
  | _ => .error (.badOpcode (fieldOp w))

/-- The checks of dispatch in the order of 40_commands.md R122: the opcode, then the unused fields. -/
def decodeCmd (w : Word) : Except Reject Instr :=
  match usedFields (fieldOp w) with
  | none => .error (.badOpcode (fieldOp w))
  | some used =>
    if w &&& ~~~(used ||| 0xFF) ≠ 0 then .error (.unusedField (fieldOp w)) else decodeOp w

/-- The CDP2 codec ids of R92. -/
def decodeCdp2 (id : Byte) : Except Reject Instr :=
  match id.toNat with
  | 0 => .ok .cdp2Null
  | 1 => .ok .cdp2Bitlength2
  | 3 => .ok .cdp2Arithmetic
  | 4 => .ok .cdp2Chopper
  | _ => .error (.badCodec id)

/-- The CDP1 codec ids of R95. -/
def decodeCdp1 (id : Byte) : Except Reject Instr :=
  match id.toNat with
  | 0 => .ok .cdp1Null
  | 1 => .ok .cdp1Bitlength1
  | 2 => .ok .cdp1Huffman
  | 3 => .ok .cdp1Arithmetic
  | _ => .error (.badCodec id)

/-- Decoding of every encoding of the table. -/
def decode : Encoding → Except Reject Instr
  | .cmd w => decodeCmd w
  | .cdp2 id => decodeCdp2 id
  | .cdp1 id => decodeCdp1 id

/-- The command word of R80 from its fields. -/
def commandWord (op : Byte) (a b c d : SlotNo) (m : BitVec 4) : Word :=
  m ++ d ++ c ++ b ++ a ++ op

/-- The encoding of each instruction (R83, R92, R95, R100). -/
def encode : Instr → Encoding
  | .nop => .cmd (commandWord 0x00 0 0 0 0 0)
  | .decCdp2 a => .cmd (commandWord 0x01 a 0 0 0 0)
  | .decCdp1 a => .cmd (commandWord 0x02 a 0 0 0 0)
  | .predLag1 a b => .cmd (commandWord 0x03 a b 0 0 0)
  | .predLag2 a b => .cmd (commandWord 0x03 a b 0 0 1)
  | .predStride1 a b => .cmd (commandWord 0x03 a b 0 0 2)
  | .predStride2 a b => .cmd (commandWord 0x03 a b 0 0 3)
  | .predStripindex a b => .cmd (commandWord 0x03 a b 0 0 4)
  | .predRamp a b => .cmd (commandWord 0x03 a b 0 0 5)
  | .predXor1 a b => .cmd (commandWord 0x03 a b 0 0 6)
  | .predXor2 a b => .cmd (commandWord 0x03 a b 0 0 7)
  | .predNull a b => .cmd (commandWord 0x03 a b 0 0 8)
  | .deqQuant a b => .cmd (commandWord 0x04 a b 0 0 0)
  | .deqExpmant a b c => .cmd (commandWord 0x05 a b c 0 0)
  | .deqDeering a b c d m => .cmd (commandWord 0x06 a b c d m)
  | .vtxPack a b c d => .cmd (commandWord 0x07 a b c d 0)
  | .topoRun => .cmd (commandWord 0x08 0 0 0 0 0)
  | .topoEmit => .cmd (commandWord 0x09 0 0 0 0 0)
  | .cdp2Null => .cdp2 0
  | .cdp2Bitlength2 => .cdp2 1
  | .cdp2Arithmetic => .cdp2 3
  | .cdp2Chopper => .cdp2 4
  | .cdp1Null => .cdp1 0
  | .cdp1Bitlength1 => .cdp1 1
  | .cdp1Huffman => .cdp1 2
  | .cdp1Arithmetic => .cdp1 3

/-- The instruction of a row of the opcode table. A row of 8 bits is a codec id; the two formats share the
ids 0, 1 and 3, which are read as CDP2 codecs here, and an id only CDP1 has as the CDP1 codec (log 6). Every
other row is a command word. -/
def decodeTableWord (nbits w : Nat) : Option Instr :=
  if nbits = 8 then
    match decodeCdp2 (BitVec.ofNat 8 w) with
    | .ok i => some i
    | .error _ => (decodeCdp1 (BitVec.ofNat 8 w)).toOption
  else (decodeCmd (BitVec.ofNat 32 w)).toOption

end Sys2Proof
end

