-- ==== Sys2Proof/Machine/Operands.lean ====
section
/-! DEFINITION. The operands of commands: slots (30_encoding.md R80), the latched arguments (R81), the role map
(10_state.md R33), and the views of MESH (10_state.md R41, R42). -/

namespace Sys2Proof.Machine

/-- The sequence of slot `k` (R30). -/
def State.slot (s : State) (k : SlotNo) : List Word := s.slots[k.toNat]'(k.isLt)

/-- Slot `k` gets the sequence `vs`. -/
def State.setSlot (s : State) (k : SlotNo) (vs : List Word) : State :=
  { s with slots := s.slots.set k.toNat vs k.isLt }

/-- Every slot of the list becomes empty (60_exceptions.md R410). -/
def State.emptySlots (s : State) : List SlotNo → State
  | [] => s
  | k :: ks => (s.setSlot k []).emptySlots ks

/-- The destination slot X of DEQ_DEERING, LARG0[4:0] (R81). -/
def deeringX (larg0 : Word) : SlotNo := larg0.extractLsb' 0 5

/-- The destination slot Y of DEQ_DEERING, LARG0[12:8] (R81). -/
def deeringY (larg0 : Word) : SlotNo := larg0.extractLsb' 8 5

/-- The destination slot Z of DEQ_DEERING, LARG0[20:16] (R81). -/
def deeringZ (larg0 : Word) : SlotNo := larg0.extractLsb' 16 5

/-- The bits of LARG0 that DEQ_DEERING reserves: 7:5, 15:13 and 31:21 (R81). -/
def deeringReserved (larg0 : Word) : Word := larg0 &&& 0xFFE0E0E0

/-- A role number of R33. -/
abbrev Role := Fin 17

/-- VALENCE, role 8. -/
def roleValence : Role := 8

/-- GROUP, role 9. -/
def roleGroup : Role := 9

/-- FLAGS, role 10. -/
def roleFlags : Role := 10

/-- AMASK0, role 11. -/
def roleAmask0 : Role := 11

/-- AMASK1, role 12. -/
def roleAmask1 : Role := 12

/-- SPLITFACE, role 13. -/
def roleSplitFace : Role := 13

/-- SPLITPOS, role 14. -/
def roleSplitPos : Role := 14

/-- CORNER_VTX, role 15. -/
def roleCornerVtx : Role := 15

/-- CORNER_ATTR, role 16. -/
def roleCornerAttr : Role := 16

/-- The slot of role `r`, if the role is assigned (R33). -/
def State.roleSlot (s : State) (r : Role) : Option SlotNo :=
  if s.roleMap[r].valid then some s.roleMap[r].slot else none

/-- The stream of role `r`, if the role is assigned (R33). -/
def State.roleStream (s : State) (r : Role) : Option (List Word) := (s.roleSlot r).map s.slot

/-- valence[v] (R41). -/
def Vertex.valence (v : Vertex) : Nat := v.vface.length

/-- degree[f] (R42). -/
def Face.degree (f : Face) : Nat := f.fvtx.length

/-- empty[f], the count of still-empty vertex slots (R42). -/
def Face.emptyCount (f : Face) : Nat := f.fvtx.countP Option.isNone

/-- nattr[f] = popcount(amask[f]) (R42). -/
def Face.nattr (f : Face) : Nat := f.amask.countP id

/-- The sum of the valences of all vertices (46_topology.md R314). -/
def sumValence (vs : List Vertex) : Nat := (vs.map Vertex.valence).sum

/-- The sum of the degrees of all faces: NCORNER of a mesh (R27). -/
def sumDegree (fs : List Face) : Nat := (fs.map Face.degree).sum

/-- A count of MESH as its CSR reads it: 0 while MESH_VALID = 0 (R27). -/
def State.meshCount (s : State) (n : Mesh → Nat) : Word := if s.meshValid then u32 (n s.mesh) else 0

/-- NV (R27). -/
def State.nv (s : State) : Word := s.meshCount fun m => m.vertices.length

/-- NF (R27). -/
def State.nf (s : State) : Word := s.meshCount fun m => m.faces.length

/-- NCORNER (R27). -/
def State.ncorner (s : State) : Word := s.meshCount fun m => sumDegree m.faces

/-- NATTR (R27). -/
def State.nattr (s : State) : Word := s.meshCount Mesh.attrCounter

/-- NCOMP (R27). -/
def State.ncompReg (s : State) : Word := s.meshCount Mesh.ncomp

end Sys2Proof.Machine
end

