-- ==== Sys2Proof/Machine/Ops.lean ====
section
/-! DEFINITION. The shared operations: IN (20_memory.md), the accept and completion of a command
(40_commands.md R121, R125), the error entry (60_exceptions.md R410), and reset (70_reset_and_hazards.md). -/

namespace Sys2Proof.Machine

/-- The byte listed at an address, if the address is listed. -/
def Memory.lookup : Memory → Nat → Option Byte
  | [], _ => none
  | (x, b) :: rest, a => if x = a then some b else Memory.lookup rest a

/-- The byte `b` written at address `a`; the addresses stay strictly rising. -/
def Memory.store : Memory → Nat → Byte → Memory
  | [], a, b => [(a, b)]
  | (x, c) :: rest, a, b =>
    if a < x then (a, b) :: (x, c) :: rest
    else if a = x then (a, b) :: rest
    else (x, c) :: Memory.store rest a b

/-- The canonical form of IN: addresses strictly rising. An unlisted address holds no value (`lookup` gives
none), so no entry can equal what an unlisted address holds (log 3). -/
def Memory.wf : Memory → Bool
  | [] => true
  | [_] => true
  | (x, _) :: (y, c) :: rest => decide (x < y) && Memory.wf ((y, c) :: rest)

/-- Bytes written at consecutive addresses. -/
def Memory.storeAll : Memory → Nat → List Byte → Memory
  | m, _, [] => m
  | m, a, b :: bs => Memory.storeAll (Memory.store m a b) (a + 1) bs

/-- `IN[a]` of 00_scope.md R11: the byte written last, or the byte power-on left there (log 3). -/
def State.inByte (s : State) (a : Nat) : Byte :=
  (Memory.lookup s.mem a).getD (Config.powerOnByte s.epoch a)

/-- The u32 of four bytes, least significant first (20_memory.md R62, R64). -/
def wordOfBytes (b0 b1 b2 b3 : Byte) : Word := b3 ++ b2 ++ b1 ++ b0

/-- Byte `i` of a word, byte 0 the least significant. -/
def byteOfWord (v : Word) (i : Nat) : Byte := v.extractLsb' (8 * i) 8

/-- What a command sees of IN: its bytes, the latched IN_LEN and ENDIAN (10_state.md R37), and SLOT_CAP. -/
structure InView where
  mem : Memory
  epoch : Nat
  inLen : Nat
  endian : Bool
  slotCap : Nat

/-- The view of IN the latched command has. -/
def State.inView (s : State) : InView :=
  { mem := s.mem, epoch := s.epoch, inLen := s.lInLen.toNat, endian := s.lEndian, slotCap := s.params.slotCap }

/-- `MemRead(a, 1)` (20_memory.md R64). -/
def InView.byte (v : InView) (a : Nat) : Byte :=
  (Memory.lookup v.mem a).getD (Config.powerOnByte v.epoch a)

/-- `MemRead(a, 4)` in the byte order of ENDIAN (20_memory.md R64). -/
def InView.word (v : InView) (a : Nat) : Word :=
  if v.endian then wordOfBytes (v.byte (a + 3)) (v.byte (a + 2)) (v.byte (a + 1)) (v.byte a)
  else wordOfBytes (v.byte a) (v.byte (a + 1)) (v.byte (a + 2)) (v.byte (a + 3))

/-- ceil(n / 32). -/
def ceilDiv32 (n : Nat) : Nat := (n + 31) / 32

/-- Accept of a GO while idle (40_commands.md R121): CTRL's fields are written from `v`, then the command, its
arguments, ENDIAN and IN_LEN are latched. -/
def State.accept (s : State) (v : Word) : State :=
  { s with
    endian := v.getLsbD 8
    irqEn := v.getLsbD 9
    lcmd := s.cmd
    larg0 := s.arg0
    larg1 := s.arg1
    larg2 := s.arg2
    lEndian := v.getLsbD 8
    lInLen := s.inLen
    done := false
    err := false
    errCode := 0
    errInfo := 0
    busy := true }

/-- Completion without error (40_commands.md R125), once the destinations are written. -/
def State.complete (s : State) (r0 r1 : Word) : State :=
  { s with result0 := r0, result1 := r1, done := true, busy := false }

/-- MESH is discarded (10_state.md R40). -/
def State.discardMesh (s : State) : State := { s with mesh := Mesh.empty, meshValid := false }

/-- The part of the error entry every failing command has (60_exceptions.md R410): results 0, code and info
recorded, ERR set, BUSY cleared. -/
def State.recordError (s : State) (code : ErrCode) (info : Word) : State :=
  { s with
    result0 := 0
    result1 := 0
    errCode := errCodeByte code
    errInfo := info
    err := true
    busy := false }

/-- TAKING AN ERROR, the error entry of 60_exceptions.md R410: the destination slots the command names are
emptied and the error is recorded. E_BADCMD names no destination. -/
def State.errorEntry (s : State) (code : ErrCode) (info : Word) (dests : List SlotNo) : State :=
  (s.emptySlots dests).recordError code info

/-- The error entry of a command whose word or operands are refused with ERRINFO = 0 (R411). -/
def failWith (s : State) (code : ErrCode) (dests : List SlotNo) : Result := .next (s.errorEntry code 0 dests)

/-- The error entry of a command word that is no instruction (40_commands.md R122, 30_encoding.md R82, R84, R100):
E_BADCMD empties no slot; PRED with an illegal type is E_BADARG and empties its destination. A malformed TOPO_RUN
word discards MESH, as R310 and R342 say of any error of TOPO_RUN (log 8). -/
def State.rejectCommand (s : State) : Reject → State
  | .badOpcode _ => s.errorEntry .badCmd 0 []
  | .unusedField op =>
    if op = 0x08 then (s.errorEntry .badCmd 0 []).discardMesh else s.errorEntry .badCmd 0 []
  | .predType dst => s.errorEntry .badArg 0 [dst]
  | .badCodec _ => s.errorEntry .badCodec 0 []

/-! RETURN FROM AN ERROR. There is no return-from-error command (60_exceptions.md R414): after the error entry the
engine is idle and no state has to be restored. What clears the error is a STATUS write (`State.writeStatus`, W1C
of ERR) or the next accepted GO (`State.accept`, which clears DONE, ERR, ERRCODE and ERRINFO). -/

/-- Soft reset (70_reset_and_hazards.md R441): every piece of state as after power-on, but IN keeps its contents.
The model's own fields stay: the parameters, the coming inputs, the last value read, and the draws. -/
def State.softReset (s : State) : State :=
  { State.reset with
    params := s.params
    mem := s.mem
    inputs := s.inputs
    hostData := s.hostData
    epoch := s.epoch
    draws := s.draws }

/-- Power-on reset (70_reset_and_hazards.md R440), at any time: as soft reset, and IN's contents are drawn anew
(log 3). A running command is abandoned with no effect. -/
def State.powerOnReset (s : State) : State := { s.softReset with mem := [], epoch := s.epoch + 1 }

end Sys2Proof.Machine
end

