-- ==== Sys2Proof/Machine/Commands.lean ====
section
/-! DEFINITION. NOP (40_commands.md R126). -/

namespace Sys2Proof.Machine

/-- NOP: both results are 0 and the command completes (R126). -/
def execNop (s : State) : Result := .next (s.complete 0 0)

end Sys2Proof.Machine
end

