-- ==== Sys2Proof/Machine/Emit.lean ====
section
/-! DEFINITION. Per-corner index emission, TOPO_EMIT (47_emit.md). -/

namespace Sys2Proof.Machine

/-- An i32 element for a ring slot: the vertex id, or -1. -/
def slotElement (x : Option Nat) : Word :=
  match x with
  | none => -1
  | some v => u32 v

/-- The rotation of `VtxFaceAttr`: the nearest slot at or before `t` in ring order whose mask bit is set, within
`fuel` steps back; degree[f] steps are enough when a bit is set (R363). -/
def rotateToOwner (mask : List Bool) : Nat → Nat → Nat
  | 0, t => t
  | fuel + 1, t => if mask.getD t false then t else rotateToOwner mask fuel ((t + (mask.length - 1)) % mask.length)

/-- `VtxFaceAttr(f, s)` (R363). -/
def vtxFaceAttr (f : Face) (s : Nat) : Word :=
  if f.nattr = 0 then -1
  else u32 (f.attrBase + (f.amask.take (rotateToOwner f.amask f.amask.length s)).countP id)

/-- The vertex indices of a face's corners in ring order (R362). -/
def cornerVertices (f : Face) : List Word := f.fvtx.map slotElement

/-- The attribute indices of a face's corners in ring order (R362, R363). -/
def cornerAttributes (f : Face) : List Word := (List.range f.degree).map (vtxFaceAttr f)

/-- The destination slots TOPO_EMIT names: those of the assigned roles 15 and 16 (60_exceptions.md R410). -/
def State.emitSlots (s : State) : List SlotNo := (s.roleSlot roleCornerVtx).toList ++ (s.roleSlot roleCornerAttr).toList

/-- The attribute array is written if CORNER_ATTR is assigned (R360, R361). -/
def State.setCornerAttr (s : State) (dest : Option SlotNo) (vs : List Word) : State :=
  match dest with
  | none => s
  | some k => s.setSlot k vs

/-- TOPO_EMIT (R360). -/
def execTopoEmit (s : State) : Result :=
  match s.roleSlot roleCornerVtx with
  | none => failWith s .badArg s.emitSlots
  | some cv =>
    if s.roleSlot roleCornerAttr = some cv then failWith s .badArg s.emitSlots
    else if s.meshValid = false then failWith s .state s.emitSlots
    else if s.params.slotCap < sumDegree s.mesh.faces then failWith s .capacity s.emitSlots
    else
      .next (((s.setSlot cv (s.mesh.faces.flatMap cornerVertices)).setCornerAttr (s.roleSlot roleCornerAttr)
        (s.mesh.faces.flatMap cornerAttributes)).complete (u32 (sumDegree s.mesh.faces)) (u32 s.mesh.attrCounter))

end Sys2Proof.Machine
end

