-- ==== Sys2Proof/Machine/Predictors.lean ====
section
/-! DEFINITION. The predictor passes (44_predictors.md). -/

namespace Sys2Proof.Machine

/-- The predictor types of 30_encoding.md R100. -/
inductive PredType where
  | lag1
  | lag2
  | stride1
  | stride2
  | stripindex
  | ramp
  | xor1
  | xor2
  | null
deriving DecidableEq, Repr

/-- `Predict(v, i, t)` for i ≥ 4 (R262), from v[i-1], v[i-2] and v[i-4]. Sums wrap to 32 bits. -/
def predict (t : PredType) (i : Nat) (v1 v2 v4 : Word) : Word :=
  match t with
  | .lag1 => v1
  | .lag2 => v2
  | .stride1 => v1 + (v1 - v2)
  | .stride2 => v2 + (v2 - v4)
  | .stripindex => if -8 < (v2 - v4).toInt ∧ (v2 - v4).toInt < 8 then v2 + (v2 - v4) else v2 + 2
  | .ramp => u32 i
  | .xor1 => v1
  | .xor2 => v2
  | .null => 0

/-- A residual and its prediction give the value: XOR for the xor types, else the wrapped sum (R261). -/
def combine (t : PredType) (r pred : Word) : Word :=
  match t with
  | .lag1 => r + pred
  | .lag2 => r + pred
  | .stride1 => r + pred
  | .stride2 => r + pred
  | .stripindex => r + pred
  | .ramp => r + pred
  | .xor1 => r ^^^ pred
  | .xor2 => r ^^^ pred
  | .null => r

/-- The values for the residuals from index `i` on, `built` the values already built, newest first (R261). The first
four are copied: fewer than four values are then built. -/
def unpackFrom (t : PredType) : Nat → List Word → List Word → List Word
  | _, _, [] => []
  | i, v1 :: v2 :: v3 :: v4 :: older, r :: rest =>
    combine t r (predict t i v1 v2 v4) ::
      unpackFrom t (i + 1) (combine t r (predict t i v1 v2 v4) :: v1 :: v2 :: v3 :: v4 :: older) rest
  | i, built, r :: rest => r :: unpackFrom t (i + 1) (r :: built) rest

/-- `Unpack(r, t)` (R261). -/
def unpack (t : PredType) (r : List Word) : List Word :=
  match t with
  | .null => r
  | .lag1 => unpackFrom .lag1 0 [] r
  | .lag2 => unpackFrom .lag2 0 [] r
  | .stride1 => unpackFrom .stride1 0 [] r
  | .stride2 => unpackFrom .stride2 0 [] r
  | .stripindex => unpackFrom .stripindex 0 [] r
  | .ramp => unpackFrom .ramp 0 [] r
  | .xor1 => unpackFrom .xor1 0 [] r
  | .xor2 => unpackFrom .xor2 0 [] r

/-- The PRED command with a legal type (R260): source A, destination B. -/
def predCommand (t : PredType) (a b : SlotNo) (s : State) : Result :=
  .next ((s.setSlot b (unpack t (s.slot a))).complete 0 (u32 (s.slot a).length))

/-- PRED.LAG1 (R265). -/
def execPredLag1 (a b : SlotNo) (s : State) : Result := predCommand .lag1 a b s

/-- PRED.LAG2 (R266). -/
def execPredLag2 (a b : SlotNo) (s : State) : Result := predCommand .lag2 a b s

/-- PRED.STRIDE1 (R267). -/
def execPredStride1 (a b : SlotNo) (s : State) : Result := predCommand .stride1 a b s

/-- PRED.STRIDE2 (R268). -/
def execPredStride2 (a b : SlotNo) (s : State) : Result := predCommand .stride2 a b s

/-- PRED.STRIPINDEX (R269). -/
def execPredStripindex (a b : SlotNo) (s : State) : Result := predCommand .stripindex a b s

/-- PRED.RAMP (R270). -/
def execPredRamp (a b : SlotNo) (s : State) : Result := predCommand .ramp a b s

/-- PRED.XOR1 (R271). -/
def execPredXor1 (a b : SlotNo) (s : State) : Result := predCommand .xor1 a b s

/-- PRED.XOR2 (R272). -/
def execPredXor2 (a b : SlotNo) (s : State) : Result := predCommand .xor2 a b s

/-- PRED.NULL (R273). -/
def execPredNull (a b : SlotNo) (s : State) : Result := predCommand .null a b s

end Sys2Proof.Machine
end

