-- ==== Sys2Proof/Machine/BitReader.lean ====
section
/-! DEFINITION. The IN cursor of a stream decode (42_streams.md R160), and the bit readers over a codetext and
over a probability context (41_bitreader.md).

A reader is a computation that carries one natural number and can raise an error: the IN byte cursor p for field
reads, the count of consumed bits for bit reads. -/

namespace Sys2Proof.Machine

/-- A computation over one cursor that can `raise E(info)`. -/
abbrev Cursor := StateT Nat (Except Err)

/-- `raise E(p)` with the cursor as ERRINFO (R160, 60_exceptions.md R411). -/
def raiseHere {α : Type} (code : ErrCode) : Cursor α := fun p => .error { code := code, info := p }

/-- `raise E(info)` whatever the cursor is. -/
def raiseAt {α : Type} (code : ErrCode) (info : Nat) : Cursor α := fun _ => .error { code := code, info := info }

/-- A result computed without the cursor, or the error it raised. -/
def liftExcept {α : Type} (x : Except Err α) : Cursor α := fun p =>
  match x with
  | .ok a => .ok (a, p)
  | .error e => .error e

/-- The computation `m` done `n` times, its results in order. -/
def repeatRead {α : Type} (m : Cursor α) : Nat → Cursor (List α)
  | 0 => pure []
  | n + 1 => do
    let a ← m
    let rest ← repeatRead m n
    pure (a :: rest)

/-! Field reads at the IN cursor (30_encoding.md R90). -/

/-- `u8 at p` (R160): E_TRUNC(p) if the byte is not below IN_LEN (20_memory.md R65). -/
def readU8 (v : InView) : Cursor Byte := fun p =>
  if v.inLen < p + 1 then .error { code := .trunc, info := p } else .ok (v.byte p, p + 1)

/-- `u32 at p` (R160). -/
def readWord (v : InView) : Cursor Word := fun p =>
  if v.inLen < p + 4 then .error { code := .trunc, info := p } else .ok (v.word p, p + 4)

/-- `i32 at p` (R160). -/
def readInt (v : InView) : Cursor Int := do
  let w ← readWord v
  pure w.toInt

/-! Bit readers (41_bitreader.md). -/

/-- Where bits come from: `ReadBit()` over the count of consumed bits, and the IN cursor p as a function of that
count, for the errors a read raises. -/
structure BitSource where
  bit : Cursor Bool
  pos : Nat → Nat

/-- Bit `k` of a bit string stored in u32 words, most significant bit first (30_encoding.md R98). -/
def wordsBit (ws : List Word) (k : Nat) : Bool := (ws.getD (k / 32) 0).getLsbD (31 - k % 32)

/-- `ReadBit()` of a codetext reader (W, L, k) with the IN cursor at `p` (R142): past the declared length, strict
mode raises E_CODETEXT and padded mode reads 0. -/
def codetextBit (ws : List Word) (len : Nat) (padded : Bool) (p : Nat) : Cursor Bool := fun k =>
  if k < len then .ok (wordsBit ws k, k + 1)
  else if padded then .ok (false, k + 1)
  else .error { code := .codetext, info := p }

/-- A codetext reader (R140). -/
def codetextSource (ws : List Word) (len : Nat) (padded : Bool) (p : Nat) : BitSource :=
  { bit := codetextBit ws len padded p, pos := fun _ => p }

/-- The IN cursor of a context reader that started at `q0` and has consumed `c` bits: just past the last word
fetched (R146). -/
def contextPos (q0 c : Nat) : Nat := q0 + 4 * ceilDiv32 c

/-- `ReadBit()` of a context reader started at `q0` (R146): word i is fetched when its first bit is needed. -/
def contextBit (v : InView) (q0 : Nat) : Cursor Bool := fun c =>
  if v.inLen < q0 + 4 * (c / 32) + 4 then .error { code := .trunc, info := q0 + 4 * (c / 32) }
  else .ok ((v.word (q0 + 4 * (c / 32))).getLsbD (31 - c % 32), c + 1)

/-- A context reader (R146). -/
def contextSource (v : InView) (q0 : Nat) : BitSource :=
  { bit := contextBit v q0, pos := contextPos q0 }

/-- Reads with a context reader opened at the IN cursor, then `close()` (R146). -/
def withContextReader {α : Type} (v : InView) (m : BitSource → Cursor α) : Cursor α := fun q0 =>
  match m (contextSource v q0) 0 with
  | .ok (a, c) => .ok (a, contextPos q0 c)
  | .error e => .error e

/-- `raise E(p)` from inside a bit reader. -/
def BitSource.raise {α : Type} (src : BitSource) (code : ErrCode) : Cursor α := fun k =>
  .error { code := code, info := src.pos k }

/-- `n` bits, first bit most significant, after the value `acc` (R143). -/
def readBits (src : BitSource) : Nat → Nat → Cursor Nat
  | 0, acc => pure acc
  | n + 1, acc => do
    let b ← src.bit
    readBits src n (2 * acc + b.toNat)

/-- `sext_n(x)` (00_scope.md R10). -/
def sext (n x : Nat) : Int := (x % 2 ^ n : Nat) - 2 ^ n * (x.testBit (n - 1)).toNat

/-- `ReadU32(n)` (R143). -/
def readU32 (src : BitSource) (n : Nat) : Cursor Nat :=
  if n < 1 ∨ 32 < n then src.raise .range else readBits src n 0

/-- `ReadI32(n)` (R143). -/
def readI32 (src : BitSource) (n : Nat) : Cursor Int := do
  let x ← readU32 src n
  pure (sext n x)

/-- `ReadU32Or0(n)` (R144). -/
def readU32Or0 (src : BitSource) (n : Nat) : Cursor Nat := if n = 0 then pure 0 else readU32 src n

/-- `ReadI32Or0(n)` (R144). -/
def readI32Or0 (src : BitSource) (n : Nat) : Cursor Int := if n = 0 then pure 0 else readI32 src n

/-- The result of a codetext decode whose codetext must be consumed exactly: k = L at the end, else E_CODETEXT(p)
(43_codecs.md R206, R216, R224). -/
def exactly {α : Type} (len p : Nat) (r : Except Err (α × Nat)) : Except Err α :=
  match r with
  | .error e => .error e
  | .ok (a, k) => if k ≠ len then .error { code := .codetext, info := p } else .ok a

end Sys2Proof.Machine
end

