-- ==== Sys2Proof/Machine/Codecs.lean ====
section
/-! DEFINITION. Probability contexts (42_streams.md section 5) and the int32 codecs (43_codecs.md). Each codec
returns exactly the declared number of values or raises an error (R200). -/

namespace Sys2Proof.Machine

/-! Probability contexts (42_streams.md R180). -/

/-- An entry of a probability context (R180). -/
structure CtxEntry where
  symbol : Int
  occ : Nat
  val : Word
  next : Nat
deriving DecidableEq, Repr

/-- The six header widths of a context layout (30_encoding.md R96). -/
structure CtxLayout where
  w0 : Nat
  w1 : Nat
  w2 : Nat
  w3 : Nat
  w4 : Nat
  w5 : Nat

/-- MARK2 = (16, 6, 6, 6, 0, 32) (R180). -/
def mark2 : CtxLayout := { w0 := 16, w1 := 6, w2 := 6, w3 := 6, w4 := 0, w5 := 32 }

/-- MARK1 = (32, 6, 6, 6, 6, 32) (R180). -/
def mark1 : CtxLayout := { w0 := 32, w1 := 6, w2 := 6, w3 := 6, w4 := 6, w5 := 32 }

/-- One entry of a context, its four fields of the widths the header gives (R180). -/
def readCtxEntry (src : BitSource) (sb ob vb nb : Nat) (minV : Int) : Cursor CtxEntry := do
  let sym ← readU32Or0 src sb
  let occ ← readU32Or0 src ob
  let val ← readU32Or0 src vb
  let next ← readU32Or0 src nb
  pure { symbol := (sym : Int) - Config.symbolBias, occ := occ, val := wrap32 (val + minV), next := next }

/-- `ReadContext(cr, layout)` (R180). -/
def readContext (layout : CtxLayout) (src : BitSource) : Cursor (List CtxEntry) := do
  let cnt ← readU32Or0 src layout.w0
  let sb ← readU32Or0 src layout.w1
  let ob ← readU32Or0 src layout.w2
  let vb ← readU32Or0 src layout.w3
  let nb ← readU32Or0 src layout.w4
  let minV ← readI32Or0 src layout.w5
  if cnt < 1 ∨ Config.maxCtxEntries < cnt then src.raise .ctx
  else if 32 < sb ∨ 32 < ob ∨ 32 < vb ∨ 32 < nb then src.raise .ctx
  else repeatRead (readCtxEntry src sb ob vb nb minV) cnt

/-- `TotalCount(ctx)` (R182). -/
def totalCount (ctx : List CtxEntry) : Nat := (ctx.map CtxEntry.occ).sum

/-! The OOB sequence (43_codecs.md R203), as the list of the values not used yet. -/

/-- The output value of a decoded entry, and the OOB values left: the symbol -2 takes `oob.next()`, none if no OOB
value is left (R203, R223). -/
def emitEntry (e : CtxEntry) (oob : List Word) : Option (Word × List Word) :=
  if e.symbol = -2 then
    match oob with
    | [] => none
    | x :: rest => some (x, rest)
  else some (e.val, oob)

/-- `oob.done()` with the IN cursor at `p`: every OOB value was used, else E_OOB (R203). -/
def oobDone (p : Nat) (r : Except Err (List Word × List Word)) : Except Err (List Word) :=
  match r with
  | .error e => .error e
  | .ok (out, []) => .ok out
  | .ok (_, _ :: _) => .error { code := .oob, info := p }

/-! Null. -/

/-- `Null2Load(n)` (R201). -/
def null2Load (v : InView) (n : Nat) : Cursor (List Word) := do
  let len ← readInt v
  if len < 0 then raiseHere .range
  else if len ≠ n then raiseHere .count
  else repeatRead (readWord v) n

/-- `Null1Decode(W, len, n)` (R202). -/
def null1Decode (ws : List Word) (len n p : Nat) : Except Err (List Word) :=
  if len ≠ 32 * n then .error { code := .count, info := p } else .ok (ws.take n)

/-! Bitlength (v1), R205. -/

/-- The steps of a width adjustment in the direction `dir`: add 2 or -2, then go on while the next bit equals `dir`.
Each step reads one bit, so a fuel above the codetext's length is never used up: the read past it raises
E_CODETEXT first (log 10). -/
def bl1Steps (src : BitSource) (dir : Bool) : Nat → Int → Cursor Int
  | 0, _ => src.raise .codetext
  | fuel + 1, w => do
    let b ← src.bit
    let w' := if dir then w + 2 else w - 2
    if b = dir then bl1Steps src dir fuel w' else pure w'

/-- The width adjustment before a value (R205). -/
def bl1Width (src : BitSource) (len : Nat) (w : Int) : Cursor Int := do
  let change ← src.bit
  if change then do
    let dir ← src.bit
    bl1Steps src dir (len + 1) w
  else pure w

/-- The values of a Bitlength (v1) codetext, from the running width `w` (R205). -/
def bl1Values (src : BitSource) (len : Nat) : Nat → Int → Cursor (List Word)
  | 0, _ => pure []
  | n + 1, w => do
    let w' ← bl1Width src len w
    if w' < 0 ∨ 32 < w' then src.raise .range
    else do
      let x ← readI32Or0 src w'.toNat
      let rest ← bl1Values src len n w'
      pure (wrap32 x :: rest)

/-- `Bitlength1Decode(W, len, n)` (R205, R206). -/
def bitlength1Decode (ws : List Word) (len n p : Nat) : Except Err (List Word) :=
  exactly len p (bl1Values (codetextSource ws len false p) len n 0 0)

/-! Bitlength2 (v2), R210 to R216. -/

/-- `ceil_log2(x)` for x ≥ 1 (00_scope.md R10). -/
def ceilLog2 (x : Nat) : Nat := if x ≤ 1 then 0 else Nat.log2 (x - 1) + 1

/-- Fixed-width mode (R212). -/
def bl2Fixed (src : BitSource) (n : Nat) : Cursor (List Word) := do
  let minBits ← readU32 src 6
  let maxBits ← readU32 src 6
  if 32 < minBits ∨ 32 < maxBits then src.raise .range
  else do
    let vmin ← readI32Or0 src minBits
    let vmax ← readI32Or0 src maxBits
    if vmax ≤ vmin then pure (List.replicate n (wrap32 vmin))
    else do
      let offs ← repeatRead (readU32Or0 src (ceilLog2 (vmax - vmin + 1).toNat)) n
      pure (offs.map fun (o : Nat) => wrap32 (vmin + o))

/-- The chain of width deltas of one group: a delta equal to the least or greatest value of its width is an escape
and another delta follows (R213). Each delta reads at least one bit, so a fuel above the codetext's length is
never used up (log 10). -/
def bl2Delta (src : BitSource) (cw : Nat) : Nat → Int → Cursor Int
  | 0, _ => src.raise .codetext
  | fuel + 1, w => do
    let dlt ← readI32 src cw
    if dlt ≠ -(2 ^ (cw - 1)) ∧ dlt ≠ 2 ^ (cw - 1) - 1 then pure (w + dlt) else bl2Delta src cw fuel (w + dlt)

/-- One value of a run at the running width `w` (R213). -/
def bl2Value (src : BitSource) (mean w : Int) : Cursor Word :=
  if w ≤ 0 then pure (wrap32 mean)
  else if 32 < w then src.raise .range
  else do
    let x ← readI32 src w.toNat
    pure (wrap32 (mean + x))

/-- The groups of variable-width mode: width deltas, run length, run (R213, R214), until `n` more values are out.
Each group reads at least one bit or raises E_NOPROGRESS, so a fuel above the codetext's length is never used up
(log 10). -/
def bl2Groups (src : BitSource) (len cw rl : Nat) (mean : Int) : Nat → Nat → Int → Cursor (List Word)
  | 0, _, _ => src.raise .codetext
  | fuel + 1, n, w =>
    if n = 0 then pure []
    else do
      let k0 ← get
      let w' ← if 0 < cw then bl2Delta src cw (len + 1) w else pure w
      let run ← readU32Or0 src rl
      let k ← get
      if run = 0 ∧ k = k0 then src.raise .noProgress
      else if n < run then src.raise .count
      else do
        let vals ← repeatRead (bl2Value src mean w') run
        let rest ← bl2Groups src len cw rl mean fuel (n - run) w'
        pure (vals ++ rest)

/-- Variable-width mode (R213). -/
def bl2Variable (src : BitSource) (len n : Nat) : Cursor (List Word) := do
  let mean ← readI32 src 32
  let cw ← readU32 src 3
  let rl ← readU32 src 3
  bl2Groups src len cw rl mean (len + 1) n 0

/-- `Bitlength2Decode(br, n)`: mode bit 0 is fixed-width, 1 is variable-width (R211). -/
def bl2Values (src : BitSource) (len n : Nat) : Cursor (List Word) := do
  let mode ← src.bit
  if mode then bl2Variable src len n else bl2Fixed src n

/-- Bitlength2 of a loaded codetext (R210, R216). -/
def bitlength2Decode (ws : List Word) (len n p : Nat) : Except Err (List Word) :=
  exactly len p (bl2Values (codetextSource ws len false p) len n 0)

/-- `Bitlength2Load(n)` (R210). -/
def bitlength2Load (v : InView) (n : Nat) : Cursor (List Word) := do
  let len ← readInt v
  if len < 0 then raiseHere .range
  else do
    let ws ← repeatRead (readWord v) (ceilDiv32 len.toNat)
    let p ← get
    liftExcept (bitlength2Decode ws len.toNat n p)

/-! Huffman, R220 to R225. -/

/-- A node of a Huffman tree; `left` is reached by bit 1 (R220, R221). -/
inductive HuffTree where
  | leaf (e : CtxEntry)
  | node (weight : Nat) (left right : HuffTree)
deriving DecidableEq, Repr

/-- The weight of a node (R221). -/
def HuffTree.weight : HuffTree → Nat
  | .leaf e => e.occ
  | .node w _ _ => w

/-- The weight at place `i` of the heap. -/
def heapWeight (h : List HuffTree) (i : Nat) : Nat := ((h[i]?).map HuffTree.weight).getD 0

/-- `swap H[i], H[j]`. -/
def heapSwap (h : List HuffTree) (i j : Nat) : List HuffTree :=
  match h[i]?, h[j]? with
  | some a, some b => (h.set i b).set j a
  | _, _ => h

/-- The sift-up of `push` from place `i`; `i` strictly decreases, so a fuel of `i` is enough (R221). -/
def siftUp : Nat → Nat → List HuffTree → List HuffTree
  | 0, _, h => h
  | fuel + 1, i, h =>
    if 0 < i ∧ heapWeight h i < heapWeight h ((i - 1) / 2) then siftUp fuel ((i - 1) / 2) (heapSwap h ((i - 1) / 2) i)
    else h

/-- `push(x)` (R221). -/
def heapPush (h : List HuffTree) (x : HuffTree) : List HuffTree := siftUp h.length h.length (h ++ [x])

/-- The smaller child of place `i`, the left one unless the right one is strictly smaller (R221). -/
def smallerChild (h : List HuffTree) (i : Nat) : Nat :=
  if 2 * i + 2 < h.length ∧ heapWeight h (2 * i + 2) < heapWeight h (2 * i + 1) then 2 * i + 2 else 2 * i + 1

/-- The sift-down of `pop` from place `i`; `i` strictly increases below the length, which is fuel enough (R221). -/
def siftDown : Nat → Nat → List HuffTree → List HuffTree
  | 0, _, h => h
  | fuel + 1, i, h =>
    if 2 * i + 1 < h.length ∧ heapWeight h (smallerChild h i) < heapWeight h i then
      siftDown fuel (smallerChild h i) (heapSwap h (smallerChild h i) i)
    else h

/-- `pop()`: the top, and the heap without it (R221). -/
def heapPop (h : List HuffTree) : Option (HuffTree × List HuffTree) :=
  match h.head?, h.getLast? with
  | some top, some last => some (top, siftDown h.length 0 (h.dropLast.set 0 last))
  | _, _ => none

/-- The merging loop of `BuildTree`: each round takes one node away, so the length is fuel enough (R221). An empty
heap, which no context gives, is E_CTX. -/
def mergeHeap (p : Nat) : Nat → List HuffTree → Except Err HuffTree
  | 0, _ => .error { code := .ctx, info := p }
  | fuel + 1, h =>
    match heapPop h with
    | none => .error { code := .ctx, info := p }
    | some (a, h1) =>
      match heapPop h1 with
      | none => .ok a
      | some (b, h2) =>
        if 2 ^ 32 - 1 < a.weight + b.weight then .error { code := .ctx, info := p }
        else mergeHeap p fuel (heapPush h2 (.node (a.weight + b.weight) a b))

/-- `BuildTree(entries)` (R221). -/
def buildTree (p : Nat) (ctx : List CtxEntry) : Except Err HuffTree :=
  mergeHeap p ctx.length (ctx.foldl (fun h e => heapPush h (.leaf e)) [])

/-- One tree per context, in table order (R220, R222). -/
def buildTrees (p : Nat) : List (List CtxEntry) → Except Err (List HuffTree)
  | [] => .ok []
  | ctx :: rest =>
    match buildTree p ctx with
    | .error e => .error e
    | .ok t =>
      match buildTrees p rest with
      | .error e => .error e
      | .ok ts => .ok (t :: ts)

/-- The walk from a node to a leaf, 1 to the left, 0 to the right (R220). -/
def huffWalk (src : BitSource) : HuffTree → Cursor CtxEntry
  | .leaf e => pure e
  | .node _ l r => do
    let b ← src.bit
    if b then huffWalk src l else huffWalk src r

/-- The values of a Huffman codetext from context `c`, and the OOB values left (R220). -/
def huffValues (src : BitSource) (trees : List HuffTree) : Nat → Nat → List Word → Cursor (List Word × List Word)
  | 0, _, oob => pure ([], oob)
  | n + 1, c, oob =>
    match trees[c]? with
    | none => src.raise .ctx
    | some t => do
      let e ← huffWalk src t
      match emitEntry e oob with
      | none => src.raise .oob
      | some (x, oob') =>
        if trees.length ≤ e.next then src.raise .ctx
        else do
          let (rest, oob'') ← huffValues src trees n e.next oob'
          pure (x :: rest, oob'')

/-- `HuffmanDecode(W, len, n, ctxs, oobVals)` (R220, R224). -/
def huffmanDecode (ws : List Word) (len n : Nat) (ctxs : List (List CtxEntry)) (oobVals : List Word) (p : Nat) :
    Except Err (List Word) :=
  match buildTrees p ctxs with
  | .error e => .error e
  | .ok trees => oobDone p (exactly len p (huffValues (codetextSource ws len false p) trees n 0 oobVals 0))

/-! Arithmetic, R230 to R237. -/

/-- The arithmetic coder's registers (R231). -/
structure ArithRegs where
  low : BitVec 16
  high : BitVec 16
  code : BitVec 16
deriving DecidableEq, Repr

/-- The underflow adjustment of R235. -/
def ArithRegs.underflow (r : ArithRegs) : ArithRegs :=
  { low := r.low &&& 0x3FFF, high := r.high ||| 0x4000, code := r.code ^^^ 0x4000 }

/-- One shift of the registers, `b` the bit read (R235). -/
def ArithRegs.shift (r : ArithRegs) (b : Bool) : ArithRegs :=
  { low := r.low <<< 1, high := (r.high <<< 1) ||| 1#16, code := (r.code <<< 1) ||| (BitVec.ofBool b).setWidth 16 }

/-- Renormalization (R235). Each round doubles `high - low + 1`, so at most 16 rounds shift and 17 is fuel enough
(log 10). -/
def arithRenorm (src : BitSource) : Nat → ArithRegs → Cursor ArithRegs
  | 0, r => pure r
  | fuel + 1, r =>
    if r.high.getLsbD 15 = r.low.getLsbD 15 then do
      let b ← src.bit
      arithRenorm src fuel (r.shift b)
    else if r.low.getLsbD 14 = true ∧ r.high.getLsbD 14 = false then do
      let b ← src.bit
      arithRenorm src fuel (r.underflow.shift b)
    else pure r

/-- The entry whose cumulative range contains `resc`, with the count before it (R233). -/
def findEntry (resc : Nat) : List CtxEntry → Nat → Option (CtxEntry × Nat)
  | [], _ => none
  | e :: rest, cum => if cum ≤ resc ∧ resc < cum + e.occ then some (e, cum) else findEntry resc rest (cum + e.occ)

/-- `range` of R233. -/
def ArithRegs.range (r : ArithRegs) : Nat := r.high.toNat - r.low.toNat + 1

/-- `resc` of R233, for a context of total `t`. -/
def ArithRegs.resc (r : ArithRegs) (t : Nat) : Nat := ((r.code.toNat - r.low.toNat + 1) * t - 1) / r.range

/-- The new high of R233, as a mathematical integer. -/
def ArithRegs.newHigh (r : ArithRegs) (cum occ t : Nat) : Int := (r.low.toNat : Int) + (r.range * (cum + occ) / t : Nat) - 1

/-- The new low of R233. -/
def ArithRegs.newLow (r : ArithRegs) (cum t : Nat) : Nat := r.low.toNat + r.range * cum / t

/-- The values of an arithmetic codetext from context `c`, and the OOB values left: the symbol step of R233 done
for each value. -/
def arithValues (src : BitSource) (ctxs : List (List CtxEntry)) :
    Nat → Nat → ArithRegs → List Word → Cursor (List Word × List Word)
  | 0, _, _, oob => pure ([], oob)
  | n + 1, c, r, oob =>
    match ctxs[c]? with
    | none => src.raise .ctx
    | some ctx =>
      if r.code < r.low ∨ r.high < r.code then src.raise .arith
      else
        match findEntry (r.resc (totalCount ctx)) ctx 0 with
        | none => src.raise .arith
        | some (e, cum) =>
          match emitEntry e oob with
          | none => src.raise .oob
          | some (x, oob') =>
            if r.newHigh cum e.occ (totalCount ctx) < r.newLow cum (totalCount ctx) then src.raise .arith
            else do
              let r' ← arithRenorm src 17
                { low := BitVec.ofNat 16 (r.newLow cum (totalCount ctx))
                  high := BitVec.ofInt 16 (r.newHigh cum e.occ (totalCount ctx))
                  code := r.code }
              if ctxs.length ≤ e.next then src.raise .ctx
              else do
                let (rest, oob'') ← arithValues src ctxs n e.next r' oob'
                pure (x :: rest, oob'')

/-- The seed of 16 bits, then the values (R231, R233). -/
def arithStart (src : BitSource) (ctxs : List (List CtxEntry)) (n : Nat) (oobVals : List Word) :
    Cursor (List Word × List Word) := do
  let code ← readU32 src 16
  arithValues src ctxs n 0 { low := 0x0000, high := 0xFFFF, code := BitVec.ofNat 16 code } oobVals

/-- The total of every context is 1 to 0xFFFF (R232). -/
def totalsFit (ctxs : List (List CtxEntry)) : Bool :=
  ctxs.all fun ctx => decide (1 ≤ totalCount ctx) && decide (totalCount ctx ≤ 0xFFFF)

/-- `ArithDecode(W, len, n, ctxs, oobVals)` (R230 to R236): padded reads, no end-of-codetext check. -/
def arithDecode (ws : List Word) (len n : Nat) (ctxs : List (List CtxEntry)) (oobVals : List Word) (p : Nat) :
    Except Err (List Word) :=
  if totalsFit ctxs then
    oobDone p ((arithStart (codetextSource ws len true p) ctxs n oobVals 0).map Prod.fst)
  else .error { code := .ctx, info := p }

/-- `Arith2Load(n, d)` (R230); `load` is `loadCDP2(d + 1)`. -/
def arith2Load (v : InView) (n : Nat) (load : Cursor (List Word)) : Cursor (List Word) := do
  let len ← readInt v
  if len < 0 then raiseHere .range
  else do
    let ws ← repeatRead (readWord v) (ceilDiv32 len.toNat)
    let ctx ← withContextReader v (readContext mark2)
    let oobVals ← load
    let p ← get
    liftExcept (arithDecode ws len.toNat n [ctx] oobVals p)

/-! Chopper, R245 to R247. -/

/-- The recombined value of R245. -/
def chopperValue (sh : Nat) (bias : Int) (msb lsb : Word) : Word := wrap32 (msb.toInt * 2 ^ sh + lsb.toInt + bias)

/-- `ChopperLoad(n, d)` (R245); `load` is `loadCDP2(d + 1)`. -/
def chopperLoad (v : InView) (n : Nat) (load : Cursor (List Word)) : Cursor (List Word) := do
  let chop ← readU8 v
  if chop = 0 then do
    let inner ← load
    if inner.length ≠ n then raiseHere .count else pure inner
  else do
    let bias ← readInt v
    let span ← readU8 v
    if span.toNat < chop.toNat ∨ 31 < span.toNat - chop.toNat then raiseHere .range
    else do
      let msb ← load
      let lsb ← load
      if msb.length ≠ n ∨ lsb.length ≠ n then raiseHere .count
      else pure (List.zipWith (chopperValue (span.toNat - chop.toNat) bias) msb lsb)

end Sys2Proof.Machine
end

