-- ==== Sys2Proof/Machine/Streams.lean ====
section
/-! DEFINITION. Parsing of CDP2 and CDP1 streams (42_streams.md), and the commands DEC_CDP2 and DEC_CDP1 and the
eight codec rows of the opcode table.

A loader takes the number of nesting levels it may still open, itself included: the top-level stream (d = 0) has
MAX_DEPTH + 1 levels, and no level left is the depth d > MAX_DEPTH of R164. -/

namespace Sys2Proof.Machine

/-- The levels the stream at depth `d` may open (R164). -/
def levelsAt (d : Nat) : Nat := Config.maxDepth + 1 - d

/-! CDP2 (R163). -/

/-- The CDP2 codecs of 30_encoding.md R92. -/
inductive Cdp2Codec where
  | null
  | bitlength2
  | arithmetic
  | chopper
deriving DecidableEq, Repr

/-- The codec a CDP2 codec id selects; the other ids are reserved (R92). -/
def cdp2CodecOf (id : Byte) : Option Cdp2Codec :=
  match decodeCdp2 id with
  | .ok .cdp2Null => some .null
  | .ok .cdp2Bitlength2 => some .bitlength2
  | .ok .cdp2Arithmetic => some .arithmetic
  | .ok .cdp2Chopper => some .chopper
  | _ => none

/-- The valueCount field and its checks (R163, R165). -/
def cdp2Count (v : InView) : Cursor Nat := do
  let n ← readInt v
  if n < 0 then raiseHere .range
  else if n = 0 then pure 0
  else if v.slotCap < n.toNat then raiseHere .capacity
  else pure n.toNat

/-- The codec's part of a CDP2 stream of `n` values; `load` loads a nested stream (R163). -/
def cdp2Payload (v : InView) (load : Cursor (List Word)) (n : Nat) : Cdp2Codec → Cursor (List Word)
  | .null => null2Load v n
  | .bitlength2 => bitlength2Load v n
  | .arithmetic => arith2Load v n load
  | .chopper => chopperLoad v n load

/-- `loadCDP2(d)` (R163), with the levels left. -/
def loadCdp2 (v : InView) : Nat → Cursor (List Word)
  | 0 => raiseHere .depth
  | levels + 1 => do
    let n ← cdp2Count v
    if n = 0 then pure []
    else do
      let id ← readU8 v
      match cdp2CodecOf id with
      | none => raiseHere .badCodec
      | some codec => cdp2Payload v (loadCdp2 v levels) n codec

/-- A top-level CDP2 stream whose codec byte is executed as `codec`: the codec byte is passed over, as an executed
instruction's own bytes are (log 6). A stream of no values has no codec byte (R166). -/
def loadCdp2As (v : InView) (codec : Cdp2Codec) : Cursor (List Word) := do
  let n ← cdp2Count v
  if n = 0 then pure []
  else do
    let _ ← readU8 v
    cdp2Payload v (loadCdp2 v (levelsAt 1)) n codec

/-! CDP1 (R170). -/

/-- The CDP1 codecs of 30_encoding.md R95. -/
inductive Cdp1Codec where
  | null
  | bitlength1
  | huffman
  | arithmetic
deriving DecidableEq, Repr

/-- The codec a CDP1 codec id selects; the other ids are reserved (R95). -/
def cdp1CodecOf (id : Byte) : Option Cdp1Codec :=
  match decodeCdp1 id with
  | .ok .cdp1Null => some .null
  | .ok .cdp1Bitlength1 => some .bitlength1
  | .ok .cdp1Huffman => some .huffman
  | .ok .cdp1Arithmetic => some .arithmetic
  | _ => none

/-- Whether a CDP1 codec has a context table and an OOB part (R170). -/
def Cdp1Codec.hasTable : Cdp1Codec → Bool
  | .null => false
  | .bitlength1 => false
  | .huffman => true
  | .arithmetic => true

/-- The context table and the OOB values of a CDP1 stream (R170 to R172); `load` loads a nested stream. -/
def cdp1Table (v : InView) (load : Cursor (List Word)) : Cursor (List (List CtxEntry) × List Word) := do
  let tc ← readU8 v
  if tc.toNat < 1 then raiseHere .ctx
  else do
    let ctxs ← withContextReader v fun src => repeatRead (readContext mark1 src) tc.toNat
    let oobCount ← readInt v
    if oobCount < 0 then raiseHere .range
    else do
      let oobVals ← if 0 < oobCount then load else pure []
      if (oobVals.length : Int) ≠ oobCount then raiseHere .count else pure (ctxs, oobVals)

/-- The decode of a loaded CDP1 codetext (R170). -/
def cdp1Decode (codec : Cdp1Codec) (ws : List Word) (len n : Nat) (ctxs : List (List CtxEntry)) (oobVals : List Word)
    (p : Nat) : Except Err (List Word) :=
  match codec with
  | .null => null1Decode ws len n p
  | .bitlength1 => bitlength1Decode ws len n p
  | .huffman => huffmanDecode ws len n ctxs oobVals p
  | .arithmetic => arithDecode ws len n ctxs oobVals p

/-- A CDP1 stream after its codec byte (R170); the symbolCount field is read and ignored (R173). -/
def cdp1Payload (v : InView) (load : Cursor (List Word)) (codec : Cdp1Codec) : Cursor (List Word) := do
  let (ctxs, oobVals) ← if codec.hasTable then cdp1Table v load else pure ([], [])
  let len ← readInt v
  let n ← readInt v
  if len < 0 ∨ n < 0 then raiseHere .range
  else if v.slotCap < n.toNat then raiseHere .capacity
  else do
    let _ ← if 1 < ctxs.length then readInt v else pure 0
    let nWords ← readInt v
    if nWords < 0 then raiseHere .range
    else if nWords.toNat ≠ ceilDiv32 len.toNat then raiseHere .codetext
    else do
      let ws ← repeatRead (readWord v) nWords.toNat
      let p ← get
      liftExcept (cdp1Decode codec ws len.toNat n.toNat ctxs oobVals p)

/-- `loadCDP1(d)` (R170), with the levels left. -/
def loadCdp1 (v : InView) : Nat → Cursor (List Word)
  | 0 => raiseHere .depth
  | levels + 1 => do
    let id ← readU8 v
    match cdp1CodecOf id with
    | none => raiseHere .badCodec
    | some codec => cdp1Payload v (loadCdp1 v levels) codec

/-- A top-level CDP1 stream whose codec byte is executed as `codec` (log 6). -/
def loadCdp1As (v : InView) (codec : Cdp1Codec) : Cursor (List Word) := do
  let _ ← readU8 v
  cdp1Payload v (loadCdp1 v (levelsAt 1)) codec

/-! The commands. -/

/-- A stream decode command with destination `a`, its loader `load` started at LARG0 (R160 to R162): the values go
to S[A], RESULT0 is the offset just past the stream and RESULT1 the value count; an error takes the error entry
with ERRINFO the cursor p (60_exceptions.md R411). -/
def streamCommand (s : State) (a : SlotNo) (load : Cursor (List Word)) : Result :=
  match load s.larg0.toNat with
  | .ok (vals, p) => .next ((s.setSlot a vals).complete (u32 p) (u32 vals.length))
  | .error e => .next (s.errorEntry e.code (u32 e.info) [a])

/-- DEC_CDP2 sA (R161). -/
def execDecCdp2 (a : SlotNo) (s : State) : Result := streamCommand s a (loadCdp2 s.inView (levelsAt 0))

/-- DEC_CDP1 sA (R162). -/
def execDecCdp1 (a : SlotNo) (s : State) : Result := streamCommand s a (loadCdp1 s.inView (levelsAt 0))

/-- CDP2 codec id 0, Null (R201), as the codec of the latched stream command. -/
def execCdp2Null (s : State) : Result := streamCommand s (fieldA s.lcmd) (loadCdp2As s.inView .null)

/-- CDP2 codec id 1, Bitlength2 (R210). -/
def execCdp2Bitlength2 (s : State) : Result := streamCommand s (fieldA s.lcmd) (loadCdp2As s.inView .bitlength2)

/-- CDP2 codec id 3, Arithmetic (R230). -/
def execCdp2Arithmetic (s : State) : Result := streamCommand s (fieldA s.lcmd) (loadCdp2As s.inView .arithmetic)

/-- CDP2 codec id 4, Chopper (R245). -/
def execCdp2Chopper (s : State) : Result := streamCommand s (fieldA s.lcmd) (loadCdp2As s.inView .chopper)

/-- CDP1 codec id 0, Null (R202). -/
def execCdp1Null (s : State) : Result := streamCommand s (fieldA s.lcmd) (loadCdp1As s.inView .null)

/-- CDP1 codec id 1, Bitlength v1 (R205). -/
def execCdp1Bitlength1 (s : State) : Result := streamCommand s (fieldA s.lcmd) (loadCdp1As s.inView .bitlength1)

/-- CDP1 codec id 2, Huffman (R220). -/
def execCdp1Huffman (s : State) : Result := streamCommand s (fieldA s.lcmd) (loadCdp1As s.inView .huffman)

/-- CDP1 codec id 3, Arithmetic (R230). -/
def execCdp1Arithmetic (s : State) : Result := streamCommand s (fieldA s.lcmd) (loadCdp1As s.inView .arithmetic)

end Sys2Proof.Machine
end

