-- ==== Sys2Proof/Machine/Topology.lean ====
section
/-! DEFINITION. The dual-mesh topology decoder TOPO_RUN (46_topology.md).

The document's -1 in a ring slot is `none`. A ring slot that does not exist reads as no slot at all, which no check
takes for an empty slot. -/

namespace Sys2Proof.Machine

/-- Why a TOPO_RUN ends early: an error of the command, or a loop bound used up (log 9). -/
inductive TopoStop where
  | error (e : Err)
  | stuck
deriving DecidableEq, Repr

/-- The working state of one TOPO_RUN (10_state.md R47): the tables, the counters, the active-face queue AQ, the
link worklist WL, and a cursor per role. -/
structure Topo where
  vertices : List Vertex
  faces : List Face
  attrCounter : Nat
  ncomp : Nat
  aq : List Nat
  wl : List (Nat × Nat)
  cursors : Vector Nat 17
deriving DecidableEq, Repr

/-- What a TOPO_RUN reads: the parameters, and the stream of each role as it stood when the command started, none
for an unassigned role (R311, R313). -/
structure TopoEnv where
  params : Params
  streams : Vector (Option (List Word)) 17

/-- A step of the decoder: it changes the working state or stops. -/
abbrev TopoM := StateT Topo (Except TopoStop)

/-- The working state at the start (R310). -/
def Topo.start : Topo :=
  { vertices := [], faces := [], attrCounter := 0, ncomp := 0, aq := [], wl := [], cursors := Vector.replicate 17 0 }

/-- `raise E(info)` in TOPO_RUN (R343). -/
def topoRaise {α : Type} (code : ErrCode) (info : Nat) : TopoM α := fun _ => .error (.error { code := code, info := info })

/-- The bound of a loop is used up (log 9). -/
def topoStuck {α : Type} : TopoM α := fun _ => .error .stuck

/-! Streams (R311, R312). -/

/-- `r assigned` (R311). -/
def TopoEnv.assigned (e : TopoEnv) (r : Role) : Bool := e.streams[r].isSome

/-- The elements of role `r`'s stream; an unassigned role reads as an empty one (R311). -/
def TopoEnv.stream (e : TopoEnv) (r : Role) : List Word := e.streams[r].getD []

/-- The elements of role `r` not read yet. -/
def Topo.left (t : Topo) (e : TopoEnv) (r : Role) : Nat := (e.stream r).length - t.cursors[r]

/-- `Read(r)` (R312). -/
def topoRead (e : TopoEnv) (r : Role) : TopoM Word := fun t =>
  match (e.stream r)[t.cursors[r]]? with
  | none => .error (.error { code := .topoStream, info := r.val })
  | some x => .ok (x, { t with cursors := t.cursors.set r.val (t.cursors[r] + 1) r.isLt })

/-- `Read(r)` of an optional role: 0 and nothing read when it is unassigned (R311). -/
def topoReadOr0 (e : TopoEnv) (r : Role) : TopoM Word := if e.assigned r then topoRead e r else pure 0

/-! The tables. -/

/-- vface[v][j], if that slot exists. -/
def Topo.vfaceAt (t : Topo) (v j : Nat) : Option (Option Nat) := (t.vertices[v]?).bind fun x => x.vface[j]?

/-- fvtx[f][s], if that slot exists. -/
def Topo.fvtxAt (t : Topo) (f s : Nat) : Option (Option Nat) := (t.faces[f]?).bind fun x => x.fvtx[s]?

/-- The ring of vertex `v`. -/
def Topo.vring (t : Topo) (v : Nat) : List (Option Nat) := ((t.vertices[v]?).map Vertex.vface).getD []

/-- The ring of face `f`. -/
def Topo.fring (t : Topo) (f : Nat) : List (Option Nat) := ((t.faces[f]?).map Face.fvtx).getD []

/-- valence[v]. -/
def Topo.valenceOf (t : Topo) (v : Nat) : Nat := (t.vring v).length

/-- degree[f]. -/
def Topo.degreeOf (t : Topo) (f : Nat) : Nat := (t.fring f).length

/-- empty[f]. -/
def Topo.emptyOf (t : Topo) (f : Nat) : Nat := (t.fring f).countP Option.isNone

/-- Slot `k + 1` of a ring of `n` slots (10_state.md R46). -/
def ringNext (n k : Nat) : Nat := (k + 1) % n

/-- Slot `k - 1` of a ring of `n` slots (10_state.md R46). -/
def ringPrev (n k : Nat) : Nat := (k + (n - 1)) % n

/-- The id in slot `k` of a ring, none for -1. -/
def ringGet (ring : List (Option Nat)) (k : Nat) : Option Nat := (ring[k]?).getD none

/-- `vface[v][j] <- f`. -/
def Topo.setVface (t : Topo) (v j f : Nat) : Topo :=
  { t with vertices := t.vertices.modify v fun x => { x with vface := x.vface.set j (some f) } }

/-- `fvtx[f][s] <- v`; the empty count of `f` is the number of slots still none, so it drops by one. -/
def Topo.setFvtx (t : Topo) (f s v : Nat) : Topo :=
  { t with faces := t.faces.modify f fun x => { x with fvtx := x.fvtx.set s (some v) } }

/-- The face slots of all vertices that are still empty. -/
def Topo.openSlots (t : Topo) : Nat := (t.vertices.map fun x => x.vface.countP Option.isNone).sum

/-! Creating vertices and faces (R314 to R321). -/

/-- A new vertex with `val` empty face slots at the end of the vertex table (R314). -/
def Topo.addVertex (t : Topo) (val : Nat) (grp flg : Word) : Topo :=
  { t with vertices := t.vertices ++ [{ vflags := flg, group := grp, vface := List.replicate val none }] }

/-- `VtxInit()` (R314, R315, R348). -/
def vtxInit (e : TopoEnv) : TopoM Nat := do
  let val ← topoRead e roleValence
  let grp ← topoReadOr0 e roleGroup
  let flg ← topoReadOr0 e roleFlags
  if val.toInt < 2 ∨ (e.params.maxValence : Int) < val.toInt then topoRaise .topoValue 1
  else do
    let t ← get
    if t.vertices.length = e.params.maxVtx then topoRaise .capacity 1
    else if e.params.maxIncid < sumValence t.vertices + val.toNat then topoRaise .capacity 3
    else do
      set (t.addVertex val.toNat grp flg)
      pure t.vertices.length

/-- The number of known faces of a ring. -/
def knownFaces (ring : List (Option Nat)) : Nat := ring.countP Option.isSome

/-- The sum of the degrees of the known faces of a ring. -/
def knownDegrees (t : Topo) (ring : List (Option Nat)) : Nat :=
  (ring.map fun x => match x with | none => 0 | some f => t.degreeOf f).sum

/-- The one of three contexts from `base` on that an average known degree below, at or above `mid` selects. -/
def degreeBucket (base mid tot nk : Nat) : Nat :=
  if tot < mid * nk then base else if tot = mid * nk then base + 1 else base + 2

/-- `Ctx(v)`, a compression context 0 to 7 (R318). -/
def topoCtx (t : Topo) (v : Nat) : Nat :=
  if t.valenceOf v = 3 then degreeBucket 0 6 (knownDegrees t (t.vring v)) (knownFaces (t.vring v))
  else if t.valenceOf v = 4 then degreeBucket 3 4 (knownDegrees t (t.vring v)) (knownFaces (t.vring v))
  else if t.valenceOf v = 5 then 6
  else 7

/-- The role DEG0 + c (R33). -/
def roleDegree (c : Nat) : Role := ⟨c % 8, by omega⟩

/-- The mask words of AMASK1, word `w` shifted to bit 32*w, for w from `w` on (R319). -/
def maskWords (e : TopoEnv) : Nat → Nat → TopoM Nat
  | 0, _ => pure 0
  | n + 1, w => do
    let x ← topoRead e roleAmask1
    let rest ← maskWords e n (w + 1)
    pure (x.toNat * 2 ^ (32 * w) + rest)

/-- The attribute mask of a new face of degree `deg` (R319, R320). -/
def readMask (e : TopoEnv) (deg : Nat) : TopoM Nat :=
  if e.assigned roleAmask0 then do
    let x ← topoRead e roleAmask0
    if 32 < deg ∧ e.assigned roleAmask1 = true then do
      let rest ← maskWords e (ceilDiv32 (deg - 32)) 1
      pure (x.toNat + rest)
    else pure x.toNat
  else pure 0

/-- The low `deg` bits of a mask, bit 0 first. -/
def maskBits (mask deg : Nat) : List Bool := (List.range deg).map fun i => mask.testBit i

/-- A new face of `deg` empty vertex slots at the end of the face table and of AQ; its attribute records are the next
ones of the counter (R317, R319, R320). -/
def Topo.addFace (t : Topo) (deg : Nat) (mask : List Bool) : Topo :=
  { t with
    faces := t.faces ++
      [{ fflags := 0, amask := mask, attrBase := t.attrCounter, fvtx := List.replicate deg none }]
    attrCounter := t.attrCounter + mask.countP id
    aq := t.aq ++ [t.faces.length] }

/-- `NewFace(deg)` (R319 to R321, R348). -/
def newFace (e : TopoEnv) (deg : Nat) : TopoM Nat := do
  let mask ← readMask e deg
  if 2 ^ deg ≤ mask then topoRaise .topoAttr 1
  else do
    let t ← get
    if t.faces.length = e.params.maxFace then topoRaise .capacity 2
    else if e.params.maxIncid < sumDegree t.faces + deg then topoRaise .capacity 3
    else do
      set (t.addFace deg (maskBits mask deg))
      pure t.faces.length

/-! Linking (R323 to R327). -/

/-- The first slot of a ring that holds `x`; E_TOPO_CONFLICT(3) if none does (R325). -/
def ringSlot (ring : List (Option Nat)) (x : Nat) : TopoM Nat :=
  match ring.findIdx? (· == some x) with
  | some k => pure k
  | none => topoRaise .topoConflict 3

/-- `vslot(v, f)`, findFaceSlot (R325). -/
def vslot (v f : Nat) : TopoM Nat := do
  let t ← get
  ringSlot (t.vring v) f

/-- `fslot(f, v)`, findVtxSlot (R325). -/
def fslot (f v : Nat) : TopoM Nat := do
  let t ← get
  ringSlot (t.fring f) v

/-- `append x to WL`. -/
def pushWork (x : Nat × Nat) : TopoM Unit := modify fun t => { t with wl := t.wl ++ [x] }

/-- The worklist entry of the neighbour `u` of vertex `v` in face `f`: its ring edge beside `f`, one slot back for
`back` (R324). -/
def pushNeighbour (v f : Nat) (u : Option Nat) (back : Bool) : TopoM Unit :=
  match u with
  | none => pure ()
  | some u =>
    if u = v then pure ()
    else do
      let k ← vslot u f
      let t ← get
      pushWork (u, if back then ringPrev (t.valenceOf u) k else k)

/-- The link itself and its worklist entries, after the checks (R324). -/
def linkSlots (v j f s : Nat) : TopoM Unit := do
  modify fun t => (t.setVface v j f).setFvtx f s v
  let t ← get
  pushWork (v, j)
  pushWork (v, ringPrev (t.valenceOf v) j)
  pushNeighbour v f (ringGet (t.fring f) (ringNext (t.degreeOf f) s)) false
  pushNeighbour v f (ringGet (t.fring f) (ringPrev (t.degreeOf f) s)) true

/-- `Link(v, j, f, s)` (R324). -/
def link (v j f s : Nat) : TopoM Unit := do
  let t ← get
  if t.vfaceAt v j = some (some f) ∧ t.fvtxAt f s = some (some v) then pure ()
  else if t.vfaceAt v j ≠ some none ∨ t.fvtxAt f s ≠ some none then topoRaise .topoConflict 1
  else if (t.vring v).contains (some f) ∨ (t.fring f).contains (some v) then topoRaise .topoConflict 2
  else linkSlots v j f s

/-- The vertex before `x` in the face `f` of its ring, none if either is not known (`wf` of R326). -/
def vertexBefore (x : Nat) (f : Option Nat) : TopoM (Option Nat) :=
  match f with
  | none => pure none
  | some f => do
    let k ← fslot f x
    let t ← get
    pure (ringGet (t.fring f) (ringPrev (t.degreeOf f) k))

/-- The vertex after `x` in the face `g` of its ring, none if either is not known (`wg` of R326). -/
def vertexAfter (x : Nat) (g : Option Nat) : TopoM (Option Nat) :=
  match g with
  | none => pure none
  | some g => do
    let k ← fslot g x
    let t ← get
    pure (ringGet (t.fring g) (ringNext (t.degreeOf g) k))

/-- The cases of `CloseEdge(x, k)` once the edge's faces and the vertices they know are read: both faces known and one
lacks the shared vertex `w` (`w` is linked into it), or one face unknown (the face `w`'s ring has across the edge is
linked into `x`'s ring) (R326). -/
def closeCases (x k : Nat) (f g wf wg : Option Nat) : TopoM Unit :=
  match f, g, wf, wg with
  | some f, some g, none, some w => do
    let j ← vslot w g
    let s ← fslot f x
    let t ← get
    link w (ringNext (t.valenceOf w) j) f (ringPrev (t.degreeOf f) s)
  | some f, some g, some w, none => do
    let j ← vslot w f
    let s ← fslot g x
    let t ← get
    link w (ringPrev (t.valenceOf w) j) g (ringNext (t.degreeOf g) s)
  | none, some g, _, some w => do
    let j ← vslot w g
    let t ← get
    match ringGet (t.vring w) (ringNext (t.valenceOf w) j) with
    | none => pure ()
    | some f2 => do
      let s ← fslot f2 w
      let t ← get
      link x k f2 (ringNext (t.degreeOf f2) s)
  | some f, none, some w, _ => do
    let j ← vslot w f
    let t ← get
    match ringGet (t.vring w) (ringPrev (t.valenceOf w) j) with
    | none => pure ()
    | some g2 => do
      let s ← fslot g2 w
      let t ← get
      link x (ringNext (t.valenceOf x) k) g2 (ringPrev (t.degreeOf g2) s)
  | _, _, _, _ => pure ()

/-- `CloseEdge(x, k)` (R326). -/
def closeEdge (x k : Nat) : TopoM Unit := do
  let t ← get
  let f := ringGet (t.vring x) k
  let g := ringGet (t.vring x) (ringNext (t.valenceOf x) k)
  let wf ← vertexBefore x f
  let wg ← vertexAfter x g
  if wf ≠ none ∧ wg ≠ none ∧ wf ≠ wg then topoRaise .topoConflict 4 else closeCases x k f g wf wg

/-- WL replaced. -/
def Topo.setWork (t : Topo) (wl : List (Nat × Nat)) : Topo := { t with wl := wl }

/-- The loop of `TopLink` over WL, first in first out (R327). -/
def closeAll : Nat → TopoM Unit
  | 0 => do
    let t ← get
    if t.wl = [] then pure () else topoStuck
  | fuel + 1 => do
    let t ← get
    match t.wl with
    | [] => pure ()
    | (x, k) :: rest => do
      set (t.setWork rest)
      closeEdge x k
      closeAll fuel

/-- `TopLink(v, j, f, s)` (R327). Each CloseEdge takes one entry off WL, and each Link it makes adds at most 4 and fills
one open slot, so WL's length plus 4 times the open slots bounds the loop (R344, log 9). -/
def topLink (v j f s : Nat) : TopoM Unit := do
  link v j f s
  let t ← get
  closeAll (t.wl.length + 4 * t.openSlots)

/-! Activation and the active-face queue (R330 to R337). -/

/-- The SPLIT branch of `ActivateF(v, j)` (R330, R331). -/
def activateSplit (e : TopoEnv) (v j : Nat) : TopoM Unit := do
  let off ← topoRead e roleSplitFace
  let t ← get
  if off.toInt < 0 ∨ (t.aq.length : Int) ≤ off.toInt then topoRaise .topoSplit 1
  else do
    let f := t.aq.getD (t.aq.length - 1 - off.toNat) 0
    let pos ← topoRead e roleSplitPos
    if pos.toInt < 0 ∨ (t.degreeOf f : Int) ≤ pos.toInt then topoRaise .topoSplit 2
    else if ringGet (t.fring f) pos.toNat ≠ none then topoRaise .topoSplit 3
    else topLink v j f pos.toNat

/-- `ActivateF(v, j)` (R330). -/
def activateF (e : TopoEnv) (v j : Nat) : TopoM Unit := do
  let t ← get
  let deg ← topoRead e (roleDegree (topoCtx t v))
  if 0 < deg.toInt then
    if deg.toInt < 2 ∨ (e.params.maxDegree : Int) < deg.toInt then topoRaise .topoValue 2
    else do
      let f ← newFace e deg.toNat
      topLink v j f 0
  else if deg.toInt = 0 then activateSplit e v j
  else topoRaise .topoValue 2

/-- `ActivateF(v, j)` for each slot of the list that is still empty when it is reached (R310, R333). -/
def activateSlots (e : TopoEnv) (v : Nat) : List Nat → TopoM Unit
  | [] => pure ()
  | j :: rest => do
    let t ← get
    if ringGet (t.vring v) j = none then activateF e v j else pure ()
    activateSlots e v rest

/-- `ActivateV(f, s)` (R332). -/
def activateV (e : TopoEnv) (f s : Nat) : TopoM Nat := do
  let v ← vtxInit e
  topLink v 0 f s
  pure v

/-- `CompleteF(v, j0)` (R333). -/
def completeF (e : TopoEnv) (v j0 : Nat) : TopoM Unit := do
  let t ← get
  activateSlots e v ((List.range (t.valenceOf v - 1)).map fun i => (j0 + (i + 1)) % t.valenceOf v)

/-- The loop of `CompleteV(f)` (R334): the lowest empty slot each time round. -/
def completeVLoop (e : TopoEnv) (f : Nat) : Nat → TopoM Unit
  | 0 => topoStuck
  | fuel + 1 => do
    let t ← get
    match (t.fring f).findIdx? Option.isNone with
    | none => pure ()
    | some s => do
      let v ← activateV e f s
      completeF e v 0
      completeVLoop e f fuel

/-- `CompleteV(f)` (R334). Each round reads one VALENCE element, which bounds the loop (R344, log 9). -/
def completeV (e : TopoEnv) (f : Nat) : TopoM Unit := do
  let t ← get
  completeVLoop e f (t.left e roleValence + 1)

/-- The scan of `NextActiveFace()` from newest to oldest: a later face wins only with strictly fewer empty slots
(R335). -/
def fewestEmpty (t : Topo) (best : Nat) : List Nat → Nat
  | [] => best
  | f :: rest => if t.emptyOf f < t.emptyOf best then fewestEmpty t f rest else fewestEmpty t best rest

/-- `NextActiveFace()` (R335). -/
def nextActiveFace (t : Topo) : Option Nat :=
  match t.aq.reverse.take Config.aqWindow with
  | [] => none
  | f :: rest => some (fewestEmpty t f rest)

/-- The elements of the degree streams not read yet. -/
def Topo.degreesLeft (t : Topo) (e : TopoEnv) : Nat :=
  ((List.range 8).map fun c => t.left e (roleDegree c)).sum

/-- The runComponent loop (R310, R336). -/
def componentLoop (e : TopoEnv) : Nat → TopoM Unit
  | 0 => topoStuck
  | fuel + 1 => do
    let t ← get
    match nextActiveFace t with
    | none => pure ()
    | some f => do
      completeV e f
      modify fun t => { t with aq := t.aq.erase f }
      componentLoop e fuel

/-- One component: its seed vertex, the seed's faces, then runComponent (R310, R337). Each round of the loop takes
one face off AQ, and every face put on it is read from a degree stream, which bounds the loop (R344, log 9). -/
def runComponent (e : TopoEnv) : TopoM Unit := do
  let v ← vtxInit e
  modify fun t => { t with ncomp := t.ncomp + 1 }
  let t ← get
  activateSlots e v (List.range (t.valenceOf v))
  let t ← get
  componentLoop e (t.aq.length + t.degreesLeft e + 1)

/-- The component loop (R310): while VALENCE has elements left. -/
def runComponents (e : TopoEnv) : Nat → TopoM Unit
  | 0 => topoStuck
  | fuel + 1 => do
    let t ← get
    if 0 < t.left e roleValence then do
      runComponent e
      runComponents e fuel
    else pure ()

/-- The first assigned role of the list with elements left (R340). -/
def leftoverRole (e : TopoEnv) (t : Topo) : List Role → Option Role
  | [] => none
  | r :: rest => if e.assigned r = true ∧ t.cursors[r] ≠ (e.stream r).length then some r else leftoverRole e t rest

/-- Roles 0 to 14 in ascending order (R340). -/
def inputRoles : List Role := [0, 1, 2, 3, 4, 5, 6, 7, 8, 9, 10, 11, 12, 13, 14]

/-- `EndCheck()` (R340). -/
def endCheck (e : TopoEnv) : TopoM Unit := do
  let t ← get
  match leftoverRole e t inputRoles with
  | none => pure ()
  | some r => topoRaise .topoStream r.val

/-- The whole run (R310). -/
def topoProgram (e : TopoEnv) : TopoM Unit := do
  let t ← get
  runComponents e (t.left e roleValence + 1)
  endCheck e

/-- The mesh a run leaves. -/
def Topo.toMesh (t : Topo) : Mesh :=
  { vertices := t.vertices, faces := t.faces, attrCounter := t.attrCounter, ncomp := t.ncomp }

/-- The mesh a TOPO_RUN builds from its streams, or why it stops (R310). -/
def topoRun (e : TopoEnv) : Except TopoStop Mesh :=
  match topoProgram e Topo.start with
  | .ok (_, t) => .ok t.toMesh
  | .error x => .error x

/-- The streams a TOPO_RUN of this state reads: roles 0 to 14; the output roles of TOPO_EMIT are ignored (R311). -/
def State.topoEnv (s : State) : TopoEnv :=
  { params := s.params, streams := Vector.ofFn fun r => if r.val ≤ 14 then s.roleStream r else none }

/-- MESH is replaced by a valid one (10_state.md R40). -/
def State.setMesh (s : State) (m : Mesh) : State := { s with mesh := m, meshValid := true }

/-- TOPO_RUN (R310); an error discards MESH (R342). -/
def execTopoRun (s : State) : Result :=
  match topoRun s.topoEnv with
  | .ok m => .next ((s.setMesh m).complete (u32 m.vertices.length) (u32 m.faces.length))
  | .error (.error e) => .next (s.errorEntry e.code (u32 e.info) []).discardMesh
  | .error .stuck => .fault .engineStuck

end Sys2Proof.Machine
end

