-- ==== Sys2Proof/Machine/Float.lean ====
section
/-! DEFINITION. IEEE 754 binary32 and binary64 arithmetic in round-to-nearest-even (00_scope.md R11, 45_vertex.md
R284): subnormals are kept, no flag is raised, infinities follow IEEE 754, and a NaN has no payload here (the word
of a NaN result is drawn where the result is stored, log 4).

A finite number is a sign, a natural mantissa and a power of two. Operations are exact and round once. -/

namespace Sys2Proof.Machine

/-- A floating-point datum: `fin neg m e` is (-1)^neg * m * 2^e. -/
inductive FloatVal where
  | nan
  | inf (neg : Bool)
  | fin (neg : Bool) (m : Nat) (e : Int)
deriving DecidableEq, Repr

/-- A binary format: the bits of a significand, and the least and greatest exponent of its last bit. -/
structure FloatFormat where
  prec : Nat
  qmin : Int
  qmax : Int

/-- binary32. -/
def binary32 : FloatFormat := { prec := 24, qmin := -149, qmax := 104 }

/-- binary64. -/
def binary64 : FloatFormat := { prec := 53, qmin := -1074, qmax := 971 }

/-- `2^e` as a numerator factor (1 for a negative `e`). -/
def twoNum (e : Int) : Nat := 2 ^ e.toNat

/-- `2^-e` as a denominator factor (1 for a non-negative `e`). -/
def twoDen (e : Int) : Nat := 2 ^ (-e).toNat

/-- floor(log2(num / den)) for positive num and den. -/
def floorLog2 (num den : Nat) : Int :=
  let l : Int := (Nat.log2 num : Int) - Nat.log2 den
  if den * twoNum l ≤ num * twoDen l then l else l - 1

/-- num / den rounded to the nearest natural number, ties to even. -/
def divNearestEven (num den : Nat) : Nat :=
  if 2 * (num % den) < den then num / den
  else if den < 2 * (num % den) then num / den + 1
  else num / den + num / den % 2

/-- (-1)^neg * num / den rounded to a format, nearest even; a magnitude past the greatest finite one is infinity. -/
def roundTo (f : FloatFormat) (neg : Bool) (num den : Nat) : FloatVal :=
  if num = 0 then .fin neg 0 f.qmin
  else
    let q : Int := max (floorLog2 num den - (f.prec - 1)) f.qmin
    let m := divNearestEven (num * twoDen q) (den * twoNum q)
    if f.qmax < q ∨ (q = f.qmax ∧ 2 ^ f.prec ≤ m) then .inf neg else .fin neg m q

/-- A finite value rounded to a format. -/
def roundFin (f : FloatFormat) (neg : Bool) (m : Nat) (e : Int) : FloatVal :=
  roundTo f neg (m * twoNum e) (twoDen e)

/-- Conversion to a format (`cvt32`, `cvt64`). -/
def convert (f : FloatFormat) : FloatVal → FloatVal
  | .nan => .nan
  | .inf neg => .inf neg
  | .fin neg m e => roundFin f neg m e

/-- The signed integer m * 2^(e - base) for base ≤ e. -/
def scaled (neg : Bool) (m : Nat) (e base : Int) : Int :=
  if neg then -((m * twoNum (e - base) : Nat) : Int) else ((m * twoNum (e - base) : Nat) : Int)

/-- The exact sum of two finite numbers, rounded; an exact zero is -0 only for two negative addends. -/
def addFin (f : FloatFormat) (n1 : Bool) (m1 : Nat) (e1 : Int) (n2 : Bool) (m2 : Nat) (e2 : Int) : FloatVal :=
  let base := min e1 e2
  let x := scaled n1 m1 e1 base + scaled n2 m2 e2 base
  if x = 0 then .fin (n1 && n2) 0 f.qmin else roundFin f (decide (x < 0)) x.natAbs base

/-- Addition. -/
def fadd (f : FloatFormat) : FloatVal → FloatVal → FloatVal
  | .nan, _ => .nan
  | _, .nan => .nan
  | .inf a, .inf b => if a = b then .inf a else .nan
  | .inf a, .fin _ _ _ => .inf a
  | .fin _ _ _, .inf b => .inf b
  | .fin n1 m1 e1, .fin n2 m2 e2 => addFin f n1 m1 e1 n2 m2 e2

/-- The sign flipped. -/
def fnegVal : FloatVal → FloatVal
  | .nan => .nan
  | .inf neg => .inf (!neg)
  | .fin neg m e => .fin (!neg) m e

/-- Subtraction. -/
def fsub (f : FloatFormat) (x y : FloatVal) : FloatVal := fadd f x (fnegVal y)

/-- Multiplication. -/
def fmul (f : FloatFormat) : FloatVal → FloatVal → FloatVal
  | .nan, _ => .nan
  | _, .nan => .nan
  | .inf a, .inf b => .inf (a != b)
  | .inf a, .fin b m _ => if m = 0 then .nan else .inf (a != b)
  | .fin a m _, .inf b => if m = 0 then .nan else .inf (a != b)
  | .fin n1 m1 e1, .fin n2 m2 e2 => roundFin f (n1 != n2) (m1 * m2) (e1 + e2)

/-- Division. -/
def fdiv (f : FloatFormat) : FloatVal → FloatVal → FloatVal
  | .nan, _ => .nan
  | _, .nan => .nan
  | .inf _, .inf _ => .nan
  | .inf a, .fin b _ _ => .inf (a != b)
  | .fin a _ _, .inf b => .fin (a != b) 0 f.qmin
  | .fin n1 m1 e1, .fin n2 m2 e2 =>
    if m2 = 0 then (if m1 = 0 then .nan else .inf (n1 != n2))
    else roundTo f (n1 != n2) (m1 * twoNum (e1 - e2)) (m2 * twoDen (e1 - e2))

/-- `as_f32(x)` (00_scope.md R9): the datum of a binary32 bit pattern. -/
def ofBits32 (w : Word) : FloatVal :=
  let frac := (w.extractLsb' 0 23).toNat
  let exp := (w.extractLsb' 23 8).toNat
  let neg := w.getLsbD 31
  if exp = 255 then (if frac = 0 then .inf neg else .nan)
  else if exp = 0 then .fin neg frac (-149)
  else .fin neg (2 ^ 23 + frac) (exp - 150)

/-- The magnitude bits of a binary32 datum m * 2^e with -149 ≤ e and m ≤ 2^24, normalised as `roundTo` leaves it:
the hidden bit carries into the exponent field. -/
def magnitude32 (m : Nat) (e : Int) : Nat := (e + 149).toNat * 2 ^ 23 + m

/-- The bit pattern of a binary32 datum; a NaN takes the drawn word `nan`. -/
def toBits32 (nan : Word) : FloatVal → Word
  | .nan => nan
  | .inf neg => if neg then 0xFF800000 else 0x7F800000
  | .fin neg m e => (if neg then 0x80000000 else 0) ||| u32 (if m = 0 then 0 else magnitude32 m e)

/-- The datum of a natural number (exact, `cvt64(raw)`). -/
def ofNatVal (n : Nat) : FloatVal := .fin false n 0

/-- The datum 0.5. -/
def halfVal : FloatVal := .fin false 1 (-1)

/-- `fneg(x)` of R11 on a bit pattern: the sign bit of any value flipped, NaN included. -/
def fnegBits (w : Word) : Word := w ^^^ 0x80000000

end Sys2Proof.Machine
end

