-- ==== Sys2Proof/Machine/Vertex.lean ====
section
/-! DEFINITION. The vertex dequantizers and VTX_PACK (45_vertex.md). -/

namespace Sys2Proof.Machine

/-- QNAN_DRAW (R284): the `i`-th drawn quiet NaN. Its sign and payload are free, its exponent field is all ones and
its quiet bit is set (log 4). -/
def qnanDraw (i : Nat) : Word :=
  (Config.qnanBits i).extractLsb' 22 1 ++ 0x1FF#9 ++ (Config.qnanBits i).extractLsb' 0 22

/-! DEQ_QUANT. -/

/-- maxCode of R280: 2^bits - 1, or 2^32 - 1 for bits ≥ 32. -/
def quantMaxCode (bits : Nat) : Nat := if 32 ≤ bits then 2 ^ 32 - 1 else 2 ^ bits - 1

/-- `d2 <- fsub32(mx, mn)` (R280); a NaN takes the draw `i`. -/
def quantSpan (i : Nat) (mn mx : Word) : Word :=
  toBits32 (qnanDraw i) (fsub binary32 (ofBits32 mx) (ofBits32 mn))

/-- The reference evaluation of QUANT_EVAL (R282): binary64 steps in the document's order, rounded to binary32 once.
A NaN takes the draw `i`. -/
def quantEvalReference (i : Nat) (mn d2 : Word) (maxCode : Nat) (raw : Word) : Word :=
  let t1 := fsub binary64 (ofNatVal raw.toNat) halfVal
  let t2 := fmul binary64 t1 (ofBits32 d2)
  let t3 := fdiv binary64 t2 (ofNatVal maxCode)
  let t4 := fadd binary64 (ofBits32 mn) t3
  toBits32 (qnanDraw i) (convert binary32 t4)

/-- QUANT_EVAL (R282, log 5). -/
def quantEval (field : OpenField) (i : Nat) (mn d2 : Word) (maxCode : Nat) (raw : Word) : Word :=
  match field with
  | .reference => quantEvalReference i mn d2 maxCode raw
  | .other k => Config.quantEvalOther k mn d2 maxCode raw

/-- The dequantized codes (R280, R281), the first of them with the draw `i`. -/
def quantValues (field : OpenField) (mn d2 : Word) (maxCode : Nat) : Nat → List Word → List Word
  | _, [] => []
  | i, raw :: rest => quantEval field i mn d2 maxCode raw :: quantValues field mn d2 maxCode (i + 1) rest

/-- DEQ_QUANT sA, sB with min = LARG0, max = LARG1, bits = LARG2 (R280, R283). -/
def execDeqQuant (a b : SlotNo) (s : State) : Result :=
  if s.larg2 = 0 then failWith s .range [b]
  else
    .next (({ s with draws := s.draws + (s.slot a).length + 1 }.setSlot b
        (quantValues s.params.quantEval s.larg0 (quantSpan s.draws s.larg0 s.larg1) (quantMaxCode s.larg2.toNat)
          (s.draws + 1) (s.slot a))).complete 0 (u32 (s.slot a).length))

/-! DEQ_EXPMANT. -/

/-- `((exp * 2^23) mod 2^32) or mantissa` (R285, R286). -/
def expMantValue (e m : Word) : Word := (e <<< 23) ||| m

/-- DEQ_EXPMANT sA, sB, sC (R285). -/
def execDeqExpmant (a b c : SlotNo) (s : State) : Result :=
  if (s.slot a).length ≠ (s.slot b).length then failWith s .count [c]
  else
    .next ((s.setSlot c (List.zipWith expMantValue (s.slot a) (s.slot b))).complete 0 (u32 (s.slot a).length))

/-! DEQ_DEERING. -/

/-- The binary point of the fixed-point numbers the reference table is computed with. -/
def deeringPoint : Nat := 128

/-- A truncated Taylor series t - t*x²/((i+1)(i+2)) + ... of `n` terms in fixed point, from its term `t` of degree
`i`; `x2` is x². -/
def taylor (x2 : Nat) : Nat → Nat → Nat → Int
  | 0, _, _ => 0
  | n + 1, t, i => (t : Int) - taylor x2 n (t * x2 / 2 ^ deeringPoint / ((i + 1) * (i + 2))) (i + 2)

/-- The angle of table entry `k` in fixed point: (k * 0.615479709) rounded to binary64, divided by 8192 exactly
(R289). The division by 2^13 and the fixed-point scaling are exact (log 13). -/
def deeringAngle (k : Nat) : Nat :=
  match roundTo binary64 false (k * 615479709) (10 ^ 9) with
  | .fin _ m e => m * twoNum (e - 13 + deeringPoint) / twoDen (e - 13 + deeringPoint)
  | .inf _ => 0
  | .nan => 0

/-- A fixed-point number rounded to binary32. -/
def fixedToBits32 (x : Int) : Word :=
  toBits32 0 (roundTo binary32 (decide (x < 0)) x.natAbs (2 ^ deeringPoint))

/-- Entry `k` of the reference DEERING_TABLE, (sin, cos) as nearest binary32 values (R289). -/
def deeringReference (k : Nat) : Word × Word :=
  let x := deeringAngle k
  let x2 := x * x / 2 ^ deeringPoint
  (fixedToBits32 (taylor x2 20 x 1), fixedToBits32 (taylor x2 20 (2 ^ deeringPoint) 0))

/-- DEERING_TABLE (R289, log 5). -/
def deeringEntry (field : OpenField) (i : Nat) : Word × Word :=
  match field with
  | .reference => deeringReference i
  | .other k => Config.deeringTableOther k i

/-- The six orders of three components, numbered as the sextants of R291. -/
def componentOrder (s : Nat) : Fin 3 × Fin 3 × Fin 3 :=
  match s with
  | 0 => (0, 1, 2)
  | 1 => (0, 2, 1)
  | 2 => (1, 0, 2)
  | 3 => (1, 2, 0)
  | 4 => (2, 0, 1)
  | _ => (2, 1, 0)

/-- SEXTANT_PERM (R291, log 5). -/
def sextantPerm (field : OpenField) (s : Nat) : Fin 3 × Fin 3 × Fin 3 :=
  match field with
  | .reference => componentOrder s
  | .other k => componentOrder (Config.sextantPermOther k s)

/-- `fmul32` on bit patterns (R293); a NaN takes the draw `i`. -/
def fmulBits32 (i : Nat) (x y : Word) : Word := toBits32 (qnanDraw i) (fmul binary32 (ofBits32 x) (ofBits32 y))

/-- The base components (psi.cos*theta.cos, psi.sin, psi.cos*theta.sin) (R288, R293); draws `i` and `i + 1`. -/
def deeringBase (i : Nat) (theta psi : Word × Word) : Vector Word 3 :=
  #v[fmulBits32 i psi.2 theta.2, psi.1, fmulBits32 (i + 1) psi.2 theta.1]

/-- The octant sign of one axis: a clear bit applies fneg (R292). -/
def octantSign (keep : Bool) (x : Word) : Word := if keep then x else fnegBits x

/-- One element of DEQ_DEERING (R288), or none if a code is out of range. -/
def deeringNormal (p : Params) (bpn i : Nat) (sx oc th ps : Word) : Option (Word × Word × Word) :=
  if sx.toInt < 0 ∨ 5 < sx.toInt ∨ oc.toInt < 0 ∨ 7 < oc.toInt ∨ th.toInt < 0 ∨ ps.toInt < 0 then none
  else if 8192 < th.toNat * 2 ^ (13 - bpn) ∨ 8192 < ps.toNat * 2 ^ (13 - bpn) then none
  else
    let base := deeringBase i (deeringEntry p.deeringTable (th.toNat * 2 ^ (13 - bpn)))
      (deeringEntry p.deeringTable (ps.toNat * 2 ^ (13 - bpn)))
    let order := sextantPerm p.sextantPerm sx.toNat
    some (octantSign (oc.getLsbD 2) base[order.1], octantSign (oc.getLsbD 1) base[order.2.1],
      octantSign (oc.getLsbD 0) base[order.2.2])

/-- The normals of four code lists of one length, in index order, from draw `i` on; none at the first element out of
range (R288). -/
def deeringNormals (p : Params) (bpn : Nat) :
    Nat → List Word → List Word → List Word → List Word → Option (List (Word × Word × Word))
  | i, sx :: sxs, oc :: ocs, th :: ths, ps :: pss =>
    match deeringNormal p bpn i sx oc th ps with
    | none => none
    | some n => (deeringNormals p bpn (i + 2) sxs ocs ths pss).map (n :: ·)
  | _, _, _, _, _ => some []

/-- The three component lists of normals, written to the slots `x`, `y` and `z` (R288). -/
def State.setNormals (s : State) (x y z : SlotNo) (ns : List (Word × Word × Word)) : State :=
  ((s.setSlot x (ns.map fun n => n.1)).setSlot y (ns.map fun n => n.2.1)).setSlot z (ns.map fun n => n.2.2)

/-- DEQ_DEERING sA, sB, sC, sD, M -> X, Y, Z of LARG0 (R288). -/
def execDeqDeering (a b c d : SlotNo) (m : BitVec 4) (s : State) : Result :=
  let x := deeringX s.larg0
  let y := deeringY s.larg0
  let z := deeringZ s.larg0
  if 13 < m.toNat then failWith s .badArg [x, y, z]
  else if deeringReserved s.larg0 ≠ 0 then failWith s .badArg [x, y, z]
  else if x = y ∨ y = z ∨ x = z then failWith s .badArg [x, y, z]
  else if (s.slot b).length ≠ (s.slot a).length ∨ (s.slot c).length ≠ (s.slot a).length ∨
      (s.slot d).length ≠ (s.slot a).length then failWith s .count [x, y, z]
  else
    match deeringNormals s.params m.toNat s.draws (s.slot a) (s.slot b) (s.slot c) (s.slot d) with
    | none => failWith s .range [x, y, z]
    | some ns =>
      .next (({ s with draws := s.draws + 2 * (s.slot a).length }.setNormals x y z ns).complete 0
        (u32 (s.slot a).length))

/-! VTX_PACK. -/

/-- Three component lists of one length, interleaved (R295). -/
def interleave : List Word → List Word → List Word → List Word
  | x :: xs, y :: ys, z :: zs => x :: y :: z :: interleave xs ys zs
  | _, _, _ => []

/-- VTX_PACK sA, sB, sC, sD (R295). -/
def execVtxPack (a b c d : SlotNo) (s : State) : Result :=
  if (s.slot b).length ≠ (s.slot a).length ∨ (s.slot c).length ≠ (s.slot a).length then failWith s .count [d]
  else if s.params.slotCap < 3 * (s.slot a).length then failWith s .capacity [d]
  else
    .next ((s.setSlot d (interleave (s.slot a) (s.slot b) (s.slot c))).complete 0 (u32 (3 * (s.slot a).length)))

end Sys2Proof.Machine
end

