-- ==== Sys2Proof/Machine/Dispatch.lean ====
section
/-! DEFINITION. The dispatch of every instruction to its meaning. -/

namespace Sys2Proof.Machine

def exec (i : Instr) (s : State) : Host.Outcome State Fault Refusal :=
  match i with
  | .nop => Sys2Proof.Machine.execNop s
  | .decCdp2 a => Sys2Proof.Machine.execDecCdp2 a s
  | .decCdp1 a => Sys2Proof.Machine.execDecCdp1 a s
  | .predLag1 a b => Sys2Proof.Machine.execPredLag1 a b s
  | .predLag2 a b => Sys2Proof.Machine.execPredLag2 a b s
  | .predStride1 a b => Sys2Proof.Machine.execPredStride1 a b s
  | .predStride2 a b => Sys2Proof.Machine.execPredStride2 a b s
  | .predStripindex a b => Sys2Proof.Machine.execPredStripindex a b s
  | .predRamp a b => Sys2Proof.Machine.execPredRamp a b s
  | .predXor1 a b => Sys2Proof.Machine.execPredXor1 a b s
  | .predXor2 a b => Sys2Proof.Machine.execPredXor2 a b s
  | .predNull a b => Sys2Proof.Machine.execPredNull a b s
  | .deqQuant a b => Sys2Proof.Machine.execDeqQuant a b s
  | .deqExpmant a b c => Sys2Proof.Machine.execDeqExpmant a b c s
  | .deqDeering a b c d m => Sys2Proof.Machine.execDeqDeering a b c d m s
  | .vtxPack a b c d => Sys2Proof.Machine.execVtxPack a b c d s
  | .topoRun => Sys2Proof.Machine.execTopoRun s
  | .topoEmit => Sys2Proof.Machine.execTopoEmit s
  | .cdp2Null => Sys2Proof.Machine.execCdp2Null s
  | .cdp2Bitlength2 => Sys2Proof.Machine.execCdp2Bitlength2 s
  | .cdp2Arithmetic => Sys2Proof.Machine.execCdp2Arithmetic s
  | .cdp2Chopper => Sys2Proof.Machine.execCdp2Chopper s
  | .cdp1Null => Sys2Proof.Machine.execCdp1Null s
  | .cdp1Bitlength1 => Sys2Proof.Machine.execCdp1Bitlength1 s
  | .cdp1Huffman => Sys2Proof.Machine.execCdp1Huffman s
  | .cdp1Arithmetic => Sys2Proof.Machine.execCdp1Arithmetic s

end Sys2Proof.Machine
end

