-- ==== Sys2Proof/Machine/Fetch.lean ====
section
/-! DEFINITION. What the engine executes next, and how an instruction is placed there.

The engine fetches no program (20_memory.md R73): what it executes is the latched command word (10_state.md R36),
and, inside a stream command, the codec named by the stream's codec byte (30_encoding.md R92, R95). -/

namespace Sys2Proof.Machine

/-- The latched command, decoded (40_commands.md R122). -/
def State.fetch (s : State) : Except Reject Instr := decodeCmd s.lcmd

/-- The engine has an accepted command and it is its turn: no host access comes first (log 2, log 7). -/
def State.latched (s : State) (w : Word) : State := { s with lcmd := w, busy := true, inputs := [] }

/-- The four bytes of a u32 in the latched byte order. -/
def fieldBytes (endian : Bool) (v : Word) : List Byte :=
  if endian then [byteOfWord v 3, byteOfWord v 2, byteOfWord v 1, byteOfWord v 0]
  else [byteOfWord v 0, byteOfWord v 1, byteOfWord v 2, byteOfWord v 3]

/-- A CDP2 stream at IN address 0: valueCount 1, the codec byte, and zeros. -/
def cdp2Bytes (endian : Bool) (id : Byte) : List Byte := fieldBytes endian 1 ++ id :: List.replicate 59 0

/-- A CDP1 stream at IN address 0: the codec byte, and zeros. -/
def cdp1Bytes (id : Byte) : List Byte := id :: List.replicate 63 0

/-- IN starts with the 64 bytes `bs`, and a stream command with word `w` is latched to read them from offset 0. -/
def State.withStream (s : State) (w : Word) (bs : List Byte) : State :=
  { s.latched w with larg0 := 0, lInLen := 64, mem := Memory.storeAll s.mem 0 bs }

/-- A codec byte placed where the latched stream command reads its codec: in a CDP2 stream, or, for an id that only
CDP1 has, in a CDP1 stream (log 6, log 7). -/
def State.withCodecByte (s : State) (id : Byte) : State :=
  match decodeCdp2 id, decodeCdp1 id with
  | .error _, .ok _ => s.withStream 0x00000002 (cdp1Bytes id)
  | _, _ => s.withStream 0x00000001 (cdp2Bytes s.lEndian id)

/-- An instruction of the opcode table placed as the next one the engine executes (log 7): a row of 8 bits is a codec
byte, every other row a command word. -/
def State.placeInstruction (s : State) (nbits w : Nat) : State :=
  if nbits = 8 then s.withCodecByte (BitVec.ofNat 8 w) else s.latched (BitVec.ofNat 32 w)

end Sys2Proof.Machine
end

