-- ==== Sys2Proof/Machine/HostPort.lean ====
section
/-! DEFINITION. The host's side of the device: the address map and the host accesses (20_memory.md R61 to R68,
10_state.md R21 to R33), and what is refused while a command runs (70_reset_and_hazards.md R452). -/

namespace Sys2Proof.Machine

/-- The control and status registers of 10_state.md R21. -/
inductive Csr where
  | id
  | ctrl
  | status
  | errCode
  | errInfo
  | cmd
  | arg0
  | arg1
  | arg2
  | result0
  | result1
  | inLen
  | nv
  | nf
  | ncorner
  | nattr
  | ncomp
  | roleMap (r : Role)
  | slotSel
  | slotLen
  | slotIdx
  | slotData
deriving DecidableEq, Repr

/-- The register at a 4-byte aligned device offset; none where the CSR block is unmapped (R21). -/
def csrAt (off : Nat) : Option Csr :=
  if h : 0x080 ≤ off ∧ off ≤ 0x0C0 ∧ off % 4 = 0 then some (.roleMap ⟨(off - 0x080) / 4, by omega⟩)
  else
    match off with
    | 0x000 => some .id
    | 0x004 => some .ctrl
    | 0x008 => some .status
    | 0x00C => some .errCode
    | 0x010 => some .errInfo
    | 0x014 => some .cmd
    | 0x018 => some .arg0
    | 0x01C => some .arg1
    | 0x020 => some .arg2
    | 0x024 => some .result0
    | 0x028 => some .result1
    | 0x02C => some .inLen
    | 0x030 => some .nv
    | 0x034 => some .nf
    | 0x038 => some .ncorner
    | 0x03C => some .nattr
    | 0x040 => some .ncomp
    | 0x100 => some .slotSel
    | 0x104 => some .slotLen
    | 0x108 => some .slotIdx
    | 0x10C => some .slotData
    | _ => none

/-- The constant of the ID register (R21). -/
def idConstant : Word := 0x4A544431

/-- The device offset of the IN window (R61). -/
def inWindow : Nat := 0x01000000

/-- What a device offset and an access width address (R61 to R63). -/
inductive Target where
  /-- a CSR, accessed as 32 bits -/
  | csr (r : Csr)
  /-- one byte of IN -/
  | inByte (a : Nat)
  /-- four bytes of IN from an aligned address -/
  | inWord (a : Nat)
  /-- an unmapped offset, a wrong width or a wrong alignment: refused -/
  | none
deriving DecidableEq, Repr

/-- The address map (R61 to R63). -/
def State.target (s : State) (width : Width) (off : Nat) : Target :=
  if off < inWindow then
    match width, csrAt off with
    | .w32, some r => .csr r
    | _, _ => .none
  else
    match width with
    | .w8 => if off - inWindow < s.params.inBytes then .inByte (off - inWindow) else .none
    | .w16 => .none
    | .w32 =>
      if (off - inWindow) % 4 = 0 ∧ off - inWindow + 3 < s.params.inBytes then .inWord (off - inWindow) else .none

/-- The value a read returns, kept where the host finds it (log 11). -/
def State.returnData (s : State) (v : Word) : State := { s with hostData := v }

/-- A refused read: it returns 0 and sets ACCERR (R67). -/
def State.refuseRead (s : State) : State := s.refuse.returnData 0

/-- ROLEMAP[r] as it reads: SLOT in bits 4:0, VALID in bit 7 (R33). -/
def roleWord (e : RoleEntry) : Word := e.slot.setWidth 32 ||| flagBit e.valid 7

/-- What a role map entry holds after a write of `v` (R33). -/
def roleOfWord (v : Word) : RoleEntry := { slot := v.extractLsb' 0 5, valid := v.getLsbD 7 }

/-- SLOT_IDX advances by 1 modulo 2^32 (R32). -/
def State.nextIdx (s : State) : State := { s with slotIdx := s.slotIdx + 1 }

/-- A slot read whose effect while idle is `idle`. While BUSY = 1 it is refused (R31, R32, R452), or it has that effect
on the slots, which hold their values from before the command (R69, R450): the rules contradict each other, and
the parameter says which of them the device follows (DESIGN CHOICE, log 21). -/
def State.readSlot (s idle : State) : State :=
  if s.busy = true ∧ s.params.busySlotRead = .refused then s.refuseRead else idle

/-- A read of SLOT_DATA (R32; while BUSY = 1 as `State.readSlot` says, log 21). -/
def State.readSlotData (s : State) : State :=
  s.readSlot <|
    match (s.slot s.slotSel)[s.slotIdx.toNat]? with
    | some x => (s.returnData x).nextIdx
    | none => s.refuseRead.nextIdx

/-- A read of SLOT_LEN (R31; while BUSY = 1 as `State.readSlot` says, log 21). -/
def State.readSlotLen (s : State) : State := s.readSlot (s.returnData (u32 (s.slot s.slotSel).length))

/-- A 32-bit read of a CSR (R21, R452). -/
def State.readCsr (s : State) (r : Csr) : State :=
  match r with
  | .id => s.returnData idConstant
  | .ctrl => s.returnData s.ctrlWord
  | .status => s.returnData s.statusWord
  | .errCode => s.returnData (s.errCode.setWidth 32)
  | .errInfo => s.returnData s.errInfo
  | .cmd => s.returnData s.cmd
  | .arg0 => s.returnData s.arg0
  | .arg1 => s.returnData s.arg1
  | .arg2 => s.returnData s.arg2
  | .result0 => s.returnData s.result0
  | .result1 => s.returnData s.result1
  | .inLen => s.returnData s.inLen
  | .nv => s.returnData s.nv
  | .nf => s.returnData s.nf
  | .ncorner => s.returnData s.ncorner
  | .nattr => s.returnData s.nattr
  | .ncomp => s.returnData s.ncompReg
  | .roleMap i => s.returnData (roleWord s.roleMap[i])
  | .slotSel => s.returnData (s.slotSel.setWidth 32)
  | .slotLen => s.readSlotLen
  | .slotIdx => s.returnData s.slotIdx
  | .slotData => s.readSlotData

/-- A write of CTRL while BUSY = 1: IRQ_EN is written, and GO, SOFT_RESET or another ENDIAN sets ACCERR (R22, R452). -/
def State.writeCtrlBusy (s : State) (v : Word) : State :=
  { s with
    irqEn := v.getLsbD 9
    accErr := s.accErr || (v.getLsbD 0 || v.getLsbD 1 || (v.getLsbD 8 != s.endian)) }

/-- A write of `v` to CTRL (R22; 40_commands.md R121; 70_reset_and_hazards.md R441): soft reset wins over GO. -/
def State.writeCtrl (s : State) (v : Word) : State :=
  if s.busy then s.writeCtrlBusy v
  else if v.getLsbD 1 then s.softReset
  else if v.getLsbD 0 then s.accept v
  else { s with endian := v.getLsbD 8, irqEn := v.getLsbD 9 }

/-- A write that is refused while BUSY = 1 (R452). -/
def State.unlessBusy (s : State) (t : State) : State := if s.busy then s.refuse else t

/-- A write of `v` to IN_LEN stores min(v, IN_BYTES) (R26). -/
def State.writeInLen (s : State) (v : Word) : State := { s with inLen := u32 (min v.toNat s.params.inBytes) }

/-- A write of `v` to SLOT_LEN (R31): shorter discards, longer adds zeros, above SLOT_CAP is refused. -/
def State.writeSlotLen (s : State) (v : Word) : State :=
  if s.params.slotCap < v.toNat then s.refuse
  else s.setSlot s.slotSel ((s.slot s.slotSel).take v.toNat ++ List.replicate (v.toNat - (s.slot s.slotSel).length) 0)

/-- A write of `v` to SLOT_DATA while idle (R32); it never changes the slot's length. -/
def State.writeSlotData (s : State) (v : Word) : State :=
  if s.slotIdx.toNat < (s.slot s.slotSel).length then
    (s.setSlot s.slotSel ((s.slot s.slotSel).set s.slotIdx.toNat v)).nextIdx
  else s.refuse.nextIdx

/-- A 32-bit write of `v` to a CSR (R21, R452). A write to a read-only register is ignored (R67). -/
def State.writeCsr (s : State) (r : Csr) (v : Word) : State :=
  match r with
  | .id => s
  | .ctrl => s.writeCtrl v
  | .status => s.writeStatus v
  | .errCode => s
  | .errInfo => s
  | .cmd => { s with cmd := v }
  | .arg0 => { s with arg0 := v }
  | .arg1 => { s with arg1 := v }
  | .arg2 => { s with arg2 := v }
  | .result0 => s
  | .result1 => s
  | .inLen => s.unlessBusy (s.writeInLen v)
  | .nv => s
  | .nf => s
  | .ncorner => s
  | .nattr => s
  | .ncomp => s
  | .roleMap i => s.unlessBusy { s with roleMap := s.roleMap.set i.val (roleOfWord v) i.isLt }
  | .slotSel => s.unlessBusy { s with slotSel := v.extractLsb' 0 5 }
  | .slotLen => s.unlessBusy (s.writeSlotLen v)
  | .slotIdx => s.unlessBusy { s with slotIdx := v }
  | .slotData => s.unlessBusy (s.writeSlotData v)

/-- Bytes written into IN from address `a` (R62). -/
def State.writeIn (s : State) (a : Nat) (bs : List Byte) : State := { s with mem := Memory.storeAll s.mem a bs }

/-- The u32 at IN address `a` as the host sees it: little-endian whatever ENDIAN is (R62). -/
def State.inWord (s : State) (a : Nat) : Word :=
  wordOfBytes (s.inByte a) (s.inByte (a + 1)) (s.inByte (a + 2)) (s.inByte (a + 3))

/-- A host read (R62, R63, R67). -/
def State.hostRead (s : State) (width : Width) (off : Nat) : State :=
  match s.target width off with
  | .csr r => s.readCsr r
  | .inByte a => s.returnData ((s.inByte a).setWidth 32)
  | .inWord a => s.returnData (s.inWord a)
  | .none => s.refuseRead

/-- A host write (R62, R63, R67). -/
def State.hostWrite (s : State) (width : Width) (off : Nat) (v : Word) : State :=
  match s.target width off with
  | .csr r => s.writeCsr r v
  | .inByte a => s.unlessBusy (s.writeIn a [byteOfWord v 0])
  | .inWord a => s.unlessBusy (s.writeIn a [byteOfWord v 0, byteOfWord v 1, byteOfWord v 2, byteOfWord v 3])
  | .none => s.refuse

/-- One host access, one atomic transition (R68). -/
def State.hostAccess (s : State) (a : HostAccess) : State :=
  match a with
  | .read width off => s.hostRead width off.toNat
  | .write width off v => s.hostWrite width off.toNat v

end Sys2Proof.Machine
end

