-- ==== Sys2Proof/Machine/Step.lean ====
section
/-! DEFINITION. One step of JTDEC: one transition of the total order of host accesses and command executions
(20_memory.md R71, 40_commands.md R120, R124). -/

namespace Sys2Proof.Machine

/-- The engine's execute transition (R122, R124): the latched command is decoded and executed, or rejected. An idle
engine does nothing (10_state.md R35). -/
def engineStep (s : State) : Result :=
  if s.busy then
    match s.fetch with
    | .ok i => exec i s
    | .error r => .next (s.rejectCommand r)
  else .next s

/-- One step (log 2): the next move of `inputs`; with no input left, the engine's turn, so an accepted command
completes after finitely many host accesses (70_reset_and_hazards.md R461). -/
def step (s : State) : Host.Outcome State Fault Refusal :=
  match s.inputs with
  | [] => engineStep s
  | .engineTurn :: rest => engineStep { s with inputs := rest }
  | .access a :: rest => .next (State.hostAccess { s with inputs := rest } a)
  | .powerOn :: rest => .next (State.powerOnReset { s with inputs := rest })

/-- `s` with an instruction of the opcode table placed as the next one executed (log 7). -/
def State.withFetchWord (s : State) (nbits w : Nat) : State := s.placeInstruction nbits w

end Sys2Proof.Machine
end

