-- ==== Sys2Proof/Safety.lean ====
section
/-! DEFINITION. The terms claims about JTDEC use: what a safe run keeps (10_state.md, 60_exceptions.md), which
slots an instruction names as destinations, what a MESH with valid = 1 looks like, and the layouts of bits and
words that statements about streams speak of. -/

namespace Sys2Proof.Machine

/-! Runs. -/

/-- An outcome that is no fault and no refusal. -/
def Safe (r : Result) : Prop := ∃ t, r = .next t

/-- The step of the machine when the host's next move is the access `a` (20_memory.md R68, R71). -/
def State.host (s : State) (a : HostAccess) : Result := step { s with inputs := .access a :: s.inputs }

/-- The step of the machine when the next move is a power-on reset (70_reset_and_hazards.md R440). -/
def State.powerOnNow (s : State) : Result := step { s with inputs := .powerOn :: s.inputs }

/-! The machine invariant. -/

/-- IN is in canonical form and lies inside IN_BYTES (10_state.md R29). -/
def State.MemInv (s : State) : Prop := Memory.wf s.mem = true ∧ ∀ c ∈ s.mem, c.1 < s.params.inBytes

/-- No slot is longer than SLOT_CAP (10_state.md R30). -/
def State.SlotInv (s : State) : Prop := ∀ k, (s.slot k).length ≤ s.params.slotCap

/-- IN_LEN and its latched copy are at most IN_BYTES (10_state.md R26). -/
def State.LenInv (s : State) : Prop := s.inLen.toNat ≤ s.params.inBytes ∧ s.lInLen.toNat ≤ s.params.inBytes

/-- The status flags: DONE and ERR are never both 1 (10_state.md R23); while a command runs neither is set, and the
latched ENDIAN and IN_LEN equal the registers (R37). -/
def State.FlagInv (s : State) : Prop :=
  ¬ (s.done = true ∧ s.err = true) ∧
    (s.busy = true → s.done = false ∧ s.err = false ∧ s.lEndian = s.endian ∧ s.lInLen = s.inLen)

/-- ERRCODE and ERRINFO: 0 while a command runs and after one that ended without error (10_state.md R24); an error
has a code. -/
def State.ErrInv (s : State) : Prop :=
  (s.busy = true ∨ s.done = true → s.errCode = 0 ∧ s.errInfo = 0) ∧ (s.err = true → s.errCode ≠ 0)

/-- MESH is empty while its valid flag is 0 (10_state.md R40). -/
def State.MeshEmptyInv (s : State) : Prop := s.meshValid = false → s.mesh = Mesh.empty

/-- What every step keeps. -/
structure State.Inv (s : State) : Prop where
  mem : s.MemInv
  slots : s.SlotInv
  len : s.LenInv
  flags : s.FlagInv
  errs : s.ErrInv
  meshEmpty : s.MeshEmptyInv

/-! MESH. -/

/-- The face ring of vertex `v`. -/
def Mesh.vring (m : Mesh) (v : Nat) : List (Option Nat) := ((m.vertices[v]?).map Vertex.vface).getD []

/-- The vertex ring of face `f`. -/
def Mesh.fring (m : Mesh) (f : Nat) : List (Option Nat) := ((m.faces[f]?).map Face.fvtx).getD []

/-- No face and no vertex has an empty slot, and every slot holds the id of an entry of the other table
(10_state.md R43). -/
def Mesh.Complete (m : Mesh) : Prop :=
  (∀ x ∈ m.faces, x.emptyCount = 0 ∧ ∀ v, some v ∈ x.fvtx → v < m.vertices.length) ∧
    (∀ x ∈ m.vertices, (∀ y ∈ x.vface, y ≠ none) ∧ ∀ f, some f ∈ x.vface → f < m.faces.length)

/-- Links are two-sided, and nothing is linked twice (10_state.md R43). -/
def Mesh.TwoSided (m : Mesh) : Prop :=
  ∀ v f, (m.vring v).count (some f) = (m.fring f).count (some v) ∧ (m.vring v).count (some f) ≤ 1

/-- A valid MESH is complete. -/
def State.MeshComplete (s : State) : Prop := s.meshValid = true → s.mesh.Complete

/-- A valid MESH has two-sided links. -/
def State.MeshTwoSided (s : State) : Prop := s.meshValid = true → s.mesh.TwoSided

/-! What an instruction names. -/

/-- The destination slots of an instruction (60_exceptions.md R410). A codec row's destination is that of the latched
stream command (log 6). -/
def destsOf (i : Instr) (s : State) : List SlotNo :=
  match i with
  | .nop => []
  | .decCdp2 a => [a]
  | .decCdp1 a => [a]
  | .predLag1 _ b => [b]
  | .predLag2 _ b => [b]
  | .predStride1 _ b => [b]
  | .predStride2 _ b => [b]
  | .predStripindex _ b => [b]
  | .predRamp _ b => [b]
  | .predXor1 _ b => [b]
  | .predXor2 _ b => [b]
  | .predNull _ b => [b]
  | .deqQuant _ b => [b]
  | .deqExpmant _ _ c => [c]
  | .deqDeering _ _ _ _ _ => [deeringX s.larg0, deeringY s.larg0, deeringZ s.larg0]
  | .vtxPack _ _ _ d => [d]
  | .topoRun => []
  | .topoEmit => s.emitSlots
  | .cdp2Null => [fieldA s.lcmd]
  | .cdp2Bitlength2 => [fieldA s.lcmd]
  | .cdp2Arithmetic => [fieldA s.lcmd]
  | .cdp2Chopper => [fieldA s.lcmd]
  | .cdp1Null => [fieldA s.lcmd]
  | .cdp1Bitlength1 => [fieldA s.lcmd]
  | .cdp1Huffman => [fieldA s.lcmd]
  | .cdp1Arithmetic => [fieldA s.lcmd]

/-- The instructions that draw NaNs (45_vertex.md R284). -/
def drawsNaN : Instr → Bool
  | .deqQuant _ _ => true
  | .deqDeering _ _ _ _ _ => true
  | _ => false

/-- The device registers and memory that no command writes, equal in `s` and `t`: CTRL, ACCERR, CMD, the arguments,
IN_LEN, ROLEMAP, the slot access registers, the latch, and every byte of IN (60_exceptions.md R410, 20_memory.md
R73); and the model's own fields but the draws. -/
structure SameHostState (s t : State) : Prop where
  params : t.params = s.params
  endian : t.endian = s.endian
  irqEn : t.irqEn = s.irqEn
  accErr : t.accErr = s.accErr
  cmd : t.cmd = s.cmd
  arg0 : t.arg0 = s.arg0
  arg1 : t.arg1 = s.arg1
  arg2 : t.arg2 = s.arg2
  inLen : t.inLen = s.inLen
  roleMap : t.roleMap = s.roleMap
  slotSel : t.slotSel = s.slotSel
  slotIdx : t.slotIdx = s.slotIdx
  inByte : ∀ a, t.inByte a = s.inByte a
  lcmd : t.lcmd = s.lcmd
  larg0 : t.larg0 = s.larg0
  larg1 : t.larg1 = s.larg1
  larg2 : t.larg2 = s.larg2
  lEndian : t.lEndian = s.lEndian
  lInLen : t.lInLen = s.lInLen
  inputs : t.inputs = s.inputs
  hostData : t.hostData = s.hostData
  epoch : t.epoch = s.epoch

/-! Layouts. -/

/-- An access the address map gives a meaning (20_memory.md R61 to R63), written out from the map. -/
def Mapped (inBytes : Nat) (width : Width) (off : Nat) : Prop :=
  (width = .w32 ∧ off % 4 = 0 ∧ (off ≤ 0x040 ∨ (0x080 ≤ off ∧ off ≤ 0x0C0) ∨ (0x100 ≤ off ∧ off ≤ 0x10C))) ∨
    (width = .w8 ∧ 0x01000000 ≤ off ∧ off < 0x01000000 + inBytes) ∨
    (width = .w32 ∧ off % 4 = 0 ∧ 0x01000000 ≤ off ∧ off + 3 < 0x01000000 + inBytes)

/-- The `n` u32 words from IN address `p` on. -/
def wordsAt (v : InView) (p n : Nat) : List Word := (List.range n).map fun i => v.word (p + 4 * i)

/-- The `n` low bits of `x`, most significant first (41_bitreader.md R143). -/
def msbBits (n x : Nat) : List Bool := (List.range n).map fun i => x.testBit (n - 1 - i)

/-- From bit `k` on, the codetext words `ws` hold the bits `bits`: bit k is bit 31 - k mod 32 of word k div 32
(30_encoding.md R98, 41_bitreader.md R142). -/
def BitsFrom (ws : List Word) (k : Nat) (bits : List Bool) : Prop :=
  ∀ j, j < bits.length → (ws.getD ((k + j) / 32) 0).getLsbD (31 - (k + j) % 32) = bits.getD j false

/-- The codetext (`ws`, `len`) holds exactly the bits `bits` (41_bitreader.md R140, R142). -/
def HoldsBits (ws : List Word) (len : Nat) (bits : List Bool) : Prop := len = bits.length ∧ BitsFrom ws 0 bits

/-- The codetext (`ws`, `len`) starts with the bits `bits`. -/
def StartsWith (ws : List Word) (len : Nat) (bits : List Bool) : Prop := bits.length ≤ len ∧ BitsFrom ws 0 bits

/-- From IN address `q` on, the engine's words hold the bits `bits`, most significant first (41_bitreader.md R146). -/
def HoldsAt (v : InView) (q : Nat) (bits : List Bool) : Prop :=
  ∀ k, k < bits.length → (v.word (q + 4 * (k / 32))).getLsbD (31 - k % 32) = bits.getD k false

/-- The value of a signed field of `n` bits holding `x`; 0 for a field of no bits (41_bitreader.md R144). -/
def fieldValue (n x : Nat) : Int := if n = 0 then 0 else sext n x

/-- One group of a variable-width Bitlength2 codetext as written: the escape deltas, the delta that ends the chain, and
the fields of the run (43_codecs.md R213). -/
structure Bl2Group where
  escapes : List Nat
  delta : Nat
  fields : List Nat

/-- The deltas of a group as written in `cw` bits; none when cw = 0. -/
def Bl2Group.deltas (cw : Nat) (g : Bl2Group) : List Nat := if cw = 0 then [] else g.escapes ++ [g.delta]

/-- The running width after a group's deltas, `w` before them. -/
def Bl2Group.width (cw : Nat) (w : Int) (g : Bl2Group) : Int := w + ((g.deltas cw).map (sext cw)).sum

/-- The bits of a group: its deltas, its run length, and its fields, which have no bits at a width of 0 or less. -/
def Bl2Group.bits (cw rl : Nat) (w : Int) (g : Bl2Group) : List Bool :=
  (g.deltas cw).flatMap (msbBits cw) ++ msbBits rl g.fields.length ++
    g.fields.flatMap (msbBits (g.width cw w).toNat)

/-- The values of a group: the mean, or the mean plus the signed field where the width is positive (R213, R215). -/
def Bl2Group.vals (cw : Nat) (mean w : Int) (g : Bl2Group) : List Word :=
  g.fields.map fun x => if g.width cw w ≤ 0 then wrap32 mean else wrap32 (mean + sext (g.width cw w).toNat x)

/-- The deltas of a group are a chain: every one but the last is the least or the greatest value of `cw` bits. -/
def Bl2Group.Chain (cw : Nat) (g : Bl2Group) : Prop :=
  0 < cw → (∀ e ∈ g.escapes, e = 2 ^ (cw - 1) ∨ e = 2 ^ (cw - 1) - 1) ∧ g.delta < 2 ^ cw ∧
    g.delta ≠ 2 ^ (cw - 1) ∧ g.delta ≠ 2 ^ (cw - 1) - 1

/-- A group fits its layout: a chain of deltas, a run length of `rl` bits, a width of at most 32 where there are fields,
fields of that width, and at least one bit (R213, R214). -/
def Bl2Group.Fits (cw rl : Nat) (w : Int) (g : Bl2Group) : Prop :=
  g.Chain cw ∧ g.fields.length < 2 ^ rl ∧ (0 < cw ∨ 0 < rl) ∧ (g.fields ≠ [] → g.width cw w ≤ 32) ∧
    (0 < g.width cw w → ∀ x ∈ g.fields, x < 2 ^ (g.width cw w).toNat)

/-- The running width after groups. -/
def bl2Width (cw : Nat) : Int → List Bl2Group → Int
  | w, [] => w
  | w, g :: gs => bl2Width cw (g.width cw w) gs

/-- The bits of groups, one after the other. -/
def bl2Bits (cw rl : Nat) : Int → List Bl2Group → List Bool
  | _, [] => []
  | w, g :: gs => g.bits cw rl w ++ bl2Bits cw rl (g.width cw w) gs

/-- The values of groups, in order. -/
def bl2Vals (cw : Nat) (mean : Int) : Int → List Bl2Group → List Word
  | _, [] => []
  | w, g :: gs => g.vals cw mean w ++ bl2Vals cw mean (g.width cw w) gs

/-- Every group fits its layout at the width the groups before it leave. -/
def bl2Fits (cw rl : Nat) : Int → List Bl2Group → Prop
  | _, [] => True
  | w, g :: gs => g.Fits cw rl w ∧ bl2Fits cw rl (g.width cw w) gs

/-- The first bits of a variable-width Bitlength2 codetext: mode 1, the mean, cw and rl (R211, R213). -/
def bl2Header (mean cw rl : Nat) : List Bool := [true] ++ msbBits 32 mean ++ msbBits 3 cw ++ msbBits 3 rl

/-- The fields of one context entry as written (42_streams.md R180). -/
structure EntryFields where
  sym : Nat
  occ : Nat
  val : Nat
  next : Nat

/-- The fields of a probability context as written: the widths, the least value, and the entries (R180). -/
structure ContextFields where
  sb : Nat
  ob : Nat
  vb : Nat
  nb : Nat
  minV : Nat
  entries : List EntryFields

/-- The header bits of a context whose count has `w0` bits and whose next-context width has `w4` bits: 16 and 0 for
Mark 2, 32 and 6 for Mark 1 (R180, 30_encoding.md R96). -/
def contextHeader (w0 w4 cnt sb ob vb nb minV : Nat) : List Bool :=
  msbBits w0 cnt ++ msbBits 6 sb ++ msbBits 6 ob ++ msbBits 6 vb ++ msbBits w4 nb ++ msbBits 32 minV

/-- The bits of a whole context. -/
def ContextFields.bits (w0 w4 : Nat) (c : ContextFields) : List Bool :=
  contextHeader w0 w4 c.entries.length c.sb c.ob c.vb c.nb c.minV ++
    c.entries.flatMap fun e => msbBits c.sb e.sym ++ msbBits c.ob e.occ ++ msbBits c.vb e.val ++ msbBits c.nb e.next

/-- A context's fields fit their widths, and its count and widths are legal (R180, R181). -/
def ContextFields.Fits (c : ContextFields) : Prop :=
  c.sb ≤ 32 ∧ c.ob ≤ 32 ∧ c.vb ≤ 32 ∧ c.nb ≤ 32 ∧ c.minV < 2 ^ 32 ∧ 1 ≤ c.entries.length ∧ c.entries.length ≤ 65535 ∧
    ∀ e ∈ c.entries, e.sym < 2 ^ c.sb ∧ e.occ < 2 ^ c.ob ∧ e.val < 2 ^ c.vb ∧ e.next < 2 ^ c.nb

/-- The entries a context's fields stand for: the symbol with its bias of 2 taken off, and the value above the signed
least value (R180). -/
def ContextFields.entriesRead (c : ContextFields) : List CtxEntry :=
  c.entries.map fun e =>
    { symbol := (e.sym : Int) - 2, occ := e.occ, val := wrap32 (e.val + sext 32 c.minV), next := e.next }

/-- The input roles of TOPO_RUN hold exactly the streams of the list, the others being unassigned (46_topology.md
R311). -/
def State.RoleStreams (s : State) (streams : List (Role × List Word)) : Prop :=
  ∀ r : Role, r.val ≤ 14 → s.roleStream r = streams.lookup r

/-- TOPO_RUN ends with this error and ERRINFO, MESH discarded and nothing else changed (46_topology.md R342). -/
def State.TopoFails (s : State) (code : ErrCode) (info : Word) : Prop :=
  exec .topoRun s = .next ((s.recordError code info).discardMesh)

/-- The face rings of a mesh in which every slot is filled. -/
def filledRings (rings : List (List Nat)) : List (List (Option Nat)) := rings.map fun r => r.map some

/-- The values `v` rebuilt from the residuals `r`: as many, the first four copied, and each later one given by `f`
from its index, its residual and the values 1, 2 and 4 places before it (44_predictors.md R261, R262). -/
def Rebuilt (r v : List Word) (f : Nat → Word → Word → Word → Word → Word) : Prop :=
  v.length = r.length ∧
    ∀ i, i < r.length →
      (i < 4 → v.getD i 0 = r.getD i 0) ∧
      (4 ≤ i → v.getD i 0 = f i (r.getD i 0) (v.getD (i - 1) 0) (v.getD (i - 2) 0) (v.getD (i - 4) 0))

/-- A stream command's ending: slot `a` gets `vals`, RESULT0 the offset `p` just past the stream, RESULT1 the number
of values, and the command is done (42_streams.md R161). -/
def streamDone (s : State) (a : SlotNo) (vals : List Word) (p : Nat) : Result :=
  .next ((s.setSlot a vals).complete (u32 p) (u32 vals.length))

end Sys2Proof.Machine
end

