-- ==== Sys2Proof/Certificates/Slice0/Obligations.lean ====
section
/-! DEFINITION. The statements for the provers, one Prop each, from the numbered rules of spec/. -/

open Sys2Proof Sys2Proof.Machine

/-- Decoding inverts encoding, for every instruction and every word (R80, R82, R83, R92, R95, R100; tier 3,
derived). A command word or codec byte decodes to an instruction exactly when it is that instruction's encoding.
So every instruction, with every operand at every value its fields admit, comes back from its encoding with no
operand bit dropped; no two encodings meet; and a word with a non-zero unused field decodes to none. -/
def Obligations.DecodeEncode : Prop :=
  ∀ (e : Encoding) (i : Instr), decode e = .ok i ↔ encode i = e

/-- The worked encodings decode to the commands they stand for (R80, R83, R92, R95; tier 1, derived). The four
worked command words of R83, TOPO_EMIT, and a codec byte of each stream format decode to the instructions the
tables name. -/
def Obligations.WorkedEncodings : Prop :=
  decodeCmd 0x00000301 = .ok (.decCdp2 3) ∧ decodeCmd 0x60004003 = .ok (.predXor1 0 2) ∧
    decodeCmd 0x04A0E607 = .ok (.vtxPack 6 7 8 9) ∧ decodeCmd 0x61882006 = .ok (.deqDeering 0 1 2 3 6) ∧
    decodeCmd 0x00000009 = .ok .topoEmit ∧ decodeCdp2 0x04 = .ok .cdp2Chopper ∧ decodeCdp1 0x02 = .ok .cdp1Huffman

/-- Opcodes 0x0A to 0xFF, and illegal M values of PRED and DEQ_DEERING, fail (R84; tier 2, stated). When the latched
command has an opcode from 0x0A on, the step records E_BADCMD and changes no slot and no MESH. PRED with M = 9
to 15 and DEQ_DEERING with M = 14 or 15 record E_BADARG and empty their destination slots. -/
def Obligations.IllegalOpcodesFail : Prop :=
  ∀ s : State, s.busy = true → s.inputs = [] →
    (0x0A ≤ (fieldOp s.lcmd).toNat → step s = .next (s.recordError .badCmd 0)) ∧
    (fieldOp s.lcmd = 0x03 → fieldC s.lcmd = 0 → fieldD s.lcmd = 0 → 9 ≤ (fieldM s.lcmd).toNat →
      step s = .next ((s.setSlot (fieldB s.lcmd) []).recordError .badArg 0)) ∧
    (fieldOp s.lcmd = 0x06 → 14 ≤ (fieldM s.lcmd).toNat →
      step s = .next ((((s.setSlot (deeringX s.larg0) []).setSlot (deeringY s.larg0) []).setSlot
        (deeringZ s.larg0) []).recordError .badArg 0))

/-- A command word with a non-zero unused field fails with E_BADCMD (R82, R122, R310, R342, R410; tier 2, derived).
When the latched word has a legal opcode but is the encoding of no instruction, and is not a PRED with only an
illegal type, the step records E_BADCMD and empties no slot; a malformed TOPO_RUN word also discards MESH, which
is the model's reading of R310 and R342 against vector C-6 (log 8). -/
def Obligations.NonzeroUnusedFieldFails : Prop :=
  ∀ s : State, s.busy = true → s.inputs = [] → (fieldOp s.lcmd).toNat ≤ 9 →
    (∀ i, encode i ≠ .cmd s.lcmd) →
    ¬ (fieldOp s.lcmd = 0x03 ∧ fieldC s.lcmd = 0 ∧ fieldD s.lcmd = 0) →
    step s = .next (if fieldOp s.lcmd = 0x08 then (s.recordError .badCmd 0).discardMesh
      else s.recordError .badCmd 0)

/-- A step of the engine runs the decoded latched command (R120, R122, R124, R35; tier 1, derived). When the latched
command word decodes to an instruction and it is the engine's turn, the step is the execution of that
instruction, the turn taken off the coming moves where it stood there. An idle engine leaves the state as it is.
The moves are the model's (log 2). -/
def Obligations.StepRunsDecodedInstruction : Prop :=
  (∀ (s : State) (i : Instr), s.busy = true → decodeCmd s.lcmd = .ok i →
      (s.inputs = [] → step s = exec i s) ∧
      ∀ rest, s.inputs = .engineTurn :: rest → step s = exec i { s with inputs := rest }) ∧
    ∀ s : State, s.busy = false → s.inputs = [] → step s = .next s

/-- A stream command runs the codec its codec byte names (R90, R92, R95, R163, R170; tier 2, derived). On a latched
DEC_CDP2 or DEC_CDP1, whatever its stream, the command does exactly what the codec instruction of the stream's
codec byte does (the byte 4 past the start in a CDP2 stream, the first byte in a CDP1 stream). Codec bytes as
instructions are the model's (log 6). -/
def Obligations.CodecByteSelectsCodec : Prop :=
  ∀ (s : State) (a : SlotNo) (i : Instr), fieldA s.lcmd = a →
    (decodeCdp2 (s.inView.byte (s.larg0.toNat + 4)) = .ok i → exec (.decCdp2 a) s = exec i s) ∧
    (decodeCdp1 (s.inView.byte s.larg0.toNat) = .ok i → exec (.decCdp1 a) s = exec i s)

/-- NOP completes with both results 0 and changes nothing else (R126; tier 2, stated). NOP answers the state with
RESULT0 = RESULT1 = 0, DONE set and BUSY cleared, and nothing else changed. A NOP word with a non-zero field
fails with E_BADCMD. -/
def Obligations.NopCompletes : Prop :=
  (∀ s : State, exec .nop s = .next { s with result0 := 0, result1 := 0, done := true, busy := false }) ∧
    ∀ s : State, s.busy = true → s.inputs = [] → fieldOp s.lcmd = 0x00 →
      (s.lcmd = 0 → step s = exec .nop s) ∧ (s.lcmd ≠ 0 → step s = .next (s.recordError .badCmd 0))

/-- Every instruction, in every state, ends with a next state (R127, R344, R214; tier 2, derived). For every
instruction and every state, execution answers a next state: no command hangs, faults or is refused. In
particular no loop of TOPO_RUN uses up the bound the model gives it (log 9), so the fault engineStuck is never
raised. -/
def Obligations.EveryCommandTerminates : Prop :=
  ∀ (i : Instr) (s : State), ∃ t, exec i s = .next t

/-- After the coming moves and one step more, no command is running (R461, R127; tier 2, derived). From every state,
the machine runs through its finite list of coming moves and one engine step without a fault or refusal, and is
then idle: an accepted command completes after finitely many host accesses. The list of moves is the model's
(log 2). -/
def Obligations.AcceptedCommandCompletes : Prop :=
  ∀ s : State, ∃ t, Host.Core.run Sys2Proof.core (s.inputs.length + 1) s = .next t ∧ State.busy t = false

/-- A command ends idle, either done, or with exactly the error entry (R125, R410, R129, R413, R25; tier 2,
derived). When an instruction gives a next state, BUSY is 0 and one of two endings holds: DONE is set and ERR,
ERRCODE and ERRINFO are as before; or the state is the old one with the destination slots emptied, RESULT0 =
RESULT1 = 0, one of the 19 codes and an info recorded, ERR set and BUSY cleared, and MESH discarded for
TOPO_RUN, nothing else changed. -/
def Obligations.CommandEndsDoneOrErrorEntry : Prop :=
  ∀ (i : Instr) (s t : State), exec i s = .next t →
    t.busy = false ∧
      ((t.done = true ∧ t.err = s.err ∧ t.errCode = s.errCode ∧ t.errInfo = s.errInfo) ∨
        ∃ (c : ErrCode) (x : Word),
          t = if i = .topoRun then (s.recordError c x).discardMesh
            else (s.emptySlots (destsOf i s)).recordError c x)

/-- What every instruction leaves unchanged (R129, R40, R73, R70, R20; tier 2, derived). When any instruction gives
a next state: every slot that is not one of its destinations, CTRL, ACCERR, CMD, the arguments, IN_LEN, ROLEMAP,
the slot access registers, the latch, and every byte of IN are unchanged; MESH is unchanged unless it is
TOPO_RUN; and the NaN draws are unchanged unless it is DEQ_QUANT or DEQ_DEERING. -/
def Obligations.InstructionFrame : Prop :=
  ∀ (i : Instr) (s t : State), exec i s = .next t →
    SameHostState s t ∧ (∀ k, k ∉ destsOf i s → t.slot k = s.slot k) ∧
      (i ≠ .topoRun → t.mesh = s.mesh ∧ t.meshValid = s.meshValid) ∧
      (drawsNaN i = false → t.draws = s.draws)

/-- No instruction depends on IN at or above IN_LEN, and none writes IN (R29, R65, R73; tier 2, derived). If two
contents of IN agree on every byte below the latched IN_LEN, every instruction gives the same next state on
both, each keeping its own IN unchanged. -/
def Obligations.EngineReadsOnlyBelowInLen : Prop :=
  ∀ (i : Instr) (s t : State) (m : Memory),
    (∀ a, a < s.lInLen.toNat → State.inByte { s with mem := m } a = s.inByte a) → exec i s = .next t →
    t.mem = s.mem ∧ exec i { s with mem := m } = .next { t with mem := m }

/-- No instruction depends on CMD, ARGn, ENDIAN or IN_LEN after they are latched (R36, R37, R451; tier 2, derived).
Changing CMD, ARG0, ARG1, ARG2, CTRL.ENDIAN, CTRL.IRQ_EN, IN_LEN, SLOT_SEL, SLOT_IDX and ACCERR before the
execute step changes nothing in its outcome but those registers themselves. -/
def Obligations.EngineExecutesTheLatchOnly : Prop :=
  ∀ (i : Instr) (s t : State) (c x0 x1 x2 n ix : Word) (en irq acc : Bool) (sel : SlotNo), exec i s = .next t →
    exec i { s with cmd := c, arg0 := x0, arg1 := x1, arg2 := x2, inLen := n, endian := en, irqEn := irq,
                    accErr := acc, slotSel := sel, slotIdx := ix } =
      .next { t with cmd := c, arg0 := x0, arg1 := x1, arg2 := x2, inLen := n, endian := en, irqEn := irq,
                     accErr := acc, slotSel := sel, slotIdx := ix }

/-- Every step keeps the machine invariant (R23, R24, R26, R29, R30, R31, R37, R40; tier 3, derived). From every
state that meets the invariant, a step gives a state that meets it: IN stays in canonical form inside IN_BYTES,
no slot is longer than SLOT_CAP, IN_LEN is at most IN_BYTES, DONE and ERR are never both 1, the latched ENDIAN
and IN_LEN equal the registers while a command runs, ERRCODE and ERRINFO are 0 while a command runs or after it
ended without error, and MESH is empty while invalid. -/
def Obligations.InvariantKept : Prop :=
  ∀ s t : State, s.Inv → step s = .next t → t.Inv

/-- The state after reset meets the invariants (R440, R40, R20; tier 1, derived). The machine invariant and the two
MESH invariants that every step keeps hold of the state after power-on reset, whose MESH is empty and not valid. -/
def Obligations.InvariantsAtReset : Prop :=
  State.reset.Inv ∧ State.reset.MeshComplete ∧ State.reset.MeshTwoSided ∧ State.reset.meshValid = false ∧
    State.reset.mesh = Mesh.empty

/-- A valid MESH has no empty slot, and every step keeps it so (R43, R341, R322; tier 3, derived). From every state
whose MESH, if valid, has no empty slot in any face or vertex ring and only ids of existing faces and vertices,
a step gives such a state. TOPO_RUN is the only step that makes MESH valid, so this says that a TOPO_RUN that
succeeds builds a complete mesh. -/
def Obligations.MeshCompleteKept : Prop :=
  ∀ s t : State, s.MeshComplete → step s = .next t → t.MeshComplete

/-- A valid MESH has two-sided links and no id twice in a ring, and every step keeps it so (R43, R324; tier 3,
derived). From every state whose MESH, if valid, has each face in a vertex ring exactly as often as the vertex
in the face's ring, and at most once, a step gives such a state. -/
def Obligations.MeshTwoSidedKept : Prop :=
  ∀ s t : State, s.MeshTwoSided → step s = .next t → t.MeshTwoSided

/-- Only TOPO_RUN and the two resets change MESH (R40, R454; tier 2, derived). When a step changes MESH or its valid
flag, the step was a power-on reset, a CTRL write with SOFT_RESET = 1 while idle, or the execution of a latched
command whose opcode is TOPO_RUN's. -/
def Obligations.OnlyTopoRunAndResetsChangeMesh : Prop :=
  ∀ s t : State, step s = .next t → t.mesh ≠ s.mesh ∨ t.meshValid ≠ s.meshValid →
    (∃ rest, s.inputs = .powerOn :: rest) ∨
      (∃ v rest, s.inputs = .access (.write .w32 0x004 v) :: rest ∧ v.getLsbD 1 = true ∧ s.busy = false) ∨
      ((s.inputs = [] ∨ ∃ rest, s.inputs = .engineTurn :: rest) ∧ s.busy = true ∧ fieldOp s.lcmd = 0x08)

/-- Power-on reset sets every piece of state to its reset value, at any time (R440, R442, R29; tier 2, derived). A
power-on reset gives, whatever the state was: every control and status register 0, every role unassigned, every
slot empty, the command latch 0, MESH empty and invalid, the five mesh counts and the interrupt 0, the engine
idle, and every byte of IN the free value of the new power-on (its index is the model's, log 3). -/
def Obligations.PowerOnReset : Prop :=
  ∀ s : State, ∃ t, s.powerOnNow = .next t ∧
    t.endian = false ∧ t.irqEn = false ∧ t.statusWord = 0 ∧ t.errCode = 0 ∧ t.errInfo = 0 ∧ t.cmd = 0 ∧
    t.arg0 = 0 ∧ t.arg1 = 0 ∧ t.arg2 = 0 ∧ t.result0 = 0 ∧ t.result1 = 0 ∧ t.inLen = 0 ∧ t.nv = 0 ∧ t.nf = 0 ∧
    t.ncorner = 0 ∧ t.nattr = 0 ∧ t.ncompReg = 0 ∧ (∀ r : Role, t.roleMap[r] = { slot := 0, valid := false }) ∧ (∀ r, t.roleSlot r = none) ∧ t.slotSel = 0 ∧ t.slotIdx = 0 ∧
    (∀ k, t.slot k = []) ∧ t.lcmd = 0 ∧ t.larg0 = 0 ∧ t.larg1 = 0 ∧ t.larg2 = 0 ∧ t.mesh = Mesh.empty ∧
    t.irq = false ∧ t.busy = false ∧ ∀ a, t.inByte a = Config.powerOnByte (s.epoch + 1) a

/-- A CTRL write with SOFT_RESET = 1 resets all but IN while idle, and is refused while busy (R441, R22, R452, R440;
tier 2, derived). While BUSY = 0 the write gives the power-on reset state, whatever GO is, with IN unchanged.
That the parameters, the coming moves, the last read value, the IN draw index and the NaN draws are kept is the
model's (logs 1, 2, 3, 4, 11), and so is that the latched ENDIAN and IN_LEN are 0 (log 12). While BUSY = 1 it is
refused: ACCERR is set, IRQ_EN is written as R22 and R452 say, and nothing else changes. -/
def Obligations.SoftReset : Prop :=
  ∀ (s : State) (v : Word), v.getLsbD 1 = true →
    (s.busy = false → s.host (.write .w32 0x004 v) = .next { State.reset with
        params := s.params, mem := s.mem, inputs := s.inputs, hostData := s.hostData, epoch := s.epoch,
        draws := s.draws }) ∧
      (s.busy = true → s.host (.write .w32 0x004 v) = .next { s with irqEn := v.getLsbD 9, accErr := true })

/-- A CTRL write with GO = 1 latches the command while idle, and is refused while busy (R121; tier 2, stated). While
BUSY = 0 the write sets ENDIAN and IRQ_EN, latches CMD, ARG0 to ARG2, ENDIAN and IN_LEN, clears DONE, ERR,
ERRCODE and ERRINFO and sets BUSY, and changes nothing else. While BUSY = 1 it sets ACCERR and IRQ_EN and
changes nothing else. -/
def Obligations.GoAccept : Prop :=
  ∀ (s : State) (v : Word), v.getLsbD 0 = true → v.getLsbD 1 = false →
    s.host (.write .w32 0x004 v) = .next (
      if s.busy then { s with irqEn := v.getLsbD 9, accErr := true }
      else { s with
        endian := v.getLsbD 8, irqEn := v.getLsbD 9, lcmd := s.cmd, larg0 := s.arg0, larg1 := s.arg1,
        larg2 := s.arg2, lEndian := v.getLsbD 8, lInLen := s.inLen, done := false, err := false, errCode := 0,
        errInfo := 0, busy := true })

/-- An access outside the address map is refused: reads 0, writes nothing, sets ACCERR (R61, R62, R63, R67; tier 2,
derived). An access at an unmapped offset, or of a width or alignment its region does not take, returns 0 if it
is a read, changes nothing else, and sets ACCERR. Where a read's value is kept is the model's (log 11). -/
def Obligations.UnmappedAccessRefused : Prop :=
  ∀ (s : State) (width : Width) (off v : Word), ¬ Mapped s.params.inBytes width off.toNat →
    s.host (.read width off) = .next { s with accErr := true, hostData := 0 } ∧
      s.host (.write width off v) = .next { s with accErr := true }

/-- Host accesses to the IN window (R62; tier 2, stated). At IN address a: an 8-bit read below IN_BYTES returns
IN[a]; an aligned 32-bit read with a + 3 < IN_BYTES returns its four bytes, little-endian whatever ENDIAN is;
the writes, while idle, change exactly those bytes of IN to the bytes of v and nothing else; while BUSY = 1 the
writes are refused and the reads are not; a 16-bit access, a misaligned 32-bit access and a 32-bit access with a
+ 3 >= IN_BYTES are refused. -/
def Obligations.InWindowAccess : Prop :=
  ∀ (s : State) (off v : Word), 0x01000000 ≤ off.toNat →
    (off.toNat - 0x01000000 < s.params.inBytes →
      s.host (.read .w8 off) = .next { s with hostData := (s.inByte (off.toNat - 0x01000000)).setWidth 32 } ∧
      (s.busy = true → s.host (.write .w8 off v) = .next { s with accErr := true }) ∧
      (s.busy = false → ∃ t, s.host (.write .w8 off v) = .next t ∧ t = { s with mem := t.mem } ∧
        ∀ x, t.inByte x = if x = off.toNat - 0x01000000 then v.extractLsb' 0 8 else s.inByte x)) ∧
    (off.toNat % 4 = 0 → off.toNat - 0x01000000 + 3 < s.params.inBytes →
      s.host (.read .w32 off) = .next { s with
        hostData := s.inByte (off.toNat - 0x01000000 + 3) ++ s.inByte (off.toNat - 0x01000000 + 2) ++
            s.inByte (off.toNat - 0x01000000 + 1) ++ s.inByte (off.toNat - 0x01000000) } ∧
      (s.busy = true → s.host (.write .w32 off v) = .next { s with accErr := true }) ∧
      (s.busy = false → ∃ t, s.host (.write .w32 off v) = .next t ∧ t = { s with mem := t.mem } ∧
        ∀ x, t.inByte x =
          if off.toNat - 0x01000000 ≤ x ∧ x ≤ off.toNat - 0x01000000 + 3 then
            v.extractLsb' (8 * (x - (off.toNat - 0x01000000))) 8
          else s.inByte x)) ∧
    s.host (.read .w16 off) = .next { s with accErr := true, hostData := 0 } ∧
    s.host (.write .w16 off v) = .next { s with accErr := true } ∧
    (off.toNat % 4 ≠ 0 ∨ s.params.inBytes ≤ off.toNat - 0x01000000 + 3 →
      s.host (.read .w32 off) = .next { s with accErr := true, hostData := 0 } ∧
      s.host (.write .w32 off v) = .next { s with accErr := true })

/-- SLOT_SEL, SLOT_LEN, SLOT_IDX and SLOT_DATA (R31, R32, R69; tier 2, derived). While idle: SLOT_SEL takes bits
4:0; SLOT_LEN reads the selected slot's length; a SLOT_LEN write of v up to SLOT_CAP gives the slot length v,
its old elements below v kept and new ones 0; a larger v is dropped and sets ACCERR; SLOT_IDX takes v. A
SLOT_DATA read at an index inside the slot returns the element and a write replaces it, the length unchanged;
outside it a read returns 0, a write changes no slot, and ACCERR is set; in each case SLOT_IDX advances by 1
modulo 2^32. While BUSY = 1 the writes are dropped and set ACCERR; reads of SLOT_LEN and SLOT_DATA return 0 and
set ACCERR, SLOT_IDX unchanged, on a device that follows R31 and R32, and are as while idle, on the slots as
they were before the command, on one that follows R69. Nothing else changes. That the model holds both devices
apart by a parameter is its choice between contradicting rules (log 21), and where a read value is kept is the
model's (log 11). -/
def Obligations.SlotAccess : Prop :=
  ∀ (s : State) (v : Word),
    (s.busy = true →
      (∀ o ∈ [0x100#32, 0x104#32, 0x108#32, 0x10C#32],
        s.host (.write .w32 o v) = .next { s with accErr := true }) ∧
      (s.params.busySlotRead = .refused →
        ∀ o ∈ [0x104#32, 0x10C#32], s.host (.read .w32 o) = .next { s with accErr := true, hostData := 0 })) ∧
    (s.busy = false ∨ s.params.busySlotRead = .valueBefore →
      s.host (.read .w32 0x104) = .next { s with hostData := u32 (s.slot s.slotSel).length } ∧
      (∀ x, (s.slot s.slotSel)[s.slotIdx.toNat]? = some x →
        s.host (.read .w32 0x10C) = .next { s with hostData := x, slotIdx := s.slotIdx + 1 }) ∧
      ((s.slot s.slotSel).length ≤ s.slotIdx.toNat →
        s.host (.read .w32 0x10C) = .next { s with hostData := 0, accErr := true, slotIdx := s.slotIdx + 1 })) ∧
    (s.busy = false →
      s.host (.write .w32 0x100 v) = .next { s with slotSel := v.extractLsb' 0 5 } ∧
      s.host (.write .w32 0x108 v) = .next { s with slotIdx := v } ∧
      (s.params.slotCap < v.toNat → s.host (.write .w32 0x104 v) = .next { s with accErr := true }) ∧
      (v.toNat ≤ s.params.slotCap → ∃ vs, s.host (.write .w32 0x104 v) = .next (s.setSlot s.slotSel vs) ∧
        vs.length = v.toNat ∧
        ∀ i, i < v.toNat →
          vs.getD i 0 = if i < (s.slot s.slotSel).length then (s.slot s.slotSel).getD i 0 else 0) ∧
      (s.slotIdx.toNat < (s.slot s.slotSel).length →
        s.host (.write .w32 0x10C v) =
          .next (State.setSlot { s with slotIdx := s.slotIdx + 1 } s.slotSel
            ((s.slot s.slotSel).set s.slotIdx.toNat v)) ∧
        ((s.slot s.slotSel).set s.slotIdx.toNat v).length = (s.slot s.slotSel).length) ∧
      ((s.slot s.slotSel).length ≤ s.slotIdx.toNat →
        s.host (.write .w32 0x10C v) = .next { s with accErr := true, slotIdx := s.slotIdx + 1 }))

/-- Reads and writes of IN_LEN and ROLEMAP[r] (R26, R33, R21, R452; tier 2, derived). While idle, a write of v to
IN_LEN stores min(v, IN_BYTES), and a write to ROLEMAP[r] sets that entry's SLOT to bits 4:0 and its VALID to
bit 7, and neither changes anything else. IN_LEN reads what it holds, ROLEMAP[r] its fields with every reserved
bit 0. While BUSY = 1 the writes are dropped and set ACCERR. -/
def Obligations.InLenAndRoleMapAccess : Prop :=
  ∀ (s : State) (r : Role) (v : Word),
    (s.busy = false → ∃ t, s.host (.write .w32 0x02C v) = .next t ∧ t = { s with inLen := t.inLen } ∧
        t.inLen.toNat = min v.toNat s.params.inBytes) ∧
    (s.busy = true → s.host (.write .w32 0x02C v) = .next { s with accErr := true }) ∧
    s.host (.read .w32 0x02C) = .next { s with hostData := s.inLen } ∧
    s.host (.read .w32 (u32 (0x080 + 4 * r.val))) = .next { s with
      hostData := s.roleMap[r].slot.setWidth 32 ||| if s.roleMap[r].valid then 0x80 else 0 } ∧
    (s.busy = true → s.host (.write .w32 (u32 (0x080 + 4 * r.val)) v) = .next { s with accErr := true }) ∧
    (s.busy = false → ∃ t, s.host (.write .w32 (u32 (0x080 + 4 * r.val)) v) = .next t ∧
      t = { s with roleMap := t.roleMap } ∧
      ∀ q : Role, t.roleMap[q] =
        if q = r then { slot := v.extractLsb' 0 5, valid := v.getLsbD 7 } else s.roleMap[q])

/-- What is refused while BUSY = 1, and what is not (R452, R69, R450; tier 2, derived). While BUSY = 1: writes to
the IN window, IN_LEN, ROLEMAP, SLOT_SEL, SLOT_LEN, SLOT_IDX and SLOT_DATA are dropped and set ACCERR; reads of
SLOT_LEN and SLOT_DATA return 0 and set ACCERR on a device that follows R452, and on one that follows R69 and
R450 do what they do on the same state with BUSY = 0; a CTRL write sets IRQ_EN, and ACCERR if it has GO,
SOFT_RESET or another ENDIAN, and nothing else; STATUS, CMD and ARGn writes are accepted; reads of the IN window
and of every other CSR are not refused and change nothing. That the model holds the two devices apart by a
parameter is its choice between contradicting rules (log 21), and where a read value is kept is the model's (log
11). -/
def Obligations.BusyRefusals : Prop :=
  ∀ (s : State) (off v : Word), s.busy = true →
    (∀ width, 0x01000000 ≤ off.toNat → s.host (.write width off v) = .next { s with accErr := true }) ∧
    (0x01000000 ≤ off.toNat → off.toNat < 0x01000000 + s.params.inBytes →
      s.host (.read .w8 off) = .next { s with hostData := (s.inByte (off.toNat - 0x01000000)).setWidth 32 }) ∧
    s.host (.write .w32 0x004 v) = .next { s with
      irqEn := v.getLsbD 9
      accErr := s.accErr || (v.getLsbD 0 || v.getLsbD 1 || (v.getLsbD 8 != s.endian)) } ∧
    s.host (.write .w32 0x008 v) = .next { s with
      done := s.done && !v.getLsbD 1, err := s.err && !v.getLsbD 2, accErr := s.accErr && !v.getLsbD 3 } ∧
    (∀ o ∈ [0x02C#32, 0x100#32, 0x104#32, 0x108#32, 0x10C#32],
      s.host (.write .w32 o v) = .next { s with accErr := true }) ∧
    (∀ r : Role, s.host (.write .w32 (u32 (0x080 + 4 * r.val)) v) = .next { s with accErr := true }) ∧
    (∀ o ∈ [0x104#32, 0x10C#32],
      (s.params.busySlotRead = .refused → s.host (.read .w32 o) = .next { s with accErr := true, hostData := 0 }) ∧
      (s.params.busySlotRead = .valueBefore → ∃ t, s.host (.read .w32 o) = .next t ∧ t.busy = true ∧
        State.host { s with busy := false } (.read .w32 o) = .next { t with busy := false })) ∧
    s.host (.write .w32 0x014 v) = .next { s with cmd := v } ∧
    s.host (.write .w32 0x018 v) = .next { s with arg0 := v } ∧
    s.host (.write .w32 0x01C v) = .next { s with arg1 := v } ∧
    s.host (.write .w32 0x020 v) = .next { s with arg2 := v } ∧
    (Mapped 0 .w32 off.toNat → off ≠ 0x104 → off ≠ 0x10C → off ≠ 0x008 →
      ∃ x, s.host (.read .w32 off) = .next { s with hostData := x } ∧
        State.host { s with busy := false } (.read .w32 off) = .next { s with busy := false, hostData := x }) ∧
    ∃ x, s.host (.read .w32 0x008) = .next { s with hostData := x } ∧ x.getLsbD 0 = true

/-- What each control and status register reads, and the writes that no BUSY refuses (R21, R22, R23, R24, R25, R26,
R27, R31, R67; tier 1, derived). ID reads 0x4A544431; CTRL reads ENDIAN at bit 8 and IRQ_EN at bit 9; STATUS
reads BUSY, DONE, ERR, ACCERR and MESH_VALID at bits 0 to 4, every other bit 0; ERRCODE reads its 8 bits;
ERRINFO, CMD, ARG0 to ARG2, RESULT0, RESULT1, IN_LEN, SLOT_SEL and SLOT_IDX read what they hold; NV, NF,
NCORNER, NATTR and NCOMP read, as u32, the number of vertices, of faces, the sum of the degrees, the attribute
counter and the number of components while MESH_VALID = 1, else 0; no such read changes anything. Writes of CMD
and ARGn store v; a STATUS write clears DONE, ERR and ACCERR where v has a 1 at their bits; an idle CTRL write
with neither GO nor SOFT_RESET stores ENDIAN and IRQ_EN; a write to a read-only register is ignored and sets no
flag; none changes anything else. Where a read value is kept is the model's (log 11). -/
def Obligations.ControlAndStatusRegisters : Prop :=
  ∀ (s : State) (v : Word),
    s.host (.read .w32 0x000) = .next { s with hostData := 0x4A544431 } ∧
    s.host (.read .w32 0x004) = .next { s with
      hostData := (if s.endian then 0x100 else 0) ||| if s.irqEn then 0x200 else 0 } ∧
    s.host (.read .w32 0x008) = .next { s with
      hostData := (if s.busy then 0x1 else 0) ||| (if s.done then 0x2 else 0) ||| (if s.err then 0x4 else 0) |||
        (if s.accErr then 0x8 else 0) ||| if s.meshValid then 0x10 else 0 } ∧
    s.host (.read .w32 0x00C) = .next { s with hostData := s.errCode.setWidth 32 } ∧
    s.host (.read .w32 0x010) = .next { s with hostData := s.errInfo } ∧
    s.host (.read .w32 0x014) = .next { s with hostData := s.cmd } ∧
    s.host (.read .w32 0x018) = .next { s with hostData := s.arg0 } ∧
    s.host (.read .w32 0x01C) = .next { s with hostData := s.arg1 } ∧
    s.host (.read .w32 0x020) = .next { s with hostData := s.arg2 } ∧
    s.host (.read .w32 0x024) = .next { s with hostData := s.result0 } ∧
    s.host (.read .w32 0x028) = .next { s with hostData := s.result1 } ∧
    s.host (.read .w32 0x02C) = .next { s with hostData := s.inLen } ∧
    s.host (.read .w32 0x030) = .next { s with hostData := if s.meshValid then u32 s.mesh.vertices.length else 0 } ∧
    s.host (.read .w32 0x034) = .next { s with hostData := if s.meshValid then u32 s.mesh.faces.length else 0 } ∧
    s.host (.read .w32 0x038) = .next { s with
      hostData := if s.meshValid then u32 (s.mesh.faces.map fun f => f.fvtx.length).sum else 0 } ∧
    s.host (.read .w32 0x03C) = .next { s with hostData := if s.meshValid then u32 s.mesh.attrCounter else 0 } ∧
    s.host (.read .w32 0x040) = .next { s with hostData := if s.meshValid then u32 s.mesh.ncomp else 0 } ∧
    s.host (.read .w32 0x100) = .next { s with hostData := s.slotSel.setWidth 32 } ∧
    s.host (.read .w32 0x108) = .next { s with hostData := s.slotIdx } ∧
    s.host (.write .w32 0x014 v) = .next { s with cmd := v } ∧
    s.host (.write .w32 0x018 v) = .next { s with arg0 := v } ∧
    s.host (.write .w32 0x01C v) = .next { s with arg1 := v } ∧
    s.host (.write .w32 0x020 v) = .next { s with arg2 := v } ∧
    s.host (.write .w32 0x008 v) = .next { s with
      done := s.done && !v.getLsbD 1, err := s.err && !v.getLsbD 2, accErr := s.accErr && !v.getLsbD 3 } ∧
    (s.busy = false → v.getLsbD 0 = false → v.getLsbD 1 = false →
      s.host (.write .w32 0x004 v) = .next { s with endian := v.getLsbD 8, irqEn := v.getLsbD 9 }) ∧
    ∀ o ∈ [0x000#32, 0x00C#32, 0x010#32, 0x024#32, 0x028#32, 0x030#32, 0x034#32, 0x038#32, 0x03C#32, 0x040#32],
      s.host (.write .w32 o v) = .next s

/-- ACCERR stays 1 until the host clears it or a reset occurs (R453; tier 2, stated). When ACCERR is 1 and a step
clears it, the step was a power-on reset, a STATUS write with bit 3 set, or a CTRL write with SOFT_RESET = 1
while idle. An accepted GO does not clear it. -/
def Obligations.AccErrSticky : Prop :=
  ∀ s t : State, s.accErr = true → step s = .next t → t.accErr = false →
    (∃ rest, s.inputs = .powerOn :: rest) ∨
      (∃ v rest, s.inputs = .access (.write .w32 0x008 v) :: rest ∧ v.getLsbD 3 = true) ∨
      ∃ v rest, s.inputs = .access (.write .w32 0x004 v) :: rest ∧ v.getLsbD 1 = true ∧ s.busy = false

/-- The interrupt line and what clears it (R28; tier 2, stated). IRQ is IRQ_EN and (DONE or ERR), whatever ACCERR
is. It is 0 after reset. In a state where DONE and ERR are not both 1 it is 0 after a STATUS write of 1 to the
set one of them, and in every state after a CTRL write that clears IRQ_EN (no soft reset needed) and after an
accepted GO. -/
def Obligations.InterruptLine : Prop :=
  (∀ s : State, s.irq = (s.irqEn && (s.done || s.err))) ∧ State.reset.irq = false ∧
    (∀ s : State, ¬ (s.done = true ∧ s.err = true) →
      (s.done = true → ∃ t, s.host (.write .w32 0x008 0x2) = .next t ∧ t.irq = false) ∧
      (s.err = true → ∃ t, s.host (.write .w32 0x008 0x4) = .next t ∧ t.irq = false)) ∧
    (∀ (s : State) (v : Word), v.getLsbD 9 = false → ∃ t, s.host (.write .w32 0x004 v) = .next t ∧ t.irq = false) ∧
    (∀ (s : State) (v : Word), s.busy = false → v.getLsbD 0 = true →
      ∃ t, s.host (.write .w32 0x004 v) = .next t ∧ t.irq = false) ∧
    ∀ (s : State) (b : Bool), State.irq { s with accErr := b } = s.irq

/-- The engine reads 4-byte fields in the byte order of the latched ENDIAN (R64; tier 2, stated). A 1-byte read
gives IN[a]. A 4-byte read gives the u32 with IN[a] least significant when ENDIAN = 0 and most significant when
ENDIAN = 1, and an i32 field is that word sign-extended. -/
def Obligations.EngineByteOrder : Prop :=
  ∀ (s : State) (a : Nat), s.inView.byte a = s.inByte a ∧
    (s.lEndian = false → (s.inView.word a).toNat = (s.inByte a).toNat + 2 ^ 8 * (s.inByte (a + 1)).toNat +
      2 ^ 16 * (s.inByte (a + 2)).toNat + 2 ^ 24 * (s.inByte (a + 3)).toNat) ∧
    (s.lEndian = true → (s.inView.word a).toNat = (s.inByte (a + 3)).toNat + 2 ^ 8 * (s.inByte (a + 2)).toNat +
      2 ^ 16 * (s.inByte (a + 1)).toNat + 2 ^ 24 * (s.inByte a).toNat) ∧
    (a + 4 ≤ s.lInLen.toNat →
      readInt s.inView a = .ok (sext 32 (s.inView.word a).toNat, a + 4))

/-- A field of n bits reads the number whose bits stand in the codetext, most significant first (R142, R143, R144,
R145, R98, R146; tier 2, derived). Bit i of a codetext is bit 31 - i mod 32 of word i div 32. Where, from bit k
on, the codetext holds the n low bits of x most significant first, ReadU32(n) returns x and ReadI32(n) its
two's-complement value, for every n from 1 to 32. Past the declared length a strict read raises E_CODETEXT and a
padded read sees 0 bits; a width of 0 or above 32 raises E_RANGE. Whatever it reads, a successful ReadU32(n) or
ReadI32(n) consumes n bits in either mode, and ReadU32Or0(0) and ReadI32Or0(0) return 0 and consume none. A
context reader takes the same bits from the words of IN from q on, and raises E_TRUNC at the first word not
below IN_LEN. -/
def Obligations.FieldReadsMsbFirst : Prop :=
  (∀ (ws : List Word) (len p k n x : Nat),
    (1 ≤ n → n ≤ 32 → x < 2 ^ n → k + n ≤ len →
      (∀ j, j < n → (ws.getD ((k + j) / 32) 0).getLsbD (31 - (k + j) % 32) = (msbBits n x).getD j false) →
      ∀ padded, readU32 (codetextSource ws len padded p) n k = .ok (x, k + n) ∧
        readI32 (codetextSource ws len padded p) n k =
          .ok (if 2 * x < 2 ^ n then (x : Int) else (x : Int) - 2 ^ n, k + n)) ∧
    (1 ≤ n → n ≤ 32 → len < k + n →
      readU32 (codetextSource ws len false p) n k = .error { code := .codetext, info := p }) ∧
    (1 ≤ n → n ≤ 32 → x < 2 ^ n →
      (∀ j, j < n → (decide (k + j < len) && (ws.getD ((k + j) / 32) 0).getLsbD (31 - (k + j) % 32)) =
        (msbBits n x).getD j false) →
      readU32 (codetextSource ws len true p) n k = .ok (x, k + n)) ∧
    (n = 0 ∨ 32 < n → ∀ padded,
      readU32 (codetextSource ws len padded p) n k = .error { code := .range, info := p }) ∧
    ∀ padded,
      (∀ y k', readU32 (codetextSource ws len padded p) n k = .ok (y, k') → k' = k + n) ∧
      (∀ y k', readI32 (codetextSource ws len padded p) n k = .ok (y, k') → k' = k + n) ∧
      readU32Or0 (codetextSource ws len padded p) 0 k = .ok (0, k) ∧
      readI32Or0 (codetextSource ws len padded p) 0 k = .ok (0, k)) ∧
    ∀ (v : InView) (q c n x : Nat), 1 ≤ n → n ≤ 32 → x < 2 ^ n →
      (q + 4 * ((c + n + 31) / 32) ≤ v.inLen →
        (∀ j, j < n → (v.word (q + 4 * ((c + j) / 32))).getLsbD (31 - (c + j) % 32) = (msbBits n x).getD j false) →
        readU32 (contextSource v q) n c = .ok (x, c + n)) ∧
      (v.inLen < q + 4 * (c / 32) + 4 →
        readU32 (contextSource v q) n c = .error { code := .trunc, info := q + 4 * (c / 32) })

/-- The valueCount and codec id checks of a stream (R165, R166, R92, R95, R163, R170, R161; tier 2, derived).
DEC_CDP2 on a stream whose 4 count bytes lie below IN_LEN: a negative count ends with E_RANGE and a count above
SLOT_CAP with E_CAPACITY, whatever the codec byte is, ERRINFO just past the count; a count of 0 gives an empty
slot and RESULT0 just past the 4 bytes; any other count with a codec byte that is none of 0, 1, 3 and 4 ends
with E_BADCODEC just past that byte. A start with fewer than 4 bytes left ends with E_TRUNC and ERRINFO the
start offset. DEC_CDP1 with a codec byte above 3 ends with E_BADCODEC. -/
def Obligations.StreamHeaderChecks : Prop :=
  ∀ (s : State) (a : SlotNo),
    (s.larg0.toNat + 4 ≤ s.lInLen.toNat →
      ((s.inView.word s.larg0.toNat).toInt < 0 →
        exec (.decCdp2 a) s = .next ((s.setSlot a []).recordError .range (u32 (s.larg0.toNat + 4)))) ∧
      (0 ≤ (s.inView.word s.larg0.toNat).toInt → s.params.slotCap < (s.inView.word s.larg0.toNat).toNat →
        exec (.decCdp2 a) s = .next ((s.setSlot a []).recordError .capacity (u32 (s.larg0.toNat + 4)))) ∧
      (s.inView.word s.larg0.toNat = 0 →
        exec (.decCdp2 a) s = .next ((s.setSlot a []).complete (u32 (s.larg0.toNat + 4)) 0)) ∧
      (0 < (s.inView.word s.larg0.toNat).toInt → (s.inView.word s.larg0.toNat).toNat ≤ s.params.slotCap →
        s.larg0.toNat + 5 ≤ s.lInLen.toNat → (s.inView.byte (s.larg0.toNat + 4)).toNat ∉ [0, 1, 3, 4] →
        exec (.decCdp2 a) s = .next ((s.setSlot a []).recordError .badCodec (u32 (s.larg0.toNat + 5))))) ∧
    (s.lInLen.toNat < s.larg0.toNat + 4 →
      exec (.decCdp2 a) s = .next ((s.setSlot a []).recordError .trunc s.larg0)) ∧
    (s.larg0.toNat + 1 ≤ s.lInLen.toNat → 3 < (s.inView.byte s.larg0.toNat).toNat →
      exec (.decCdp1 a) s = .next ((s.setSlot a []).recordError .badCodec (u32 (s.larg0.toNat + 1))))

/-- A stream nested nine deep ends with E_DEPTH (R164, R246; tier 2, derived). DEC_CDP2 on nine Chopper wrappers of
chop 0 and count 1, one inside the other, all below IN_LEN, ends with E_DEPTH at the offset where the tenth
stream would start, which is not read. -/
def Obligations.NestingDepthBound : Prop :=
  ∀ (s : State) (a : SlotNo), 1 ≤ s.params.slotCap → s.larg0.toNat + 54 ≤ s.lInLen.toNat →
    (∀ i, i < 9 → s.inView.word (s.larg0.toNat + 6 * i) = 1 ∧ s.inView.byte (s.larg0.toNat + 6 * i + 4) = 4 ∧
      s.inView.byte (s.larg0.toNat + 6 * i + 5) = 0) →
    exec (.decCdp2 a) s = .next ((s.setSlot a []).recordError .depth (u32 (s.larg0.toNat + 54)))

/-- What DEC_CDP2 leaves when it ends without error (R161, R162, R185, R187, R25; tier 2, derived). When DEC_CDP2
ends with DONE newly set, RESULT1 is the stream's valueCount and the length of the destination slot, and RESULT0
is an offset past the 4 count bytes and not past IN_LEN. When DEC_CDP1 does, RESULT1 is the length of its
destination slot, and RESULT0 is at least 13 past the start and not past IN_LEN. -/
def Obligations.StreamResults : Prop :=
  ∀ (s t : State) (a : SlotNo), s.done = false →
    (exec (.decCdp2 a) s = .next t → t.done = true →
      t.result1 = s.inView.word s.larg0.toNat ∧ (t.slot a).length = t.result1.toNat ∧
      s.larg0.toNat + 4 ≤ t.result0.toNat ∧ t.result0.toNat ≤ s.lInLen.toNat) ∧
    (exec (.decCdp1 a) s = .next t → t.done = true →
      (t.slot a).length = t.result1.toNat ∧
      s.larg0.toNat + 13 ≤ t.result0.toNat ∧ t.result0.toNat ≤ s.lInLen.toNat)

/-- Every codec returns exactly the declared number of values (R200; tier 2, stated). Whenever a codec decode of n
values succeeds it returns exactly n values: the four CDP2 codecs whatever loads their nested streams, and the
four CDP1 codecs on a codetext of ceil(len/32) words. -/
def Obligations.CodecsReturnExactlyN : Prop :=
  (∀ (v : InView) (load : Cursor (List Word)) (n p q : Nat) (c : Cdp2Codec) (vals : List Word),
      cdp2Payload v load n c p = .ok (vals, q) → vals.length = n) ∧
    ∀ (c : Cdp1Codec) (ws : List Word) (len n p : Nat) (ctxs : List (List CtxEntry)) (oob vals : List Word),
      ws.length = ceilDiv32 len → cdp1Decode c ws len n ctxs oob p = .ok vals → vals.length = n

/-- CDP2 Null returns the raw words in order (R201; tier 2, stated). On a CDP2 stream of count n from 1 to SLOT_CAP
with codec byte 0, length field n and n words below IN_LEN, DEC_CDP2 and the codec instruction complete: the
destination gets the n words in order, RESULT0 is just past them, RESULT1 is n. A length field that is negative
ends with E_RANGE, one that differs from n with E_COUNT, and any missing byte with E_TRUNC at the field it
belongs to. -/
def Obligations.Cdp2NullCompletes : Prop :=
  ∀ (s : State) (a : SlotNo) (n : Nat), fieldA s.lcmd = a → 0 < n → n ≤ s.params.slotCap → n < 2 ^ 31 →
    s.larg0.toNat + 5 ≤ s.lInLen.toNat → s.inView.word s.larg0.toNat = u32 n →
    s.inView.byte (s.larg0.toNat + 4) = 0 →
    (s.lInLen.toNat < s.larg0.toNat + 9 →
      exec .cdp2Null s = .next ((s.setSlot a []).recordError .trunc (u32 (s.larg0.toNat + 5)))) ∧
    (s.larg0.toNat + 9 ≤ s.lInLen.toNat → (s.inView.word (s.larg0.toNat + 5)).toInt < 0 →
      exec .cdp2Null s = .next ((s.setSlot a []).recordError .range (u32 (s.larg0.toNat + 9)))) ∧
    (s.larg0.toNat + 9 ≤ s.lInLen.toNat → 0 ≤ (s.inView.word (s.larg0.toNat + 5)).toInt →
      s.inView.word (s.larg0.toNat + 5) ≠ u32 n →
      exec .cdp2Null s = .next ((s.setSlot a []).recordError .count (u32 (s.larg0.toNat + 9)))) ∧
    (s.larg0.toNat + 9 ≤ s.lInLen.toNat → s.inView.word (s.larg0.toNat + 5) = u32 n →
      (∀ k, k < n → s.larg0.toNat + 9 + 4 * k ≤ s.lInLen.toNat →
        s.lInLen.toNat < s.larg0.toNat + 9 + 4 * (k + 1) →
        exec .cdp2Null s = .next ((s.setSlot a []).recordError .trunc (u32 (s.larg0.toNat + 9 + 4 * k)))) ∧
      (s.larg0.toNat + 9 + 4 * n ≤ s.lInLen.toNat →
        exec .cdp2Null s = .next ((s.setSlot a (wordsAt s.inView (s.larg0.toNat + 9) n)).complete
          (u32 (s.larg0.toNat + 9 + 4 * n)) (u32 n)) ∧
        exec (.decCdp2 a) s = exec .cdp2Null s))

/-- CDP2 Bitlength2 loads its codetext and returns what it decodes to (R210, R216, R141; tier 2, derived). On a CDP2
stream of count n from 1 to SLOT_CAP with codec byte 1, a non-negative codetext length len, and ceil(len/32)
words below IN_LEN: where the Bitlength2 codetext decodes to values, DEC_CDP2 and the codec instruction complete
with them, RESULT0 just past the words; where it fails, both end with that error. -/
def Obligations.Cdp2Bitlength2Completes : Prop :=
  ∀ (s : State) (a : SlotNo) (n len : Nat), fieldA s.lcmd = a → 0 < n → n ≤ s.params.slotCap → n < 2 ^ 31 →
    len < 2 ^ 31 → s.larg0.toNat + 9 + 4 * ceilDiv32 len ≤ s.lInLen.toNat →
    s.inView.word s.larg0.toNat = u32 n → s.inView.byte (s.larg0.toNat + 4) = 1 →
    s.inView.word (s.larg0.toNat + 5) = u32 len →
    exec (.decCdp2 a) s = exec .cdp2Bitlength2 s ∧
    (∀ vals, bitlength2Decode (wordsAt s.inView (s.larg0.toNat + 9) (ceilDiv32 len)) len n
        (s.larg0.toNat + 9 + 4 * ceilDiv32 len) = .ok vals →
      exec .cdp2Bitlength2 s = streamDone s a vals (s.larg0.toNat + 9 + 4 * ceilDiv32 len)) ∧
    ∀ e, bitlength2Decode (wordsAt s.inView (s.larg0.toNat + 9) (ceilDiv32 len)) len n
        (s.larg0.toNat + 9 + 4 * ceilDiv32 len) = .error e →
      exec .cdp2Bitlength2 s = .next ((s.setSlot a []).recordError e.code (u32 e.info))

/-- Bitlength2 decodes codetexts written to the layouts of its two modes (R211, R212, R213, R214, R215, R216, R143;
tier 2, derived). Fixed-width: a codetext that holds exactly mode bit 0, the two 6-bit widths, min and max in
those widths and, if max > min, one offset per value in the field width ceil_log2(max - min + 1) decodes to
wrap32(min + offset) for each value, or to n copies of min if max <= min. A width above 32 is E_RANGE. Variable-
width: one that holds exactly mode bit 1, a 32-bit mean, the widths cw and rl, and groups, each a chain of
escape deltas ended by another delta, a run length and its fields, decodes to the groups' values at the running
width: the mean at a width of 0 or less, wrap32(mean + signed field) above, with the last run not empty. Where
values are still missing after such groups: a next run that passes the count is E_COUNT, a run at a width above
32 is E_RANGE, cw = rl = 0 is E_NOPROGRESS, and cw = 1, whose every delta is an escape, ends with E_CODETEXT. -/
def Obligations.Bitlength2Modes : Prop :=
  ∀ (ws : List Word) (len p : Nat),
    (∀ mb xb lo hi : Nat, mb ≤ 32 → xb ≤ 32 → lo < 2 ^ mb → hi < 2 ^ xb →
      (fieldValue xb hi ≤ fieldValue mb lo →
        HoldsBits ws len ([false] ++ msbBits 6 mb ++ msbBits 6 xb ++ msbBits mb lo ++ msbBits xb hi) →
        ∀ n, bitlength2Decode ws len n p = .ok (List.replicate n (wrap32 (fieldValue mb lo)))) ∧
      ∀ offs : List Nat, fieldValue mb lo < fieldValue xb hi →
        (∀ o ∈ offs, o < 2 ^ ceilLog2 (fieldValue xb hi - fieldValue mb lo + 1).toNat) →
        HoldsBits ws len ([false] ++ msbBits 6 mb ++ msbBits 6 xb ++ msbBits mb lo ++ msbBits xb hi ++
          offs.flatMap (msbBits (ceilLog2 (fieldValue xb hi - fieldValue mb lo + 1).toNat))) →
        bitlength2Decode ws len offs.length p = .ok (offs.map fun o => wrap32 (fieldValue mb lo + o))) ∧
    (∀ (mb xb : Nat), mb < 64 → xb < 64 → 32 < mb ∨ 32 < xb → ∀ n,
      StartsWith ws len ([false] ++ msbBits 6 mb ++ msbBits 6 xb) →
      bitlength2Decode ws len n p = .error { code := .range, info := p }) ∧
    ∀ (mean cw rl : Nat) (gs : List Bl2Group), mean < 2 ^ 32 → cw < 8 → rl < 8 → bl2Fits cw rl 0 gs →
      ((∀ g, gs.getLast? = some g → g.fields ≠ []) →
        HoldsBits ws len (bl2Header mean cw rl ++ bl2Bits cw rl 0 gs) →
        bitlength2Decode ws len (bl2Vals cw (sext 32 mean) 0 gs).length p =
          .ok (bl2Vals cw (sext 32 mean) 0 gs)) ∧
      ∀ n : Nat, (bl2Vals cw (sext 32 mean) 0 gs).length < n →
        (∀ (g : Bl2Group) (run : Nat), g.Chain cw → run < 2 ^ rl →
          StartsWith ws len (bl2Header mean cw rl ++ bl2Bits cw rl 0 gs ++ (g.deltas cw).flatMap (msbBits cw) ++
            msbBits rl run) →
          (n < (bl2Vals cw (sext 32 mean) 0 gs).length + run →
            bitlength2Decode ws len n p = .error { code := .count, info := p }) ∧
          (0 < run → (bl2Vals cw (sext 32 mean) 0 gs).length + run ≤ n → 32 < g.width cw (bl2Width cw 0 gs) →
            bitlength2Decode ws len n p = .error { code := .range, info := p })) ∧
        (cw = 0 → rl = 0 → StartsWith ws len (bl2Header mean cw rl) →
          bitlength2Decode ws len n p = .error { code := .noProgress, info := p }) ∧
        (cw = 1 → StartsWith ws len (bl2Header mean cw rl) →
          bitlength2Decode ws len n p = .error { code := .codetext, info := p })

/-- CDP2 Arithmetic loads its codetext, its context and its OOB stream, and returns what it decodes to (R230, R91,
R146, R180, R181, R184; tier 2, derived). On a CDP2 stream of count n from 1 to SLOT_CAP with codec byte 3, a
codetext of len bits below IN_LEN, a Mark 2 context that reads without error and a nested OOB stream that loads
without error: where the arithmetic codetext decodes to values, DEC_CDP2 and the codec instruction complete with
them, RESULT0 just past the OOB stream. A context written to the Mark 2 layout, its words below IN_LEN, reads as
its entries: symbol less 2, occurrence count, wrap32(value + least value), next context 0, the cursor past the
last word used. A header with a count of 0 or a width above 32 is E_CTX at the cursor past its three words, and
a missing header word is E_TRUNC there. -/
def Obligations.Cdp2ArithmeticCompletes : Prop :=
  (∀ (s : State) (a : SlotNo) (n len q r : Nat) (ctx : List CtxEntry) (oob vals : List Word), fieldA s.lcmd = a →
    0 < n → n ≤ s.params.slotCap → n < 2 ^ 31 → len < 2 ^ 31 →
    s.larg0.toNat + 9 + 4 * ceilDiv32 len ≤ s.lInLen.toNat →
    s.inView.word s.larg0.toNat = u32 n → s.inView.byte (s.larg0.toNat + 4) = 3 →
    s.inView.word (s.larg0.toNat + 5) = u32 len →
    withContextReader s.inView (readContext mark2) (s.larg0.toNat + 9 + 4 * ceilDiv32 len) = .ok (ctx, q) →
    loadCdp2 s.inView (levelsAt 1) q = .ok (oob, r) →
    arithDecode (wordsAt s.inView (s.larg0.toNat + 9) (ceilDiv32 len)) len n [ctx] oob r = .ok vals →
    exec .cdp2Arithmetic s = streamDone s a vals r ∧ exec (.decCdp2 a) s = streamDone s a vals r) ∧
    ∀ (v : InView) (q : Nat),
      (∀ c : ContextFields, c.Fits → c.nb = 0 → q + 4 * ceilDiv32 (c.bits 16 0).length ≤ v.inLen →
        HoldsAt v q (c.bits 16 0) →
        withContextReader v (readContext mark2) q = .ok (c.entriesRead, q + 4 * ceilDiv32 (c.bits 16 0).length)) ∧
      (∀ cnt sb ob vb minV : Nat, cnt < 2 ^ 16 → sb < 64 → ob < 64 → vb < 64 → minV < 2 ^ 32 →
        cnt = 0 ∨ 32 < sb ∨ 32 < ob ∨ 32 < vb → q + 12 ≤ v.inLen →
        HoldsAt v q (contextHeader 16 0 cnt sb ob vb 0 minV) →
        withContextReader v (readContext mark2) q = .error { code := .ctx, info := q + 12 }) ∧
      ∀ i, i < 3 → q + 4 * i ≤ v.inLen → v.inLen < q + 4 * i + 4 →
        withContextReader v (readContext mark2) q = .error { code := .trunc, info := q + 4 * i }

/-- Arithmetic decoding with one concrete symbol gives that symbol and reads only the seed (R237; tier 2, stated).
For a context with one entry of non-zero count, not the escape and staying in its context, any other entries
having count 0, and a total that fits 16 bits: decoding n values from any codetext gives that entry's value n
times, and exactly the 16 seed bits have been read. -/
def Obligations.SingleSymbolArithmetic : Prop :=
  ∀ (ws : List Word) (len p n : Nat) (pre post : List CtxEntry) (e : CtxEntry), (∀ x ∈ pre, x.occ = 0) →
    (∀ x ∈ post, x.occ = 0) → 1 ≤ e.occ → e.occ ≤ 0xFFFF → e.symbol ≠ -2 → e.next = 0 →
    arithStart (codetextSource ws len true p) [pre ++ e :: post] n [] 0 =
      .ok ((List.replicate n e.val, []), 16)

/-- No arithmetic codetext raises E_ARITH (R234, R233, R235, R231; tier 2, derived). For every codetext, length,
count, context table and OOB values, arithmetic decoding never ends with E_ARITH: the coder never underflows its
interval and an entry always matches. -/
def Obligations.ArithErrorUnreachable : Prop :=
  ∀ (ws : List Word) (len n : Nat) (ctxs : List (List CtxEntry)) (oob : List Word) (p : Nat) (e : Err),
    arithDecode ws len n ctxs oob p = .error e → e.code ≠ .arith

/-- Renormalization ends where neither case applies, with the interval in order (R235; tier 2, derived). From
registers with low <= code <= high, renormalization over a padded codetext succeeds; in the registers it leaves,
the top bits of high and low differ, the underflow case does not hold, and low <= code <= high. So the model's
bound of 17 rounds (log 10) is enough. -/
def Obligations.ArithRenormReaches : Prop :=
  ∀ (ws : List Word) (len p k : Nat) (r : ArithRegs), r.low ≤ r.code → r.code ≤ r.high →
    ∃ r' k', arithRenorm (codetextSource ws len true p) 17 r k = .ok (r', k') ∧
      r'.high.getLsbD 15 ≠ r'.low.getLsbD 15 ∧ ¬ (r'.low.getLsbD 14 = true ∧ r'.high.getLsbD 14 = false) ∧
      r'.low ≤ r'.code ∧ r'.code ≤ r'.high

/-- CDP2 Chopper recombines its two children, or passes its one child on (R245, R246, R247; tier 2, derived). On a
CDP2 stream of count n from 1 to SLOT_CAP with codec byte 4: with a chop byte of 0 and a nested stream that
loads n values, DEC_CDP2 and the codec instruction complete with those values; with a chop byte above 0, a bias,
a span whose difference to chop is 0 to 31, and two nested streams of n values each, they complete with
wrap32(msb * 2^(span - chop) + lsb + bias) for each index. -/
def Obligations.Cdp2ChopperCompletes : Prop :=
  ∀ (s : State) (a : SlotNo) (n q r : Nat) (msb lsb : List Word), fieldA s.lcmd = a → 0 < n →
    n ≤ s.params.slotCap → n < 2 ^ 31 → s.inView.word s.larg0.toNat = u32 n →
    s.inView.byte (s.larg0.toNat + 4) = 4 → msb.length = n →
    (s.larg0.toNat + 6 ≤ s.lInLen.toNat → s.inView.byte (s.larg0.toNat + 5) = 0 →
      loadCdp2 s.inView (levelsAt 1) (s.larg0.toNat + 6) = .ok (msb, q) →
      exec .cdp2Chopper s = streamDone s a msb q ∧ exec (.decCdp2 a) s = streamDone s a msb q) ∧
    (s.larg0.toNat + 11 ≤ s.lInLen.toNat → s.inView.byte (s.larg0.toNat + 5) ≠ 0 →
      s.inView.byte (s.larg0.toNat + 5) ≤ s.inView.byte (s.larg0.toNat + 10) →
      (s.inView.byte (s.larg0.toNat + 10)).toNat - (s.inView.byte (s.larg0.toNat + 5)).toNat ≤ 31 →
      lsb.length = n →
      loadCdp2 s.inView (levelsAt 1) (s.larg0.toNat + 11) = .ok (msb, q) →
      loadCdp2 s.inView (levelsAt 1) q = .ok (lsb, r) →
      ∃ vals, exec .cdp2Chopper s = streamDone s a vals r ∧ exec (.decCdp2 a) s = streamDone s a vals r ∧
        vals.length = n ∧
        ∀ i, i < n → vals.getD i 0 = wrap32 ((msb.getD i 0).toInt *
          2 ^ ((s.inView.byte (s.larg0.toNat + 10)).toNat - (s.inView.byte (s.larg0.toNat + 5)).toNat) +
          (lsb.getD i 0).toInt + (s.inView.word (s.larg0.toNat + 6)).toInt))

/-- CDP1 Null and Bitlength load their codetext and return what it decodes to (R170, R174, R202, R205, R162; tier 2,
derived). On a CDP1 stream with codec byte 0 or 1, codetext length len, count n up to SLOT_CAP, nWords =
ceil(len/32) and the words below IN_LEN: Null with len = 32 n completes with the n words in order; Bitlength
(v1) completes with the values its codetext decodes to. DEC_CDP1 does the same, RESULT0 just past the words. -/
def Obligations.Cdp1NullAndBitlengthComplete : Prop :=
  ∀ (s : State) (a : SlotNo) (n len : Nat), fieldA s.lcmd = a → n ≤ s.params.slotCap → n < 2 ^ 31 → len < 2 ^ 31 →
    s.larg0.toNat + 13 + 4 * ceilDiv32 len ≤ s.lInLen.toNat →
    s.inView.word (s.larg0.toNat + 1) = u32 len → s.inView.word (s.larg0.toNat + 5) = u32 n →
    s.inView.word (s.larg0.toNat + 9) = u32 (ceilDiv32 len) →
    (s.inView.byte s.larg0.toNat = 0 → len = 32 * n →
      exec .cdp1Null s = streamDone s a (wordsAt s.inView (s.larg0.toNat + 13) n) (s.larg0.toNat + 13 + 4 * n) ∧
      exec (.decCdp1 a) s = exec .cdp1Null s) ∧
    ∀ vals, s.inView.byte s.larg0.toNat = 1 →
      bitlength1Decode (wordsAt s.inView (s.larg0.toNat + 13) (ceilDiv32 len)) len n
        (s.larg0.toNat + 13 + 4 * ceilDiv32 len) = .ok vals →
      exec .cdp1Bitlength1 s = streamDone s a vals (s.larg0.toNat + 13 + 4 * ceilDiv32 len) ∧
      exec (.decCdp1 a) s = exec .cdp1Bitlength1 s

/-- Bitlength (v1) decodes a codetext that widens once and stays (R205, R206; tier 2, derived). A codetext that
holds exactly an upward adjustment of k steps of 2, a field of 2k bits, and then for each further value a 0 bit
and a field of 2k bits, decodes to the two's-complement values of the fields. -/
def Obligations.Bitlength1RunAtOneWidth : Prop :=
  ∀ (ws : List Word) (len p k x : Nat) (xs : List Nat), 1 ≤ k → k ≤ 16 → x < 2 ^ (2 * k) →
    (∀ y ∈ xs, y < 2 ^ (2 * k)) →
    HoldsBits ws len ([true, true] ++ List.replicate (k - 1) true ++ [false] ++ msbBits (2 * k) x ++
      xs.flatMap (fun y => false :: msbBits (2 * k) y)) →
    bitlength1Decode ws len (xs.length + 1) p = .ok ((x :: xs).map fun y => wrap32 (sext (2 * k) y))

/-- CDP1 Huffman and Arithmetic load their table, OOB values and codetext, and return what they decode to (R170,
R171, R172, R173, R220, R230, R146, R180, R181; tier 2, derived). On a CDP1 stream with codec byte 2 or 3 whose
context table and OOB part read without error up to offset q, followed by len, n, a symbolCount field exactly
when the table has more than one context, nWords = ceil(len/32) and the words below IN_LEN: where the codec
decodes the codetext to values, DEC_CDP1 and the codec instruction complete with them, whatever symbolCount
holds. A table count of 0 is E_CTX. Contexts written to the Mark 1 layout, one after the other in one bit
string, read as their entries; then an OOB count of 0 gives no OOB values, a negative one E_RANGE, and a
positive one the nested stream's values if there are that many, else E_COUNT. A first context with a count of 0
or above 65535, or a width above 32, is E_CTX at the cursor past its header words. -/
def Obligations.Cdp1TableCodecsComplete : Prop :=
  (∀ (s : State) (a : SlotNo) (n len q x : Nat) (ctxs : List (List CtxEntry)) (oob vals : List Word),
    fieldA s.lcmd = a → n ≤ s.params.slotCap → n < 2 ^ 31 → len < 2 ^ 31 → s.larg0.toNat + 1 ≤ s.lInLen.toNat →
    cdp1Table s.inView (loadCdp1 s.inView (levelsAt 1)) (s.larg0.toNat + 1) = .ok ((ctxs, oob), q) →
    x = (if 1 < ctxs.length then 4 else 0) →
    q + 12 + x + 4 * ceilDiv32 len ≤ s.lInLen.toNat →
    s.inView.word q = u32 len → s.inView.word (q + 4) = u32 n →
    s.inView.word (q + 8 + x) = u32 (ceilDiv32 len) →
    (s.inView.byte s.larg0.toNat = 2 →
      huffmanDecode (wordsAt s.inView (q + 12 + x) (ceilDiv32 len)) len n ctxs oob
        (q + 12 + x + 4 * ceilDiv32 len) = .ok vals →
      exec .cdp1Huffman s = streamDone s a vals (q + 12 + x + 4 * ceilDiv32 len) ∧
      exec (.decCdp1 a) s = exec .cdp1Huffman s) ∧
    (s.inView.byte s.larg0.toNat = 3 →
      arithDecode (wordsAt s.inView (q + 12 + x) (ceilDiv32 len)) len n ctxs oob
        (q + 12 + x + 4 * ceilDiv32 len) = .ok vals →
      exec .cdp1Arithmetic s = streamDone s a vals (q + 12 + x + 4 * ceilDiv32 len) ∧
      exec (.decCdp1 a) s = exec .cdp1Arithmetic s)) ∧
    ∀ (v : InView) (load : Cursor (List Word)) (p : Nat), p + 1 ≤ v.inLen →
      (v.byte p = 0 → cdp1Table v load p = .error { code := .ctx, info := p + 1 }) ∧
      (∀ (cs : List ContextFields) (q : Nat), 0 < cs.length → v.byte p = BitVec.ofNat 8 cs.length → cs.length < 256 →
        (∀ c ∈ cs, c.Fits) → q = p + 1 + 4 * ceilDiv32 (cs.flatMap (ContextFields.bits 32 6)).length →
        q + 4 ≤ v.inLen → HoldsAt v (p + 1) (cs.flatMap (ContextFields.bits 32 6)) →
        ((v.word q).toInt < 0 → cdp1Table v load p = .error { code := .range, info := q + 4 }) ∧
        (v.word q = 0 → cdp1Table v load p = .ok ((cs.map ContextFields.entriesRead, []), q + 4)) ∧
        (0 < (v.word q).toInt → ∀ oob r, load (q + 4) = .ok (oob, r) → cdp1Table v load p =
          if oob.length = (v.word q).toNat then .ok ((cs.map ContextFields.entriesRead, oob), r)
          else .error { code := .count, info := r })) ∧
      ∀ cnt sb ob vb nb minV : Nat, v.byte p ≠ 0 → cnt < 2 ^ 32 → sb < 64 → ob < 64 → vb < 64 → nb < 64 →
        minV < 2 ^ 32 → cnt = 0 ∨ 65535 < cnt ∨ 32 < sb ∨ 32 < ob ∨ 32 < vb ∨ 32 < nb → p + 13 ≤ v.inLen →
        HoldsAt v (p + 1) (contextHeader 32 6 cnt sb ob vb nb minV) →
        cdp1Table v load p = .error { code := .ctx, info := p + 13 }

/-- An entry with more than half the occurrences gets a code of one bit (R225; tier 2, stated). When a context has
at least two entries and one entry's count is greater than the sum of all the others, the tree built from it, if
it is built, has that entry as the right child of the root (code 0). -/
def Obligations.HuffmanMajorityCode : Prop :=
  ∀ (p : Nat) (pre post : List CtxEntry) (e : CtxEntry) (t : HuffTree), pre ++ post ≠ [] →
    totalCount (pre ++ post) < e.occ → buildTree p (pre ++ e :: post) = .ok t →
    ∃ w l, t = .node w l (.leaf e)

/-- Huffman decoding of one-leaf and two-leaf trees, and of the OOB escape (R220, R221, R222, R223, R224, R203; tier
2, derived). With a context of one entry and a codetext of no bits, n values decode to n times its value, or,
for the escape, to the OOB values if there are exactly n of them and to E_OOB otherwise. With a context of two
entries, the rarer first, each bit of the codetext selects one: 1 the rarer, 0 the other. -/
def Obligations.HuffmanWalk : Prop :=
  (∀ (ws : List Word) (n p : Nat) (e : CtxEntry), e.next = 0 →
      (e.symbol ≠ -2 → huffmanDecode ws 0 n [[e]] [] p = .ok (List.replicate n e.val)) ∧
      (e.symbol = -2 → ∀ oob : List Word, huffmanDecode ws 0 n [[e]] oob p =
        if oob.length = n then .ok oob else .error { code := .oob, info := p })) ∧
    ∀ (ws : List Word) (len p : Nat) (x y : CtxEntry) (bits : List Bool), x.next = 0 → y.next = 0 → x.symbol ≠ -2 →
      y.symbol ≠ -2 → x.occ < y.occ → x.occ + y.occ < 2 ^ 32 → HoldsBits ws len bits →
      huffmanDecode ws len bits.length [[x, y]] [] p = .ok (bits.map fun b => if b then x.val else y.val)

/-- PRED.LAG1, LAG2, RAMP, XOR1, XOR2 and NULL rebuild their values (R265, R266, R270, R271, R272, R273; tier 2,
stated). Each completes with RESULT0 = 0 and RESULT1 the length, changes no other slot and nothing else, and
gives the destination as many values as residuals: the first four copied, then v[i] = wrap32(r[i] + v[i-1])
(LAG1), wrap32(r[i] + v[i-2]) (LAG2), wrap32(r[i] + i) (RAMP), r[i] xor v[i-1] (XOR1), r[i] xor v[i-2] (XOR2);
NULL copies all of them. -/
def Obligations.PredLagXorRampNull : Prop :=
  ∀ (s : State) (a b : SlotNo),
    (∃ v, exec (.predLag1 a b) s = .next ((s.setSlot b v).complete 0 (u32 v.length)) ∧
      Rebuilt (s.slot a) v fun _ r v1 _ _ => wrap32 (r.toInt + v1.toInt)) ∧
    (∃ v, exec (.predLag2 a b) s = .next ((s.setSlot b v).complete 0 (u32 v.length)) ∧
      Rebuilt (s.slot a) v fun _ r _ v2 _ => wrap32 (r.toInt + v2.toInt)) ∧
    (∃ v, exec (.predRamp a b) s = .next ((s.setSlot b v).complete 0 (u32 v.length)) ∧
      Rebuilt (s.slot a) v fun i r _ _ _ => wrap32 (r.toInt + i)) ∧
    (∃ v, exec (.predXor1 a b) s = .next ((s.setSlot b v).complete 0 (u32 v.length)) ∧
      Rebuilt (s.slot a) v fun _ r v1 _ _ => r ^^^ v1) ∧
    (∃ v, exec (.predXor2 a b) s = .next ((s.setSlot b v).complete 0 (u32 v.length)) ∧
      Rebuilt (s.slot a) v fun _ r _ v2 _ => r ^^^ v2) ∧
    exec (.predNull a b) s = .next ((s.setSlot b (s.slot a)).complete 0 (u32 (s.slot a).length))

/-- PRED.STRIDE1, STRIDE2 and STRIPINDEX rebuild their values (R267, R268, R269; tier 2, stated). Each completes
with RESULT0 = 0 and RESULT1 the length, changes no other slot and nothing else, and gives the destination as
many values as residuals: the first four copied, then v[i] = wrap32(r[i] + v[i-1] + (v[i-1] - v[i-2]))
(STRIDE1), wrap32(r[i] + v[i-2] + (v[i-2] - v[i-4])) (STRIDE2), and for STRIPINDEX the same as STRIDE2 where the
wrapped difference lies strictly between -8 and 8, else wrap32(r[i] + v[i-2] + 2). -/
def Obligations.PredStride : Prop :=
  ∀ (s : State) (a b : SlotNo),
    (∃ v, exec (.predStride1 a b) s = .next ((s.setSlot b v).complete 0 (u32 v.length)) ∧
      Rebuilt (s.slot a) v fun _ r v1 v2 _ => wrap32 (r.toInt + v1.toInt + (v1.toInt - v2.toInt))) ∧
    (∃ v, exec (.predStride2 a b) s = .next ((s.setSlot b v).complete 0 (u32 v.length)) ∧
      Rebuilt (s.slot a) v fun _ r _ v2 v4 => wrap32 (r.toInt + v2.toInt + (v2.toInt - v4.toInt))) ∧
    (∃ v, exec (.predStripindex a b) s = .next ((s.setSlot b v).complete 0 (u32 v.length)) ∧
      Rebuilt (s.slot a) v fun _ r _ v2 v4 =>
        if -8 < (v2 - v4).toInt ∧ (v2 - v4).toInt < 8 then
          wrap32 (r.toInt + v2.toInt + (v2 - v4).toInt)
        else wrap32 (r.toInt + v2.toInt + 2))

/-- DEQ_QUANT evaluates min + (code - 0.5) * (max - min) / maxCode for each code (R280, R281, R282, R284; tier 2,
derived). With bits not 0, DEQ_QUANT completes: the destination gets one value per code. At the reference
evaluation, value i is binary32 of min + ((code - 0.5) * d / maxCode), each step in binary64, where d is max -
min rounded to binary32 once and maxCode is 2^bits - 1, or 2^32 - 1 for bits >= 32. Which NaN draw a result
takes is the model's (log 4), and so is the free value at another evaluation (log 5). Nothing else changes. -/
def Obligations.DeqQuantCompletes : Prop :=
  ∀ (s : State) (a b : SlotNo), s.larg2 ≠ 0 →
    ∃ v, exec (.deqQuant a b) s =
        .next ((State.setSlot { s with draws := s.draws + (s.slot a).length + 1 } b v).complete 0 (u32 v.length)) ∧
      v.length = (s.slot a).length ∧
      (s.params.quantEval = .reference → ∀ i, i < (s.slot a).length →
        v.getD i 0 = toBits32 (qnanDraw (s.draws + 1 + i)) (convert binary32 (fadd binary64 (ofBits32 s.larg0)
          (fdiv binary64
            (fmul binary64
              (fsub binary64 (.fin false ((s.slot a).getD i 0).toNat 0) (.fin false 1 (-1)))
              (ofBits32 (toBits32 (qnanDraw s.draws) (fsub binary32 (ofBits32 s.larg1) (ofBits32 s.larg0)))))
            (.fin false (2 ^ min s.larg2.toNat 32 - 1) 0)))))

/-- DEQ_QUANT with bits = 0 is E_RANGE, and bits >= 32 behave as 32 (R283; tier 2, stated). With LARG2 = 0 DEQ_QUANT
empties its destination and records E_RANGE with ERRINFO 0. With LARG2 of 32 or more it does exactly what it
does with LARG2 = 32. -/
def Obligations.DeqQuantBits : Prop :=
  ∀ (s : State) (a b : SlotNo),
    (s.larg2 = 0 → exec (.deqQuant a b) s = .next ((s.setSlot b []).recordError .range 0)) ∧
    ∀ t, 32 ≤ s.larg2.toNat → exec (.deqQuant a b) s = .next t →
      exec (.deqQuant a b) { s with larg2 := 32 } = .next { t with larg2 := 32 }

/-- Rounding is to the nearest, ties to even, and binary32 values pass unchanged (R284, R11; tier 2, derived). The
quotient the float operations round with is within half of the exact one and even at a tie. Every binary32 bit
pattern that is not a NaN, subnormals and signed zeros included, is unchanged by reading it as a datum, rounding
that to binary32 and writing it back. -/
def Obligations.BinaryRounding : Prop :=
  (∀ num den : Nat, 0 < den →
      2 * (num : Int) - 2 * den * divNearestEven num den ≤ den ∧
      2 * (den : Int) * divNearestEven num den - 2 * num ≤ den ∧
      (2 * (num : Int) - 2 * den * divNearestEven num den = den ∨
        2 * (den : Int) * divNearestEven num den - 2 * num = den → divNearestEven num den % 2 = 0)) ∧
    ∀ w nan : Word, ofBits32 w ≠ .nan → toBits32 nan (convert binary32 (ofBits32 w)) = w

/-- DEQ_EXPMANT reassembles exponent and mantissa bits, or fails on unequal lengths (R285, R286; tier 2, stated).
With lists of one length it completes: element i of the destination is ((exponent * 2^23) mod 2^32) or mantissa,
on all 32 bits, and nothing else changes. With unequal lengths it empties the destination and records E_COUNT. -/
def Obligations.DeqExpmant : Prop :=
  ∀ (s : State) (a b c : SlotNo),
    ((s.slot a).length = (s.slot b).length →
      ∃ v, exec (.deqExpmant a b c) s = .next ((s.setSlot c v).complete 0 (u32 v.length)) ∧
        v.length = (s.slot a).length ∧
        ∀ i, i < v.length →
          (v.getD i 0).toNat = ((s.slot a).getD i 0).toNat * 2 ^ 23 % 2 ^ 32 ||| ((s.slot b).getD i 0).toNat) ∧
    ((s.slot a).length ≠ (s.slot b).length →
      exec (.deqExpmant a b c) s = .next ((s.setSlot c []).recordError .count 0))

/-- DEQ_DEERING decodes one normal per code quadruple, or fails (R288, R289, R291, R292, R293, R290; tier 2,
derived). With bitsPerNormal at most 13, the reserved bits of LARG0 0, three distinct destinations, four lists
of one length and every code in range, DEQ_DEERING completes: normal i is the permuted base (psi.cos *
theta.cos, psi.sin, psi.cos * theta.sin) of the table entries of the shifted codes, each component with its sign
flipped where its octant bit is 0; nothing else changes. Which NaN draw a product takes is the model's (log 4),
and so are other table contents (log 5). It fails, its destinations emptied, with E_BADARG for bitsPerNormal
above 13, reserved LARG0 bits or equal destinations, then with E_COUNT for unequal lengths, then with E_RANGE
where a code is out of range. The reference permutation is the table of R291, and the reference table has the
values R289 lists (its other entries are as log 13 says). -/
def Obligations.DeqDeeringCompletes : Prop :=
  ((List.range 6).map (sextantPerm .reference) =
      [(0, 1, 2), (0, 2, 1), (1, 0, 2), (1, 2, 0), (2, 0, 1), (2, 1, 0)] ∧
      deeringEntry .reference 0 = (0x00000000, 0x3F800000) ∧
      deeringEntry .reference 4096 = (0x3E9B166C, 0x3F73F929) ∧
      deeringEntry .reference 8192 = (0x3F13CD3A, 0x3F5105EB)) ∧
    (∀ (s : State) (a b c d : SlotNo) (m : BitVec 4) (x y z : SlotNo), x = s.larg0.extractLsb' 0 5 →
      y = s.larg0.extractLsb' 8 5 → z = s.larg0.extractLsb' 16 5 →
      (13 < m.toNat ∨ s.larg0 &&& 0xFFE0E0E0 ≠ 0 ∨ x = y ∨ y = z ∨ x = z →
        exec (.deqDeering a b c d m) s =
          .next ((((s.setSlot x []).setSlot y []).setSlot z []).recordError .badArg 0)) ∧
      (m.toNat ≤ 13 → s.larg0 &&& 0xFFE0E0E0 = 0 → x ≠ y → y ≠ z → x ≠ z →
        ((s.slot b).length ≠ (s.slot a).length ∨ (s.slot c).length ≠ (s.slot a).length ∨
            (s.slot d).length ≠ (s.slot a).length →
          exec (.deqDeering a b c d m) s =
            .next ((((s.setSlot x []).setSlot y []).setSlot z []).recordError .count 0)) ∧
        ∀ i, (s.slot b).length = (s.slot a).length → (s.slot c).length = (s.slot a).length →
          (s.slot d).length = (s.slot a).length → i < (s.slot a).length →
          5 < ((s.slot a).getD i 0).toNat ∨ 7 < ((s.slot b).getD i 0).toNat ∨
            8192 < ((s.slot c).getD i 0).toNat * 2 ^ (13 - m.toNat) ∨
            8192 < ((s.slot d).getD i 0).toNat * 2 ^ (13 - m.toNat) →
          exec (.deqDeering a b c d m) s =
            .next ((((s.setSlot x []).setSlot y []).setSlot z []).recordError .range 0))) ∧
    ∀ (s : State) (a b c d : SlotNo) (m : BitVec 4), m.toNat ≤ 13 → s.larg0 &&& 0xFFE0E0E0 = 0 →
    s.larg0.extractLsb' 0 5 ≠ s.larg0.extractLsb' 8 5 → s.larg0.extractLsb' 8 5 ≠ s.larg0.extractLsb' 16 5 →
    s.larg0.extractLsb' 0 5 ≠ s.larg0.extractLsb' 16 5 → (s.slot b).length = (s.slot a).length →
    (s.slot c).length = (s.slot a).length → (s.slot d).length = (s.slot a).length →
    (∀ i, i < (s.slot a).length →
      ((s.slot a).getD i 0).toNat ≤ 5 ∧ ((s.slot b).getD i 0).toNat ≤ 7 ∧
      ((s.slot c).getD i 0).toNat * 2 ^ (13 - m.toNat) ≤ 8192 ∧
      ((s.slot d).getD i 0).toNat * 2 ^ (13 - m.toNat) ≤ 8192) →
    ∃ xs ys zs, exec (.deqDeering a b c d m) s =
        .next (((((State.setSlot { s with draws := s.draws + 2 * (s.slot a).length }
          (s.larg0.extractLsb' 0 5) xs).setSlot (s.larg0.extractLsb' 8 5) ys).setSlot
          (s.larg0.extractLsb' 16 5) zs)).complete 0 (u32 (s.slot a).length)) ∧
      xs.length = (s.slot a).length ∧ ys.length = (s.slot a).length ∧ zs.length = (s.slot a).length ∧
      ∀ i, i < (s.slot a).length →
        let theta := deeringEntry s.params.deeringTable (((s.slot c).getD i 0).toNat * 2 ^ (13 - m.toNat))
        let psi := deeringEntry s.params.deeringTable (((s.slot d).getD i 0).toNat * 2 ^ (13 - m.toNat))
        let base : Vector Word 3 := #v[fmulBits32 (s.draws + 2 * i) psi.2 theta.2, psi.1,
          fmulBits32 (s.draws + 2 * i + 1) psi.2 theta.1]
        let order := sextantPerm s.params.sextantPerm ((s.slot a).getD i 0).toNat
        let oct := (s.slot b).getD i 0
        xs.getD i 0 = (if oct.getLsbD 2 then base[order.1] else base[order.1] ^^^ 0x80000000) ∧
        ys.getD i 0 = (if oct.getLsbD 1 then base[order.2.1] else base[order.2.1] ^^^ 0x80000000) ∧
        zs.getD i 0 = (if oct.getLsbD 0 then base[order.2.2] else base[order.2.2] ^^^ 0x80000000)

/-- VTX_PACK interleaves three component lists, or fails (R295; tier 2, stated). With three lists of one length n
and 3n up to SLOT_CAP it completes: element 3i + j of the destination is element i of component j, RESULT1 is
3n, and nothing else changes. Unequal lengths end with E_COUNT, a result above SLOT_CAP with E_CAPACITY, the
destination emptied. -/
def Obligations.VtxPack : Prop :=
  ∀ (s : State) (a b c d : SlotNo),
    ((s.slot b).length ≠ (s.slot a).length ∨ (s.slot c).length ≠ (s.slot a).length →
      exec (.vtxPack a b c d) s = .next ((s.setSlot d []).recordError .count 0)) ∧
    ((s.slot b).length = (s.slot a).length → (s.slot c).length = (s.slot a).length →
      (s.params.slotCap < 3 * (s.slot a).length →
        exec (.vtxPack a b c d) s = .next ((s.setSlot d []).recordError .capacity 0)) ∧
      (3 * (s.slot a).length ≤ s.params.slotCap →
        ∃ v, exec (.vtxPack a b c d) s = .next ((s.setSlot d v).complete 0 (u32 v.length)) ∧
          v.length = 3 * (s.slot a).length ∧
          ∀ i, i < (s.slot a).length →
            v.getD (3 * i) 0 = (s.slot a).getD i 0 ∧ v.getD (3 * i + 1) 0 = (s.slot b).getD i 0 ∧
            v.getD (3 * i + 2) 0 = (s.slot c).getD i 0))

/-- TOPO_RUN with no vertex, and how its first vertex and face can fail (ERRINFO with two bounds passed at once is
the model's, log 16) (R310, R311, R312, R314, R315, R318, R319, R330, R340, R342, R343, R348; tier 2, derived).
With VALENCE unassigned or empty: if every assigned input stream is empty, TOPO_RUN completes with an empty
valid MESH and both results 0; else it ends with E_TOPO_STREAM and ERRINFO the lowest role with elements left.
With a first valence x: GROUP assigned and empty is E_TOPO_STREAM(9), else FLAGS assigned and empty is
E_TOPO_STREAM(10); else x outside 2 to MAX_VALENCE is E_TOPO_VALUE(1); no room for a vertex is E_CAPACITY(1),
more slots than MAX_INCID E_CAPACITY(3). Else the first degree is read in context 1, 4, 6 or 7 by x: none there
is E_TOPO_STREAM of that role; a negative degree, 1 or one above MAX_DEGREE is E_TOPO_VALUE(2); 0, a split on an
empty queue, is E_TOPO_STREAM(13) with SPLITFACE empty and E_TOPO_SPLIT(1) otherwise. For a legal degree, an
empty assigned AMASK0 is E_TOPO_STREAM(11), a mask bit at or above a degree up to 32 is E_TOPO_ATTR(1), and with
no mask no room for a face is E_CAPACITY(2), more slots than MAX_INCID E_CAPACITY(3). Each error discards MESH
and changes no slot. That ERRINFO is 1 (or 2), not 3, where MAX_INCID is passed too, is the model's choice:
R314, R319 and R348 do not order the two bounds (log 16). -/
def Obligations.TopoRunOnEmptyStreams : Prop :=
  ∀ s : State,
    ((s.roleStream roleValence).getD [] = [] →
      ((∀ r : Role, r.val ≤ 14 → (s.roleStream r).getD [] = []) →
        exec .topoRun s = .next ((s.setMesh Mesh.empty).complete 0 0)) ∧
      ∀ r : Role, r.val ≤ 14 → (s.roleStream r).getD [] ≠ [] →
        (∀ q : Role, q.val < r.val → (s.roleStream q).getD [] = []) → s.TopoFails .topoStream (u32 r.val)) ∧
    ∀ (x : Word) (xs : List Word), s.roleStream roleValence = some (x :: xs) →
      (s.roleStream roleGroup = some [] → s.TopoFails .topoStream 9) ∧
      (s.roleStream roleGroup ≠ some [] → s.roleStream roleFlags = some [] → s.TopoFails .topoStream 10) ∧
      (s.roleStream roleGroup ≠ some [] → s.roleStream roleFlags ≠ some [] →
        (x.toInt < 2 ∨ (s.params.maxValence : Int) < x.toInt → s.TopoFails .topoValue 1) ∧
        (2 ≤ x.toInt → x.toInt ≤ s.params.maxValence → s.params.maxVtx = 0 → s.TopoFails .capacity 1) ∧
        (2 ≤ x.toInt → x.toInt ≤ s.params.maxValence → 0 < s.params.maxVtx → s.params.maxIncid < x.toNat →
          s.TopoFails .capacity 3) ∧
        ∀ c : Role, 2 ≤ x.toInt → x.toInt ≤ s.params.maxValence → 0 < s.params.maxVtx → x.toNat ≤ s.params.maxIncid →
          c = (if x = 3 then 1 else if x = 4 then 4 else if x = 5 then 6 else 7) →
          ((s.roleStream c).getD [] = [] → s.TopoFails .topoStream (u32 c.val)) ∧
          ∀ (d : Word) (ds : List Word), s.roleStream c = some (d :: ds) →
            (d.toInt < 0 ∨ d.toInt = 1 ∨ (s.params.maxDegree : Int) < d.toInt → s.TopoFails .topoValue 2) ∧
            (d = 0 → (s.roleStream roleSplitFace).getD [] = [] → s.TopoFails .topoStream 13) ∧
            (d = 0 → (s.roleStream roleSplitFace).getD [] ≠ [] → s.TopoFails .topoSplit 1) ∧
            (2 ≤ d.toInt → d.toInt ≤ s.params.maxDegree →
              (s.roleStream roleAmask0 = some [] → s.TopoFails .topoStream 11) ∧
              (∀ m ms, s.roleStream roleAmask0 = some (m :: ms) → d.toInt ≤ 32 → 2 ^ d.toNat ≤ m.toNat →
                s.TopoFails .topoAttr 1) ∧
              (s.roleStream roleAmask0 = none → s.params.maxFace = 0 → s.TopoFails .capacity 2) ∧
              (s.roleStream roleAmask0 = none → 0 < s.params.maxFace → s.params.maxIncid < d.toNat →
                s.TopoFails .capacity 3)))

/-- TOPO_RUN builds the worked meshes and fails as its error table says; degree contexts, splits and attribute ids
(R346, R347, R365, R310, R318, R319, R320, R330, R331, R341, R343, R317; tier 2, derived). With the reference
parameters and exactly the named streams, TOPO_RUN completes with the face and vertex rings, counts and
component numbers of the tetrahedron of R346, two tetrahedra, and the torus of R347 with its two splits, and
with the masks of R365 its attribute bases; and streams with one fault each give the errors of R343. Ctx(v)
compares the sum of the known degrees with 6 (valence 3) or 4 (valence 4) times their number, and is 6 at
valence 5 and 7 otherwise. A degree of 0 at slot j of v takes the face at the SPLITFACE offset from the end of
the queue and links v into its SPLITPOS slot; an offset outside the queue, a position outside the face and a
filled slot are E_TOPO_SPLIT 1, 2 and 3. Whatever its streams, a TOPO_RUN that succeeds leaves each face with
one mask bit per corner, its attribute ids starting where the faces before it end, face flags 0, and the counter
at the total. -/
def Obligations.TopoRunWorkedMeshes : Prop :=
  (∀ s : State, s.params = Params.reference →
      (s.RoleStreams [(8, [3, 3, 3, 3]), (0, [3, 3, 3]), (1, [3])] →
        ∃ m, exec .topoRun s = .next ((s.setMesh m).complete 4 4) ∧
          m.faces.map Face.fvtx = filledRings [[0, 2, 3], [0, 3, 1], [0, 1, 2], [1, 3, 2]] ∧
          m.vertices.map Vertex.vface = filledRings [[0, 1, 2], [2, 1, 3], [2, 3, 0], [3, 1, 0]] ∧
          m.attrCounter = 0 ∧ m.ncomp = 1) ∧
      (s.RoleStreams [(8, [3, 3, 3, 3]), (0, [3, 3, 3]), (1, [3]), (11, [5, 0, 1, 7])] →
        ∃ m, exec .topoRun s = .next ((s.setMesh m).complete 4 4) ∧
          m.faces.map Face.amask = [[true, false, true], [false, false, false], [true, false, false],
            [true, true, true]] ∧
          m.faces.map Face.attrBase = [0, 2, 2, 3] ∧ m.attrCounter = 6) ∧
      (s.RoleStreams [(8, [3, 3, 3, 3, 3, 3, 3, 3]), (0, [3, 3, 3, 3, 3, 3]), (1, [3, 3])] →
        ∃ m, exec .topoRun s = .next ((s.setMesh m).complete 8 8) ∧
          m.faces.map Face.fvtx = filledRings [[0, 2, 3], [0, 3, 1], [0, 1, 2], [1, 3, 2], [4, 6, 7], [4, 7, 5],
            [4, 5, 6], [5, 7, 6]] ∧ m.ncomp = 2) ∧
      (s.RoleStreams [(8, [4, 4, 4, 4, 4, 4, 4, 4, 4]), (4, [4, 4, 4, 4, 4, 4, 4, 4, 4, 0, 0]), (13, [4, 3]),
          (14, [1, 2])] →
        ∃ m, exec .topoRun s = .next ((s.setMesh m).complete 9 9) ∧
          m.faces.map Face.fvtx = filledRings [[0, 3, 7, 8], [0, 8, 6, 5], [0, 5, 4, 1], [0, 1, 2, 3], [1, 4, 6, 8],
            [1, 8, 7, 2], [2, 7, 6, 4], [2, 4, 5, 3], [3, 5, 6, 7]] ∧
          m.vertices.map Vertex.vface = filledRings [[0, 1, 2, 3], [3, 2, 4, 5], [3, 5, 6, 7], [3, 7, 8, 0],
            [7, 6, 4, 2], [7, 2, 1, 8], [8, 1, 4, 6], [8, 6, 5, 0], [5, 4, 1, 0]] ∧ m.ncomp = 1) ∧
      (s.RoleStreams [(8, [3, 3, 3, 3]), (0, [3, 3, 3, 3]), (1, [3])] → s.TopoFails .topoStream 0) ∧
      (s.RoleStreams [(8, [3, 3, 3]), (0, [3, 3, 3]), (1, [3])] → s.TopoFails .topoStream 8) ∧
      (s.RoleStreams [(8, [3])] → s.TopoFails .topoStream 1) ∧
      (s.RoleStreams [(8, [3]), (1, [3]), (0, [0]), (13, [0]), (14, [0])] → s.TopoFails .topoSplit 3) ∧
      (s.RoleStreams [(8, [3]), (1, [3]), (0, [0]), (13, [0]), (14, [3])] → s.TopoFails .topoSplit 2) ∧
      (s.RoleStreams [(8, [3]), (1, [3]), (0, [0]), (13, [1]), (14, [1])] → s.TopoFails .topoSplit 1) ∧
      (s.RoleStreams [(8, [3]), (1, [3]), (0, [0]), (13, [0]), (14, [1])] → s.TopoFails .topoConflict 2) ∧
      (s.RoleStreams [(8, [3, 3, 3, 3]), (0, [3, 3, 3]), (1, [3]), (11, [8, 0, 0, 0])] → s.TopoFails .topoAttr 1) ∧
      (s.RoleStreams [(8, [3, 3, 3, 3]), (0, [3, 3, 3]), (1, [3]), (12, [1])] → s.TopoFails .topoStream 12) ∧
      (s.RoleStreams [(8, [2, 4, 3]), (7, [2, 2]), (14, [1])] → s.TopoFails .topoConflict 1) ∧
      (s.RoleStreams [(8, [2, 3, 2, 4]), (0, [2, 3]), (7, [3, 3, 0])] → s.TopoFails .topoConflict 4)) ∧
    (∀ (t : Topo) (v : Nat) (x : Vertex) (ds : List Nat), t.vertices[v]? = some x →
      ds = (x.vface.filterMap id).map (fun f => (t.fring f).length) →
      (x.vface.length = 3 → topoCtx t v =
        if ds.sum < 6 * ds.length then 0 else if ds.sum = 6 * ds.length then 1 else 2) ∧
      (x.vface.length = 4 → topoCtx t v =
        if ds.sum < 4 * ds.length then 3 else if ds.sum = 4 * ds.length then 4 else 5) ∧
      (x.vface.length = 5 → topoCtx t v = 6) ∧ (x.vface.length ∉ [3, 4, 5] → topoCtx t v = 7)) ∧
    (∀ (e : TopoEnv) (t : Topo) (v j : Nat) (c : Role) (off pos : Word), c = roleDegree (topoCtx t v) →
      (e.stream c)[t.cursors[c]]? = some 0 → (e.stream roleSplitFace)[t.cursors[roleSplitFace]]? = some off →
      (e.stream roleSplitPos)[t.cursors[roleSplitPos]]? = some pos →
      (off.toInt < 0 ∨ (t.aq.length : Int) ≤ off.toInt →
        (activateF e v j).run t = .error (.error { code := .topoSplit, info := 1 })) ∧
      ∀ f, 0 ≤ off.toInt → t.aq.reverse[off.toNat]? = some f →
        (pos.toInt < 0 ∨ ((t.fring f).length : Int) ≤ pos.toInt →
          (activateF e v j).run t = .error (.error { code := .topoSplit, info := 2 })) ∧
        (∀ u, 0 ≤ pos.toInt → (t.fring f)[pos.toNat]? = some (some u) →
          (activateF e v j).run t = .error (.error { code := .topoSplit, info := 3 })) ∧
        (0 ≤ pos.toInt → (t.fring f)[pos.toNat]? = some none →
          ∃ t' : Topo, (activateF e v j).run t = (topLink v j f pos.toNat).run t' ∧ t' = { t with cursors := t'.cursors } ∧
            ∀ q : Role, t'.cursors[q] =
              t.cursors[q] + if q = c ∨ q = roleSplitFace ∨ q = roleSplitPos then 1 else 0)) ∧
    ∀ s t : State, exec .topoRun s = .next t → t.meshValid = true →
      t.mesh.attrCounter = (t.mesh.faces.map fun f => f.amask.countP id).sum ∧
      ∀ i f, t.mesh.faces[i]? = some f → f.amask.length = f.fvtx.length ∧ f.fflags = 0 ∧
        f.attrBase = ((t.mesh.faces.take i).map fun g => g.amask.countP id).sum

/-- TOPO_EMIT writes the corner arrays, face by face in ring order, or fails (R360, R361, R362, R363, R412; tier 2,
derived). CORNER_VTX unassigned, or both output roles on one slot, gives E_BADARG; else no valid MESH gives
E_STATE; else more corners than SLOT_CAP gives E_CAPACITY; each with ERRINFO 0, the assigned output slots
emptied, and MESH unchanged. With CORNER_VTX assigned, CORNER_ATTR unassigned or on another slot, MESH valid and
NCORNER up to SLOT_CAP, TOPO_EMIT completes with RESULT0 = NCORNER and RESULT1 = NATTR: corner s of face f
stands at the sum of the degrees of the faces before f plus s, its vertex id (or -1) in CORNER_VTX and its
attribute index in CORNER_ATTR if that is assigned; MESH and everything else are unchanged. -/
def Obligations.TopoEmitCorners : Prop :=
  ∀ s : State,
    (s.roleSlot roleCornerVtx = none ∨ s.roleSlot roleCornerVtx = s.roleSlot roleCornerAttr →
      exec .topoEmit s = .next ((s.emptySlots (destsOf .topoEmit s)).recordError .badArg 0)) ∧
    (s.roleSlot roleCornerVtx ≠ none → s.roleSlot roleCornerVtx ≠ s.roleSlot roleCornerAttr →
      (s.meshValid = false →
        exec .topoEmit s = .next ((s.emptySlots (destsOf .topoEmit s)).recordError .state 0)) ∧
      (s.meshValid = true → s.params.slotCap < sumDegree s.mesh.faces →
        exec .topoEmit s = .next ((s.emptySlots (destsOf .topoEmit s)).recordError .capacity 0))) ∧
    ∀ cv : SlotNo, s.roleSlot roleCornerVtx = some cv → s.roleSlot roleCornerAttr ≠ some cv →
    s.meshValid = true → sumDegree s.mesh.faces ≤ s.params.slotCap →
    ∃ xs ys, exec .topoEmit s = .next ((match s.roleSlot roleCornerAttr with
        | none => s.setSlot cv xs
        | some ca => (s.setSlot cv xs).setSlot ca ys).complete (u32 (sumDegree s.mesh.faces))
          (u32 s.mesh.attrCounter)) ∧
      xs.length = sumDegree s.mesh.faces ∧ ys.length = sumDegree s.mesh.faces ∧
      ∀ f face k, s.mesh.faces[f]? = some face → k < face.fvtx.length →
        xs[sumDegree (s.mesh.faces.take f) + k]? = some (match face.fvtx.getD k none with
          | none => -1
          | some v => u32 v) ∧
        ys[sumDegree (s.mesh.faces.take f) + k]? = some (vtxFaceAttr face k)

/-- The attribute index of a face corner (R363; tier 2, stated). For a face with one mask bit per corner: with no
mask bit set every corner has -1; a corner that owns an attribute has the face's base plus the number of owning
corners before it; a corner that does not own one has the index of the corner before it in ring order, slot
degree-1 standing before slot 0. -/
def Obligations.VtxFaceAttrRotation : Prop :=
  ∀ (f : Face) (k : Nat), f.amask.length = f.degree → k < f.degree →
    (f.nattr = 0 → vtxFaceAttr f k = -1) ∧
    (f.amask.getD k false = true → vtxFaceAttr f k = u32 (f.attrBase + (f.amask.take k).countP id)) ∧
    (f.amask.getD k false = false → 0 < f.nattr →
      vtxFaceAttr f k = vtxFaceAttr f ((k + (f.degree - 1)) % f.degree))
end

