-- ==== Sys2Proof/Laws/Layouts.lean ====
section
/-! SUPPORT. The layouts that statements about codetexts and contexts speak of: their lengths, their places, and how
they split, so that no proof unfolds them. -/

namespace Sys2Proof.Machine

/-! Fields of bits. -/

@[simp] theorem msbBits_zero (x : Nat) : msbBits 0 x = [] := rfl

@[simp] theorem msbBits_length (n x : Nat) : (msbBits n x).length = n := by simp [msbBits]

theorem msbBits_getD {n x i : Nat} (h : i < n) : (msbBits n x).getD i false = x.testBit (n - 1 - i) := by
  simp [msbBits, List.getD, h]

/-- Bits at a place are the model's own bits there. -/
theorem BitsFrom.iff_wordsBit {ws : List Word} {k : Nat} {bits : List Bool} :
    BitsFrom ws k bits ↔ ∀ j, j < bits.length → wordsBit ws (k + j) = bits.getD j false := Iff.rfl

@[simp] theorem BitsFrom.nil (ws : List Word) (k : Nat) : BitsFrom ws k [] := fun _ h => absurd h (Nat.not_lt_zero _)

/-- Two bit strings, one after the other. -/
theorem BitsFrom.append_iff {ws : List Word} {k : Nat} {xs ys : List Bool} :
    BitsFrom ws k (xs ++ ys) ↔ BitsFrom ws k xs ∧ BitsFrom ws (k + xs.length) ys := by
  simp only [BitsFrom.iff_wordsBit, List.length_append]
  constructor
  · refine fun h => ⟨fun j hj => ?_, fun j hj => ?_⟩
    · rw [h j (by omega), List.getD_append _ _ _ _ hj]
    · rw [Nat.add_assoc, h (xs.length + j) (by omega), List.getD_append_right _ _ _ _ (by omega)]
      simp
  · rintro ⟨hx, hy⟩ j hj
    by_cases hlt : j < xs.length
    · rw [hx j hlt, List.getD_append _ _ _ _ hlt]
    · rw [List.getD_append_right _ _ _ _ (by omega), ← hy (j - xs.length) (by omega)]
      congr 1
      omega

/-! Groups of a variable-width Bitlength2 codetext. -/

@[simp] theorem bl2Width_nil (cw : Nat) (w : Int) : bl2Width cw w [] = w := rfl
@[simp] theorem bl2Width_cons (cw : Nat) (w : Int) (g : Bl2Group) (gs : List Bl2Group) :
    bl2Width cw w (g :: gs) = bl2Width cw (g.width cw w) gs := rfl
@[simp] theorem bl2Bits_nil (cw rl : Nat) (w : Int) : bl2Bits cw rl w [] = [] := rfl
@[simp] theorem bl2Bits_cons (cw rl : Nat) (w : Int) (g : Bl2Group) (gs : List Bl2Group) :
    bl2Bits cw rl w (g :: gs) = g.bits cw rl w ++ bl2Bits cw rl (g.width cw w) gs := rfl
@[simp] theorem bl2Vals_nil (cw : Nat) (mean w : Int) : bl2Vals cw mean w [] = [] := rfl
@[simp] theorem bl2Vals_cons (cw : Nat) (mean w : Int) (g : Bl2Group) (gs : List Bl2Group) :
    bl2Vals cw mean w (g :: gs) = g.vals cw mean w ++ bl2Vals cw mean (g.width cw w) gs := rfl
@[simp] theorem bl2Fits_nil (cw rl : Nat) (w : Int) : bl2Fits cw rl w [] := trivial
@[simp] theorem bl2Fits_cons (cw rl : Nat) (w : Int) (g : Bl2Group) (gs : List Bl2Group) :
    bl2Fits cw rl w (g :: gs) ↔ g.Fits cw rl w ∧ bl2Fits cw rl (g.width cw w) gs := Iff.rfl
@[simp] theorem Bl2Group.vals_length (cw : Nat) (mean w : Int) (g : Bl2Group) :
    (g.vals cw mean w).length = g.fields.length := by simp [Bl2Group.vals]
@[simp] theorem Bl2Group.deltas_zero (g : Bl2Group) : g.deltas 0 = [] := rfl
@[simp] theorem bl2Header_length (mean cw rl : Nat) : (bl2Header mean cw rl).length = 39 := by simp [bl2Header]

/-- Groups one after the other, split anywhere. -/
theorem bl2Bits_append (cw rl : Nat) (w : Int) (xs ys : List Bl2Group) :
    bl2Bits cw rl w (xs ++ ys) = bl2Bits cw rl w xs ++ bl2Bits cw rl (bl2Width cw w xs) ys := by
  induction xs generalizing w with
  | nil => rfl
  | cons x xs ih => simp [ih]

/-! Probability contexts. -/

@[simp] theorem contextHeader_length (w0 w4 cnt sb ob vb nb minV : Nat) :
    (contextHeader w0 w4 cnt sb ob vb nb minV).length = w0 + w4 + 50 := by
  simp [contextHeader]
  omega

@[simp] theorem ContextFields.entriesRead_length (c : ContextFields) : c.entriesRead.length = c.entries.length := by
  simp [ContextFields.entriesRead]

/-! TOPO_RUN. -/

/-- What a TOPO_RUN reads is given by the list of its roles' streams. -/
theorem State.RoleStreams.topoEnv_eq {s : State} {l : List (Role × List Word)} (h : s.RoleStreams l) :
    s.topoEnv =
      { params := s.params, streams := Vector.ofFn fun r => if r.val ≤ 14 then l.lookup r else none } := by
  unfold State.topoEnv
  congr 2
  funext r
  split
  · exact h r (by assumption)
  · rfl

end Sys2Proof.Machine
end

