-- ==== Sys2Proof/Laws/State.lean ====
section
/-! SUPPORT. One lemma per field per update of State, true by rfl, so that no proof unfolds a record update; and the
slots after an update. -/

namespace Sys2Proof.Machine


/-! `State.setSlot`. -/

@[simp] theorem State.setSlot_params (s : State) (k : SlotNo) (vs : List Word) : (s.setSlot k vs).params = s.params := rfl
@[simp] theorem State.setSlot_endian (s : State) (k : SlotNo) (vs : List Word) : (s.setSlot k vs).endian = s.endian := rfl
@[simp] theorem State.setSlot_irqEn (s : State) (k : SlotNo) (vs : List Word) : (s.setSlot k vs).irqEn = s.irqEn := rfl
@[simp] theorem State.setSlot_busy (s : State) (k : SlotNo) (vs : List Word) : (s.setSlot k vs).busy = s.busy := rfl
@[simp] theorem State.setSlot_done (s : State) (k : SlotNo) (vs : List Word) : (s.setSlot k vs).done = s.done := rfl
@[simp] theorem State.setSlot_err (s : State) (k : SlotNo) (vs : List Word) : (s.setSlot k vs).err = s.err := rfl
@[simp] theorem State.setSlot_accErr (s : State) (k : SlotNo) (vs : List Word) : (s.setSlot k vs).accErr = s.accErr := rfl
@[simp] theorem State.setSlot_meshValid (s : State) (k : SlotNo) (vs : List Word) : (s.setSlot k vs).meshValid = s.meshValid := rfl
@[simp] theorem State.setSlot_errCode (s : State) (k : SlotNo) (vs : List Word) : (s.setSlot k vs).errCode = s.errCode := rfl
@[simp] theorem State.setSlot_errInfo (s : State) (k : SlotNo) (vs : List Word) : (s.setSlot k vs).errInfo = s.errInfo := rfl
@[simp] theorem State.setSlot_cmd (s : State) (k : SlotNo) (vs : List Word) : (s.setSlot k vs).cmd = s.cmd := rfl
@[simp] theorem State.setSlot_arg0 (s : State) (k : SlotNo) (vs : List Word) : (s.setSlot k vs).arg0 = s.arg0 := rfl
@[simp] theorem State.setSlot_arg1 (s : State) (k : SlotNo) (vs : List Word) : (s.setSlot k vs).arg1 = s.arg1 := rfl
@[simp] theorem State.setSlot_arg2 (s : State) (k : SlotNo) (vs : List Word) : (s.setSlot k vs).arg2 = s.arg2 := rfl
@[simp] theorem State.setSlot_result0 (s : State) (k : SlotNo) (vs : List Word) : (s.setSlot k vs).result0 = s.result0 := rfl
@[simp] theorem State.setSlot_result1 (s : State) (k : SlotNo) (vs : List Word) : (s.setSlot k vs).result1 = s.result1 := rfl
@[simp] theorem State.setSlot_inLen (s : State) (k : SlotNo) (vs : List Word) : (s.setSlot k vs).inLen = s.inLen := rfl
@[simp] theorem State.setSlot_roleMap (s : State) (k : SlotNo) (vs : List Word) : (s.setSlot k vs).roleMap = s.roleMap := rfl
@[simp] theorem State.setSlot_slotSel (s : State) (k : SlotNo) (vs : List Word) : (s.setSlot k vs).slotSel = s.slotSel := rfl
@[simp] theorem State.setSlot_slotIdx (s : State) (k : SlotNo) (vs : List Word) : (s.setSlot k vs).slotIdx = s.slotIdx := rfl
@[simp] theorem State.setSlot_mem (s : State) (k : SlotNo) (vs : List Word) : (s.setSlot k vs).mem = s.mem := rfl
@[simp] theorem State.setSlot_slots (s : State) (k : SlotNo) (vs : List Word) : (s.setSlot k vs).slots = s.slots.set k.toNat vs k.isLt := rfl
@[simp] theorem State.setSlot_lcmd (s : State) (k : SlotNo) (vs : List Word) : (s.setSlot k vs).lcmd = s.lcmd := rfl
@[simp] theorem State.setSlot_larg0 (s : State) (k : SlotNo) (vs : List Word) : (s.setSlot k vs).larg0 = s.larg0 := rfl
@[simp] theorem State.setSlot_larg1 (s : State) (k : SlotNo) (vs : List Word) : (s.setSlot k vs).larg1 = s.larg1 := rfl
@[simp] theorem State.setSlot_larg2 (s : State) (k : SlotNo) (vs : List Word) : (s.setSlot k vs).larg2 = s.larg2 := rfl
@[simp] theorem State.setSlot_lEndian (s : State) (k : SlotNo) (vs : List Word) : (s.setSlot k vs).lEndian = s.lEndian := rfl
@[simp] theorem State.setSlot_lInLen (s : State) (k : SlotNo) (vs : List Word) : (s.setSlot k vs).lInLen = s.lInLen := rfl
@[simp] theorem State.setSlot_mesh (s : State) (k : SlotNo) (vs : List Word) : (s.setSlot k vs).mesh = s.mesh := rfl
@[simp] theorem State.setSlot_inputs (s : State) (k : SlotNo) (vs : List Word) : (s.setSlot k vs).inputs = s.inputs := rfl
@[simp] theorem State.setSlot_hostData (s : State) (k : SlotNo) (vs : List Word) : (s.setSlot k vs).hostData = s.hostData := rfl
@[simp] theorem State.setSlot_epoch (s : State) (k : SlotNo) (vs : List Word) : (s.setSlot k vs).epoch = s.epoch := rfl
@[simp] theorem State.setSlot_draws (s : State) (k : SlotNo) (vs : List Word) : (s.setSlot k vs).draws = s.draws := rfl

/-! `State.complete`. -/

@[simp] theorem State.complete_params (s : State) (r0 r1 : Word) : (s.complete r0 r1).params = s.params := rfl
@[simp] theorem State.complete_endian (s : State) (r0 r1 : Word) : (s.complete r0 r1).endian = s.endian := rfl
@[simp] theorem State.complete_irqEn (s : State) (r0 r1 : Word) : (s.complete r0 r1).irqEn = s.irqEn := rfl
@[simp] theorem State.complete_busy (s : State) (r0 r1 : Word) : (s.complete r0 r1).busy = false := rfl
@[simp] theorem State.complete_done (s : State) (r0 r1 : Word) : (s.complete r0 r1).done = true := rfl
@[simp] theorem State.complete_err (s : State) (r0 r1 : Word) : (s.complete r0 r1).err = s.err := rfl
@[simp] theorem State.complete_accErr (s : State) (r0 r1 : Word) : (s.complete r0 r1).accErr = s.accErr := rfl
@[simp] theorem State.complete_meshValid (s : State) (r0 r1 : Word) : (s.complete r0 r1).meshValid = s.meshValid := rfl
@[simp] theorem State.complete_errCode (s : State) (r0 r1 : Word) : (s.complete r0 r1).errCode = s.errCode := rfl
@[simp] theorem State.complete_errInfo (s : State) (r0 r1 : Word) : (s.complete r0 r1).errInfo = s.errInfo := rfl
@[simp] theorem State.complete_cmd (s : State) (r0 r1 : Word) : (s.complete r0 r1).cmd = s.cmd := rfl
@[simp] theorem State.complete_arg0 (s : State) (r0 r1 : Word) : (s.complete r0 r1).arg0 = s.arg0 := rfl
@[simp] theorem State.complete_arg1 (s : State) (r0 r1 : Word) : (s.complete r0 r1).arg1 = s.arg1 := rfl
@[simp] theorem State.complete_arg2 (s : State) (r0 r1 : Word) : (s.complete r0 r1).arg2 = s.arg2 := rfl
@[simp] theorem State.complete_result0 (s : State) (r0 r1 : Word) : (s.complete r0 r1).result0 = r0 := rfl
@[simp] theorem State.complete_result1 (s : State) (r0 r1 : Word) : (s.complete r0 r1).result1 = r1 := rfl
@[simp] theorem State.complete_inLen (s : State) (r0 r1 : Word) : (s.complete r0 r1).inLen = s.inLen := rfl
@[simp] theorem State.complete_roleMap (s : State) (r0 r1 : Word) : (s.complete r0 r1).roleMap = s.roleMap := rfl
@[simp] theorem State.complete_slotSel (s : State) (r0 r1 : Word) : (s.complete r0 r1).slotSel = s.slotSel := rfl
@[simp] theorem State.complete_slotIdx (s : State) (r0 r1 : Word) : (s.complete r0 r1).slotIdx = s.slotIdx := rfl
@[simp] theorem State.complete_mem (s : State) (r0 r1 : Word) : (s.complete r0 r1).mem = s.mem := rfl
@[simp] theorem State.complete_slots (s : State) (r0 r1 : Word) : (s.complete r0 r1).slots = s.slots := rfl
@[simp] theorem State.complete_lcmd (s : State) (r0 r1 : Word) : (s.complete r0 r1).lcmd = s.lcmd := rfl
@[simp] theorem State.complete_larg0 (s : State) (r0 r1 : Word) : (s.complete r0 r1).larg0 = s.larg0 := rfl
@[simp] theorem State.complete_larg1 (s : State) (r0 r1 : Word) : (s.complete r0 r1).larg1 = s.larg1 := rfl
@[simp] theorem State.complete_larg2 (s : State) (r0 r1 : Word) : (s.complete r0 r1).larg2 = s.larg2 := rfl
@[simp] theorem State.complete_lEndian (s : State) (r0 r1 : Word) : (s.complete r0 r1).lEndian = s.lEndian := rfl
@[simp] theorem State.complete_lInLen (s : State) (r0 r1 : Word) : (s.complete r0 r1).lInLen = s.lInLen := rfl
@[simp] theorem State.complete_mesh (s : State) (r0 r1 : Word) : (s.complete r0 r1).mesh = s.mesh := rfl
@[simp] theorem State.complete_inputs (s : State) (r0 r1 : Word) : (s.complete r0 r1).inputs = s.inputs := rfl
@[simp] theorem State.complete_hostData (s : State) (r0 r1 : Word) : (s.complete r0 r1).hostData = s.hostData := rfl
@[simp] theorem State.complete_epoch (s : State) (r0 r1 : Word) : (s.complete r0 r1).epoch = s.epoch := rfl
@[simp] theorem State.complete_draws (s : State) (r0 r1 : Word) : (s.complete r0 r1).draws = s.draws := rfl

/-! `State.discardMesh`. -/

@[simp] theorem State.discardMesh_params (s : State) : s.discardMesh.params = s.params := rfl
@[simp] theorem State.discardMesh_endian (s : State) : s.discardMesh.endian = s.endian := rfl
@[simp] theorem State.discardMesh_irqEn (s : State) : s.discardMesh.irqEn = s.irqEn := rfl
@[simp] theorem State.discardMesh_busy (s : State) : s.discardMesh.busy = s.busy := rfl
@[simp] theorem State.discardMesh_done (s : State) : s.discardMesh.done = s.done := rfl
@[simp] theorem State.discardMesh_err (s : State) : s.discardMesh.err = s.err := rfl
@[simp] theorem State.discardMesh_accErr (s : State) : s.discardMesh.accErr = s.accErr := rfl
@[simp] theorem State.discardMesh_meshValid (s : State) : s.discardMesh.meshValid = false := rfl
@[simp] theorem State.discardMesh_errCode (s : State) : s.discardMesh.errCode = s.errCode := rfl
@[simp] theorem State.discardMesh_errInfo (s : State) : s.discardMesh.errInfo = s.errInfo := rfl
@[simp] theorem State.discardMesh_cmd (s : State) : s.discardMesh.cmd = s.cmd := rfl
@[simp] theorem State.discardMesh_arg0 (s : State) : s.discardMesh.arg0 = s.arg0 := rfl
@[simp] theorem State.discardMesh_arg1 (s : State) : s.discardMesh.arg1 = s.arg1 := rfl
@[simp] theorem State.discardMesh_arg2 (s : State) : s.discardMesh.arg2 = s.arg2 := rfl
@[simp] theorem State.discardMesh_result0 (s : State) : s.discardMesh.result0 = s.result0 := rfl
@[simp] theorem State.discardMesh_result1 (s : State) : s.discardMesh.result1 = s.result1 := rfl
@[simp] theorem State.discardMesh_inLen (s : State) : s.discardMesh.inLen = s.inLen := rfl
@[simp] theorem State.discardMesh_roleMap (s : State) : s.discardMesh.roleMap = s.roleMap := rfl
@[simp] theorem State.discardMesh_slotSel (s : State) : s.discardMesh.slotSel = s.slotSel := rfl
@[simp] theorem State.discardMesh_slotIdx (s : State) : s.discardMesh.slotIdx = s.slotIdx := rfl
@[simp] theorem State.discardMesh_mem (s : State) : s.discardMesh.mem = s.mem := rfl
@[simp] theorem State.discardMesh_slots (s : State) : s.discardMesh.slots = s.slots := rfl
@[simp] theorem State.discardMesh_lcmd (s : State) : s.discardMesh.lcmd = s.lcmd := rfl
@[simp] theorem State.discardMesh_larg0 (s : State) : s.discardMesh.larg0 = s.larg0 := rfl
@[simp] theorem State.discardMesh_larg1 (s : State) : s.discardMesh.larg1 = s.larg1 := rfl
@[simp] theorem State.discardMesh_larg2 (s : State) : s.discardMesh.larg2 = s.larg2 := rfl
@[simp] theorem State.discardMesh_lEndian (s : State) : s.discardMesh.lEndian = s.lEndian := rfl
@[simp] theorem State.discardMesh_lInLen (s : State) : s.discardMesh.lInLen = s.lInLen := rfl
@[simp] theorem State.discardMesh_mesh (s : State) : s.discardMesh.mesh = Mesh.empty := rfl
@[simp] theorem State.discardMesh_inputs (s : State) : s.discardMesh.inputs = s.inputs := rfl
@[simp] theorem State.discardMesh_hostData (s : State) : s.discardMesh.hostData = s.hostData := rfl
@[simp] theorem State.discardMesh_epoch (s : State) : s.discardMesh.epoch = s.epoch := rfl
@[simp] theorem State.discardMesh_draws (s : State) : s.discardMesh.draws = s.draws := rfl

/-! `State.recordError`. -/

@[simp] theorem State.recordError_params (s : State) (c : ErrCode) (x : Word) : (s.recordError c x).params = s.params := rfl
@[simp] theorem State.recordError_endian (s : State) (c : ErrCode) (x : Word) : (s.recordError c x).endian = s.endian := rfl
@[simp] theorem State.recordError_irqEn (s : State) (c : ErrCode) (x : Word) : (s.recordError c x).irqEn = s.irqEn := rfl
@[simp] theorem State.recordError_busy (s : State) (c : ErrCode) (x : Word) : (s.recordError c x).busy = false := rfl
@[simp] theorem State.recordError_done (s : State) (c : ErrCode) (x : Word) : (s.recordError c x).done = s.done := rfl
@[simp] theorem State.recordError_err (s : State) (c : ErrCode) (x : Word) : (s.recordError c x).err = true := rfl
@[simp] theorem State.recordError_accErr (s : State) (c : ErrCode) (x : Word) : (s.recordError c x).accErr = s.accErr := rfl
@[simp] theorem State.recordError_meshValid (s : State) (c : ErrCode) (x : Word) : (s.recordError c x).meshValid = s.meshValid := rfl
@[simp] theorem State.recordError_errCode (s : State) (c : ErrCode) (x : Word) : (s.recordError c x).errCode = errCodeByte c := rfl
@[simp] theorem State.recordError_errInfo (s : State) (c : ErrCode) (x : Word) : (s.recordError c x).errInfo = x := rfl
@[simp] theorem State.recordError_cmd (s : State) (c : ErrCode) (x : Word) : (s.recordError c x).cmd = s.cmd := rfl
@[simp] theorem State.recordError_arg0 (s : State) (c : ErrCode) (x : Word) : (s.recordError c x).arg0 = s.arg0 := rfl
@[simp] theorem State.recordError_arg1 (s : State) (c : ErrCode) (x : Word) : (s.recordError c x).arg1 = s.arg1 := rfl
@[simp] theorem State.recordError_arg2 (s : State) (c : ErrCode) (x : Word) : (s.recordError c x).arg2 = s.arg2 := rfl
@[simp] theorem State.recordError_result0 (s : State) (c : ErrCode) (x : Word) : (s.recordError c x).result0 = 0 := rfl
@[simp] theorem State.recordError_result1 (s : State) (c : ErrCode) (x : Word) : (s.recordError c x).result1 = 0 := rfl
@[simp] theorem State.recordError_inLen (s : State) (c : ErrCode) (x : Word) : (s.recordError c x).inLen = s.inLen := rfl
@[simp] theorem State.recordError_roleMap (s : State) (c : ErrCode) (x : Word) : (s.recordError c x).roleMap = s.roleMap := rfl
@[simp] theorem State.recordError_slotSel (s : State) (c : ErrCode) (x : Word) : (s.recordError c x).slotSel = s.slotSel := rfl
@[simp] theorem State.recordError_slotIdx (s : State) (c : ErrCode) (x : Word) : (s.recordError c x).slotIdx = s.slotIdx := rfl
@[simp] theorem State.recordError_mem (s : State) (c : ErrCode) (x : Word) : (s.recordError c x).mem = s.mem := rfl
@[simp] theorem State.recordError_slots (s : State) (c : ErrCode) (x : Word) : (s.recordError c x).slots = s.slots := rfl
@[simp] theorem State.recordError_lcmd (s : State) (c : ErrCode) (x : Word) : (s.recordError c x).lcmd = s.lcmd := rfl
@[simp] theorem State.recordError_larg0 (s : State) (c : ErrCode) (x : Word) : (s.recordError c x).larg0 = s.larg0 := rfl
@[simp] theorem State.recordError_larg1 (s : State) (c : ErrCode) (x : Word) : (s.recordError c x).larg1 = s.larg1 := rfl
@[simp] theorem State.recordError_larg2 (s : State) (c : ErrCode) (x : Word) : (s.recordError c x).larg2 = s.larg2 := rfl
@[simp] theorem State.recordError_lEndian (s : State) (c : ErrCode) (x : Word) : (s.recordError c x).lEndian = s.lEndian := rfl
@[simp] theorem State.recordError_lInLen (s : State) (c : ErrCode) (x : Word) : (s.recordError c x).lInLen = s.lInLen := rfl
@[simp] theorem State.recordError_mesh (s : State) (c : ErrCode) (x : Word) : (s.recordError c x).mesh = s.mesh := rfl
@[simp] theorem State.recordError_inputs (s : State) (c : ErrCode) (x : Word) : (s.recordError c x).inputs = s.inputs := rfl
@[simp] theorem State.recordError_hostData (s : State) (c : ErrCode) (x : Word) : (s.recordError c x).hostData = s.hostData := rfl
@[simp] theorem State.recordError_epoch (s : State) (c : ErrCode) (x : Word) : (s.recordError c x).epoch = s.epoch := rfl
@[simp] theorem State.recordError_draws (s : State) (c : ErrCode) (x : Word) : (s.recordError c x).draws = s.draws := rfl

/-! `State.setMesh`. -/

@[simp] theorem State.setMesh_params (s : State) (m : Mesh) : (s.setMesh m).params = s.params := rfl
@[simp] theorem State.setMesh_endian (s : State) (m : Mesh) : (s.setMesh m).endian = s.endian := rfl
@[simp] theorem State.setMesh_irqEn (s : State) (m : Mesh) : (s.setMesh m).irqEn = s.irqEn := rfl
@[simp] theorem State.setMesh_busy (s : State) (m : Mesh) : (s.setMesh m).busy = s.busy := rfl
@[simp] theorem State.setMesh_done (s : State) (m : Mesh) : (s.setMesh m).done = s.done := rfl
@[simp] theorem State.setMesh_err (s : State) (m : Mesh) : (s.setMesh m).err = s.err := rfl
@[simp] theorem State.setMesh_accErr (s : State) (m : Mesh) : (s.setMesh m).accErr = s.accErr := rfl
@[simp] theorem State.setMesh_meshValid (s : State) (m : Mesh) : (s.setMesh m).meshValid = true := rfl
@[simp] theorem State.setMesh_errCode (s : State) (m : Mesh) : (s.setMesh m).errCode = s.errCode := rfl
@[simp] theorem State.setMesh_errInfo (s : State) (m : Mesh) : (s.setMesh m).errInfo = s.errInfo := rfl
@[simp] theorem State.setMesh_cmd (s : State) (m : Mesh) : (s.setMesh m).cmd = s.cmd := rfl
@[simp] theorem State.setMesh_arg0 (s : State) (m : Mesh) : (s.setMesh m).arg0 = s.arg0 := rfl
@[simp] theorem State.setMesh_arg1 (s : State) (m : Mesh) : (s.setMesh m).arg1 = s.arg1 := rfl
@[simp] theorem State.setMesh_arg2 (s : State) (m : Mesh) : (s.setMesh m).arg2 = s.arg2 := rfl
@[simp] theorem State.setMesh_result0 (s : State) (m : Mesh) : (s.setMesh m).result0 = s.result0 := rfl
@[simp] theorem State.setMesh_result1 (s : State) (m : Mesh) : (s.setMesh m).result1 = s.result1 := rfl
@[simp] theorem State.setMesh_inLen (s : State) (m : Mesh) : (s.setMesh m).inLen = s.inLen := rfl
@[simp] theorem State.setMesh_roleMap (s : State) (m : Mesh) : (s.setMesh m).roleMap = s.roleMap := rfl
@[simp] theorem State.setMesh_slotSel (s : State) (m : Mesh) : (s.setMesh m).slotSel = s.slotSel := rfl
@[simp] theorem State.setMesh_slotIdx (s : State) (m : Mesh) : (s.setMesh m).slotIdx = s.slotIdx := rfl
@[simp] theorem State.setMesh_mem (s : State) (m : Mesh) : (s.setMesh m).mem = s.mem := rfl
@[simp] theorem State.setMesh_slots (s : State) (m : Mesh) : (s.setMesh m).slots = s.slots := rfl
@[simp] theorem State.setMesh_lcmd (s : State) (m : Mesh) : (s.setMesh m).lcmd = s.lcmd := rfl
@[simp] theorem State.setMesh_larg0 (s : State) (m : Mesh) : (s.setMesh m).larg0 = s.larg0 := rfl
@[simp] theorem State.setMesh_larg1 (s : State) (m : Mesh) : (s.setMesh m).larg1 = s.larg1 := rfl
@[simp] theorem State.setMesh_larg2 (s : State) (m : Mesh) : (s.setMesh m).larg2 = s.larg2 := rfl
@[simp] theorem State.setMesh_lEndian (s : State) (m : Mesh) : (s.setMesh m).lEndian = s.lEndian := rfl
@[simp] theorem State.setMesh_lInLen (s : State) (m : Mesh) : (s.setMesh m).lInLen = s.lInLen := rfl
@[simp] theorem State.setMesh_mesh (s : State) (m : Mesh) : (s.setMesh m).mesh = m := rfl
@[simp] theorem State.setMesh_inputs (s : State) (m : Mesh) : (s.setMesh m).inputs = s.inputs := rfl
@[simp] theorem State.setMesh_hostData (s : State) (m : Mesh) : (s.setMesh m).hostData = s.hostData := rfl
@[simp] theorem State.setMesh_epoch (s : State) (m : Mesh) : (s.setMesh m).epoch = s.epoch := rfl
@[simp] theorem State.setMesh_draws (s : State) (m : Mesh) : (s.setMesh m).draws = s.draws := rfl

/-! `State.accept`. -/

@[simp] theorem State.accept_params (s : State) (v : Word) : (s.accept v).params = s.params := rfl
@[simp] theorem State.accept_endian (s : State) (v : Word) : (s.accept v).endian = v.getLsbD 8 := rfl
@[simp] theorem State.accept_irqEn (s : State) (v : Word) : (s.accept v).irqEn = v.getLsbD 9 := rfl
@[simp] theorem State.accept_busy (s : State) (v : Word) : (s.accept v).busy = true := rfl
@[simp] theorem State.accept_done (s : State) (v : Word) : (s.accept v).done = false := rfl
@[simp] theorem State.accept_err (s : State) (v : Word) : (s.accept v).err = false := rfl
@[simp] theorem State.accept_accErr (s : State) (v : Word) : (s.accept v).accErr = s.accErr := rfl
@[simp] theorem State.accept_meshValid (s : State) (v : Word) : (s.accept v).meshValid = s.meshValid := rfl
@[simp] theorem State.accept_errCode (s : State) (v : Word) : (s.accept v).errCode = 0 := rfl
@[simp] theorem State.accept_errInfo (s : State) (v : Word) : (s.accept v).errInfo = 0 := rfl
@[simp] theorem State.accept_cmd (s : State) (v : Word) : (s.accept v).cmd = s.cmd := rfl
@[simp] theorem State.accept_arg0 (s : State) (v : Word) : (s.accept v).arg0 = s.arg0 := rfl
@[simp] theorem State.accept_arg1 (s : State) (v : Word) : (s.accept v).arg1 = s.arg1 := rfl
@[simp] theorem State.accept_arg2 (s : State) (v : Word) : (s.accept v).arg2 = s.arg2 := rfl
@[simp] theorem State.accept_result0 (s : State) (v : Word) : (s.accept v).result0 = s.result0 := rfl
@[simp] theorem State.accept_result1 (s : State) (v : Word) : (s.accept v).result1 = s.result1 := rfl
@[simp] theorem State.accept_inLen (s : State) (v : Word) : (s.accept v).inLen = s.inLen := rfl
@[simp] theorem State.accept_roleMap (s : State) (v : Word) : (s.accept v).roleMap = s.roleMap := rfl
@[simp] theorem State.accept_slotSel (s : State) (v : Word) : (s.accept v).slotSel = s.slotSel := rfl
@[simp] theorem State.accept_slotIdx (s : State) (v : Word) : (s.accept v).slotIdx = s.slotIdx := rfl
@[simp] theorem State.accept_mem (s : State) (v : Word) : (s.accept v).mem = s.mem := rfl
@[simp] theorem State.accept_slots (s : State) (v : Word) : (s.accept v).slots = s.slots := rfl
@[simp] theorem State.accept_lcmd (s : State) (v : Word) : (s.accept v).lcmd = s.cmd := rfl
@[simp] theorem State.accept_larg0 (s : State) (v : Word) : (s.accept v).larg0 = s.arg0 := rfl
@[simp] theorem State.accept_larg1 (s : State) (v : Word) : (s.accept v).larg1 = s.arg1 := rfl
@[simp] theorem State.accept_larg2 (s : State) (v : Word) : (s.accept v).larg2 = s.arg2 := rfl
@[simp] theorem State.accept_lEndian (s : State) (v : Word) : (s.accept v).lEndian = v.getLsbD 8 := rfl
@[simp] theorem State.accept_lInLen (s : State) (v : Word) : (s.accept v).lInLen = s.inLen := rfl
@[simp] theorem State.accept_mesh (s : State) (v : Word) : (s.accept v).mesh = s.mesh := rfl
@[simp] theorem State.accept_inputs (s : State) (v : Word) : (s.accept v).inputs = s.inputs := rfl
@[simp] theorem State.accept_hostData (s : State) (v : Word) : (s.accept v).hostData = s.hostData := rfl
@[simp] theorem State.accept_epoch (s : State) (v : Word) : (s.accept v).epoch = s.epoch := rfl
@[simp] theorem State.accept_draws (s : State) (v : Word) : (s.accept v).draws = s.draws := rfl

/-! `State.refuse`. -/

@[simp] theorem State.refuse_params (s : State) : s.refuse.params = s.params := rfl
@[simp] theorem State.refuse_endian (s : State) : s.refuse.endian = s.endian := rfl
@[simp] theorem State.refuse_irqEn (s : State) : s.refuse.irqEn = s.irqEn := rfl
@[simp] theorem State.refuse_busy (s : State) : s.refuse.busy = s.busy := rfl
@[simp] theorem State.refuse_done (s : State) : s.refuse.done = s.done := rfl
@[simp] theorem State.refuse_err (s : State) : s.refuse.err = s.err := rfl
@[simp] theorem State.refuse_accErr (s : State) : s.refuse.accErr = true := rfl
@[simp] theorem State.refuse_meshValid (s : State) : s.refuse.meshValid = s.meshValid := rfl
@[simp] theorem State.refuse_errCode (s : State) : s.refuse.errCode = s.errCode := rfl
@[simp] theorem State.refuse_errInfo (s : State) : s.refuse.errInfo = s.errInfo := rfl
@[simp] theorem State.refuse_cmd (s : State) : s.refuse.cmd = s.cmd := rfl
@[simp] theorem State.refuse_arg0 (s : State) : s.refuse.arg0 = s.arg0 := rfl
@[simp] theorem State.refuse_arg1 (s : State) : s.refuse.arg1 = s.arg1 := rfl
@[simp] theorem State.refuse_arg2 (s : State) : s.refuse.arg2 = s.arg2 := rfl
@[simp] theorem State.refuse_result0 (s : State) : s.refuse.result0 = s.result0 := rfl
@[simp] theorem State.refuse_result1 (s : State) : s.refuse.result1 = s.result1 := rfl
@[simp] theorem State.refuse_inLen (s : State) : s.refuse.inLen = s.inLen := rfl
@[simp] theorem State.refuse_roleMap (s : State) : s.refuse.roleMap = s.roleMap := rfl
@[simp] theorem State.refuse_slotSel (s : State) : s.refuse.slotSel = s.slotSel := rfl
@[simp] theorem State.refuse_slotIdx (s : State) : s.refuse.slotIdx = s.slotIdx := rfl
@[simp] theorem State.refuse_mem (s : State) : s.refuse.mem = s.mem := rfl
@[simp] theorem State.refuse_slots (s : State) : s.refuse.slots = s.slots := rfl
@[simp] theorem State.refuse_lcmd (s : State) : s.refuse.lcmd = s.lcmd := rfl
@[simp] theorem State.refuse_larg0 (s : State) : s.refuse.larg0 = s.larg0 := rfl
@[simp] theorem State.refuse_larg1 (s : State) : s.refuse.larg1 = s.larg1 := rfl
@[simp] theorem State.refuse_larg2 (s : State) : s.refuse.larg2 = s.larg2 := rfl
@[simp] theorem State.refuse_lEndian (s : State) : s.refuse.lEndian = s.lEndian := rfl
@[simp] theorem State.refuse_lInLen (s : State) : s.refuse.lInLen = s.lInLen := rfl
@[simp] theorem State.refuse_mesh (s : State) : s.refuse.mesh = s.mesh := rfl
@[simp] theorem State.refuse_inputs (s : State) : s.refuse.inputs = s.inputs := rfl
@[simp] theorem State.refuse_hostData (s : State) : s.refuse.hostData = s.hostData := rfl
@[simp] theorem State.refuse_epoch (s : State) : s.refuse.epoch = s.epoch := rfl
@[simp] theorem State.refuse_draws (s : State) : s.refuse.draws = s.draws := rfl

/-! `State.returnData`. -/

@[simp] theorem State.returnData_params (s : State) (v : Word) : (s.returnData v).params = s.params := rfl
@[simp] theorem State.returnData_endian (s : State) (v : Word) : (s.returnData v).endian = s.endian := rfl
@[simp] theorem State.returnData_irqEn (s : State) (v : Word) : (s.returnData v).irqEn = s.irqEn := rfl
@[simp] theorem State.returnData_busy (s : State) (v : Word) : (s.returnData v).busy = s.busy := rfl
@[simp] theorem State.returnData_done (s : State) (v : Word) : (s.returnData v).done = s.done := rfl
@[simp] theorem State.returnData_err (s : State) (v : Word) : (s.returnData v).err = s.err := rfl
@[simp] theorem State.returnData_accErr (s : State) (v : Word) : (s.returnData v).accErr = s.accErr := rfl
@[simp] theorem State.returnData_meshValid (s : State) (v : Word) : (s.returnData v).meshValid = s.meshValid := rfl
@[simp] theorem State.returnData_errCode (s : State) (v : Word) : (s.returnData v).errCode = s.errCode := rfl
@[simp] theorem State.returnData_errInfo (s : State) (v : Word) : (s.returnData v).errInfo = s.errInfo := rfl
@[simp] theorem State.returnData_cmd (s : State) (v : Word) : (s.returnData v).cmd = s.cmd := rfl
@[simp] theorem State.returnData_arg0 (s : State) (v : Word) : (s.returnData v).arg0 = s.arg0 := rfl
@[simp] theorem State.returnData_arg1 (s : State) (v : Word) : (s.returnData v).arg1 = s.arg1 := rfl
@[simp] theorem State.returnData_arg2 (s : State) (v : Word) : (s.returnData v).arg2 = s.arg2 := rfl
@[simp] theorem State.returnData_result0 (s : State) (v : Word) : (s.returnData v).result0 = s.result0 := rfl
@[simp] theorem State.returnData_result1 (s : State) (v : Word) : (s.returnData v).result1 = s.result1 := rfl
@[simp] theorem State.returnData_inLen (s : State) (v : Word) : (s.returnData v).inLen = s.inLen := rfl
@[simp] theorem State.returnData_roleMap (s : State) (v : Word) : (s.returnData v).roleMap = s.roleMap := rfl
@[simp] theorem State.returnData_slotSel (s : State) (v : Word) : (s.returnData v).slotSel = s.slotSel := rfl
@[simp] theorem State.returnData_slotIdx (s : State) (v : Word) : (s.returnData v).slotIdx = s.slotIdx := rfl
@[simp] theorem State.returnData_mem (s : State) (v : Word) : (s.returnData v).mem = s.mem := rfl
@[simp] theorem State.returnData_slots (s : State) (v : Word) : (s.returnData v).slots = s.slots := rfl
@[simp] theorem State.returnData_lcmd (s : State) (v : Word) : (s.returnData v).lcmd = s.lcmd := rfl
@[simp] theorem State.returnData_larg0 (s : State) (v : Word) : (s.returnData v).larg0 = s.larg0 := rfl
@[simp] theorem State.returnData_larg1 (s : State) (v : Word) : (s.returnData v).larg1 = s.larg1 := rfl
@[simp] theorem State.returnData_larg2 (s : State) (v : Word) : (s.returnData v).larg2 = s.larg2 := rfl
@[simp] theorem State.returnData_lEndian (s : State) (v : Word) : (s.returnData v).lEndian = s.lEndian := rfl
@[simp] theorem State.returnData_lInLen (s : State) (v : Word) : (s.returnData v).lInLen = s.lInLen := rfl
@[simp] theorem State.returnData_mesh (s : State) (v : Word) : (s.returnData v).mesh = s.mesh := rfl
@[simp] theorem State.returnData_inputs (s : State) (v : Word) : (s.returnData v).inputs = s.inputs := rfl
@[simp] theorem State.returnData_hostData (s : State) (v : Word) : (s.returnData v).hostData = v := rfl
@[simp] theorem State.returnData_epoch (s : State) (v : Word) : (s.returnData v).epoch = s.epoch := rfl
@[simp] theorem State.returnData_draws (s : State) (v : Word) : (s.returnData v).draws = s.draws := rfl

/-! `State.nextIdx`. -/

@[simp] theorem State.nextIdx_params (s : State) : s.nextIdx.params = s.params := rfl
@[simp] theorem State.nextIdx_endian (s : State) : s.nextIdx.endian = s.endian := rfl
@[simp] theorem State.nextIdx_irqEn (s : State) : s.nextIdx.irqEn = s.irqEn := rfl
@[simp] theorem State.nextIdx_busy (s : State) : s.nextIdx.busy = s.busy := rfl
@[simp] theorem State.nextIdx_done (s : State) : s.nextIdx.done = s.done := rfl
@[simp] theorem State.nextIdx_err (s : State) : s.nextIdx.err = s.err := rfl
@[simp] theorem State.nextIdx_accErr (s : State) : s.nextIdx.accErr = s.accErr := rfl
@[simp] theorem State.nextIdx_meshValid (s : State) : s.nextIdx.meshValid = s.meshValid := rfl
@[simp] theorem State.nextIdx_errCode (s : State) : s.nextIdx.errCode = s.errCode := rfl
@[simp] theorem State.nextIdx_errInfo (s : State) : s.nextIdx.errInfo = s.errInfo := rfl
@[simp] theorem State.nextIdx_cmd (s : State) : s.nextIdx.cmd = s.cmd := rfl
@[simp] theorem State.nextIdx_arg0 (s : State) : s.nextIdx.arg0 = s.arg0 := rfl
@[simp] theorem State.nextIdx_arg1 (s : State) : s.nextIdx.arg1 = s.arg1 := rfl
@[simp] theorem State.nextIdx_arg2 (s : State) : s.nextIdx.arg2 = s.arg2 := rfl
@[simp] theorem State.nextIdx_result0 (s : State) : s.nextIdx.result0 = s.result0 := rfl
@[simp] theorem State.nextIdx_result1 (s : State) : s.nextIdx.result1 = s.result1 := rfl
@[simp] theorem State.nextIdx_inLen (s : State) : s.nextIdx.inLen = s.inLen := rfl
@[simp] theorem State.nextIdx_roleMap (s : State) : s.nextIdx.roleMap = s.roleMap := rfl
@[simp] theorem State.nextIdx_slotSel (s : State) : s.nextIdx.slotSel = s.slotSel := rfl
@[simp] theorem State.nextIdx_slotIdx (s : State) : s.nextIdx.slotIdx = s.slotIdx + 1 := rfl
@[simp] theorem State.nextIdx_mem (s : State) : s.nextIdx.mem = s.mem := rfl
@[simp] theorem State.nextIdx_slots (s : State) : s.nextIdx.slots = s.slots := rfl
@[simp] theorem State.nextIdx_lcmd (s : State) : s.nextIdx.lcmd = s.lcmd := rfl
@[simp] theorem State.nextIdx_larg0 (s : State) : s.nextIdx.larg0 = s.larg0 := rfl
@[simp] theorem State.nextIdx_larg1 (s : State) : s.nextIdx.larg1 = s.larg1 := rfl
@[simp] theorem State.nextIdx_larg2 (s : State) : s.nextIdx.larg2 = s.larg2 := rfl
@[simp] theorem State.nextIdx_lEndian (s : State) : s.nextIdx.lEndian = s.lEndian := rfl
@[simp] theorem State.nextIdx_lInLen (s : State) : s.nextIdx.lInLen = s.lInLen := rfl
@[simp] theorem State.nextIdx_mesh (s : State) : s.nextIdx.mesh = s.mesh := rfl
@[simp] theorem State.nextIdx_inputs (s : State) : s.nextIdx.inputs = s.inputs := rfl
@[simp] theorem State.nextIdx_hostData (s : State) : s.nextIdx.hostData = s.hostData := rfl
@[simp] theorem State.nextIdx_epoch (s : State) : s.nextIdx.epoch = s.epoch := rfl
@[simp] theorem State.nextIdx_draws (s : State) : s.nextIdx.draws = s.draws := rfl

/-! `State.writeStatus`. -/

@[simp] theorem State.writeStatus_params (s : State) (v : Word) : (s.writeStatus v).params = s.params := rfl
@[simp] theorem State.writeStatus_endian (s : State) (v : Word) : (s.writeStatus v).endian = s.endian := rfl
@[simp] theorem State.writeStatus_irqEn (s : State) (v : Word) : (s.writeStatus v).irqEn = s.irqEn := rfl
@[simp] theorem State.writeStatus_busy (s : State) (v : Word) : (s.writeStatus v).busy = s.busy := rfl
@[simp] theorem State.writeStatus_done (s : State) (v : Word) : (s.writeStatus v).done = w1c s.done (v.getLsbD 1) := rfl
@[simp] theorem State.writeStatus_err (s : State) (v : Word) : (s.writeStatus v).err = w1c s.err (v.getLsbD 2) := rfl
@[simp] theorem State.writeStatus_accErr (s : State) (v : Word) : (s.writeStatus v).accErr = w1c s.accErr (v.getLsbD 3) := rfl
@[simp] theorem State.writeStatus_meshValid (s : State) (v : Word) : (s.writeStatus v).meshValid = s.meshValid := rfl
@[simp] theorem State.writeStatus_errCode (s : State) (v : Word) : (s.writeStatus v).errCode = s.errCode := rfl
@[simp] theorem State.writeStatus_errInfo (s : State) (v : Word) : (s.writeStatus v).errInfo = s.errInfo := rfl
@[simp] theorem State.writeStatus_cmd (s : State) (v : Word) : (s.writeStatus v).cmd = s.cmd := rfl
@[simp] theorem State.writeStatus_arg0 (s : State) (v : Word) : (s.writeStatus v).arg0 = s.arg0 := rfl
@[simp] theorem State.writeStatus_arg1 (s : State) (v : Word) : (s.writeStatus v).arg1 = s.arg1 := rfl
@[simp] theorem State.writeStatus_arg2 (s : State) (v : Word) : (s.writeStatus v).arg2 = s.arg2 := rfl
@[simp] theorem State.writeStatus_result0 (s : State) (v : Word) : (s.writeStatus v).result0 = s.result0 := rfl
@[simp] theorem State.writeStatus_result1 (s : State) (v : Word) : (s.writeStatus v).result1 = s.result1 := rfl
@[simp] theorem State.writeStatus_inLen (s : State) (v : Word) : (s.writeStatus v).inLen = s.inLen := rfl
@[simp] theorem State.writeStatus_roleMap (s : State) (v : Word) : (s.writeStatus v).roleMap = s.roleMap := rfl
@[simp] theorem State.writeStatus_slotSel (s : State) (v : Word) : (s.writeStatus v).slotSel = s.slotSel := rfl
@[simp] theorem State.writeStatus_slotIdx (s : State) (v : Word) : (s.writeStatus v).slotIdx = s.slotIdx := rfl
@[simp] theorem State.writeStatus_mem (s : State) (v : Word) : (s.writeStatus v).mem = s.mem := rfl
@[simp] theorem State.writeStatus_slots (s : State) (v : Word) : (s.writeStatus v).slots = s.slots := rfl
@[simp] theorem State.writeStatus_lcmd (s : State) (v : Word) : (s.writeStatus v).lcmd = s.lcmd := rfl
@[simp] theorem State.writeStatus_larg0 (s : State) (v : Word) : (s.writeStatus v).larg0 = s.larg0 := rfl
@[simp] theorem State.writeStatus_larg1 (s : State) (v : Word) : (s.writeStatus v).larg1 = s.larg1 := rfl
@[simp] theorem State.writeStatus_larg2 (s : State) (v : Word) : (s.writeStatus v).larg2 = s.larg2 := rfl
@[simp] theorem State.writeStatus_lEndian (s : State) (v : Word) : (s.writeStatus v).lEndian = s.lEndian := rfl
@[simp] theorem State.writeStatus_lInLen (s : State) (v : Word) : (s.writeStatus v).lInLen = s.lInLen := rfl
@[simp] theorem State.writeStatus_mesh (s : State) (v : Word) : (s.writeStatus v).mesh = s.mesh := rfl
@[simp] theorem State.writeStatus_inputs (s : State) (v : Word) : (s.writeStatus v).inputs = s.inputs := rfl
@[simp] theorem State.writeStatus_hostData (s : State) (v : Word) : (s.writeStatus v).hostData = s.hostData := rfl
@[simp] theorem State.writeStatus_epoch (s : State) (v : Word) : (s.writeStatus v).epoch = s.epoch := rfl
@[simp] theorem State.writeStatus_draws (s : State) (v : Word) : (s.writeStatus v).draws = s.draws := rfl

/-! `State.writeIn`. -/

@[simp] theorem State.writeIn_params (s : State) (a : Nat) (bs : List Byte) : (s.writeIn a bs).params = s.params := rfl
@[simp] theorem State.writeIn_endian (s : State) (a : Nat) (bs : List Byte) : (s.writeIn a bs).endian = s.endian := rfl
@[simp] theorem State.writeIn_irqEn (s : State) (a : Nat) (bs : List Byte) : (s.writeIn a bs).irqEn = s.irqEn := rfl
@[simp] theorem State.writeIn_busy (s : State) (a : Nat) (bs : List Byte) : (s.writeIn a bs).busy = s.busy := rfl
@[simp] theorem State.writeIn_done (s : State) (a : Nat) (bs : List Byte) : (s.writeIn a bs).done = s.done := rfl
@[simp] theorem State.writeIn_err (s : State) (a : Nat) (bs : List Byte) : (s.writeIn a bs).err = s.err := rfl
@[simp] theorem State.writeIn_accErr (s : State) (a : Nat) (bs : List Byte) : (s.writeIn a bs).accErr = s.accErr := rfl
@[simp] theorem State.writeIn_meshValid (s : State) (a : Nat) (bs : List Byte) : (s.writeIn a bs).meshValid = s.meshValid := rfl
@[simp] theorem State.writeIn_errCode (s : State) (a : Nat) (bs : List Byte) : (s.writeIn a bs).errCode = s.errCode := rfl
@[simp] theorem State.writeIn_errInfo (s : State) (a : Nat) (bs : List Byte) : (s.writeIn a bs).errInfo = s.errInfo := rfl
@[simp] theorem State.writeIn_cmd (s : State) (a : Nat) (bs : List Byte) : (s.writeIn a bs).cmd = s.cmd := rfl
@[simp] theorem State.writeIn_arg0 (s : State) (a : Nat) (bs : List Byte) : (s.writeIn a bs).arg0 = s.arg0 := rfl
@[simp] theorem State.writeIn_arg1 (s : State) (a : Nat) (bs : List Byte) : (s.writeIn a bs).arg1 = s.arg1 := rfl
@[simp] theorem State.writeIn_arg2 (s : State) (a : Nat) (bs : List Byte) : (s.writeIn a bs).arg2 = s.arg2 := rfl
@[simp] theorem State.writeIn_result0 (s : State) (a : Nat) (bs : List Byte) : (s.writeIn a bs).result0 = s.result0 := rfl
@[simp] theorem State.writeIn_result1 (s : State) (a : Nat) (bs : List Byte) : (s.writeIn a bs).result1 = s.result1 := rfl
@[simp] theorem State.writeIn_inLen (s : State) (a : Nat) (bs : List Byte) : (s.writeIn a bs).inLen = s.inLen := rfl
@[simp] theorem State.writeIn_roleMap (s : State) (a : Nat) (bs : List Byte) : (s.writeIn a bs).roleMap = s.roleMap := rfl
@[simp] theorem State.writeIn_slotSel (s : State) (a : Nat) (bs : List Byte) : (s.writeIn a bs).slotSel = s.slotSel := rfl
@[simp] theorem State.writeIn_slotIdx (s : State) (a : Nat) (bs : List Byte) : (s.writeIn a bs).slotIdx = s.slotIdx := rfl
@[simp] theorem State.writeIn_mem (s : State) (a : Nat) (bs : List Byte) : (s.writeIn a bs).mem = Memory.storeAll s.mem a bs := rfl
@[simp] theorem State.writeIn_slots (s : State) (a : Nat) (bs : List Byte) : (s.writeIn a bs).slots = s.slots := rfl
@[simp] theorem State.writeIn_lcmd (s : State) (a : Nat) (bs : List Byte) : (s.writeIn a bs).lcmd = s.lcmd := rfl
@[simp] theorem State.writeIn_larg0 (s : State) (a : Nat) (bs : List Byte) : (s.writeIn a bs).larg0 = s.larg0 := rfl
@[simp] theorem State.writeIn_larg1 (s : State) (a : Nat) (bs : List Byte) : (s.writeIn a bs).larg1 = s.larg1 := rfl
@[simp] theorem State.writeIn_larg2 (s : State) (a : Nat) (bs : List Byte) : (s.writeIn a bs).larg2 = s.larg2 := rfl
@[simp] theorem State.writeIn_lEndian (s : State) (a : Nat) (bs : List Byte) : (s.writeIn a bs).lEndian = s.lEndian := rfl
@[simp] theorem State.writeIn_lInLen (s : State) (a : Nat) (bs : List Byte) : (s.writeIn a bs).lInLen = s.lInLen := rfl
@[simp] theorem State.writeIn_mesh (s : State) (a : Nat) (bs : List Byte) : (s.writeIn a bs).mesh = s.mesh := rfl
@[simp] theorem State.writeIn_inputs (s : State) (a : Nat) (bs : List Byte) : (s.writeIn a bs).inputs = s.inputs := rfl
@[simp] theorem State.writeIn_hostData (s : State) (a : Nat) (bs : List Byte) : (s.writeIn a bs).hostData = s.hostData := rfl
@[simp] theorem State.writeIn_epoch (s : State) (a : Nat) (bs : List Byte) : (s.writeIn a bs).epoch = s.epoch := rfl
@[simp] theorem State.writeIn_draws (s : State) (a : Nat) (bs : List Byte) : (s.writeIn a bs).draws = s.draws := rfl

/-! `State.writeInLen`. -/

@[simp] theorem State.writeInLen_params (s : State) (v : Word) : (s.writeInLen v).params = s.params := rfl
@[simp] theorem State.writeInLen_endian (s : State) (v : Word) : (s.writeInLen v).endian = s.endian := rfl
@[simp] theorem State.writeInLen_irqEn (s : State) (v : Word) : (s.writeInLen v).irqEn = s.irqEn := rfl
@[simp] theorem State.writeInLen_busy (s : State) (v : Word) : (s.writeInLen v).busy = s.busy := rfl
@[simp] theorem State.writeInLen_done (s : State) (v : Word) : (s.writeInLen v).done = s.done := rfl
@[simp] theorem State.writeInLen_err (s : State) (v : Word) : (s.writeInLen v).err = s.err := rfl
@[simp] theorem State.writeInLen_accErr (s : State) (v : Word) : (s.writeInLen v).accErr = s.accErr := rfl
@[simp] theorem State.writeInLen_meshValid (s : State) (v : Word) : (s.writeInLen v).meshValid = s.meshValid := rfl
@[simp] theorem State.writeInLen_errCode (s : State) (v : Word) : (s.writeInLen v).errCode = s.errCode := rfl
@[simp] theorem State.writeInLen_errInfo (s : State) (v : Word) : (s.writeInLen v).errInfo = s.errInfo := rfl
@[simp] theorem State.writeInLen_cmd (s : State) (v : Word) : (s.writeInLen v).cmd = s.cmd := rfl
@[simp] theorem State.writeInLen_arg0 (s : State) (v : Word) : (s.writeInLen v).arg0 = s.arg0 := rfl
@[simp] theorem State.writeInLen_arg1 (s : State) (v : Word) : (s.writeInLen v).arg1 = s.arg1 := rfl
@[simp] theorem State.writeInLen_arg2 (s : State) (v : Word) : (s.writeInLen v).arg2 = s.arg2 := rfl
@[simp] theorem State.writeInLen_result0 (s : State) (v : Word) : (s.writeInLen v).result0 = s.result0 := rfl
@[simp] theorem State.writeInLen_result1 (s : State) (v : Word) : (s.writeInLen v).result1 = s.result1 := rfl
@[simp] theorem State.writeInLen_inLen (s : State) (v : Word) : (s.writeInLen v).inLen = u32 (min v.toNat s.params.inBytes) := rfl
@[simp] theorem State.writeInLen_roleMap (s : State) (v : Word) : (s.writeInLen v).roleMap = s.roleMap := rfl
@[simp] theorem State.writeInLen_slotSel (s : State) (v : Word) : (s.writeInLen v).slotSel = s.slotSel := rfl
@[simp] theorem State.writeInLen_slotIdx (s : State) (v : Word) : (s.writeInLen v).slotIdx = s.slotIdx := rfl
@[simp] theorem State.writeInLen_mem (s : State) (v : Word) : (s.writeInLen v).mem = s.mem := rfl
@[simp] theorem State.writeInLen_slots (s : State) (v : Word) : (s.writeInLen v).slots = s.slots := rfl
@[simp] theorem State.writeInLen_lcmd (s : State) (v : Word) : (s.writeInLen v).lcmd = s.lcmd := rfl
@[simp] theorem State.writeInLen_larg0 (s : State) (v : Word) : (s.writeInLen v).larg0 = s.larg0 := rfl
@[simp] theorem State.writeInLen_larg1 (s : State) (v : Word) : (s.writeInLen v).larg1 = s.larg1 := rfl
@[simp] theorem State.writeInLen_larg2 (s : State) (v : Word) : (s.writeInLen v).larg2 = s.larg2 := rfl
@[simp] theorem State.writeInLen_lEndian (s : State) (v : Word) : (s.writeInLen v).lEndian = s.lEndian := rfl
@[simp] theorem State.writeInLen_lInLen (s : State) (v : Word) : (s.writeInLen v).lInLen = s.lInLen := rfl
@[simp] theorem State.writeInLen_mesh (s : State) (v : Word) : (s.writeInLen v).mesh = s.mesh := rfl
@[simp] theorem State.writeInLen_inputs (s : State) (v : Word) : (s.writeInLen v).inputs = s.inputs := rfl
@[simp] theorem State.writeInLen_hostData (s : State) (v : Word) : (s.writeInLen v).hostData = s.hostData := rfl
@[simp] theorem State.writeInLen_epoch (s : State) (v : Word) : (s.writeInLen v).epoch = s.epoch := rfl
@[simp] theorem State.writeInLen_draws (s : State) (v : Word) : (s.writeInLen v).draws = s.draws := rfl

/-! `State.writeCtrlBusy`. -/

@[simp] theorem State.writeCtrlBusy_params (s : State) (v : Word) : (s.writeCtrlBusy v).params = s.params := rfl
@[simp] theorem State.writeCtrlBusy_endian (s : State) (v : Word) : (s.writeCtrlBusy v).endian = s.endian := rfl
@[simp] theorem State.writeCtrlBusy_irqEn (s : State) (v : Word) : (s.writeCtrlBusy v).irqEn = v.getLsbD 9 := rfl
@[simp] theorem State.writeCtrlBusy_busy (s : State) (v : Word) : (s.writeCtrlBusy v).busy = s.busy := rfl
@[simp] theorem State.writeCtrlBusy_done (s : State) (v : Word) : (s.writeCtrlBusy v).done = s.done := rfl
@[simp] theorem State.writeCtrlBusy_err (s : State) (v : Word) : (s.writeCtrlBusy v).err = s.err := rfl
@[simp] theorem State.writeCtrlBusy_accErr (s : State) (v : Word) : (s.writeCtrlBusy v).accErr = (s.accErr || (v.getLsbD 0 || v.getLsbD 1 || (v.getLsbD 8 != s.endian))) := rfl
@[simp] theorem State.writeCtrlBusy_meshValid (s : State) (v : Word) : (s.writeCtrlBusy v).meshValid = s.meshValid := rfl
@[simp] theorem State.writeCtrlBusy_errCode (s : State) (v : Word) : (s.writeCtrlBusy v).errCode = s.errCode := rfl
@[simp] theorem State.writeCtrlBusy_errInfo (s : State) (v : Word) : (s.writeCtrlBusy v).errInfo = s.errInfo := rfl
@[simp] theorem State.writeCtrlBusy_cmd (s : State) (v : Word) : (s.writeCtrlBusy v).cmd = s.cmd := rfl
@[simp] theorem State.writeCtrlBusy_arg0 (s : State) (v : Word) : (s.writeCtrlBusy v).arg0 = s.arg0 := rfl
@[simp] theorem State.writeCtrlBusy_arg1 (s : State) (v : Word) : (s.writeCtrlBusy v).arg1 = s.arg1 := rfl
@[simp] theorem State.writeCtrlBusy_arg2 (s : State) (v : Word) : (s.writeCtrlBusy v).arg2 = s.arg2 := rfl
@[simp] theorem State.writeCtrlBusy_result0 (s : State) (v : Word) : (s.writeCtrlBusy v).result0 = s.result0 := rfl
@[simp] theorem State.writeCtrlBusy_result1 (s : State) (v : Word) : (s.writeCtrlBusy v).result1 = s.result1 := rfl
@[simp] theorem State.writeCtrlBusy_inLen (s : State) (v : Word) : (s.writeCtrlBusy v).inLen = s.inLen := rfl
@[simp] theorem State.writeCtrlBusy_roleMap (s : State) (v : Word) : (s.writeCtrlBusy v).roleMap = s.roleMap := rfl
@[simp] theorem State.writeCtrlBusy_slotSel (s : State) (v : Word) : (s.writeCtrlBusy v).slotSel = s.slotSel := rfl
@[simp] theorem State.writeCtrlBusy_slotIdx (s : State) (v : Word) : (s.writeCtrlBusy v).slotIdx = s.slotIdx := rfl
@[simp] theorem State.writeCtrlBusy_mem (s : State) (v : Word) : (s.writeCtrlBusy v).mem = s.mem := rfl
@[simp] theorem State.writeCtrlBusy_slots (s : State) (v : Word) : (s.writeCtrlBusy v).slots = s.slots := rfl
@[simp] theorem State.writeCtrlBusy_lcmd (s : State) (v : Word) : (s.writeCtrlBusy v).lcmd = s.lcmd := rfl
@[simp] theorem State.writeCtrlBusy_larg0 (s : State) (v : Word) : (s.writeCtrlBusy v).larg0 = s.larg0 := rfl
@[simp] theorem State.writeCtrlBusy_larg1 (s : State) (v : Word) : (s.writeCtrlBusy v).larg1 = s.larg1 := rfl
@[simp] theorem State.writeCtrlBusy_larg2 (s : State) (v : Word) : (s.writeCtrlBusy v).larg2 = s.larg2 := rfl
@[simp] theorem State.writeCtrlBusy_lEndian (s : State) (v : Word) : (s.writeCtrlBusy v).lEndian = s.lEndian := rfl
@[simp] theorem State.writeCtrlBusy_lInLen (s : State) (v : Word) : (s.writeCtrlBusy v).lInLen = s.lInLen := rfl
@[simp] theorem State.writeCtrlBusy_mesh (s : State) (v : Word) : (s.writeCtrlBusy v).mesh = s.mesh := rfl
@[simp] theorem State.writeCtrlBusy_inputs (s : State) (v : Word) : (s.writeCtrlBusy v).inputs = s.inputs := rfl
@[simp] theorem State.writeCtrlBusy_hostData (s : State) (v : Word) : (s.writeCtrlBusy v).hostData = s.hostData := rfl
@[simp] theorem State.writeCtrlBusy_epoch (s : State) (v : Word) : (s.writeCtrlBusy v).epoch = s.epoch := rfl
@[simp] theorem State.writeCtrlBusy_draws (s : State) (v : Word) : (s.writeCtrlBusy v).draws = s.draws := rfl

/-! `State.latched`. -/

@[simp] theorem State.latched_params (s : State) (w : Word) : (s.latched w).params = s.params := rfl
@[simp] theorem State.latched_endian (s : State) (w : Word) : (s.latched w).endian = s.endian := rfl
@[simp] theorem State.latched_irqEn (s : State) (w : Word) : (s.latched w).irqEn = s.irqEn := rfl
@[simp] theorem State.latched_busy (s : State) (w : Word) : (s.latched w).busy = true := rfl
@[simp] theorem State.latched_done (s : State) (w : Word) : (s.latched w).done = s.done := rfl
@[simp] theorem State.latched_err (s : State) (w : Word) : (s.latched w).err = s.err := rfl
@[simp] theorem State.latched_accErr (s : State) (w : Word) : (s.latched w).accErr = s.accErr := rfl
@[simp] theorem State.latched_meshValid (s : State) (w : Word) : (s.latched w).meshValid = s.meshValid := rfl
@[simp] theorem State.latched_errCode (s : State) (w : Word) : (s.latched w).errCode = s.errCode := rfl
@[simp] theorem State.latched_errInfo (s : State) (w : Word) : (s.latched w).errInfo = s.errInfo := rfl
@[simp] theorem State.latched_cmd (s : State) (w : Word) : (s.latched w).cmd = s.cmd := rfl
@[simp] theorem State.latched_arg0 (s : State) (w : Word) : (s.latched w).arg0 = s.arg0 := rfl
@[simp] theorem State.latched_arg1 (s : State) (w : Word) : (s.latched w).arg1 = s.arg1 := rfl
@[simp] theorem State.latched_arg2 (s : State) (w : Word) : (s.latched w).arg2 = s.arg2 := rfl
@[simp] theorem State.latched_result0 (s : State) (w : Word) : (s.latched w).result0 = s.result0 := rfl
@[simp] theorem State.latched_result1 (s : State) (w : Word) : (s.latched w).result1 = s.result1 := rfl
@[simp] theorem State.latched_inLen (s : State) (w : Word) : (s.latched w).inLen = s.inLen := rfl
@[simp] theorem State.latched_roleMap (s : State) (w : Word) : (s.latched w).roleMap = s.roleMap := rfl
@[simp] theorem State.latched_slotSel (s : State) (w : Word) : (s.latched w).slotSel = s.slotSel := rfl
@[simp] theorem State.latched_slotIdx (s : State) (w : Word) : (s.latched w).slotIdx = s.slotIdx := rfl
@[simp] theorem State.latched_mem (s : State) (w : Word) : (s.latched w).mem = s.mem := rfl
@[simp] theorem State.latched_slots (s : State) (w : Word) : (s.latched w).slots = s.slots := rfl
@[simp] theorem State.latched_lcmd (s : State) (w : Word) : (s.latched w).lcmd = w := rfl
@[simp] theorem State.latched_larg0 (s : State) (w : Word) : (s.latched w).larg0 = s.larg0 := rfl
@[simp] theorem State.latched_larg1 (s : State) (w : Word) : (s.latched w).larg1 = s.larg1 := rfl
@[simp] theorem State.latched_larg2 (s : State) (w : Word) : (s.latched w).larg2 = s.larg2 := rfl
@[simp] theorem State.latched_lEndian (s : State) (w : Word) : (s.latched w).lEndian = s.lEndian := rfl
@[simp] theorem State.latched_lInLen (s : State) (w : Word) : (s.latched w).lInLen = s.lInLen := rfl
@[simp] theorem State.latched_mesh (s : State) (w : Word) : (s.latched w).mesh = s.mesh := rfl
@[simp] theorem State.latched_inputs (s : State) (w : Word) : (s.latched w).inputs = [] := rfl
@[simp] theorem State.latched_hostData (s : State) (w : Word) : (s.latched w).hostData = s.hostData := rfl
@[simp] theorem State.latched_epoch (s : State) (w : Word) : (s.latched w).epoch = s.epoch := rfl
@[simp] theorem State.latched_draws (s : State) (w : Word) : (s.latched w).draws = s.draws := rfl

/-! `State.softReset`. -/

@[simp] theorem State.softReset_params (s : State) : s.softReset.params = s.params := rfl
@[simp] theorem State.softReset_endian (s : State) : s.softReset.endian = State.reset.endian := rfl
@[simp] theorem State.softReset_irqEn (s : State) : s.softReset.irqEn = State.reset.irqEn := rfl
@[simp] theorem State.softReset_busy (s : State) : s.softReset.busy = State.reset.busy := rfl
@[simp] theorem State.softReset_done (s : State) : s.softReset.done = State.reset.done := rfl
@[simp] theorem State.softReset_err (s : State) : s.softReset.err = State.reset.err := rfl
@[simp] theorem State.softReset_accErr (s : State) : s.softReset.accErr = State.reset.accErr := rfl
@[simp] theorem State.softReset_meshValid (s : State) : s.softReset.meshValid = State.reset.meshValid := rfl
@[simp] theorem State.softReset_errCode (s : State) : s.softReset.errCode = State.reset.errCode := rfl
@[simp] theorem State.softReset_errInfo (s : State) : s.softReset.errInfo = State.reset.errInfo := rfl
@[simp] theorem State.softReset_cmd (s : State) : s.softReset.cmd = State.reset.cmd := rfl
@[simp] theorem State.softReset_arg0 (s : State) : s.softReset.arg0 = State.reset.arg0 := rfl
@[simp] theorem State.softReset_arg1 (s : State) : s.softReset.arg1 = State.reset.arg1 := rfl
@[simp] theorem State.softReset_arg2 (s : State) : s.softReset.arg2 = State.reset.arg2 := rfl
@[simp] theorem State.softReset_result0 (s : State) : s.softReset.result0 = State.reset.result0 := rfl
@[simp] theorem State.softReset_result1 (s : State) : s.softReset.result1 = State.reset.result1 := rfl
@[simp] theorem State.softReset_inLen (s : State) : s.softReset.inLen = State.reset.inLen := rfl
@[simp] theorem State.softReset_roleMap (s : State) : s.softReset.roleMap = State.reset.roleMap := rfl
@[simp] theorem State.softReset_slotSel (s : State) : s.softReset.slotSel = State.reset.slotSel := rfl
@[simp] theorem State.softReset_slotIdx (s : State) : s.softReset.slotIdx = State.reset.slotIdx := rfl
@[simp] theorem State.softReset_mem (s : State) : s.softReset.mem = s.mem := rfl
@[simp] theorem State.softReset_slots (s : State) : s.softReset.slots = State.reset.slots := rfl
@[simp] theorem State.softReset_lcmd (s : State) : s.softReset.lcmd = State.reset.lcmd := rfl
@[simp] theorem State.softReset_larg0 (s : State) : s.softReset.larg0 = State.reset.larg0 := rfl
@[simp] theorem State.softReset_larg1 (s : State) : s.softReset.larg1 = State.reset.larg1 := rfl
@[simp] theorem State.softReset_larg2 (s : State) : s.softReset.larg2 = State.reset.larg2 := rfl
@[simp] theorem State.softReset_lEndian (s : State) : s.softReset.lEndian = State.reset.lEndian := rfl
@[simp] theorem State.softReset_lInLen (s : State) : s.softReset.lInLen = State.reset.lInLen := rfl
@[simp] theorem State.softReset_mesh (s : State) : s.softReset.mesh = State.reset.mesh := rfl
@[simp] theorem State.softReset_inputs (s : State) : s.softReset.inputs = s.inputs := rfl
@[simp] theorem State.softReset_hostData (s : State) : s.softReset.hostData = s.hostData := rfl
@[simp] theorem State.softReset_epoch (s : State) : s.softReset.epoch = s.epoch := rfl
@[simp] theorem State.softReset_draws (s : State) : s.softReset.draws = s.draws := rfl

/-! `State.powerOnReset`. -/

@[simp] theorem State.powerOnReset_params (s : State) : s.powerOnReset.params = s.params := rfl
@[simp] theorem State.powerOnReset_endian (s : State) : s.powerOnReset.endian = State.reset.endian := rfl
@[simp] theorem State.powerOnReset_irqEn (s : State) : s.powerOnReset.irqEn = State.reset.irqEn := rfl
@[simp] theorem State.powerOnReset_busy (s : State) : s.powerOnReset.busy = State.reset.busy := rfl
@[simp] theorem State.powerOnReset_done (s : State) : s.powerOnReset.done = State.reset.done := rfl
@[simp] theorem State.powerOnReset_err (s : State) : s.powerOnReset.err = State.reset.err := rfl
@[simp] theorem State.powerOnReset_accErr (s : State) : s.powerOnReset.accErr = State.reset.accErr := rfl
@[simp] theorem State.powerOnReset_meshValid (s : State) : s.powerOnReset.meshValid = State.reset.meshValid := rfl
@[simp] theorem State.powerOnReset_errCode (s : State) : s.powerOnReset.errCode = State.reset.errCode := rfl
@[simp] theorem State.powerOnReset_errInfo (s : State) : s.powerOnReset.errInfo = State.reset.errInfo := rfl
@[simp] theorem State.powerOnReset_cmd (s : State) : s.powerOnReset.cmd = State.reset.cmd := rfl
@[simp] theorem State.powerOnReset_arg0 (s : State) : s.powerOnReset.arg0 = State.reset.arg0 := rfl
@[simp] theorem State.powerOnReset_arg1 (s : State) : s.powerOnReset.arg1 = State.reset.arg1 := rfl
@[simp] theorem State.powerOnReset_arg2 (s : State) : s.powerOnReset.arg2 = State.reset.arg2 := rfl
@[simp] theorem State.powerOnReset_result0 (s : State) : s.powerOnReset.result0 = State.reset.result0 := rfl
@[simp] theorem State.powerOnReset_result1 (s : State) : s.powerOnReset.result1 = State.reset.result1 := rfl
@[simp] theorem State.powerOnReset_inLen (s : State) : s.powerOnReset.inLen = State.reset.inLen := rfl
@[simp] theorem State.powerOnReset_roleMap (s : State) : s.powerOnReset.roleMap = State.reset.roleMap := rfl
@[simp] theorem State.powerOnReset_slotSel (s : State) : s.powerOnReset.slotSel = State.reset.slotSel := rfl
@[simp] theorem State.powerOnReset_slotIdx (s : State) : s.powerOnReset.slotIdx = State.reset.slotIdx := rfl
@[simp] theorem State.powerOnReset_mem (s : State) : s.powerOnReset.mem = [] := rfl
@[simp] theorem State.powerOnReset_slots (s : State) : s.powerOnReset.slots = State.reset.slots := rfl
@[simp] theorem State.powerOnReset_lcmd (s : State) : s.powerOnReset.lcmd = State.reset.lcmd := rfl
@[simp] theorem State.powerOnReset_larg0 (s : State) : s.powerOnReset.larg0 = State.reset.larg0 := rfl
@[simp] theorem State.powerOnReset_larg1 (s : State) : s.powerOnReset.larg1 = State.reset.larg1 := rfl
@[simp] theorem State.powerOnReset_larg2 (s : State) : s.powerOnReset.larg2 = State.reset.larg2 := rfl
@[simp] theorem State.powerOnReset_lEndian (s : State) : s.powerOnReset.lEndian = State.reset.lEndian := rfl
@[simp] theorem State.powerOnReset_lInLen (s : State) : s.powerOnReset.lInLen = State.reset.lInLen := rfl
@[simp] theorem State.powerOnReset_mesh (s : State) : s.powerOnReset.mesh = State.reset.mesh := rfl
@[simp] theorem State.powerOnReset_inputs (s : State) : s.powerOnReset.inputs = s.inputs := rfl
@[simp] theorem State.powerOnReset_hostData (s : State) : s.powerOnReset.hostData = s.hostData := rfl
@[simp] theorem State.powerOnReset_epoch (s : State) : s.powerOnReset.epoch = s.epoch + 1 := rfl
@[simp] theorem State.powerOnReset_draws (s : State) : s.powerOnReset.draws = s.draws := rfl

/-! The slots after an update. -/

/-- The slots after one slot is written. -/
@[simp] theorem State.slot_setSlot (s : State) (k j : SlotNo) (vs : List Word) :
    (s.setSlot k vs).slot j = if j = k then vs else s.slot j := by
  simp only [State.slot, State.setSlot, Vector.getElem_set]
  by_cases h : j = k
  · subst h; simp
  · have : k.toNat ≠ j.toNat := fun e => h (BitVec.eq_of_toNat_eq e.symm)
    simp [h, this]

/-- Two states with the same slots have the same contents in every slot. -/
theorem State.slot_congr {s t : State} (h : t.slots = s.slots) (k : SlotNo) : t.slot k = s.slot k := by
  simp only [State.slot, h]

@[simp] theorem State.slot_complete (s : State) (r0 r1 : Word) (j : SlotNo) : (s.complete r0 r1).slot j = s.slot j := rfl
@[simp] theorem State.slot_discardMesh (s : State) (j : SlotNo) : s.discardMesh.slot j = s.slot j := rfl
@[simp] theorem State.slot_recordError (s : State) (c : ErrCode) (x : Word) (j : SlotNo) : (s.recordError c x).slot j = s.slot j := rfl
@[simp] theorem State.slot_setMesh (s : State) (m : Mesh) (j : SlotNo) : (s.setMesh m).slot j = s.slot j := rfl
@[simp] theorem State.slot_accept (s : State) (v : Word) (j : SlotNo) : (s.accept v).slot j = s.slot j := rfl
@[simp] theorem State.slot_refuse (s : State) (j : SlotNo) : s.refuse.slot j = s.slot j := rfl
@[simp] theorem State.slot_returnData (s : State) (v : Word) (j : SlotNo) : (s.returnData v).slot j = s.slot j := rfl
@[simp] theorem State.slot_nextIdx (s : State) (j : SlotNo) : s.nextIdx.slot j = s.slot j := rfl
@[simp] theorem State.slot_writeStatus (s : State) (v : Word) (j : SlotNo) : (s.writeStatus v).slot j = s.slot j := rfl
@[simp] theorem State.slot_writeIn (s : State) (a : Nat) (bs : List Byte) (j : SlotNo) : (s.writeIn a bs).slot j = s.slot j := rfl
@[simp] theorem State.slot_writeInLen (s : State) (v : Word) (j : SlotNo) : (s.writeInLen v).slot j = s.slot j := rfl
@[simp] theorem State.slot_writeCtrlBusy (s : State) (v : Word) (j : SlotNo) : (s.writeCtrlBusy v).slot j = s.slot j := rfl
@[simp] theorem State.slot_latched (s : State) (w : Word) (j : SlotNo) : (s.latched w).slot j = s.slot j := rfl

@[simp] theorem State.slot_reset (j : SlotNo) : State.reset.slot j = [] := by
  simp [State.slot, State.reset]

@[simp] theorem State.slot_softReset (s : State) (j : SlotNo) : s.softReset.slot j = [] := by
  simp [State.slot, State.reset]

@[simp] theorem State.slot_powerOnReset (s : State) (j : SlotNo) : s.powerOnReset.slot j = [] := by
  simp [State.slot, State.reset]

/-! `State.emptySlots` changes nothing but slots. -/

@[simp] theorem State.emptySlots_params (s : State) (ks : List SlotNo) : (s.emptySlots ks).params = s.params := by
  induction ks generalizing s with
  | nil => rfl
  | cons k ks ih => simp [State.emptySlots, ih]

@[simp] theorem State.emptySlots_endian (s : State) (ks : List SlotNo) : (s.emptySlots ks).endian = s.endian := by
  induction ks generalizing s with
  | nil => rfl
  | cons k ks ih => simp [State.emptySlots, ih]

@[simp] theorem State.emptySlots_irqEn (s : State) (ks : List SlotNo) : (s.emptySlots ks).irqEn = s.irqEn := by
  induction ks generalizing s with
  | nil => rfl
  | cons k ks ih => simp [State.emptySlots, ih]

@[simp] theorem State.emptySlots_busy (s : State) (ks : List SlotNo) : (s.emptySlots ks).busy = s.busy := by
  induction ks generalizing s with
  | nil => rfl
  | cons k ks ih => simp [State.emptySlots, ih]

@[simp] theorem State.emptySlots_done (s : State) (ks : List SlotNo) : (s.emptySlots ks).done = s.done := by
  induction ks generalizing s with
  | nil => rfl
  | cons k ks ih => simp [State.emptySlots, ih]

@[simp] theorem State.emptySlots_err (s : State) (ks : List SlotNo) : (s.emptySlots ks).err = s.err := by
  induction ks generalizing s with
  | nil => rfl
  | cons k ks ih => simp [State.emptySlots, ih]

@[simp] theorem State.emptySlots_accErr (s : State) (ks : List SlotNo) : (s.emptySlots ks).accErr = s.accErr := by
  induction ks generalizing s with
  | nil => rfl
  | cons k ks ih => simp [State.emptySlots, ih]

@[simp] theorem State.emptySlots_meshValid (s : State) (ks : List SlotNo) : (s.emptySlots ks).meshValid = s.meshValid := by
  induction ks generalizing s with
  | nil => rfl
  | cons k ks ih => simp [State.emptySlots, ih]

@[simp] theorem State.emptySlots_errCode (s : State) (ks : List SlotNo) : (s.emptySlots ks).errCode = s.errCode := by
  induction ks generalizing s with
  | nil => rfl
  | cons k ks ih => simp [State.emptySlots, ih]

@[simp] theorem State.emptySlots_errInfo (s : State) (ks : List SlotNo) : (s.emptySlots ks).errInfo = s.errInfo := by
  induction ks generalizing s with
  | nil => rfl
  | cons k ks ih => simp [State.emptySlots, ih]

@[simp] theorem State.emptySlots_cmd (s : State) (ks : List SlotNo) : (s.emptySlots ks).cmd = s.cmd := by
  induction ks generalizing s with
  | nil => rfl
  | cons k ks ih => simp [State.emptySlots, ih]

@[simp] theorem State.emptySlots_arg0 (s : State) (ks : List SlotNo) : (s.emptySlots ks).arg0 = s.arg0 := by
  induction ks generalizing s with
  | nil => rfl
  | cons k ks ih => simp [State.emptySlots, ih]

@[simp] theorem State.emptySlots_arg1 (s : State) (ks : List SlotNo) : (s.emptySlots ks).arg1 = s.arg1 := by
  induction ks generalizing s with
  | nil => rfl
  | cons k ks ih => simp [State.emptySlots, ih]

@[simp] theorem State.emptySlots_arg2 (s : State) (ks : List SlotNo) : (s.emptySlots ks).arg2 = s.arg2 := by
  induction ks generalizing s with
  | nil => rfl
  | cons k ks ih => simp [State.emptySlots, ih]

@[simp] theorem State.emptySlots_result0 (s : State) (ks : List SlotNo) : (s.emptySlots ks).result0 = s.result0 := by
  induction ks generalizing s with
  | nil => rfl
  | cons k ks ih => simp [State.emptySlots, ih]

@[simp] theorem State.emptySlots_result1 (s : State) (ks : List SlotNo) : (s.emptySlots ks).result1 = s.result1 := by
  induction ks generalizing s with
  | nil => rfl
  | cons k ks ih => simp [State.emptySlots, ih]

@[simp] theorem State.emptySlots_inLen (s : State) (ks : List SlotNo) : (s.emptySlots ks).inLen = s.inLen := by
  induction ks generalizing s with
  | nil => rfl
  | cons k ks ih => simp [State.emptySlots, ih]

@[simp] theorem State.emptySlots_roleMap (s : State) (ks : List SlotNo) : (s.emptySlots ks).roleMap = s.roleMap := by
  induction ks generalizing s with
  | nil => rfl
  | cons k ks ih => simp [State.emptySlots, ih]

@[simp] theorem State.emptySlots_slotSel (s : State) (ks : List SlotNo) : (s.emptySlots ks).slotSel = s.slotSel := by
  induction ks generalizing s with
  | nil => rfl
  | cons k ks ih => simp [State.emptySlots, ih]

@[simp] theorem State.emptySlots_slotIdx (s : State) (ks : List SlotNo) : (s.emptySlots ks).slotIdx = s.slotIdx := by
  induction ks generalizing s with
  | nil => rfl
  | cons k ks ih => simp [State.emptySlots, ih]

@[simp] theorem State.emptySlots_mem (s : State) (ks : List SlotNo) : (s.emptySlots ks).mem = s.mem := by
  induction ks generalizing s with
  | nil => rfl
  | cons k ks ih => simp [State.emptySlots, ih]

@[simp] theorem State.emptySlots_lcmd (s : State) (ks : List SlotNo) : (s.emptySlots ks).lcmd = s.lcmd := by
  induction ks generalizing s with
  | nil => rfl
  | cons k ks ih => simp [State.emptySlots, ih]

@[simp] theorem State.emptySlots_larg0 (s : State) (ks : List SlotNo) : (s.emptySlots ks).larg0 = s.larg0 := by
  induction ks generalizing s with
  | nil => rfl
  | cons k ks ih => simp [State.emptySlots, ih]

@[simp] theorem State.emptySlots_larg1 (s : State) (ks : List SlotNo) : (s.emptySlots ks).larg1 = s.larg1 := by
  induction ks generalizing s with
  | nil => rfl
  | cons k ks ih => simp [State.emptySlots, ih]

@[simp] theorem State.emptySlots_larg2 (s : State) (ks : List SlotNo) : (s.emptySlots ks).larg2 = s.larg2 := by
  induction ks generalizing s with
  | nil => rfl
  | cons k ks ih => simp [State.emptySlots, ih]

@[simp] theorem State.emptySlots_lEndian (s : State) (ks : List SlotNo) : (s.emptySlots ks).lEndian = s.lEndian := by
  induction ks generalizing s with
  | nil => rfl
  | cons k ks ih => simp [State.emptySlots, ih]

@[simp] theorem State.emptySlots_lInLen (s : State) (ks : List SlotNo) : (s.emptySlots ks).lInLen = s.lInLen := by
  induction ks generalizing s with
  | nil => rfl
  | cons k ks ih => simp [State.emptySlots, ih]

@[simp] theorem State.emptySlots_mesh (s : State) (ks : List SlotNo) : (s.emptySlots ks).mesh = s.mesh := by
  induction ks generalizing s with
  | nil => rfl
  | cons k ks ih => simp [State.emptySlots, ih]

@[simp] theorem State.emptySlots_inputs (s : State) (ks : List SlotNo) : (s.emptySlots ks).inputs = s.inputs := by
  induction ks generalizing s with
  | nil => rfl
  | cons k ks ih => simp [State.emptySlots, ih]

@[simp] theorem State.emptySlots_hostData (s : State) (ks : List SlotNo) : (s.emptySlots ks).hostData = s.hostData := by
  induction ks generalizing s with
  | nil => rfl
  | cons k ks ih => simp [State.emptySlots, ih]

@[simp] theorem State.emptySlots_epoch (s : State) (ks : List SlotNo) : (s.emptySlots ks).epoch = s.epoch := by
  induction ks generalizing s with
  | nil => rfl
  | cons k ks ih => simp [State.emptySlots, ih]

@[simp] theorem State.emptySlots_draws (s : State) (ks : List SlotNo) : (s.emptySlots ks).draws = s.draws := by
  induction ks generalizing s with
  | nil => rfl
  | cons k ks ih => simp [State.emptySlots, ih]

/-- Every listed slot is empty, every other slot is unchanged (60_exceptions.md R410). -/
@[simp] theorem State.slot_emptySlots (s : State) (ks : List SlotNo) (j : SlotNo) :
    (s.emptySlots ks).slot j = if j ∈ ks then [] else s.slot j := by
  induction ks generalizing s with
  | nil => simp [State.emptySlots]
  | cons k ks ih =>
    rw [State.emptySlots, ih, State.slot_setSlot]
    by_cases h : j = k <;> by_cases h' : j ∈ ks <;> simp [h, h']

end Sys2Proof.Machine
end

