-- ==== Sys2Proof/Laws/Ops.lean ====
section
/-! SUPPORT. What the shared operations do: IN as a list in canonical form, the error entry, and the commands' two
endings. -/

namespace Sys2Proof.Machine

/-! IN. -/

/-- A read after a write: the written byte at its address, every other byte as before. -/
@[simp] theorem Memory.lookup_store (m : Memory) (a : Nat) (b : Byte) (x : Nat) :
    Memory.lookup (Memory.store m a b) x = if x = a then some b else Memory.lookup m x := by
  induction m with
  | nil => simp [Memory.store, Memory.lookup, eq_comm]
  | cons c rest ih =>
    obtain ⟨y, d⟩ := c
    simp only [Memory.store]
    split
    · simp only [Memory.lookup]
      by_cases h : a = x
      · simp [h]
      · simp [h, Ne.symm h]
    · split
      · rename_i h
        subst h
        simp only [Memory.lookup]
        by_cases h : a = x
        · simp [h]
        · simp [h, Ne.symm h]
      · simp only [Memory.lookup, ih]
        by_cases h : y = x
        · subst h
          rename_i h1
          simp [Ne.symm h1]
        · simp [h]

/-- A read after consecutive writes. -/
theorem Memory.lookup_storeAll (m : Memory) (a : Nat) (bs : List Byte) (x : Nat) :
    Memory.lookup (Memory.storeAll m a bs) x =
      if a ≤ x ∧ x < a + bs.length then bs[x - a]? else Memory.lookup m x := by
  induction bs generalizing m a with
  | nil =>
    simp [Memory.storeAll]
  | cons b bs ih =>
    rw [Memory.storeAll, ih, Memory.lookup_store]
    by_cases h : x = a
    · subst h
      simp
    · by_cases h2 : a + 1 ≤ x ∧ x < a + 1 + bs.length
      · have h3 : a ≤ x ∧ x < a + (b :: bs).length := by simp; omega
        have h4 : x - a = (x - (a + 1)) + 1 := by omega
        rw [if_pos h2, if_pos h3, h4]
        simp
      · have h3 : ¬ (a ≤ x ∧ x < a + (b :: bs).length) := by simp; omega
        rw [if_neg h2, if_neg h3, if_neg h]

/-- Every entry of a canonical list after its first has a greater address than the first. -/
theorem Memory.wf_cons {x : Nat} {c : Byte} {rest : Memory} :
    Memory.wf ((x, c) :: rest) = true ↔ Memory.wf rest = true ∧ ∀ e ∈ rest, x < e.1 := by
  induction rest generalizing x c with
  | nil => simp [Memory.wf]
  | cons e rest ih =>
    obtain ⟨y, d⟩ := e
    simp only [Memory.wf, Bool.and_eq_true, decide_eq_true_eq, ih, List.mem_cons, forall_eq_or_imp]
    constructor
    · rintro ⟨h, h1, h2⟩
      exact ⟨⟨h1, h2⟩, h, fun e he => lt_trans h (h2 e he)⟩
    · rintro ⟨⟨h1, h2⟩, h, _⟩
      exact ⟨h, h1, h2⟩

/-- The entries of IN after a write. -/
theorem Memory.mem_store {m : Memory} {a : Nat} {b : Byte} {e : Host.Cell} (h : e ∈ Memory.store m a b) :
    e = (a, b) ∨ e ∈ m := by
  induction m with
  | nil => simpa [Memory.store] using h
  | cons c rest ih =>
    obtain ⟨y, d⟩ := c
    simp only [Memory.store] at h
    split at h
    · simpa using h
    · split at h
      · simp only [List.mem_cons] at h ⊢
        tauto
      · simp only [List.mem_cons] at h ⊢
        rcases h with h | h
        · exact .inr (.inl h)
        · rcases ih h with h | h
          · exact .inl h
          · exact .inr (.inr h)

/-- A write keeps the canonical form. -/
theorem Memory.wf_store (m : Memory) (a : Nat) (b : Byte) (h : Memory.wf m = true) :
    Memory.wf (Memory.store m a b) = true := by
  induction m with
  | nil => rfl
  | cons c rest ih =>
    obtain ⟨y, d⟩ := c
    have h' := Memory.wf_cons.1 h
    simp only [Memory.store]
    split
    · rename_i hlt
      refine Memory.wf_cons.2 ⟨h, fun e he => ?_⟩
      rcases List.mem_cons.1 he with rfl | he
      · exact hlt
      · exact lt_trans hlt (h'.2 e he)
    · split
      · rename_i heq
        subst heq
        exact Memory.wf_cons.2 h'
      · refine Memory.wf_cons.2 ⟨ih h'.1, fun e he => ?_⟩
        rcases Memory.mem_store he with rfl | he
        · simp only
          omega
        · exact h'.2 e he

/-- Consecutive writes keep the canonical form. -/
theorem Memory.wf_storeAll (m : Memory) (a : Nat) (bs : List Byte) (h : Memory.wf m = true) :
    Memory.wf (Memory.storeAll m a bs) = true := by
  induction bs generalizing m a with
  | nil => exact h
  | cons b bs ih => exact ih _ _ (Memory.wf_store m a b h)

/-- The entries of IN after consecutive writes. -/
theorem Memory.mem_storeAll {m : Memory} {a : Nat} {bs : List Byte} {e : Host.Cell}
    (h : e ∈ Memory.storeAll m a bs) : (a ≤ e.1 ∧ e.1 < a + bs.length) ∨ e ∈ m := by
  induction bs generalizing m a with
  | nil => exact .inr h
  | cons b bs ih =>
    rcases ih h with h | h
    · simp only [List.length_cons]
      left
      omega
    · rcases Memory.mem_store h with rfl | h
      · left
        simp
      · exact .inr h

/-- IN is in canonical form after reset. -/
theorem Memory.wf_reset : Memory.wf State.reset.mem = true := rfl

/-- States with the same IN and the same power-on draw read the same bytes. -/
theorem State.inByte_congr {s t : State} (h : t.mem = s.mem) (he : t.epoch = s.epoch) (a : Nat) :
    t.inByte a = s.inByte a := by
  simp only [State.inByte, h, he]

/-- A byte the engine reads is the byte of IN. -/
theorem State.inView_byte (s : State) (a : Nat) : s.inView.byte a = s.inByte a := rfl

@[simp] theorem State.inView_inLen (s : State) : s.inView.inLen = s.lInLen.toNat := rfl

@[simp] theorem State.inView_endian (s : State) : s.inView.endian = s.lEndian := rfl

@[simp] theorem State.inView_slotCap (s : State) : s.inView.slotCap = s.params.slotCap := rfl

@[simp] theorem State.inView_mem (s : State) : s.inView.mem = s.mem := rfl

@[simp] theorem State.inView_epoch (s : State) : s.inView.epoch = s.epoch := rfl

/-! The error entry (60_exceptions.md R410). -/

@[simp] theorem State.errorEntry_params (s : State) (c : ErrCode) (x : Word) (ds : List SlotNo) :
    (s.errorEntry c x ds).params = s.params := by simp [State.errorEntry]

@[simp] theorem State.errorEntry_endian (s : State) (c : ErrCode) (x : Word) (ds : List SlotNo) :
    (s.errorEntry c x ds).endian = s.endian := by simp [State.errorEntry]

@[simp] theorem State.errorEntry_irqEn (s : State) (c : ErrCode) (x : Word) (ds : List SlotNo) :
    (s.errorEntry c x ds).irqEn = s.irqEn := by simp [State.errorEntry]

@[simp] theorem State.errorEntry_busy (s : State) (c : ErrCode) (x : Word) (ds : List SlotNo) :
    (s.errorEntry c x ds).busy = false := by simp [State.errorEntry]

@[simp] theorem State.errorEntry_done (s : State) (c : ErrCode) (x : Word) (ds : List SlotNo) :
    (s.errorEntry c x ds).done = s.done := by simp [State.errorEntry]

@[simp] theorem State.errorEntry_err (s : State) (c : ErrCode) (x : Word) (ds : List SlotNo) :
    (s.errorEntry c x ds).err = true := by simp [State.errorEntry]

@[simp] theorem State.errorEntry_accErr (s : State) (c : ErrCode) (x : Word) (ds : List SlotNo) :
    (s.errorEntry c x ds).accErr = s.accErr := by simp [State.errorEntry]

@[simp] theorem State.errorEntry_meshValid (s : State) (c : ErrCode) (x : Word) (ds : List SlotNo) :
    (s.errorEntry c x ds).meshValid = s.meshValid := by simp [State.errorEntry]

@[simp] theorem State.errorEntry_errCode (s : State) (c : ErrCode) (x : Word) (ds : List SlotNo) :
    (s.errorEntry c x ds).errCode = errCodeByte c := by simp [State.errorEntry]

@[simp] theorem State.errorEntry_errInfo (s : State) (c : ErrCode) (x : Word) (ds : List SlotNo) :
    (s.errorEntry c x ds).errInfo = x := by simp [State.errorEntry]

@[simp] theorem State.errorEntry_cmd (s : State) (c : ErrCode) (x : Word) (ds : List SlotNo) :
    (s.errorEntry c x ds).cmd = s.cmd := by simp [State.errorEntry]

@[simp] theorem State.errorEntry_arg0 (s : State) (c : ErrCode) (x : Word) (ds : List SlotNo) :
    (s.errorEntry c x ds).arg0 = s.arg0 := by simp [State.errorEntry]

@[simp] theorem State.errorEntry_arg1 (s : State) (c : ErrCode) (x : Word) (ds : List SlotNo) :
    (s.errorEntry c x ds).arg1 = s.arg1 := by simp [State.errorEntry]

@[simp] theorem State.errorEntry_arg2 (s : State) (c : ErrCode) (x : Word) (ds : List SlotNo) :
    (s.errorEntry c x ds).arg2 = s.arg2 := by simp [State.errorEntry]

@[simp] theorem State.errorEntry_result0 (s : State) (c : ErrCode) (x : Word) (ds : List SlotNo) :
    (s.errorEntry c x ds).result0 = 0 := by simp [State.errorEntry]

@[simp] theorem State.errorEntry_result1 (s : State) (c : ErrCode) (x : Word) (ds : List SlotNo) :
    (s.errorEntry c x ds).result1 = 0 := by simp [State.errorEntry]

@[simp] theorem State.errorEntry_inLen (s : State) (c : ErrCode) (x : Word) (ds : List SlotNo) :
    (s.errorEntry c x ds).inLen = s.inLen := by simp [State.errorEntry]

@[simp] theorem State.errorEntry_roleMap (s : State) (c : ErrCode) (x : Word) (ds : List SlotNo) :
    (s.errorEntry c x ds).roleMap = s.roleMap := by simp [State.errorEntry]

@[simp] theorem State.errorEntry_slotSel (s : State) (c : ErrCode) (x : Word) (ds : List SlotNo) :
    (s.errorEntry c x ds).slotSel = s.slotSel := by simp [State.errorEntry]

@[simp] theorem State.errorEntry_slotIdx (s : State) (c : ErrCode) (x : Word) (ds : List SlotNo) :
    (s.errorEntry c x ds).slotIdx = s.slotIdx := by simp [State.errorEntry]

@[simp] theorem State.errorEntry_mem (s : State) (c : ErrCode) (x : Word) (ds : List SlotNo) :
    (s.errorEntry c x ds).mem = s.mem := by simp [State.errorEntry]

@[simp] theorem State.errorEntry_lcmd (s : State) (c : ErrCode) (x : Word) (ds : List SlotNo) :
    (s.errorEntry c x ds).lcmd = s.lcmd := by simp [State.errorEntry]

@[simp] theorem State.errorEntry_larg0 (s : State) (c : ErrCode) (x : Word) (ds : List SlotNo) :
    (s.errorEntry c x ds).larg0 = s.larg0 := by simp [State.errorEntry]

@[simp] theorem State.errorEntry_larg1 (s : State) (c : ErrCode) (x : Word) (ds : List SlotNo) :
    (s.errorEntry c x ds).larg1 = s.larg1 := by simp [State.errorEntry]

@[simp] theorem State.errorEntry_larg2 (s : State) (c : ErrCode) (x : Word) (ds : List SlotNo) :
    (s.errorEntry c x ds).larg2 = s.larg2 := by simp [State.errorEntry]

@[simp] theorem State.errorEntry_lEndian (s : State) (c : ErrCode) (x : Word) (ds : List SlotNo) :
    (s.errorEntry c x ds).lEndian = s.lEndian := by simp [State.errorEntry]

@[simp] theorem State.errorEntry_lInLen (s : State) (c : ErrCode) (x : Word) (ds : List SlotNo) :
    (s.errorEntry c x ds).lInLen = s.lInLen := by simp [State.errorEntry]

@[simp] theorem State.errorEntry_mesh (s : State) (c : ErrCode) (x : Word) (ds : List SlotNo) :
    (s.errorEntry c x ds).mesh = s.mesh := by simp [State.errorEntry]

@[simp] theorem State.errorEntry_inputs (s : State) (c : ErrCode) (x : Word) (ds : List SlotNo) :
    (s.errorEntry c x ds).inputs = s.inputs := by simp [State.errorEntry]

@[simp] theorem State.errorEntry_hostData (s : State) (c : ErrCode) (x : Word) (ds : List SlotNo) :
    (s.errorEntry c x ds).hostData = s.hostData := by simp [State.errorEntry]

@[simp] theorem State.errorEntry_epoch (s : State) (c : ErrCode) (x : Word) (ds : List SlotNo) :
    (s.errorEntry c x ds).epoch = s.epoch := by simp [State.errorEntry]

@[simp] theorem State.errorEntry_draws (s : State) (c : ErrCode) (x : Word) (ds : List SlotNo) :
    (s.errorEntry c x ds).draws = s.draws := by simp [State.errorEntry]

/-- The error entry empties the destinations and no other slot. -/
@[simp] theorem State.slot_errorEntry (s : State) (c : ErrCode) (x : Word) (ds : List SlotNo) (j : SlotNo) :
    (s.errorEntry c x ds).slot j = if j ∈ ds then [] else s.slot j := by simp [State.errorEntry]

/-- No error has code 0 (60_exceptions.md R400). -/
theorem errCodeByte_ne_zero (c : ErrCode) : errCodeByte c ≠ 0 := by cases c <;> decide

/-- Error codes have different numbers (60_exceptions.md R400). -/
theorem errCodeByte_injective {c d : ErrCode} (h : errCodeByte c = errCodeByte d) : c = d := by
  cases c <;> cases d <;> first | rfl | exact absurd h (by decide)

/-! Writes of several slots. -/

@[simp] theorem State.setNormals_params (s : State) (x y z : SlotNo) (ns : List (Word × Word × Word)) :
    (s.setNormals x y z ns).params = s.params := rfl

@[simp] theorem State.setCornerAttr_params (s : State) (k : Option SlotNo) (vs : List Word) :
    (s.setCornerAttr k vs).params = s.params := by cases k <;> rfl

@[simp] theorem State.setNormals_endian (s : State) (x y z : SlotNo) (ns : List (Word × Word × Word)) :
    (s.setNormals x y z ns).endian = s.endian := rfl

@[simp] theorem State.setCornerAttr_endian (s : State) (k : Option SlotNo) (vs : List Word) :
    (s.setCornerAttr k vs).endian = s.endian := by cases k <;> rfl

@[simp] theorem State.setNormals_irqEn (s : State) (x y z : SlotNo) (ns : List (Word × Word × Word)) :
    (s.setNormals x y z ns).irqEn = s.irqEn := rfl

@[simp] theorem State.setCornerAttr_irqEn (s : State) (k : Option SlotNo) (vs : List Word) :
    (s.setCornerAttr k vs).irqEn = s.irqEn := by cases k <;> rfl

@[simp] theorem State.setNormals_busy (s : State) (x y z : SlotNo) (ns : List (Word × Word × Word)) :
    (s.setNormals x y z ns).busy = s.busy := rfl

@[simp] theorem State.setCornerAttr_busy (s : State) (k : Option SlotNo) (vs : List Word) :
    (s.setCornerAttr k vs).busy = s.busy := by cases k <;> rfl

@[simp] theorem State.setNormals_done (s : State) (x y z : SlotNo) (ns : List (Word × Word × Word)) :
    (s.setNormals x y z ns).done = s.done := rfl

@[simp] theorem State.setCornerAttr_done (s : State) (k : Option SlotNo) (vs : List Word) :
    (s.setCornerAttr k vs).done = s.done := by cases k <;> rfl

@[simp] theorem State.setNormals_err (s : State) (x y z : SlotNo) (ns : List (Word × Word × Word)) :
    (s.setNormals x y z ns).err = s.err := rfl

@[simp] theorem State.setCornerAttr_err (s : State) (k : Option SlotNo) (vs : List Word) :
    (s.setCornerAttr k vs).err = s.err := by cases k <;> rfl

@[simp] theorem State.setNormals_accErr (s : State) (x y z : SlotNo) (ns : List (Word × Word × Word)) :
    (s.setNormals x y z ns).accErr = s.accErr := rfl

@[simp] theorem State.setCornerAttr_accErr (s : State) (k : Option SlotNo) (vs : List Word) :
    (s.setCornerAttr k vs).accErr = s.accErr := by cases k <;> rfl

@[simp] theorem State.setNormals_meshValid (s : State) (x y z : SlotNo) (ns : List (Word × Word × Word)) :
    (s.setNormals x y z ns).meshValid = s.meshValid := rfl

@[simp] theorem State.setCornerAttr_meshValid (s : State) (k : Option SlotNo) (vs : List Word) :
    (s.setCornerAttr k vs).meshValid = s.meshValid := by cases k <;> rfl

@[simp] theorem State.setNormals_errCode (s : State) (x y z : SlotNo) (ns : List (Word × Word × Word)) :
    (s.setNormals x y z ns).errCode = s.errCode := rfl

@[simp] theorem State.setCornerAttr_errCode (s : State) (k : Option SlotNo) (vs : List Word) :
    (s.setCornerAttr k vs).errCode = s.errCode := by cases k <;> rfl

@[simp] theorem State.setNormals_errInfo (s : State) (x y z : SlotNo) (ns : List (Word × Word × Word)) :
    (s.setNormals x y z ns).errInfo = s.errInfo := rfl

@[simp] theorem State.setCornerAttr_errInfo (s : State) (k : Option SlotNo) (vs : List Word) :
    (s.setCornerAttr k vs).errInfo = s.errInfo := by cases k <;> rfl

@[simp] theorem State.setNormals_cmd (s : State) (x y z : SlotNo) (ns : List (Word × Word × Word)) :
    (s.setNormals x y z ns).cmd = s.cmd := rfl

@[simp] theorem State.setCornerAttr_cmd (s : State) (k : Option SlotNo) (vs : List Word) :
    (s.setCornerAttr k vs).cmd = s.cmd := by cases k <;> rfl

@[simp] theorem State.setNormals_arg0 (s : State) (x y z : SlotNo) (ns : List (Word × Word × Word)) :
    (s.setNormals x y z ns).arg0 = s.arg0 := rfl

@[simp] theorem State.setCornerAttr_arg0 (s : State) (k : Option SlotNo) (vs : List Word) :
    (s.setCornerAttr k vs).arg0 = s.arg0 := by cases k <;> rfl

@[simp] theorem State.setNormals_arg1 (s : State) (x y z : SlotNo) (ns : List (Word × Word × Word)) :
    (s.setNormals x y z ns).arg1 = s.arg1 := rfl

@[simp] theorem State.setCornerAttr_arg1 (s : State) (k : Option SlotNo) (vs : List Word) :
    (s.setCornerAttr k vs).arg1 = s.arg1 := by cases k <;> rfl

@[simp] theorem State.setNormals_arg2 (s : State) (x y z : SlotNo) (ns : List (Word × Word × Word)) :
    (s.setNormals x y z ns).arg2 = s.arg2 := rfl

@[simp] theorem State.setCornerAttr_arg2 (s : State) (k : Option SlotNo) (vs : List Word) :
    (s.setCornerAttr k vs).arg2 = s.arg2 := by cases k <;> rfl

@[simp] theorem State.setNormals_result0 (s : State) (x y z : SlotNo) (ns : List (Word × Word × Word)) :
    (s.setNormals x y z ns).result0 = s.result0 := rfl

@[simp] theorem State.setCornerAttr_result0 (s : State) (k : Option SlotNo) (vs : List Word) :
    (s.setCornerAttr k vs).result0 = s.result0 := by cases k <;> rfl

@[simp] theorem State.setNormals_result1 (s : State) (x y z : SlotNo) (ns : List (Word × Word × Word)) :
    (s.setNormals x y z ns).result1 = s.result1 := rfl

@[simp] theorem State.setCornerAttr_result1 (s : State) (k : Option SlotNo) (vs : List Word) :
    (s.setCornerAttr k vs).result1 = s.result1 := by cases k <;> rfl

@[simp] theorem State.setNormals_inLen (s : State) (x y z : SlotNo) (ns : List (Word × Word × Word)) :
    (s.setNormals x y z ns).inLen = s.inLen := rfl

@[simp] theorem State.setCornerAttr_inLen (s : State) (k : Option SlotNo) (vs : List Word) :
    (s.setCornerAttr k vs).inLen = s.inLen := by cases k <;> rfl

@[simp] theorem State.setNormals_roleMap (s : State) (x y z : SlotNo) (ns : List (Word × Word × Word)) :
    (s.setNormals x y z ns).roleMap = s.roleMap := rfl

@[simp] theorem State.setCornerAttr_roleMap (s : State) (k : Option SlotNo) (vs : List Word) :
    (s.setCornerAttr k vs).roleMap = s.roleMap := by cases k <;> rfl

@[simp] theorem State.setNormals_slotSel (s : State) (x y z : SlotNo) (ns : List (Word × Word × Word)) :
    (s.setNormals x y z ns).slotSel = s.slotSel := rfl

@[simp] theorem State.setCornerAttr_slotSel (s : State) (k : Option SlotNo) (vs : List Word) :
    (s.setCornerAttr k vs).slotSel = s.slotSel := by cases k <;> rfl

@[simp] theorem State.setNormals_slotIdx (s : State) (x y z : SlotNo) (ns : List (Word × Word × Word)) :
    (s.setNormals x y z ns).slotIdx = s.slotIdx := rfl

@[simp] theorem State.setCornerAttr_slotIdx (s : State) (k : Option SlotNo) (vs : List Word) :
    (s.setCornerAttr k vs).slotIdx = s.slotIdx := by cases k <;> rfl

@[simp] theorem State.setNormals_mem (s : State) (x y z : SlotNo) (ns : List (Word × Word × Word)) :
    (s.setNormals x y z ns).mem = s.mem := rfl

@[simp] theorem State.setCornerAttr_mem (s : State) (k : Option SlotNo) (vs : List Word) :
    (s.setCornerAttr k vs).mem = s.mem := by cases k <;> rfl

@[simp] theorem State.setNormals_lcmd (s : State) (x y z : SlotNo) (ns : List (Word × Word × Word)) :
    (s.setNormals x y z ns).lcmd = s.lcmd := rfl

@[simp] theorem State.setCornerAttr_lcmd (s : State) (k : Option SlotNo) (vs : List Word) :
    (s.setCornerAttr k vs).lcmd = s.lcmd := by cases k <;> rfl

@[simp] theorem State.setNormals_larg0 (s : State) (x y z : SlotNo) (ns : List (Word × Word × Word)) :
    (s.setNormals x y z ns).larg0 = s.larg0 := rfl

@[simp] theorem State.setCornerAttr_larg0 (s : State) (k : Option SlotNo) (vs : List Word) :
    (s.setCornerAttr k vs).larg0 = s.larg0 := by cases k <;> rfl

@[simp] theorem State.setNormals_larg1 (s : State) (x y z : SlotNo) (ns : List (Word × Word × Word)) :
    (s.setNormals x y z ns).larg1 = s.larg1 := rfl

@[simp] theorem State.setCornerAttr_larg1 (s : State) (k : Option SlotNo) (vs : List Word) :
    (s.setCornerAttr k vs).larg1 = s.larg1 := by cases k <;> rfl

@[simp] theorem State.setNormals_larg2 (s : State) (x y z : SlotNo) (ns : List (Word × Word × Word)) :
    (s.setNormals x y z ns).larg2 = s.larg2 := rfl

@[simp] theorem State.setCornerAttr_larg2 (s : State) (k : Option SlotNo) (vs : List Word) :
    (s.setCornerAttr k vs).larg2 = s.larg2 := by cases k <;> rfl

@[simp] theorem State.setNormals_lEndian (s : State) (x y z : SlotNo) (ns : List (Word × Word × Word)) :
    (s.setNormals x y z ns).lEndian = s.lEndian := rfl

@[simp] theorem State.setCornerAttr_lEndian (s : State) (k : Option SlotNo) (vs : List Word) :
    (s.setCornerAttr k vs).lEndian = s.lEndian := by cases k <;> rfl

@[simp] theorem State.setNormals_lInLen (s : State) (x y z : SlotNo) (ns : List (Word × Word × Word)) :
    (s.setNormals x y z ns).lInLen = s.lInLen := rfl

@[simp] theorem State.setCornerAttr_lInLen (s : State) (k : Option SlotNo) (vs : List Word) :
    (s.setCornerAttr k vs).lInLen = s.lInLen := by cases k <;> rfl

@[simp] theorem State.setNormals_mesh (s : State) (x y z : SlotNo) (ns : List (Word × Word × Word)) :
    (s.setNormals x y z ns).mesh = s.mesh := rfl

@[simp] theorem State.setCornerAttr_mesh (s : State) (k : Option SlotNo) (vs : List Word) :
    (s.setCornerAttr k vs).mesh = s.mesh := by cases k <;> rfl

@[simp] theorem State.setNormals_inputs (s : State) (x y z : SlotNo) (ns : List (Word × Word × Word)) :
    (s.setNormals x y z ns).inputs = s.inputs := rfl

@[simp] theorem State.setCornerAttr_inputs (s : State) (k : Option SlotNo) (vs : List Word) :
    (s.setCornerAttr k vs).inputs = s.inputs := by cases k <;> rfl

@[simp] theorem State.setNormals_hostData (s : State) (x y z : SlotNo) (ns : List (Word × Word × Word)) :
    (s.setNormals x y z ns).hostData = s.hostData := rfl

@[simp] theorem State.setCornerAttr_hostData (s : State) (k : Option SlotNo) (vs : List Word) :
    (s.setCornerAttr k vs).hostData = s.hostData := by cases k <;> rfl

@[simp] theorem State.setNormals_epoch (s : State) (x y z : SlotNo) (ns : List (Word × Word × Word)) :
    (s.setNormals x y z ns).epoch = s.epoch := rfl

@[simp] theorem State.setCornerAttr_epoch (s : State) (k : Option SlotNo) (vs : List Word) :
    (s.setCornerAttr k vs).epoch = s.epoch := by cases k <;> rfl

@[simp] theorem State.setNormals_draws (s : State) (x y z : SlotNo) (ns : List (Word × Word × Word)) :
    (s.setNormals x y z ns).draws = s.draws := rfl

@[simp] theorem State.setCornerAttr_draws (s : State) (k : Option SlotNo) (vs : List Word) :
    (s.setCornerAttr k vs).draws = s.draws := by cases k <;> rfl

/-- The slots after three distinct slots get normals. -/
theorem State.slot_setNormals (s : State) (x y z : SlotNo) (ns : List (Word × Word × Word)) (j : SlotNo) :
    (s.setNormals x y z ns).slot j =
      if j = z then ns.map (fun n => n.2.2) else if j = y then ns.map (fun n => n.2.1)
      else if j = x then ns.map (fun n => n.1) else s.slot j := by
  simp [State.setNormals]

/-- The slots after the attribute array is written, or not. -/
theorem State.slot_setCornerAttr (s : State) (k : Option SlotNo) (vs : List Word) (j : SlotNo) :
    (s.setCornerAttr k vs).slot j = if k = some j then vs else s.slot j := by
  cases k with
  | none => simp [State.setCornerAttr]
  | some k => simp [State.setCornerAttr, eq_comm]

/-! The endings of commands. -/

/-- A command refused with ERRINFO = 0 takes the error entry. -/
theorem failWith_eq (s : State) (c : ErrCode) (ds : List SlotNo) : failWith s c ds = .next (s.errorEntry c 0 ds) := rfl

/-- All a stream command can do: it writes its values and completes, or it takes the error entry. -/
theorem streamCommand_cases (s : State) (a : SlotNo) (load : Cursor (List Word)) :
    (∃ vals p, load s.larg0.toNat = .ok (vals, p) ∧
        streamCommand s a load = .next ((s.setSlot a vals).complete (u32 p) (u32 vals.length))) ∨
      (∃ e, load s.larg0.toNat = .error e ∧
        streamCommand s a load = .next (s.errorEntry e.code (u32 e.info) [a])) := by
  unfold streamCommand
  split
  · rename_i vals p h
    exact .inl ⟨vals, p, h, rfl⟩
  · rename_i e h
    exact .inr ⟨e, h, rfl⟩

/-- All a PRED command can do. -/
theorem predCommand_eq (t : PredType) (a b : SlotNo) (s : State) :
    predCommand t a b s =
      .next ((s.setSlot b (unpack t (s.slot a))).complete 0 (u32 (s.slot a).length)) := rfl

/-- All a step can do: the engine's turn, a host access, or a power-on reset. -/
theorem step_cases {s t : State} (h : step s = .next t) :
    (s.inputs = [] ∧ engineStep s = .next t) ∨
      (∃ rest, s.inputs = .engineTurn :: rest ∧ engineStep { s with inputs := rest } = .next t) ∨
      (∃ a rest, s.inputs = .access a :: rest ∧ t = State.hostAccess { s with inputs := rest } a) ∨
      (∃ rest, s.inputs = .powerOn :: rest ∧ t = State.powerOnReset { s with inputs := rest }) := by
  unfold step at h
  split at h
  · exact .inl ⟨‹_›, h⟩
  · exact .inr (.inl ⟨_, ‹_›, h⟩)
  · exact .inr (.inr (.inl ⟨_, _, ‹_›, (by injection h with h; exact h.symm)⟩))
  · exact .inr (.inr (.inr ⟨_, ‹_›, (by injection h with h; exact h.symm)⟩))

/-- All a slot read can do: it is refused, on a busy device that follows R452, or has its effect while idle. -/
theorem State.readSlot_cases (s idle : State) :
    (s.busy = true ∧ s.params.busySlotRead = .refused ∧ s.readSlot idle = s.refuseRead) ∨
      ((s.busy = false ∨ s.params.busySlotRead = .valueBefore) ∧ s.readSlot idle = idle) := by
  unfold State.readSlot
  cases hb : s.busy <;> cases hp : s.params.busySlotRead <;> simp

/-- All the engine can do with a latched command: nothing while idle, the meaning of the decoded instruction, or the
rejection of the word. -/
theorem engineStep_cases {s t : State} (h : engineStep s = .next t) :
    (s.busy = false ∧ t = s) ∨ (s.busy = true ∧ ∃ i, decodeCmd s.lcmd = .ok i ∧ exec i s = .next t) ∨
      (s.busy = true ∧ ∃ r, decodeCmd s.lcmd = .error r ∧ t = s.rejectCommand r) := by
  unfold engineStep at h
  split at h
  · rename_i hb
    split at h
    · exact .inr (.inl ⟨hb, _, ‹_›, h⟩)
    · exact .inr (.inr ⟨hb, _, ‹_›, (by injection h with h; exact h.symm)⟩)
  · rename_i hb
    exact .inl ⟨by simpa using hb, (by injection h with h; exact h.symm)⟩

end Sys2Proof.Machine
end

