-- ==== Sys2Proof/Laws/PerInstr.lean ====
section
/-! SUPPORT. The per-instruction family of LAWS.json: a command word that encodes an instruction sets no field its
opcode does not use (30_encoding.md R82, R83). One lemma per constructor. -/

namespace Sys2Proof.Laws.UnusedFieldsZero

/-- The encoding of `i`, where it is a command word, has a legal opcode and every unused field 0. -/
def Statement (i : Instr) : Prop :=
  ∀ w, encode i = .cmd w → ∃ used, usedFields (fieldOp w) = some used ∧ w &&& ~~~(used ||| 0xFF) = 0

/-- The bits of a command word built from fields (30_encoding.md R80). -/
theorem getLsbD_commandWord (op : Byte) (a b c d : SlotNo) (m : BitVec 4) (k : Nat) :
    (commandWord op a b c d m).getLsbD k =
      if k < 8 then op.getLsbD k else if k < 13 then a.getLsbD (k - 8) else if k < 18 then b.getLsbD (k - 13)
      else if k < 23 then c.getLsbD (k - 18) else if k < 28 then d.getLsbD (k - 23) else m.getLsbD (k - 28) := by
  have h : (commandWord op a b c d m).getLsbD k =
      BitVec.getLsbD (w := 4 + 5 + 5 + 5 + 5 + 8) (m ++ d ++ c ++ b ++ a ++ op) k := rfl
  rw [h]
  simp only [BitVec.getLsbD_append]
  split_ifs <;> first | rfl | omega

/-- A word built from fields has the opcode it was built from. -/
theorem fieldOp_commandWord (op : Byte) (a b c d : SlotNo) (m : BitVec 4) :
    fieldOp (commandWord op a b c d m) = op := by
  apply BitVec.eq_of_getLsbD_eq
  intro k hk
  simp [fieldOp, getLsbD_commandWord, hk]

/-- A command word meets the statement if its unused fields were built as 0. -/
theorem of_fields {op : Byte} {a b c d : SlotNo} {m : BitVec 4} {used : Word} (i : Instr)
    (he : encode i = .cmd (commandWord op a b c d m)) (hu : usedFields op = some used)
    (hz : ∀ k < 32, (commandWord op a b c d m &&& ~~~(used ||| 0xFF)).getLsbD k = false) : Statement i := by
  intro w hw
  rw [he] at hw
  cases hw
  exact ⟨used, by rw [fieldOp_commandWord, hu],
    BitVec.eq_of_getLsbD_eq fun k hk => by rw [hz k hk]; simp⟩

theorem nop : Statement .nop :=
  of_fields _ rfl rfl fun k hk => by
    rw [BitVec.getLsbD_and, getLsbD_commandWord]
    interval_cases k <;> simp

theorem decCdp2 (a : SlotNo) : Statement (.decCdp2 a) :=
  of_fields _ rfl rfl fun k hk => by
    rw [BitVec.getLsbD_and, getLsbD_commandWord]
    interval_cases k <;> simp

theorem decCdp1 (a : SlotNo) : Statement (.decCdp1 a) :=
  of_fields _ rfl rfl fun k hk => by
    rw [BitVec.getLsbD_and, getLsbD_commandWord]
    interval_cases k <;> simp

theorem predLag1 (a b : SlotNo) : Statement (.predLag1 a b) :=
  of_fields _ rfl rfl fun k hk => by
    rw [BitVec.getLsbD_and, getLsbD_commandWord]
    interval_cases k <;> simp

theorem predLag2 (a b : SlotNo) : Statement (.predLag2 a b) :=
  of_fields _ rfl rfl fun k hk => by
    rw [BitVec.getLsbD_and, getLsbD_commandWord]
    interval_cases k <;> simp

theorem predStride1 (a b : SlotNo) : Statement (.predStride1 a b) :=
  of_fields _ rfl rfl fun k hk => by
    rw [BitVec.getLsbD_and, getLsbD_commandWord]
    interval_cases k <;> simp

theorem predStride2 (a b : SlotNo) : Statement (.predStride2 a b) :=
  of_fields _ rfl rfl fun k hk => by
    rw [BitVec.getLsbD_and, getLsbD_commandWord]
    interval_cases k <;> simp

theorem predStripindex (a b : SlotNo) : Statement (.predStripindex a b) :=
  of_fields _ rfl rfl fun k hk => by
    rw [BitVec.getLsbD_and, getLsbD_commandWord]
    interval_cases k <;> simp

theorem predRamp (a b : SlotNo) : Statement (.predRamp a b) :=
  of_fields _ rfl rfl fun k hk => by
    rw [BitVec.getLsbD_and, getLsbD_commandWord]
    interval_cases k <;> simp

theorem predXor1 (a b : SlotNo) : Statement (.predXor1 a b) :=
  of_fields _ rfl rfl fun k hk => by
    rw [BitVec.getLsbD_and, getLsbD_commandWord]
    interval_cases k <;> simp

theorem predXor2 (a b : SlotNo) : Statement (.predXor2 a b) :=
  of_fields _ rfl rfl fun k hk => by
    rw [BitVec.getLsbD_and, getLsbD_commandWord]
    interval_cases k <;> simp

theorem predNull (a b : SlotNo) : Statement (.predNull a b) :=
  of_fields _ rfl rfl fun k hk => by
    rw [BitVec.getLsbD_and, getLsbD_commandWord]
    interval_cases k <;> simp

theorem deqQuant (a b : SlotNo) : Statement (.deqQuant a b) :=
  of_fields _ rfl rfl fun k hk => by
    rw [BitVec.getLsbD_and, getLsbD_commandWord]
    interval_cases k <;> simp

theorem deqExpmant (a b c : SlotNo) : Statement (.deqExpmant a b c) :=
  of_fields _ rfl rfl fun k hk => by
    rw [BitVec.getLsbD_and, getLsbD_commandWord]
    interval_cases k <;> simp

theorem deqDeering (a b c d : SlotNo) (m : BitVec 4) : Statement (.deqDeering a b c d m) :=
  of_fields _ rfl rfl fun k hk => by
    rw [BitVec.getLsbD_and, getLsbD_commandWord]
    interval_cases k <;> simp

theorem vtxPack (a b c d : SlotNo) : Statement (.vtxPack a b c d) :=
  of_fields _ rfl rfl fun k hk => by
    rw [BitVec.getLsbD_and, getLsbD_commandWord]
    interval_cases k <;> simp

theorem topoRun : Statement .topoRun :=
  of_fields _ rfl rfl fun k hk => by
    rw [BitVec.getLsbD_and, getLsbD_commandWord]
    interval_cases k <;> simp

theorem topoEmit : Statement .topoEmit :=
  of_fields _ rfl rfl fun k hk => by
    rw [BitVec.getLsbD_and, getLsbD_commandWord]
    interval_cases k <;> simp

theorem cdp2Null : Statement .cdp2Null := fun _ h => by cases h

theorem cdp2Bitlength2 : Statement .cdp2Bitlength2 := fun _ h => by cases h

theorem cdp2Arithmetic : Statement .cdp2Arithmetic := fun _ h => by cases h

theorem cdp2Chopper : Statement .cdp2Chopper := fun _ h => by cases h

theorem cdp1Null : Statement .cdp1Null := fun _ h => by cases h

theorem cdp1Bitlength1 : Statement .cdp1Bitlength1 := fun _ h => by cases h

theorem cdp1Huffman : Statement .cdp1Huffman := fun _ h => by cases h

theorem cdp1Arithmetic : Statement .cdp1Arithmetic := fun _ h => by cases h

end Sys2Proof.Laws.UnusedFieldsZero
end

