-- ==== Sys2Proof/Laws/Readers.lean ====
section
/-! SUPPORT. The computations with a cursor and the decoder steps of TOPO_RUN taken apart: one lemma per combinator
and per read, so that no proof unfolds them. -/

namespace Sys2Proof.Machine

/-! Computations with a cursor. -/

/-- A successful sequence is two successful halves. -/
theorem Cursor.bind_ok {α β : Type} {m : Cursor α} {f : α → Cursor β} {p : Nat} {r : β × Nat} :
    (m >>= f) p = .ok r ↔ ∃ a q, m p = .ok (a, q) ∧ f a q = .ok r := by
  simp only [bind, StateT.bind, Except.bind]
  cases h : m p with
  | error e => simp
  | ok x =>
    obtain ⟨a, q⟩ := x
    simp

/-- A failed sequence fails in its first half, or in its second. -/
theorem Cursor.bind_error {α β : Type} {m : Cursor α} {f : α → Cursor β} {p : Nat} {e : Err} :
    (m >>= f) p = .error e ↔ m p = .error e ∨ ∃ a q, m p = .ok (a, q) ∧ f a q = .error e := by
  simp only [bind, StateT.bind, Except.bind]
  cases h : m p with
  | error e => simp
  | ok x =>
    obtain ⟨a, q⟩ := x
    simp

/-- A sequence whose first half succeeds. -/
theorem Cursor.bind_eq {α β : Type} {m : Cursor α} {f : α → Cursor β} {p q : Nat} {a : α} (h : m p = .ok (a, q)) :
    (m >>= f) p = f a q := by
  simp only [bind, StateT.bind, Except.bind, h]

/-- A sequence whose first half fails. -/
theorem Cursor.bind_eq_error {α β : Type} {m : Cursor α} {f : α → Cursor β} {p : Nat} {e : Err}
    (h : m p = .error e) : (m >>= f) p = .error e := by
  simp only [bind, StateT.bind, Except.bind, h]

@[simp] theorem Cursor.pure_eq {α : Type} (a : α) (p : Nat) : (pure a : Cursor α) p = .ok (a, p) := rfl

@[simp] theorem Cursor.get_eq (p : Nat) : (get : Cursor Nat) p = .ok (p, p) := rfl

@[simp] theorem raiseHere_eq {α : Type} (c : ErrCode) (p : Nat) :
    (raiseHere c : Cursor α) p = .error { code := c, info := p } := rfl

@[simp] theorem raiseAt_eq {α : Type} (c : ErrCode) (i p : Nat) :
    (raiseAt c i : Cursor α) p = .error { code := c, info := i } := rfl

@[simp] theorem BitSource.raise_eq {α : Type} (src : BitSource) (c : ErrCode) (k : Nat) :
    (src.raise c : Cursor α) k = .error { code := c, info := src.pos k } := rfl

/-- A lifted result keeps the cursor. -/
theorem liftExcept_ok {α : Type} {x : Except Err α} {p : Nat} {r : α × Nat} :
    liftExcept x p = .ok r ↔ x = .ok r.1 ∧ r.2 = p := by
  obtain ⟨a, q⟩ := r
  cases x <;> simp [liftExcept, eq_comm]

/-- A lifted error. -/
theorem liftExcept_error {α : Type} {x : Except Err α} {p : Nat} {e : Err} :
    liftExcept x p = .error e ↔ x = .error e := by
  cases x <;> simp [liftExcept]

/-- As many results as repetitions. -/
theorem repeatRead_length {α : Type} {m : Cursor α} {n p : Nat} {xs : List α} {q : Nat}
    (h : repeatRead m n p = .ok (xs, q)) : xs.length = n := by
  induction n generalizing p xs q with
  | zero =>
    simp only [repeatRead, Cursor.pure_eq, Except.ok.injEq, Prod.mk.injEq] at h
    simp [← h.1]
  | succ n ih =>
    simp only [repeatRead, Cursor.bind_ok, Cursor.pure_eq, Except.ok.injEq, Prod.mk.injEq] at h
    obtain ⟨a, q1, _, rest, q2, h2, rfl, _⟩ := h
    simp [ih h2]

/-! Field reads. -/

/-- All `u8 at p` can do. -/
theorem readU8_ok {v : InView} {p : Nat} {r : Byte × Nat} :
    readU8 v p = .ok r ↔ p + 1 ≤ v.inLen ∧ r = (v.byte p, p + 1) := by
  unfold readU8
  split
  · simp only [reduceCtorEq, false_iff, not_and]
    intro h
    omega
  · simp only [Except.ok.injEq, eq_comm]
    constructor
    · intro h
      exact ⟨by omega, h⟩
    · exact fun h => h.2

/-- All `u32 at p` can do. -/
theorem readWord_ok {v : InView} {p : Nat} {r : Word × Nat} :
    readWord v p = .ok r ↔ p + 4 ≤ v.inLen ∧ r = (v.word p, p + 4) := by
  unfold readWord
  split
  · simp only [reduceCtorEq, false_iff, not_and]
    intro h
    omega
  · simp only [Except.ok.injEq, eq_comm]
    constructor
    · intro h
      exact ⟨by omega, h⟩
    · exact fun h => h.2

/-- A `u8` read fails only as a truncated stream. -/
theorem readU8_error {v : InView} {p : Nat} {e : Err} :
    readU8 v p = .error e ↔ v.inLen < p + 1 ∧ e = { code := .trunc, info := p } := by
  unfold readU8
  split <;> simp_all [eq_comm]

/-- A `u32` read fails only as a truncated stream. -/
theorem readWord_error {v : InView} {p : Nat} {e : Err} :
    readWord v p = .error e ↔ v.inLen < p + 4 ∧ e = { code := .trunc, info := p } := by
  unfold readWord
  split <;> simp_all [eq_comm]

/-- All `i32 at p` can do. -/
theorem readInt_ok {v : InView} {p : Nat} {r : Int × Nat} :
    readInt v p = .ok r ↔ p + 4 ≤ v.inLen ∧ r = ((v.word p).toInt, p + 4) := by
  unfold readInt
  simp only [Cursor.bind_ok, readWord_ok, Cursor.pure_eq, Except.ok.injEq]
  constructor
  · rintro ⟨a, q, ⟨h, h1⟩, h2⟩
    cases h1
    exact ⟨h, h2.symm⟩
  · rintro ⟨h, rfl⟩
    exact ⟨_, _, ⟨h, rfl⟩, rfl⟩

/-- A codetext bit read in strict mode. -/
theorem codetextBit_strict {ws : List Word} {len p k : Nat} {r : Bool × Nat} :
    codetextBit ws len false p k = .ok r ↔ k < len ∧ r = (wordsBit ws k, k + 1) := by
  unfold codetextBit
  split <;> simp_all [eq_comm]

/-- A codetext bit read in padded mode always gives a bit. -/
theorem codetextBit_padded (ws : List Word) (len p k : Nat) :
    codetextBit ws len true p k = .ok (decide (k < len) && wordsBit ws k, k + 1) := by
  unfold codetextBit
  split <;> simp_all

/-! The steps of TOPO_RUN. -/

/-- A successful sequence is two successful halves. -/
theorem TopoM.bind_ok {α β : Type} {m : TopoM α} {f : α → TopoM β} {t : Topo} {r : β × Topo} :
    (m >>= f) t = .ok r ↔ ∃ a u, m t = .ok (a, u) ∧ f a u = .ok r := by
  simp only [bind, StateT.bind, Except.bind]
  cases h : m t with
  | error e => simp
  | ok x =>
    obtain ⟨a, u⟩ := x
    simp

/-- A failed sequence fails in its first half, or in its second. -/
theorem TopoM.bind_error {α β : Type} {m : TopoM α} {f : α → TopoM β} {t : Topo} {e : TopoStop} :
    (m >>= f) t = .error e ↔ m t = .error e ∨ ∃ a u, m t = .ok (a, u) ∧ f a u = .error e := by
  simp only [bind, StateT.bind, Except.bind]
  cases h : m t with
  | error e => simp
  | ok x =>
    obtain ⟨a, u⟩ := x
    simp

@[simp] theorem TopoM.pure_eq {α : Type} (a : α) (t : Topo) : (pure a : TopoM α) t = .ok (a, t) := rfl

@[simp] theorem TopoM.get_eq (t : Topo) : (get : TopoM Topo) t = .ok (t, t) := rfl

@[simp] theorem TopoM.set_eq (u t : Topo) : (set u : TopoM PUnit) t = .ok ((), u) := rfl

@[simp] theorem TopoM.modify_eq (f : Topo → Topo) (t : Topo) : (modify f : TopoM PUnit) t = .ok ((), f t) := rfl

@[simp] theorem topoRaise_eq {α : Type} (c : ErrCode) (i : Nat) (t : Topo) :
    (topoRaise c i : TopoM α) t = .error (.error { code := c, info := i }) := rfl

@[simp] theorem topoStuck_eq {α : Type} (t : Topo) : (topoStuck : TopoM α) t = .error .stuck := rfl

/-- All a stream read can do: the next element and the cursor one on, or E_TOPO_STREAM (46_topology.md R312). -/
theorem topoRead_cases (e : TopoEnv) (r : Role) (t : Topo) :
    (∃ x, (e.stream r)[t.cursors[r]]? = some x ∧
        topoRead e r t = .ok (x, { t with cursors := t.cursors.set r.val (t.cursors[r] + 1) r.isLt })) ∨
      ((e.stream r)[t.cursors[r]]? = none ∧
        topoRead e r t = .error (.error { code := .topoStream, info := r.val })) := by
  unfold topoRead
  cases h : (e.stream r)[t.cursors[r]]? with
  | none => simp
  | some x => simp

end Sys2Proof.Machine
end

