-- ==== Sys2Proof/Tests/Slice0.lean ====
section
/-! SUPPORT. Tests: expected values are those of spec/95_test_vectors.md and of the rules' own examples; and, for every
statement of the certificates that has hypotheses, a state and operands that meet them (witness_...). -/

-- Each theorem is checked before the next: many kernel evaluations at once ask for more threads than the check allows.
set_option Elab.async false

namespace Sys2Proof.Tests

open Sys2Proof Sys2Proof.Machine

/-- The result is a next state of which `p` holds. -/
def ends (r : Result) (p : State → Bool) : Bool :=
  match r with
  | .next t => p t
  | _ => false

/-- A latched command word, with nothing else than reset. -/
def latchedCmd (w : Word) : State := { State.reset with lcmd := w, busy := true }

/-- A latched stream command over the bytes `bs` at IN address 0. -/
def stream (w : Word) (bs : List Byte) : State :=
  { latchedCmd w with mem := Memory.storeAll [] 0 bs, lInLen := u32 bs.length }

/-- Reset with residuals or codes in slot 0. -/
def slot0 (vs : List Word) : State := State.reset.setSlot 0 vs

/-- The stream ended with `vals` in slot 0 and RESULT0 = `p`. -/
def gives (r : Result) (vals : List Int) (p : Nat) : Bool :=
  ends r fun t => (t.slot 0).map BitVec.toInt == vals && t.result0.toNat == p && t.result1.toNat == vals.length &&
    t.done && !t.busy

/-- The command ended with an error. -/
def fails (r : Result) (code info : Nat) : Bool :=
  ends r fun t => t.errCode.toNat == code && t.errInfo.toNat == info && t.err && !t.done && !t.busy &&
    t.result0 == 0 && t.result1 == 0

/-- What `ends` says. -/
theorem ends_next {r : Result} {p : State → Bool} (h : ends r p = true) : ∃ t, r = .next t ∧ p t = true := by
  cases r with
  | next t => exact ⟨t, rfl, h⟩
  | fault _ => exact absurd h (by simp [ends])
  | refused _ => exact absurd h (by simp [ends])

/-! WellFormed smoke: the one check refuses an ill-formed term (30_encoding.md R101). -/

/-- bitsPerNormal 14 is ill-formed. -/
theorem test_wf_refuses_bpn14 :
    Instr.wf (.deqDeering 0 1 2 3 14) = false := by decide

/-- bitsPerNormal 13 is well-formed. -/
theorem test_wf_accepts_bpn13 :
    Instr.wf (.deqDeering 0 1 2 3 13) = true := by decide

/-! Decoding: words written out from the fields of 30_encoding.md R80, R83, R92, R95 and R100. -/

/-- OP 0x00. -/
theorem test_decode_nop :
    decodeCmd 0x00000000 = .ok (.nop) := by decide

/-- R83: A = 3, OP = 0x01. -/
theorem test_decode_decCdp2 :
    decodeCmd 0x00000301 = .ok (.decCdp2 3) := by decide

/-- A = 11111 in bits 12:8, OP = 0x02. -/
theorem test_decode_decCdp1 :
    decodeCmd 0x00001F02 = .ok (.decCdp1 31) := by decide

/-- B = 1 in bits 17:13, M = 0. -/
theorem test_decode_predLag1 :
    decodeCmd 0x00002003 = .ok (.predLag1 0 1) := by decide

/-- M = 1 in bits 31:28. -/
theorem test_decode_predLag2 :
    decodeCmd 0x10002003 = .ok (.predLag2 0 1) := by decide

/-- M = 2. -/
theorem test_decode_predStride1 :
    decodeCmd 0x20002003 = .ok (.predStride1 0 1) := by decide

/-- M = 3. -/
theorem test_decode_predStride2 :
    decodeCmd 0x30002003 = .ok (.predStride2 0 1) := by decide

/-- M = 4. -/
theorem test_decode_predStripindex :
    decodeCmd 0x40002003 = .ok (.predStripindex 0 1) := by decide

/-- M = 5. -/
theorem test_decode_predRamp :
    decodeCmd 0x50002003 = .ok (.predRamp 0 1) := by decide

/-- R83: A = 0, B = 2, M = 6. -/
theorem test_decode_predXor1 :
    decodeCmd 0x60004003 = .ok (.predXor1 0 2) := by decide

/-- M = 7. -/
theorem test_decode_predXor2 :
    decodeCmd 0x70002003 = .ok (.predXor2 0 1) := by decide

/-- M = 8. -/
theorem test_decode_predNull :
    decodeCmd 0x80002003 = .ok (.predNull 0 1) := by decide

/-- program P1: A = 3, B = 6. -/
theorem test_decode_deqQuant :
    decodeCmd 0x0000C304 = .ok (.deqQuant 3 6) := by decide

/-- C = 2 in bits 22:18. -/
theorem test_decode_deqExpmant :
    decodeCmd 0x00082005 = .ok (.deqExpmant 0 1 2) := by decide

/-- R83: A = 0, B = 1, C = 2, D = 3, M = 6. -/
theorem test_decode_deqDeering :
    decodeCmd 0x61882006 = .ok (.deqDeering 0 1 2 3 6) := by decide

/-- R83. -/
theorem test_decode_vtxPack :
    decodeCmd 0x04A0E607 = .ok (.vtxPack 6 7 8 9) := by decide

/-- OP 0x08. -/
theorem test_decode_topoRun :
    decodeCmd 0x00000008 = .ok (.topoRun) := by decide

/-- OP 0x09. -/
theorem test_decode_topoEmit :
    decodeCmd 0x00000009 = .ok (.topoEmit) := by decide

/-- The CDP2 codec ids of R92. -/
theorem test_decode_cdp2 :
    [decodeCdp2 0, decodeCdp2 1, decodeCdp2 3, decodeCdp2 4] =
      [.ok .cdp2Null, .ok .cdp2Bitlength2, .ok .cdp2Arithmetic, .ok .cdp2Chopper] ∧ decodeCdp2 2 = .error (.badCodec 2) := by decide

/-- The CDP1 codec ids of R95. -/
theorem test_decode_cdp1 :
    [decodeCdp1 0, decodeCdp1 1, decodeCdp1 2, decodeCdp1 3] =
      [.ok .cdp1Null, .ok .cdp1Bitlength1, .ok .cdp1Huffman, .ok .cdp1Arithmetic] ∧ decodeCdp1 4 = .error (.badCodec 4) := by decide

/-- Vectors C-2, C-3, C-5 and PR-M9: illegal words are rejected by name. -/
theorem test_decode_rejects :
    decodeCmd 0x00000100 = .error (.unusedField 0) ∧ decodeCmd 0x0000000A = .error (.badOpcode 0x0A) ∧
      decodeCmd 0x00002001 = .error (.unusedField 1) ∧ decodeCmd 0x90002003 = .error (.predType 1) := by decide

/-- The table numbers a row's bits from the least significant bit of its word. -/
theorem test_decodeTableWord :
    decodeTableWord 32 0x60004003 = some (.predXor1 0 2) ∧ decodeTableWord 8 4 = some .cdp2Chopper ∧
      decodeTableWord 8 2 = some .cdp1Huffman ∧ decodeTableWord 32 0x100 = none := by decide

/-! One step per instruction (95_test_vectors.md). -/

/-- Stream bytes of 95_test_vectors.md. -/
def null2Bytes : List Byte :=
  [0x03, 0x00, 0x00, 0x00, 0x00, 0x03, 0x00, 0x00, 0x00, 0x05, 0x00, 0x00, 0x00, 0xFF, 0xFF, 0xFF,
      0xFF, 0xFF, 0xFF, 0xFF, 0x7F]

/-- Stream bytes of 95_test_vectors.md. -/
def bl2Bytes : List Byte :=
  [0x05, 0x00, 0x00, 0x00, 0x01, 0x15, 0x00, 0x00, 0x00, 0x00, 0xB8, 0x23, 0x08]

/-- Stream bytes of 95_test_vectors.md. -/
def bl2vBytes : List Byte :=
  [0x04, 0x00, 0x00, 0x00, 0x01, 0x39, 0x00, 0x00, 0x00, 0x32, 0x00, 0x00, 0x80, 0x80, 0x03, 0xB6, 0x34]

/-- Stream bytes of 95_test_vectors.md. -/
def ari2Bytes : List Byte :=
  [0x04, 0x00, 0x00, 0x00, 0x03, 0x02, 0x00, 0x00, 0x00, 0x00, 0x00, 0x00, 0x40, 0x31, 0x08, 0x01,
      0x00, 0x00, 0x00, 0x00, 0x80, 0x00, 0x00, 0x50, 0x2B, 0x00, 0x00, 0x00, 0x00]

/-- Stream bytes of 95_test_vectors.md. -/
def ari1Bytes : List Byte :=
  [0x05, 0x00, 0x00, 0x00, 0x03, 0x09, 0x00, 0x00, 0x00, 0x00, 0x00, 0x80, 0x2C, 0x21, 0x08, 0x03,
      0x00, 0x00, 0x00, 0x00, 0x40, 0x00, 0x41, 0x5B, 0x29, 0x01, 0x00, 0x00, 0x00, 0x00, 0x01, 0x00,
      0x00, 0x00, 0xB3, 0xFF, 0xFF, 0xFF]

/-- Stream bytes of 95_test_vectors.md. -/
def chopBytes : List Byte :=
  [0x03, 0x00, 0x00, 0x00, 0x04, 0x04, 0xE8, 0x03, 0x00, 0x00, 0x08, 0x03, 0x00, 0x00, 0x00, 0x00,
      0x03, 0x00, 0x00, 0x00, 0x01, 0x00, 0x00, 0x00, 0x02, 0x00, 0x00, 0x00, 0x00, 0x00, 0x00, 0x00,
      0x03, 0x00, 0x00, 0x00, 0x00, 0x03, 0x00, 0x00, 0x00, 0x03, 0x00, 0x00, 0x00, 0x00, 0x00, 0x00,
      0x00, 0x0F, 0x00, 0x00, 0x00]

/-- Stream bytes of 95_test_vectors.md. -/
def chop0Bytes : List Byte :=
  [0x03, 0x00, 0x00, 0x00, 0x04, 0x00, 0x03, 0x00, 0x00, 0x00, 0x00, 0x03, 0x00, 0x00, 0x00, 0x01,
      0x00, 0x00, 0x00, 0x02, 0x00, 0x00, 0x00, 0x00, 0x00, 0x00, 0x00]

/-- Stream bytes of 95_test_vectors.md. -/
def null1Bytes : List Byte :=
  [0x00, 0x40, 0x00, 0x00, 0x00, 0x02, 0x00, 0x00, 0x00, 0x02, 0x00, 0x00, 0x00, 0x09, 0x00, 0x00,
      0x00, 0xF7, 0xFF, 0xFF, 0xFF]

/-- Stream bytes of 95_test_vectors.md. -/
def bl1Bytes : List Byte :=
  [0x01, 0x19, 0x00, 0x00, 0x00, 0x04, 0x00, 0x00, 0x00, 0x01, 0x00, 0x00, 0x00, 0x80, 0x32, 0x7D, 0xE3]

/-- Stream bytes of 95_test_vectors.md. -/
def hufBytes : List Byte :=
  [0x02, 0x01, 0x04, 0x00, 0x00, 0x00, 0x00, 0x81, 0x30, 0x0C, 0x54, 0x01, 0x00, 0x00, 0xE0, 0x80,
      0xA1, 0x34, 0x01, 0x00, 0x00, 0x00, 0x00, 0x20, 0x00, 0x00, 0x00, 0x01, 0x00, 0x00, 0x00, 0x01,
      0x00, 0x00, 0x00, 0xFB, 0xFF, 0xFF, 0xFF, 0x0B, 0x00, 0x00, 0x00, 0x06, 0x00, 0x00, 0x00, 0x01,
      0x00, 0x00, 0x00, 0x00, 0x00, 0x80, 0x72]

/-- Stream bytes of 95_test_vectors.md. -/
def arc1Bytes : List Byte :=
  [0x03, 0x02, 0x02, 0x00, 0x00, 0x00, 0x00, 0x01, 0x22, 0x08, 0xB0, 0x00, 0x00, 0x00, 0x00, 0x00,
      0x84, 0x7E, 0x08, 0x82, 0x00, 0x00, 0x00, 0x00, 0x40, 0x80, 0xB9, 0x91, 0x25, 0x00, 0x00, 0x00,
      0x00, 0x10, 0x00, 0x00, 0x00, 0x00, 0x06, 0x00, 0x00, 0x00, 0x06, 0x00, 0x00, 0x00, 0x06, 0x00,
      0x00, 0x00, 0x01, 0x00, 0x00, 0x00, 0x00, 0x00, 0x00, 0xAC]

/-- C-1. -/
theorem test_nop :
    (ends (step (latchedCmd 0)) fun t => t.done && !t.busy && t.result0 == 0 && t.statusWord == 2) = true := by decide +kernel

/-- NULL2-1. -/
theorem test_decCdp2_null :
    gives (exec (.decCdp2 0) (stream 0x1 null2Bytes)) [5, -1, 2147483647] 21 = true := by decide +kernel

/-- START: a stream at IN_LEN is truncated. -/
theorem test_decCdp2_truncated :
    fails (exec (.decCdp2 0) { stream 0x1 [0, 0, 0, 0] with larg0 := 4 }) 3 4 = true := by decide +kernel

/-- N1-1. -/
theorem test_decCdp1_null :
    gives (exec (.decCdp1 0) (stream 0x2 null1Bytes)) [9, -9] 21 = true := by decide +kernel

/-- N1-BC: codec id 4 is reserved in CDP1. -/
theorem test_decCdp1_badCodec :
    fails (exec (.decCdp1 0) (stream 0x2 [4])) 4 1 = true := by decide +kernel

/-- NULL2-1 as the codec instruction. -/
theorem test_cdp2Null :
    gives (exec .cdp2Null (stream 0x1 null2Bytes)) [5, -1, 2147483647] 21 = true := by decide +kernel

/-- BL2-1. -/
theorem test_cdp2Bitlength2_fixed :
    gives (exec .cdp2Bitlength2 (stream 0x1 bl2Bytes)) [7, 7, 7, 7, 7] 13 = true := by decide +kernel

/-- BL2-3. -/
theorem test_cdp2Bitlength2_variable :
    gives (exec .cdp2Bitlength2 (stream 0x1 bl2vBytes)) [101, 98, 100, 99] 17 = true := by decide +kernel

/-- ARI-1, with the OOB escape. -/
theorem test_cdp2Arithmetic :
    gives (exec .cdp2Arithmetic (stream 0x1 ari1Bytes)) [10, 10, 20, -77, 10] 38 = true := by decide +kernel

/-- ARI-2, one symbol. -/
theorem test_cdp2Arithmetic_single :
    gives (exec .cdp2Arithmetic (stream 0x1 ari2Bytes)) [42, 42, 42, 42] 29 = true := by decide +kernel

/-- CH-1. -/
theorem test_cdp2Chopper :
    gives (exec .cdp2Chopper (stream 0x1 chopBytes)) [1019, 1032, 1015] 53 = true := by decide +kernel

/-- CH-0. -/
theorem test_cdp2Chopper_wrap :
    gives (exec .cdp2Chopper (stream 0x1 chop0Bytes)) [1, 2, 0] 27 = true := by decide +kernel

/-- N1-1 as the codec instruction. -/
theorem test_cdp1Null :
    gives (exec .cdp1Null (stream 0x2 null1Bytes)) [9, -9] 21 = true := by decide +kernel

/-- BL1-1. -/
theorem test_cdp1Bitlength1 :
    gives (exec .cdp1Bitlength1 (stream 0x2 bl1Bytes)) [3, -1, 0, 5] 17 = true := by decide +kernel

/-- HUF-1, with the OOB escape. -/
theorem test_cdp1Huffman :
    gives (exec .cdp1Huffman (stream 0x2 hufBytes)) [1, 2, -5, 3, 1, 1] 55 = true := by decide +kernel

/-- ARI1-2, two chained contexts. -/
theorem test_cdp1Arithmetic :
    gives (exec .cdp1Arithmetic (stream 0x2 arc1Bytes)) [7, 200, 200, 200, 100, 7] 58 = true := by decide +kernel

/-- The example of 44_predictors.md section 2. -/
theorem test_predLag1 :
    (ends (exec (.predLag1 0 1) (slot0 [5, 3, -2, 7, 1, -1, 2, 0, 4, -3])) fun t =>
      (t.slot 1).map BitVec.toInt == [5, 3, -2, 7, 8, 7, 9, 9, 13, 10] && t.result1 == 10) = true := by decide +kernel

/-- The example of 44_predictors.md section 2. -/
theorem test_predLag2 :
    (ends (exec (.predLag2 0 1) (slot0 [5, 3, -2, 7, 1, -1, 2, 0, 4, -3])) fun t =>
      (t.slot 1).map BitVec.toInt == [5, 3, -2, 7, -1, 6, 1, 6, 5, 3] && t.result1 == 10) = true := by decide +kernel

/-- The example of 44_predictors.md section 2. -/
theorem test_predStride1 :
    (ends (exec (.predStride1 0 1) (slot0 [5, 3, -2, 7, 1, -1, 2, 0, 4, -3])) fun t =>
      (t.slot 1).map BitVec.toInt == [5, 3, -2, 7, 17, 26, 37, 48, 63, 75] && t.result1 == 10) = true := by decide +kernel

/-- The example of 44_predictors.md section 2. -/
theorem test_predStride2 :
    (ends (exec (.predStride2 0 1) (slot0 [5, 3, -2, 7, 1, -1, 2, 0, 4, -3])) fun t =>
      (t.slot 1).map BitVec.toInt == [5, 3, -2, 7, -8, 10, -12, 13, -12, 13] && t.result1 == 10) = true := by decide +kernel

/-- The example of 44_predictors.md section 2. -/
theorem test_predRamp :
    (ends (exec (.predRamp 0 1) (slot0 [5, 3, -2, 7, 1, -1, 2, 0, 4, -3])) fun t =>
      (t.slot 1).map BitVec.toInt == [5, 3, -2, 7, 5, 4, 8, 7, 12, 6] && t.result1 == 10) = true := by decide +kernel

/-- The example of 44_predictors.md section 2. -/
theorem test_predXor1 :
    (ends (exec (.predXor1 0 1) (slot0 [5, 3, -2, 7, 1, -1, 2, 0, 4, -3])) fun t =>
      (t.slot 1).map BitVec.toInt == [5, 3, -2, 7, 6, -7, -5, -5, -1, 2] && t.result1 == 10) = true := by decide +kernel

/-- The example of 44_predictors.md section 2. -/
theorem test_predXor2 :
    (ends (exec (.predXor2 0 1) (slot0 [5, 3, -2, 7, 1, -1, 2, 0, 4, -3])) fun t =>
      (t.slot 1).map BitVec.toInt == [5, 3, -2, 7, -1, -8, -3, -8, -7, 5] && t.result1 == 10) = true := by decide +kernel

/-- The example of 44_predictors.md section 2. -/
theorem test_predNull :
    (ends (exec (.predNull 0 1) (slot0 [5, 3, -2, 7, 1, -1, 2, 0, 4, -3])) fun t =>
      (t.slot 1).map BitVec.toInt == [5, 3, -2, 7, 1, -1, 2, 0, 4, -3] && t.result1 == 10) = true := by decide +kernel

/-- PR-S1: a difference of 20 is out of range. -/
theorem test_predStripindex :
    (ends (exec (.predStripindex 0 1) (slot0 [0, 0, 0, 20, 0, 0, 0])) fun t =>
      (t.slot 1).map BitVec.toInt == [0, 0, 0, 20, 0, 22, 0]) = true := by decide +kernel

/-- PR-W wraps; source and destination are one slot (PR-AB). -/
theorem test_predLag1_wraps :
    (ends (exec (.predLag1 0 0) (slot0 [0, 0, 0, 0x7FFFFFFF, 1])) fun t =>
      (t.slot 0).map BitVec.toInt == [0, 0, 0, 2147483647, -2147483648]) = true := by decide +kernel

/-- Q-8. -/
theorem test_deqQuant :
    (ends (exec (.deqQuant 0 1) { slot0 [0, 1, 128, 255] with larg0 := 0xBF800000, larg1 := 0x3F800000, larg2 := 8 })
      fun t => t.slot 1 == [0xBF808081, 0xBF7EFEFF, 0x00000000, 0x3F7EFEFF]) = true := by decide +kernel

/-- Q-0. -/
theorem test_deqQuant_bits0 :
    fails (exec (.deqQuant 0 1) (slot0 [1])) 5 0 = true := by decide +kernel

/-- The rows of 6.2. -/
theorem test_deqExpmant :
    (ends (exec (.deqExpmant 0 1 2) ((slot0 [127, 0x180, 0, 0xFF, 0x1FF, 0x17F]).setSlot 1
      [0, 0x400000, 1, 0, 0x7FFFFF, 0xFFFFFFFF])) fun t => t.slot 2 ==
        [0x3F800000, 0xC0400000, 0x00000001, 0x7F800000, 0xFFFFFFFF, 0xFFFFFFFF]) = true := by decide +kernel

/-- The middle entry of the reference table (45_vertex.md R289). -/
theorem test_deeringTable :
    deeringEntry .reference 4096 = (0x3E9B166C, 0x3F73F929) := by decide +kernel

/-- Unequal lengths. -/
theorem test_deqExpmant_count :
    fails (exec (.deqExpmant 0 1 2) (slot0 [127])) 6 0 = true := by decide +kernel

/-- Codes of one normal in slots 0 to 3, destinations 4, 5 and 6. -/
def deering (sx oc th ps : Word) : State :=
  { (((slot0 [sx]).setSlot 1 [oc]).setSlot 2 [th]).setSlot 3 [ps] with larg0 := 0x00060504 }

/-- DEER-7. -/
theorem test_deqDeering :
    (ends (exec (.deqDeering 0 1 2 3 6) (deering 1 5 32 16)) fun t =>
      t.slot 4 == [0x3F711740] && t.slot 5 == [0xBE99415A] && t.slot 6 == [0x3E1CF11A] && t.result1 == 1) = true := by decide +kernel

/-- DEER-E3: theta 65 at 6 bits is past the table. -/
theorem test_deqDeering_range :
    fails (exec (.deqDeering 0 1 2 3 6) (deering 0 7 65 0)) 5 0 = true := by decide +kernel

/-- VP-1. -/
theorem test_vtxPack :
    (ends (exec (.vtxPack 6 7 8 9) (((State.reset.setSlot 6 [1, 2]).setSlot 7 [3, 4]).setSlot 8 [5, 6])) fun t =>
      t.slot 9 == [1, 3, 5, 2, 4, 6] && t.result1 == 6) = true := by decide +kernel

/-- The tetrahedron's streams in slots 0 to 2, with the roles CORNER_VTX on slot 5 and CORNER_ATTR on slot 6 (TOPO-1,
EM-1). -/
def tetra : State :=
  { ((((latchedCmd 0x8).setSlot 0 [3, 3, 3, 3]).setSlot 1 [3, 3, 3]).setSlot 2 [3]).setSlot 3 [5, 0, 1, 7] with
    roleMap := #v[⟨1, true⟩, ⟨2, true⟩, ⟨0, false⟩, ⟨0, false⟩, ⟨0, false⟩, ⟨0, false⟩, ⟨0, false⟩, ⟨0, false⟩,
      ⟨0, true⟩, ⟨0, false⟩, ⟨0, false⟩, ⟨0, false⟩, ⟨0, false⟩, ⟨0, false⟩, ⟨0, false⟩, ⟨5, true⟩, ⟨6, true⟩] }

/-- The tetrahedron with the masks of EM-2. -/
def tetraMasks : State := { tetra with roleMap := tetra.roleMap.set 11 ⟨3, true⟩ }

/-- TOPO-1. -/
theorem test_topoRun :
    (ends (exec .topoRun tetra) fun t => (t.mesh.faces.map fun f => f.fvtx.map fun x => x.getD 99) ==
      [[0, 2, 3], [0, 3, 1], [0, 1, 2], [1, 3, 2]] && t.meshValid && t.ncorner == 12 && t.ncompReg == 1) = true := by decide +kernel

/-- TE-2: VALENCE runs out. -/
theorem test_topoRun_short :
    fails (exec .topoRun (tetra.setSlot 0 [3, 3, 3])) 14 8 = true := by decide +kernel

/-- EM-2. -/
theorem test_topoEmit :
    (ends (exec .topoRun tetraMasks) fun t => ends (exec .topoEmit t) fun u =>
      (u.slot 5).map BitVec.toInt == [0, 2, 3, 0, 3, 1, 0, 1, 2, 1, 3, 2] &&
      (u.slot 6).map BitVec.toInt == [0, 0, 1, -1, -1, -1, 2, 2, 2, 3, 4, 5] && u.result1 == 6) = true := by decide +kernel

/-- EM-5: no valid MESH. -/
theorem test_topoEmit_state :
    fails (exec .topoEmit tetra) 19 0 = true := by decide +kernel

/-! The host's side and the fetch. -/

/-- H-10: the third write is past the slot. -/
theorem test_slotData :
    (ends (Host.Core.run Sys2Proof.core 6 { State.reset with inputs :=
      [.access (.write .w32 0x100 2), .access (.write .w32 0x104 2), .access (.write .w32 0x108 0),
        .access (.write .w32 0x10C 7), .access (.write .w32 0x10C 8), .access (.write .w32 0x10C 9)] })
      fun t => t.slot 2 == [7, 8] && t.accErr && t.slotIdx == 3) = true := by decide +kernel

/-- A slot read while BUSY = 1: R32 and R452 refuse it, R69 and R450 give the value from before the command (log 21). -/
theorem test_busySlotRead :
    (ends (State.host { slot0 [7, 8] with busy := true } (.read .w32 0x10C))
      fun t => t.hostData == 0 && t.accErr && t.slotIdx == 0) = true ∧
    (ends (State.host { slot0 [7, 8] with busy := true, params := { Params.reference with busySlotRead := .valueBefore } }
        (.read .w32 0x10C)) fun t => t.hostData == 7 && !t.accErr) = true := by decide +kernel

/-- H-2: host lanes are little-endian with ENDIAN = 1. -/
theorem test_hostWord :
    (ends (State.host { State.reset with endian := true, mem := [(4, 0x11), (5, 0x22), (6, 0x33), (7, 0x44)] }
      (.read .w32 0x01000004)) fun t => t.hostData == 0x44332211 && !t.accErr) = true := by decide +kernel

/-- IRQ-1. -/
theorem test_irq :
    (ends (Host.Core.run Sys2Proof.core 2 { State.reset with inputs := [.access (.write .w32 4 0x201)] })
      fun t => t.irq && t.done) = true := by decide +kernel

/-- A placed command word is what the next step executes. -/
theorem test_withFetchWord_cmd :
    step (State.reset.withFetchWord 32 0x04A0E607) =
      exec (.vtxPack 6 7 8 9) (State.reset.withFetchWord 32 0x04A0E607) := rfl

/-- A placed codec byte is what the next step executes. -/
theorem test_withFetchWord_codec :
    step (State.reset.withFetchWord 8 4) = exec .cdp2Chopper (State.reset.withFetchWord 8 4) ∧
      step (State.reset.withFetchWord 8 2) = exec .cdp1Huffman (State.reset.withFetchWord 8 2) := ⟨rfl, rfl⟩

/-! Witnesses: states and operands that meet the hypotheses of the certificates' statements. -/

/-- The hypotheses of Obligations.IllegalOpcodesFail, each clause at the ends of its range. -/
theorem witness_IllegalOpcodesFail :
    ((latchedCmd 0x0A).busy = true ∧ (latchedCmd 0x0A).inputs = [] ∧ 0x0A ≤ (fieldOp (latchedCmd 0x0A).lcmd).toNat) ∧
      0x0A ≤ (fieldOp (latchedCmd 0xFF).lcmd).toNat ∧
      (fieldOp 0x90002003 = 0x03 ∧ fieldC 0x90002003 = 0 ∧ fieldD 0x90002003 = 0 ∧ 9 ≤ (fieldM 0x90002003).toNat) ∧
      15 ≤ (fieldM 0xF0002003).toNat ∧ (fieldOp 0xE1882006 = 0x06 ∧ 14 ≤ (fieldM 0xE1882006).toNat) ∧ 14 ≤ (fieldM 0xF1882006).toNat := by decide +kernel

/-- A word with a legal opcode and a non-zero unused field encodes no instruction. -/
theorem no_encoding {x : Word} (h : ∀ used, usedFields (fieldOp x) = some used → x &&& ~~~(used ||| 0xFF) ≠ 0)
    (i : Instr) (hs : Laws.UnusedFieldsZero.Statement i) : encode i ≠ .cmd x := fun he => by
  obtain ⟨used, hu, hz⟩ := hs x he
  exact h used hu hz

/-- Every instruction's encoding has its unused fields 0. -/
theorem unusedFieldsZero (i : Instr) : Laws.UnusedFieldsZero.Statement i := by
  cases i
  case nop => exact Laws.UnusedFieldsZero.nop
  case decCdp2 => exact Laws.UnusedFieldsZero.decCdp2 _
  case decCdp1 => exact Laws.UnusedFieldsZero.decCdp1 _
  case predLag1 => exact Laws.UnusedFieldsZero.predLag1 _ _
  case predLag2 => exact Laws.UnusedFieldsZero.predLag2 _ _
  case predStride1 => exact Laws.UnusedFieldsZero.predStride1 _ _
  case predStride2 => exact Laws.UnusedFieldsZero.predStride2 _ _
  case predStripindex => exact Laws.UnusedFieldsZero.predStripindex _ _
  case predRamp => exact Laws.UnusedFieldsZero.predRamp _ _
  case predXor1 => exact Laws.UnusedFieldsZero.predXor1 _ _
  case predXor2 => exact Laws.UnusedFieldsZero.predXor2 _ _
  case predNull => exact Laws.UnusedFieldsZero.predNull _ _
  case deqQuant => exact Laws.UnusedFieldsZero.deqQuant _ _
  case deqExpmant => exact Laws.UnusedFieldsZero.deqExpmant _ _ _
  case deqDeering => exact Laws.UnusedFieldsZero.deqDeering _ _ _ _ _
  case vtxPack => exact Laws.UnusedFieldsZero.vtxPack _ _ _ _
  case topoRun => exact Laws.UnusedFieldsZero.topoRun
  case topoEmit => exact Laws.UnusedFieldsZero.topoEmit
  case cdp2Null => exact Laws.UnusedFieldsZero.cdp2Null
  case cdp2Bitlength2 => exact Laws.UnusedFieldsZero.cdp2Bitlength2
  case cdp2Arithmetic => exact Laws.UnusedFieldsZero.cdp2Arithmetic
  case cdp2Chopper => exact Laws.UnusedFieldsZero.cdp2Chopper
  case cdp1Null => exact Laws.UnusedFieldsZero.cdp1Null
  case cdp1Bitlength1 => exact Laws.UnusedFieldsZero.cdp1Bitlength1
  case cdp1Huffman => exact Laws.UnusedFieldsZero.cdp1Huffman
  case cdp1Arithmetic => exact Laws.UnusedFieldsZero.cdp1Arithmetic

/-- The hypotheses of Obligations.NonzeroUnusedFieldFails can be met. -/
theorem witness_NonzeroUnusedFieldFails_nop :
    (latchedCmd 0x00000100).busy = true ∧ (latchedCmd 0x00000100).inputs = [] ∧ (fieldOp 0x00000100).toNat ≤ 9 ∧
      (∀ i, encode i ≠ .cmd 0x00000100) ∧ ¬ (fieldOp 0x00000100 = 0x03 ∧ fieldC 0x00000100 = 0 ∧ fieldD 0x00000100 = 0) := ⟨rfl, rfl, by decide,
    fun i => no_encoding (by
      intro used h
      have : usedFields (fieldOp 0x00000100) = some 0x00000000 := by decide
      rw [this] at h
      cases h
      decide) i (unusedFieldsZero i), by decide⟩

/-- The hypotheses of Obligations.NonzeroUnusedFieldFails can be met. -/
theorem witness_NonzeroUnusedFieldFails_topoRun :
    (latchedCmd 0x10000008).busy = true ∧ (latchedCmd 0x10000008).inputs = [] ∧ (fieldOp 0x10000008).toNat ≤ 9 ∧
      (∀ i, encode i ≠ .cmd 0x10000008) ∧ ¬ (fieldOp 0x10000008 = 0x03 ∧ fieldC 0x10000008 = 0 ∧ fieldD 0x10000008 = 0) := ⟨rfl, rfl, by decide,
    fun i => no_encoding (by
      intro used h
      have : usedFields (fieldOp 0x10000008) = some 0x00000000 := by decide
      rw [this] at h
      cases h
      decide) i (unusedFieldsZero i), by decide⟩

/-- The hypotheses of Obligations.NonzeroUnusedFieldFails can be met. -/
theorem witness_NonzeroUnusedFieldFails_pred :
    (latchedCmd 0x00042003).busy = true ∧ (latchedCmd 0x00042003).inputs = [] ∧ (fieldOp 0x00042003).toNat ≤ 9 ∧
      (∀ i, encode i ≠ .cmd 0x00042003) ∧ ¬ (fieldOp 0x00042003 = 0x03 ∧ fieldC 0x00042003 = 0 ∧ fieldD 0x00042003 = 0) := ⟨rfl, rfl, by decide,
    fun i => no_encoding (by
      intro used h
      have : usedFields (fieldOp 0x00042003) = some 0xF003FF00 := by decide
      rw [this] at h
      cases h
      decide) i (unusedFieldsZero i), by decide⟩

/-- The hypotheses of Obligations.StepRunsDecodedInstruction can be met. -/
theorem witness_StepRunsDecodedInstruction :
    (latchedCmd 0x301).busy = true ∧ decodeCmd (latchedCmd 0x301).lcmd = .ok (.decCdp2 3) ∧
      (latchedCmd 0x301).inputs = [] ∧ State.inputs { latchedCmd 0x301 with inputs := [.engineTurn] } = [.engineTurn] ∧
      State.reset.busy = false ∧ State.reset.inputs = [] := by decide +kernel

/-- The hypotheses of Obligations.CodecByteSelectsCodec can be met. -/
theorem witness_CodecByteSelectsCodec :
    fieldA (stream 0x1 null2Bytes).lcmd = 0 ∧
      decodeCdp2 ((stream 0x1 null2Bytes).inView.byte ((stream 0x1 null2Bytes).larg0.toNat + 4)) = .ok .cdp2Null ∧
      decodeCdp1 ((stream 0x2 hufBytes).inView.byte (stream 0x2 hufBytes).larg0.toNat) = .ok .cdp1Huffman := by decide +kernel

/-- The hypotheses of Obligations.NopCompletes can be met. -/
theorem witness_NopCompletes :
    (latchedCmd 0).busy = true ∧ (latchedCmd 0).inputs = [] ∧ fieldOp (latchedCmd 0).lcmd = 0 ∧ (latchedCmd 0).lcmd = 0 ∧
      fieldOp (latchedCmd 0x100).lcmd = 0 ∧ (latchedCmd 0x100).lcmd ≠ 0 := by decide +kernel

/-- The hypothesis of Obligations.CommandEndsDoneOrErrorEntry, for each ending. -/
theorem witness_CommandEndsDoneOrErrorEntry :
    ∃ t u v, exec .nop (latchedCmd 0) = .next t ∧ exec (.deqQuant 0 1) (slot0 [1]) = .next u ∧
      exec .topoRun (State.setSlot tetra 0 [1]) = .next v := ⟨_, _, _, rfl, rfl, rfl⟩

/-- The hypotheses of Obligations.InstructionFrame can be met. -/
theorem witness_InstructionFrame :
    (∃ t, exec (.predNull 0 1) (slot0 [1, 2]) = .next t) ∧ (2 : SlotNo) ∉ destsOf (.predNull 0 1) (slot0 [1, 2]) ∧
      Instr.predNull 0 1 ≠ .topoRun ∧ drawsNaN (.predNull 0 1) = false := ⟨⟨_, rfl⟩, by decide, by decide, rfl⟩

/-- The hypotheses of Obligations.EngineReadsOnlyBelowInLen can be met. -/
theorem witness_EngineReadsOnlyBelowInLen :
    (∀ a, a < (stream 0x1 [0, 0, 0, 0]).lInLen.toNat →
        State.inByte { stream 0x1 [0, 0, 0, 0] with mem := [(0, 0), (1, 0), (2, 0), (3, 0), (4, 9)] } a =
          (stream 0x1 [0, 0, 0, 0]).inByte a) ∧
      ∃ t, exec (.decCdp2 0) (stream 0x1 [0, 0, 0, 0]) = .next t := ⟨by decide, ⟨_, rfl⟩⟩

/-- The hypotheses of Obligations.EngineExecutesTheLatchOnly can be met. -/
theorem witness_EngineExecutesTheLatchOnly :
    ∃ t, exec (.predNull 0 1) (slot0 [1, 2]) = .next t := ⟨_, rfl⟩

/-- A state of a running command meets the machine invariant. -/
theorem latched_inv : (latchedCmd 0).Inv where
  mem := ⟨rfl, fun c h => absurd h (by simp [latchedCmd, State.reset])⟩
  slots := fun k => by
    have h : (latchedCmd 0).slot k = [] := State.slot_reset k
    exact h ▸ Nat.zero_le _
  len := by unfold State.LenInv; decide
  flags := by unfold State.FlagInv; decide
  errs := by unfold State.ErrInv; decide
  meshEmpty := fun _ => rfl

/-- The hypotheses of Obligations.InvariantKept can be met. -/
theorem witness_InvariantKept :
    (latchedCmd 0).Inv ∧ ∃ t, step (latchedCmd 0) = .next t := ⟨latched_inv, ⟨_, rfl⟩⟩

/-- A valid MESH of one vertex pair and one face pair, each ring filled. -/
def pillow : State :=
  { latchedCmd 0 with
    meshValid := true
    mesh :=
      { vertices := [⟨0, 0, [some 0, some 1]⟩, ⟨0, 0, [some 1, some 0]⟩]
        faces := [⟨0, [false, false], 0, [some 0, some 1]⟩, ⟨0, [false, false], 0, [some 1, some 0]⟩]
        attrCounter := 0
        ncomp := 1 } }

/-- The hypotheses of Obligations.MeshCompleteKept can be met. -/
theorem witness_MeshCompleteKept :
    pillow.meshValid = true ∧ pillow.MeshComplete ∧ ∃ t, step pillow = .next t := by
  refine ⟨rfl, fun _ => ⟨?_, ?_⟩, ⟨_, rfl⟩⟩
  · intro x hx
    simp only [pillow, List.mem_cons, List.not_mem_nil, or_false] at hx
    rcases hx with rfl | rfl <;> refine ⟨by decide, fun v hv => ?_⟩ <;>
      simp only [List.mem_cons, Option.some.injEq, List.not_mem_nil, or_false] at hv <;>
      rcases hv with rfl | rfl <;> decide
  · intro x hx
    simp only [pillow, List.mem_cons, List.not_mem_nil, or_false] at hx
    rcases hx with rfl | rfl <;> refine ⟨by decide, fun v hv => ?_⟩ <;>
      simp only [List.mem_cons, Option.some.injEq, List.not_mem_nil, or_false] at hv <;>
      rcases hv with rfl | rfl <;> decide

/-- The hypotheses of Obligations.MeshTwoSidedKept can be met. -/
theorem witness_MeshTwoSidedKept :
    pillow.meshValid = true ∧ pillow.MeshTwoSided ∧ ∃ t, step pillow = .next t := by
  refine ⟨rfl, fun _ v f => ?_, ⟨_, rfl⟩⟩
  match v, f with
  | 0, 0 => decide
  | 0, 1 => decide
  | 1, 0 => decide
  | 1, 1 => decide
  | 0, f + 2 => simp [pillow, Mesh.vring, Mesh.fring]
  | 1, f + 2 => simp [pillow, Mesh.vring, Mesh.fring]
  | v + 2, 0 => simp [pillow, Mesh.vring, Mesh.fring]
  | v + 2, 1 => simp [pillow, Mesh.vring, Mesh.fring]
  | v + 2, f + 2 => simp [pillow, Mesh.vring, Mesh.fring]

/-- The hypotheses of Obligations.OnlyTopoRunAndResetsChangeMesh, for each way MESH changes. -/
theorem witness_OnlyTopoRunAndResetsChangeMesh :
    (∃ t, step { pillow with inputs := [.powerOn] } = .next t ∧ t.mesh ≠ pillow.mesh) ∧
      (∃ t, step { pillow with busy := false, inputs := [.access (.write .w32 0x004 0x2)] } = .next t ∧
        t.meshValid ≠ pillow.meshValid) ∧
      ∃ t, step (latchedCmd 0x8) = .next t ∧ t.meshValid ≠ (latchedCmd 0x8).meshValid := ⟨⟨_, rfl, by decide⟩, ⟨_, rfl, by decide⟩, ⟨_, rfl, by decide⟩⟩

/-- The hypotheses of Obligations.SoftReset can be met. -/
theorem witness_SoftReset :
    (0x2#32).getLsbD 1 = true ∧ pillow.busy = true ∧ State.reset.busy = false := by decide

/-- The hypotheses of Obligations.GoAccept can be met. -/
theorem witness_GoAccept :
    (0x301#32).getLsbD 0 = true ∧ (0x301#32).getLsbD 1 = false := by decide

/-- The hypotheses of Obligations.UnmappedAccessRefused can be met. -/
theorem witness_UnmappedAccessRefused :
    ¬ Mapped State.reset.params.inBytes .w32 (0x044#32).toNat ∧ ¬ Mapped State.reset.params.inBytes .w8 (0x000#32).toNat ∧
      ¬ Mapped State.reset.params.inBytes .w8 (0x02000000#32).toNat := by unfold Mapped; decide

/-- The hypotheses of Obligations.InWindowAccess can be met. -/
theorem witness_InWindowAccess :
    0x01000000 ≤ (0x01000000#32).toNat ∧ (0x01FFFFFF#32).toNat - 0x01000000 < State.reset.params.inBytes ∧
      pillow.busy = true ∧ State.reset.busy = false ∧
      ((0x01FFFFFC#32).toNat % 4 = 0 ∧ (0x01FFFFFC#32).toNat - 0x01000000 + 3 < State.reset.params.inBytes) ∧
      (0x01000002#32).toNat % 4 ≠ 0 ∧ State.reset.params.inBytes ≤ (0x01FFFFFD#32).toNat - 0x01000000 + 3 := by decide

/-- The hypotheses of Obligations.SlotAccess can be met. -/
theorem witness_SlotAccess :
    (latchedCmd 0).busy = true ∧ (latchedCmd 0).params.busySlotRead = .refused ∧
      Params.busySlotRead { Params.reference with busySlotRead := .valueBefore } = .valueBefore ∧ (slot0 [7, 8]).busy = false ∧ (slot0 [7, 8]).params.slotCap < (0x100001#32).toNat ∧
      (0x100000#32).toNat ≤ (slot0 [7, 8]).params.slotCap ∧
      ((slot0 [7, 8]).slot (slot0 [7, 8]).slotSel)[(State.slotIdx { slot0 [7, 8] with slotIdx := 1 }).toNat]? = some 8 ∧
      (State.slotIdx { slot0 [7, 8] with slotIdx := 1 }).toNat < ((slot0 [7, 8]).slot (slot0 [7, 8]).slotSel).length ∧
      ((slot0 [7, 8]).slot (slot0 [7, 8]).slotSel).length ≤ (State.slotIdx { slot0 [7, 8] with slotIdx := 2 }).toNat := by decide +kernel

/-- The hypotheses of Obligations.ControlAndStatusRegisters can be met. -/
theorem witness_ControlAndStatusRegisters :
    State.reset.busy = false ∧ (0x300#32).getLsbD 0 = false ∧ (0x300#32).getLsbD 1 = false := by decide

/-- The hypotheses of Obligations.InLenAndRoleMapAccess can be met. -/
theorem witness_InLenAndRoleMapAccess :
    State.reset.busy = false ∧ (latchedCmd 0).busy = true := by decide

/-- The hypotheses of Obligations.BusyRefusals can be met. -/
theorem witness_BusyRefusals :
    (latchedCmd 0).busy = true ∧ (latchedCmd 0).params.busySlotRead = .refused ∧
      Params.busySlotRead { Params.reference with busySlotRead := .valueBefore } = .valueBefore ∧ 0x01000000 ≤ (0x01FFFFFF#32).toNat ∧
      (0x01FFFFFF#32).toNat < 0x01000000 + (latchedCmd 0).params.inBytes ∧
      (Mapped 0 .w32 (0x10C#32).toNat ∧ Mapped 0 .w32 (0x108#32).toNat ∧ (0x108#32) ≠ 0x104 ∧ (0x108#32) ≠ 0x10C ∧
        (0x108#32) ≠ 0x008) := by unfold Mapped; decide

/-- The hypotheses of Obligations.AccErrSticky can be met. -/
theorem witness_AccErrSticky :
    ∃ t, State.accErr { State.reset with accErr := true, inputs := [.access (.write .w32 0x008 0x8)] } = true ∧
      step { State.reset with accErr := true, inputs := [.access (.write .w32 0x008 0x8)] } = .next t ∧ t.accErr = false := ⟨_, rfl, rfl, by decide⟩

/-- The hypotheses of Obligations.InterruptLine can be met. -/
theorem witness_InterruptLine :
    (¬ (State.done { State.reset with done := true } = true ∧ State.err { State.reset with done := true } = true)) ∧
      (0x101#32).getLsbD 9 = false ∧ State.reset.busy = false ∧ (0x101#32).getLsbD 0 = true := by decide

/-- The hypotheses of Obligations.EngineByteOrder can be met. -/
theorem witness_EngineByteOrder :
    (stream 0x1 null2Bytes).lEndian = false ∧ State.lEndian { stream 0x1 null2Bytes with lEndian := true } = true ∧
      0 + 4 ≤ (stream 0x1 null2Bytes).lInLen.toNat := by decide +kernel

/-- The hypotheses of Obligations.FieldReadsMsbFirst: minBits of BL2-1 in a codetext and in IN, a strict read past 21 bits, a padded one, a width of 33, and a missing word. -/
theorem witness_FieldReadsMsbFirst :
    (1 ≤ 6 ∧ 6 ≤ 32 ∧ 4 < 2 ^ 6 ∧ 1 + 6 ≤ 21 ∧ ∀ j, j < 6 →
        ([0x0823B800#32].getD ((1 + j) / 32) 0).getLsbD (31 - (1 + j) % 32) = (msbBits 6 4).getD j false) ∧
      (1 ≤ 32 ∧ 21 < 20 + 32) ∧ 32 < 33 ∧
      (6 < 2 ^ 3 ∧ ∀ j, j < 3 → (decide (19 + j < 21) && ([0x0823B800#32].getD ((19 + j) / 32) 0).getLsbD (31 - (19 + j) % 32)) =
        (msbBits 3 6).getD j false) ∧
      (0 + 4 * ((1 + 6 + 31) / 32) ≤ (stream 0x1 [0x00, 0xB8, 0x23, 0x08]).inView.inLen ∧ ∀ j, j < 6 →
        ((stream 0x1 [0x00, 0xB8, 0x23, 0x08]).inView.word (0 + 4 * ((1 + j) / 32))).getLsbD (31 - (1 + j) % 32) =
          (msbBits 6 4).getD j false) ∧
      (stream 0x1 [0x00, 0xB8, 0x23]).inView.inLen < 0 + 4 * (1 / 32) + 4 := by decide +kernel

/-- The hypotheses of Obligations.StreamHeaderChecks, each clause at a boundary value. -/
theorem witness_StreamHeaderChecks :
    ((stream 0x1 [0xFF, 0xFF, 0xFF, 0xFF]).larg0.toNat + 4 ≤ (stream 0x1 [0xFF, 0xFF, 0xFF, 0xFF]).lInLen.toNat ∧
        ((stream 0x1 [0xFF, 0xFF, 0xFF, 0xFF]).inView.word 0).toInt < 0) ∧
      (0 ≤ ((stream 0x1 [1, 0, 0x10, 0]).inView.word 0).toInt ∧
        (stream 0x1 [1, 0, 0x10, 0]).params.slotCap < ((stream 0x1 [1, 0, 0x10, 0]).inView.word 0).toNat) ∧
      (stream 0x1 [0, 0, 0, 0]).inView.word 0 = 0 ∧
      (0 < ((stream 0x1 [0, 0, 0x10, 0, 2]).inView.word 0).toInt ∧
        ((stream 0x1 [0, 0, 0x10, 0, 2]).inView.word 0).toNat ≤ (stream 0x1 [0, 0, 0x10, 0, 2]).params.slotCap ∧
        (stream 0x1 [0, 0, 0x10, 0, 2]).larg0.toNat + 5 ≤ (stream 0x1 [0, 0, 0x10, 0, 2]).lInLen.toNat ∧
        ((stream 0x1 [0, 0, 0x10, 0, 2]).inView.byte 4).toNat ∉ [0, 1, 3, 4]) ∧
      (stream 0x1 [0, 0, 0]).lInLen.toNat < (stream 0x1 [0, 0, 0]).larg0.toNat + 4 ∧
      3 < ((stream 0x2 [4]).inView.byte 0).toNat := by decide +kernel

/-- Nine Chopper wrappers, one inside the other. -/
def nested : State := stream 0x1 (List.replicate 9 [1, 0, 0, 0, 4, 0]).flatten

/-- The hypotheses of Obligations.NestingDepthBound can be met. -/
theorem witness_NestingDepthBound :
    1 ≤ nested.params.slotCap ∧ nested.larg0.toNat + 54 ≤ nested.lInLen.toNat ∧
      ∀ i, i < 9 → nested.inView.word (nested.larg0.toNat + 6 * i) = 1 ∧
        nested.inView.byte (nested.larg0.toNat + 6 * i + 4) = 4 ∧ nested.inView.byte (nested.larg0.toNat + 6 * i + 5) = 0 := by decide +kernel

/-- The hypotheses of Obligations.StreamResults can be met. -/
theorem witness_StreamResults :
    (ends (exec (.decCdp2 0) (stream 0x1 null2Bytes)) fun t => t.done) = true ∧ (stream 0x1 null2Bytes).done = false ∧
      (ends (exec (.decCdp1 0) (stream 0x2 null1Bytes)) fun t => t.done) = true ∧ (stream 0x2 null1Bytes).done = false := by decide +kernel

/-- The hypotheses of Obligations.CodecsReturnExactlyN can be met. -/
theorem witness_CodecsReturnExactlyN :
    cdp2Payload (stream 0x1 null2Bytes).inView (pure []) 3 .null 5 = .ok ([5, 0xFFFFFFFF, 0x7FFFFFFF], 21) ∧
      [9#32, 0xFFFFFFF7].length = ceilDiv32 64 ∧ cdp1Decode .null [9, 0xFFFFFFF7] 64 2 [] [] 21 = .ok [9, 0xFFFFFFF7] := by decide +kernel

/-- The hypotheses of Obligations.Cdp2NullCompletes can be met. -/
theorem witness_Cdp2NullCompletes :
    fieldA (stream 0x1 null2Bytes).lcmd = 0 ∧ 0 < 3 ∧ 3 ≤ (stream 0x1 null2Bytes).params.slotCap ∧ 3 < 2 ^ 31 ∧
      (stream 0x1 null2Bytes).larg0.toNat + 9 + 4 * 3 ≤ (stream 0x1 null2Bytes).lInLen.toNat ∧ (stream 0x1 null2Bytes).inView.word (stream 0x1 null2Bytes).larg0.toNat = u32 3 ∧
      (stream 0x1 null2Bytes).inView.byte ((stream 0x1 null2Bytes).larg0.toNat + 4) = 0 ∧ (stream 0x1 null2Bytes).inView.word ((stream 0x1 null2Bytes).larg0.toNat + 5) = u32 3 := by decide +kernel

/-- The hypotheses of the failing clauses of Obligations.Cdp2NullCompletes (NULL-TR is the last). -/
theorem witness_Cdp2NullCompletes_errors :
    ((stream 0x1 [2, 0, 0, 0, 0, 2, 0, 0]).inView.word 0 = u32 2 ∧ (stream 0x1 [2, 0, 0, 0, 0, 2, 0, 0]).inView.byte 4 = 0 ∧
        (stream 0x1 [2, 0, 0, 0, 0, 2, 0, 0]).larg0.toNat + 5 ≤ (stream 0x1 [2, 0, 0, 0, 0, 2, 0, 0]).lInLen.toNat ∧ (stream 0x1 [2, 0, 0, 0, 0, 2, 0, 0]).lInLen.toNat < (stream 0x1 [2, 0, 0, 0, 0, 2, 0, 0]).larg0.toNat + 9) ∧
      ((stream 0x1 [2, 0, 0, 0, 0, 0xFF, 0xFF, 0xFF, 0xFF]).inView.word 0 = u32 2 ∧ (stream 0x1 [2, 0, 0, 0, 0, 0xFF, 0xFF, 0xFF, 0xFF]).larg0.toNat + 9 ≤ (stream 0x1 [2, 0, 0, 0, 0, 0xFF, 0xFF, 0xFF, 0xFF]).lInLen.toNat ∧
        ((stream 0x1 [2, 0, 0, 0, 0, 0xFF, 0xFF, 0xFF, 0xFF]).inView.word 5).toInt < 0) ∧
      ((stream 0x1 [2, 0, 0, 0, 0, 3, 0, 0, 0]).inView.word 0 = u32 2 ∧ 0 ≤ ((stream 0x1 [2, 0, 0, 0, 0, 3, 0, 0, 0]).inView.word 5).toInt ∧ (stream 0x1 [2, 0, 0, 0, 0, 3, 0, 0, 0]).inView.word 5 ≠ u32 2) ∧
      ((stream 0x1 [2, 0, 0, 0, 0, 2, 0, 0, 0, 1, 0, 0, 0]).inView.word 5 = u32 2 ∧ 1 < 2 ∧
        (stream 0x1 [2, 0, 0, 0, 0, 2, 0, 0, 0, 1, 0, 0, 0]).larg0.toNat + 9 + 4 * 1 ≤ (stream 0x1 [2, 0, 0, 0, 0, 2, 0, 0, 0, 1, 0, 0, 0]).lInLen.toNat ∧
        (stream 0x1 [2, 0, 0, 0, 0, 2, 0, 0, 0, 1, 0, 0, 0]).lInLen.toNat < (stream 0x1 [2, 0, 0, 0, 0, 2, 0, 0, 0, 1, 0, 0, 0]).larg0.toNat + 9 + 4 * (1 + 1)) := by decide +kernel

/-- The hypotheses of Obligations.Cdp2Bitlength2Completes (BL2-1; the failing codetext is BL2-6's). -/
theorem witness_Cdp2Bitlength2Completes :
    fieldA (stream 0x1 bl2Bytes).lcmd = 0 ∧ 0 < 5 ∧ 5 ≤ (stream 0x1 bl2Bytes).params.slotCap ∧ 5 < 2 ^ 31 ∧ 21 < 2 ^ 31 ∧
      (stream 0x1 bl2Bytes).larg0.toNat + 9 + 4 * ceilDiv32 21 ≤ (stream 0x1 bl2Bytes).lInLen.toNat ∧ (stream 0x1 bl2Bytes).inView.word (stream 0x1 bl2Bytes).larg0.toNat = u32 5 ∧
      (stream 0x1 bl2Bytes).inView.byte ((stream 0x1 bl2Bytes).larg0.toNat + 4) = 1 ∧ (stream 0x1 bl2Bytes).inView.word ((stream 0x1 bl2Bytes).larg0.toNat + 5) = u32 21 ∧
      bitlength2Decode (wordsAt (stream 0x1 bl2Bytes).inView 9 (ceilDiv32 21)) 21 5 13 = .ok [7, 7, 7, 7, 7] ∧
      bitlength2Decode (wordsAt (stream 0x1 bl2Bytes).inView 9 (ceilDiv32 22)) 22 5 13 =
        .error { code := .codetext, info := 13 } := by decide +kernel

/-- The hypotheses of the fixed-width clauses of Obligations.Bitlength2Modes: BL2-1, BL2-F, and a width of 33. -/
theorem witness_Bitlength2Modes :
    (4 ≤ 32 ∧ 7 < 2 ^ 4 ∧ fieldValue 4 7 ≤ fieldValue 4 7 ∧ HoldsBits [0x0823B800] 21
        ([false] ++ msbBits 6 4 ++ msbBits 6 4 ++ msbBits 4 7 ++ msbBits 4 7)) ∧
      (5 < 2 ^ 3 ∧ 4 < 2 ^ 4 ∧ fieldValue 3 5 < fieldValue 4 4 ∧
        (∀ o ∈ [0, 3, 7, 4], o < 2 ^ ceilLog2 (fieldValue 4 4 - fieldValue 3 5 + 1).toNat) ∧
        HoldsBits [0x062540FC] 32 ([false] ++ msbBits 6 3 ++ msbBits 6 4 ++ msbBits 3 5 ++ msbBits 4 4 ++
          [0, 3, 7, 4].flatMap (msbBits (ceilLog2 (fieldValue 4 4 - fieldValue 3 5 + 1).toNat)))) ∧
      StartsWith [0x42080000] 13 ([false] ++ msbBits 6 33 ++ msbBits 6 1) := by unfold HoldsBits StartsWith BitsFrom; decide +kernel

/-- The groups of BL2-3. -/
def groups : List Bl2Group := [⟨[], 2, [1, 2, 0]⟩, ⟨[], 0, [3]⟩]

/-- The groups of BL2-3 fit their layout. -/
theorem groups_fit : bl2Fits 3 2 0 groups := by
  unfold groups bl2Fits bl2Fits bl2Fits Bl2Group.Fits Bl2Group.Chain
  decide +kernel

/-- The hypotheses of the variable-width clause of Obligations.Bitlength2Modes: BL2-3. -/
theorem witness_Bitlength2Modes_variable :
    bl2Fits 3 2 0 groups ∧ (∀ g, groups.getLast? = some g → g.fields ≠ []) ∧
      HoldsBits [0x80000032, 0x34B60380] 57 (bl2Header 100 3 2 ++ bl2Bits 3 2 0 groups) := ⟨groups_fit, fun g h => by
    have : g = ⟨[], 0, [3]⟩ := by simpa [groups] using h.symm
    simp [this], by unfold HoldsBits BitsFrom; decide +kernel⟩

/-- The hypotheses of the failing variable-width clauses of Obligations.Bitlength2Modes: a run past the count, a width of 33, cw = rl = 0, and cw = 1. -/
theorem witness_Bitlength2Modes_errors :
    (StartsWith [0x80000032, 0x34B00000] 44 (bl2Header 100 3 2 ++ bl2Bits 3 2 0 [] ++
        (Bl2Group.deltas 3 ⟨[], 2, []⟩).flatMap (msbBits 3) ++ msbBits 2 3) ∧ 2 < (bl2Vals 3 100 0 []).length + 3) ∧
      (StartsWith [0x80000032, 0x74850000] 48 (bl2Header 100 7 2 ++ bl2Bits 7 2 0 [] ++
        (Bl2Group.deltas 7 ⟨[], 33, []⟩).flatMap (msbBits 7) ++ msbBits 2 1) ∧ 0 < 1 ∧
        32 < Bl2Group.width 7 (bl2Width 7 0 []) ⟨[], 33, []⟩) ∧
      StartsWith [0x80000032, 0] 39 (bl2Header 100 0 0) ∧
      StartsWith [0x80000032, 0x14000000] 39 (bl2Header 100 1 2) ∧ bl2Fits 7 2 0 [] ∧
      Bl2Group.Chain 3 ⟨[], 2, []⟩ ∧ Bl2Group.Chain 7 ⟨[], 33, []⟩ := by unfold StartsWith BitsFrom bl2Fits Bl2Group.Chain; decide +kernel

/-- The hypotheses of Obligations.Cdp2ArithmeticCompletes can be met. -/
theorem witness_Cdp2ArithmeticCompletes :
    fieldA (stream 0x1 ari2Bytes).lcmd = 0 ∧ 0 < 4 ∧ 4 ≤ (stream 0x1 ari2Bytes).params.slotCap ∧ 4 < 2 ^ 31 ∧ 2 < 2 ^ 31 ∧
      (stream 0x1 ari2Bytes).larg0.toNat + 9 + 4 * ceilDiv32 2 ≤ (stream 0x1 ari2Bytes).lInLen.toNat ∧ (stream 0x1 ari2Bytes).inView.word (stream 0x1 ari2Bytes).larg0.toNat = u32 4 ∧
      (stream 0x1 ari2Bytes).inView.byte ((stream 0x1 ari2Bytes).larg0.toNat + 4) = 3 ∧ (stream 0x1 ari2Bytes).inView.word ((stream 0x1 ari2Bytes).larg0.toNat + 5) = u32 2 ∧
      withContextReader (stream 0x1 ari2Bytes).inView (readContext mark2) 13 = .ok ([{ symbol := 0, occ := 5, val := 42, next := 0 }], 25) ∧
      loadCdp2 (stream 0x1 ari2Bytes).inView (levelsAt 1) 25 = .ok ([], 29) ∧
      arithDecode (wordsAt (stream 0x1 ari2Bytes).inView 9 (ceilDiv32 2)) 2 4 [[{ symbol := 0, occ := 5, val := 42, next := 0 }]] [] 29 = .ok [42, 42, 42, 42] := by decide +kernel

/-- The hypotheses of the Mark 2 clauses of Obligations.Cdp2ArithmeticCompletes: the context of ARI-2, one with a count of 0, and a header cut short. -/
theorem witness_Cdp2ArithmeticCompletes_context :
    ContextFields.Fits ⟨2, 3, 6, 0, 0, [⟨2, 5, 42, 0⟩]⟩ ∧
      13 + 4 * ceilDiv32 (ContextFields.bits 16 0 ⟨2, 3, 6, 0, 0, [⟨2, 5, 42, 0⟩]⟩).length ≤ (stream 0x1 ari2Bytes).inView.inLen ∧
      HoldsAt (stream 0x1 ari2Bytes).inView 13 (ContextFields.bits 16 0 ⟨2, 3, 6, 0, 0, [⟨2, 5, 42, 0⟩]⟩) ∧
      (0 + 12 ≤ (stream 0x1 [0x10, 0x04, 0, 0, 0, 0, 0, 0x40, 0, 0, 0, 0]).inView.inLen ∧
        HoldsAt (stream 0x1 [0x10, 0x04, 0, 0, 0, 0, 0, 0x40, 0, 0, 0, 0]).inView 0 (contextHeader 16 0 0 1 1 1 0 0)) ∧
      (stream 0x1 [0x10, 0x04, 0, 0]).inView.inLen < 0 + 4 * 1 + 4 := by unfold ContextFields.Fits HoldsAt; decide +kernel

/-- The hypotheses of Obligations.SingleSymbolArithmetic can be met. -/
theorem witness_SingleSymbolArithmetic :
    (∀ x ∈ [({ symbol := 1, occ := 0, val := 7, next := 0 } : CtxEntry)], x.occ = 0) ∧ 1 ≤ ({ symbol := 0, occ := 5, val := 42, next := 0 } : CtxEntry).occ ∧
      ({ symbol := 0, occ := 5, val := 42, next := 0 } : CtxEntry).occ ≤ 0xFFFF ∧ ({ symbol := 0, occ := 5, val := 42, next := 0 } : CtxEntry).symbol ≠ -2 ∧
      ({ symbol := 0, occ := 5, val := 42, next := 0 } : CtxEntry).next = 0 := by decide +kernel

/-- The hypotheses of Obligations.ArithErrorUnreachable can be met. -/
theorem witness_ArithErrorUnreachable :
    arithDecode [] 0 1 [] [] 9 = .error { code := .ctx, info := 9 } := by decide +kernel

/-- The hypotheses of Obligations.ArithRenormReaches can be met. -/
theorem witness_ArithRenormReaches :
    (0x4000#16) ≤ 0x5000 ∧ (0x5000#16) ≤ 0x8FFF := by decide

/-- The hypotheses of Obligations.Cdp2ChopperCompletes: CH-0 and CH-1. -/
theorem witness_Cdp2ChopperCompletes :
    (fieldA (stream 0x1 chop0Bytes).lcmd = 0 ∧ 0 < 3 ∧ 3 ≤ (stream 0x1 chop0Bytes).params.slotCap ∧ 3 < 2 ^ 31 ∧ (stream 0x1 chop0Bytes).inView.word 0 = u32 3 ∧
        (stream 0x1 chop0Bytes).inView.byte 4 = 4 ∧ (stream 0x1 chop0Bytes).larg0.toNat + 6 ≤ (stream 0x1 chop0Bytes).lInLen.toNat ∧ (stream 0x1 chop0Bytes).inView.byte 5 = 0 ∧
        loadCdp2 (stream 0x1 chop0Bytes).inView (levelsAt 1) 6 = .ok ([1, 2, 0], 27)) ∧
      fieldA (stream 0x1 chopBytes).lcmd = 0 ∧ 0 < 3 ∧ 3 ≤ (stream 0x1 chopBytes).params.slotCap ∧ 3 < 2 ^ 31 ∧ (stream 0x1 chopBytes).inView.word 0 = u32 3 ∧
        (stream 0x1 chopBytes).inView.byte 4 = 4 ∧ (stream 0x1 chopBytes).larg0.toNat + 11 ≤ (stream 0x1 chopBytes).lInLen.toNat ∧ (stream 0x1 chopBytes).inView.byte 5 ≠ 0 ∧
        (stream 0x1 chopBytes).inView.byte 5 ≤ (stream 0x1 chopBytes).inView.byte 10 ∧ ((stream 0x1 chopBytes).inView.byte 10).toNat - ((stream 0x1 chopBytes).inView.byte 5).toNat ≤ 31 ∧
        loadCdp2 (stream 0x1 chopBytes).inView (levelsAt 1) 11 = .ok ([1, 2, 0], 32) ∧
        loadCdp2 (stream 0x1 chopBytes).inView (levelsAt 1) 32 = .ok ([3, 0, 15], 53) := by decide +kernel

/-- The hypotheses of Obligations.Cdp1NullAndBitlengthComplete: N1-1 and BL1-1. -/
theorem witness_Cdp1NullAndBitlengthComplete :
    (fieldA (stream 0x2 null1Bytes).lcmd = 0 ∧ 2 ≤ (stream 0x2 null1Bytes).params.slotCap ∧ (stream 0x2 null1Bytes).larg0.toNat + 13 + 4 * ceilDiv32 64 ≤ (stream 0x2 null1Bytes).lInLen.toNat ∧
        (stream 0x2 null1Bytes).inView.word 1 = u32 64 ∧ (stream 0x2 null1Bytes).inView.word 5 = u32 2 ∧ (stream 0x2 null1Bytes).inView.word 9 = u32 (ceilDiv32 64) ∧
        (stream 0x2 null1Bytes).inView.byte 0 = 0 ∧ 64 = 32 * 2) ∧
      fieldA (stream 0x2 bl1Bytes).lcmd = 0 ∧ (stream 0x2 bl1Bytes).larg0.toNat + 13 + 4 * ceilDiv32 25 ≤ (stream 0x2 bl1Bytes).lInLen.toNat ∧ (stream 0x2 bl1Bytes).inView.word 1 = u32 25 ∧
        (stream 0x2 bl1Bytes).inView.word 5 = u32 4 ∧ (stream 0x2 bl1Bytes).inView.word 9 = u32 (ceilDiv32 25) ∧ (stream 0x2 bl1Bytes).inView.byte 0 = 1 ∧
        bitlength1Decode (wordsAt (stream 0x2 bl1Bytes).inView 13 (ceilDiv32 25)) 25 4 17 = .ok [3, 0xFFFFFFFF, 0, 5] := by decide +kernel

/-- The hypotheses of Obligations.Bitlength1RunAtOneWidth can be met. -/
theorem witness_Bitlength1RunAtOneWidth :
    1 ≤ 2 ∧ 2 ≤ 16 ∧ 3 < 2 ^ (2 * 2) ∧ (∀ y ∈ [15], y < 2 ^ (2 * 2)) ∧
      HoldsBits [0xE3780000] 13 ([true, true] ++ List.replicate (2 - 1) true ++ [false] ++ msbBits (2 * 2) 3 ++
        [15].flatMap (fun y => false :: msbBits (2 * 2) y)) := by unfold HoldsBits BitsFrom; decide +kernel

/-- The two Mark 1 contexts of ARI1-2. -/
def markOne : List ContextFields :=
  [⟨2, 2, 8, 1, 0, [⟨2, 3, 7, 1⟩, ⟨3, 1, 8, 0⟩]⟩, ⟨2, 2, 8, 1, 0, [⟨2, 1, 100, 0⟩, ⟨3, 1, 200, 1⟩]⟩]

/-- The hypotheses of the Huffman clause of Obligations.Cdp1TableCodecsComplete: HUF-1. -/
theorem witness_Cdp1TableCodecsComplete_huffman :
    fieldA (stream 0x2 hufBytes).lcmd = 0 ∧ 6 ≤ (stream 0x2 hufBytes).params.slotCap ∧ (stream 0x2 hufBytes).larg0.toNat + 1 ≤ (stream 0x2 hufBytes).lInLen.toNat ∧
      cdp1Table (stream 0x2 hufBytes).inView (loadCdp1 (stream 0x2 hufBytes).inView (levelsAt 1)) 1 =
        .ok (([[{ symbol := 0, occ := 5, val := 1, next := 0 }, { symbol := 1, occ := 2, val := 2, next := 0 },
          { symbol := 2, occ := 1, val := 3, next := 0 }, { symbol := -2, occ := 1, val := 4, next := 0 }]], [0xFFFFFFFB]), 39) ∧
      39 + 12 + 0 + 4 * ceilDiv32 11 ≤ (stream 0x2 hufBytes).lInLen.toNat ∧ (stream 0x2 hufBytes).inView.word 39 = u32 11 ∧ (stream 0x2 hufBytes).inView.word 43 = u32 6 ∧
      (stream 0x2 hufBytes).inView.word 47 = u32 (ceilDiv32 11) ∧ (stream 0x2 hufBytes).inView.byte 0 = 2 ∧
      huffmanDecode (wordsAt (stream 0x2 hufBytes).inView 51 (ceilDiv32 11)) 11 6
        [[{ symbol := 0, occ := 5, val := 1, next := 0 }, { symbol := 1, occ := 2, val := 2, next := 0 },
          { symbol := 2, occ := 1, val := 3, next := 0 }, { symbol := -2, occ := 1, val := 4, next := 0 }]] [0xFFFFFFFB] 55 = .ok [1, 2, 0xFFFFFFFB, 3, 1, 1] := by decide +kernel

/-- The hypotheses of the arithmetic clause of Obligations.Cdp1TableCodecsComplete: ARI1-2. -/
theorem witness_Cdp1TableCodecsComplete_arithmetic :
    fieldA (stream 0x2 arc1Bytes).lcmd = 0 ∧
      cdp1Table (stream 0x2 arc1Bytes).inView (loadCdp1 (stream 0x2 arc1Bytes).inView (levelsAt 1)) 1 =
        .ok (([[{ symbol := 0, occ := 3, val := 7, next := 1 }, { symbol := 1, occ := 1, val := 8, next := 0 }],
          [{ symbol := 0, occ := 1, val := 100, next := 0 }, { symbol := 1, occ := 1, val := 200, next := 1 }]], []), 38) ∧
      38 + 12 + 4 + 4 * ceilDiv32 6 ≤ (stream 0x2 arc1Bytes).lInLen.toNat ∧ (stream 0x2 arc1Bytes).inView.word 38 = u32 6 ∧ (stream 0x2 arc1Bytes).inView.word 42 = u32 6 ∧
      (stream 0x2 arc1Bytes).inView.word 50 = u32 (ceilDiv32 6) ∧ (stream 0x2 arc1Bytes).inView.byte 0 = 3 ∧
      arithDecode (wordsAt (stream 0x2 arc1Bytes).inView 54 (ceilDiv32 6)) 6 6
        [[{ symbol := 0, occ := 3, val := 7, next := 1 }, { symbol := 1, occ := 1, val := 8, next := 0 }],
          [{ symbol := 0, occ := 1, val := 100, next := 0 }, { symbol := 1, occ := 1, val := 200, next := 1 }]] [] 58 = .ok [7, 200, 200, 200, 100, 7] := by decide +kernel

/-- The hypotheses of the table clauses of Obligations.Cdp1TableCodecsComplete: ARI1-2, HUF-1, a table of no contexts, and a width of 33. -/
theorem witness_Cdp1TableCodecsComplete_contexts :
    (∀ c ∈ markOne, c.Fits) ∧ 2 + 4 * ceilDiv32 (markOne.flatMap (ContextFields.bits 32 6)).length = 34 ∧
      34 + 4 ≤ (stream 0x2 arc1Bytes).inView.inLen ∧ (stream 0x2 arc1Bytes).inView.byte 1 = BitVec.ofNat 8 markOne.length ∧
      HoldsAt (stream 0x2 arc1Bytes).inView 2 (markOne.flatMap (ContextFields.bits 32 6)) ∧ (stream 0x2 arc1Bytes).inView.word 34 = 0 ∧
      0 < ((stream 0x2 hufBytes).inView.word 18).toInt ∧ loadCdp1 (stream 0x2 hufBytes).inView (levelsAt 1) 22 = .ok ([0xFFFFFFFB], 39) ∧
      (stream 0x2 [3, 0]).inView.byte 1 = 0 ∧
      HoldsAt (stream 0x2 [2, 1, 1, 0, 0, 0, 0, 0x41, 0x10, 0x84, 0, 0, 0, 0]).inView 2 (contextHeader 32 6 1 33 1 1 1 0) := by unfold ContextFields.Fits HoldsAt; decide +kernel

/-- An entry with a count and a value, staying in its context. -/
def entry (occ : Nat) (val : Word) : CtxEntry := { symbol := 0, occ := occ, val := val, next := 0 }

/-- The hypotheses of Obligations.HuffmanMajorityCode: the counts (5, 2, 1, 1) of R225. -/
theorem witness_HuffmanMajorityCode :
    ∃ t, ([] : List CtxEntry) ++ [entry 2 2, entry 1 3, entry 1 4] ≠ [] ∧
      totalCount ([] ++ [entry 2 2, entry 1 3, entry 1 4]) < (entry 5 1).occ ∧
      buildTree 0 ([] ++ entry 5 1 :: [entry 2 2, entry 1 3, entry 1 4]) = .ok t := ⟨_, by decide, by decide, rfl⟩

/-- The hypotheses of Obligations.HuffmanWalk can be met. -/
theorem witness_HuffmanWalk :
    ((entry 5 1).next = 0 ∧ (entry 5 1).symbol ≠ -2 ∧ CtxEntry.symbol { entry 5 1 with symbol := -2 } = -2) ∧
      (entry 1 7).occ < (entry 2 8).occ ∧ (entry 1 7).occ + (entry 2 8).occ < 2 ^ 32 ∧ HoldsBits [0xA0000000] 3 [true, false, true] := by unfold HoldsBits BitsFrom; decide +kernel

/-- The hypotheses of Obligations.DeqQuantCompletes can be met. -/
theorem witness_DeqQuantCompletes :
    State.larg2 { slot0 [0, 1] with larg2 := 1 } ≠ 0 ∧ (slot0 [0, 1]).params.quantEval = .reference := by decide

/-- The hypotheses of Obligations.DeqQuantBits can be met. -/
theorem witness_DeqQuantBits :
    (slot0 [1]).larg2 = 0 ∧ 32 ≤ (State.larg2 { slot0 [] with larg2 := 32 }).toNat ∧
      ∃ t, exec (.deqQuant 0 1) { slot0 [] with larg2 := 40 } = .next t := ⟨rfl, by decide, ⟨_, rfl⟩⟩

/-- The hypotheses of Obligations.BinaryRounding can be met. -/
theorem witness_BinaryRounding :
    0 < 2 ∧ ofBits32 0x00000001 ≠ .nan := by decide

/-- The hypotheses of Obligations.DeqExpmant can be met. -/
theorem witness_DeqExpmant :
    ((slot0 [127]).setSlot 1 [0]).slot 0 = [127] ∧ ((slot0 [127]).setSlot 1 [0]).slot 1 = [0] ∧
      ((slot0 [127]).slot 0).length ≠ ((slot0 [127]).slot 1).length := by decide +kernel

/-- The hypotheses of Obligations.DeqDeeringCompletes can be met. -/
theorem witness_DeqDeeringCompletes :
    (6#4).toNat ≤ 13 ∧ (deering 5 7 64 0).larg0 &&& 0xFFE0E0E0 = 0 ∧
      (deering 5 7 64 0).larg0.extractLsb' 0 5 ≠ (deering 5 7 64 0).larg0.extractLsb' 8 5 ∧ (deering 5 7 64 0).larg0.extractLsb' 8 5 ≠ (deering 5 7 64 0).larg0.extractLsb' 16 5 ∧
      (deering 5 7 64 0).larg0.extractLsb' 0 5 ≠ (deering 5 7 64 0).larg0.extractLsb' 16 5 ∧ ((deering 5 7 64 0).slot 1).length = ((deering 5 7 64 0).slot 0).length ∧
      ((deering 5 7 64 0).slot 2).length = ((deering 5 7 64 0).slot 0).length ∧ ((deering 5 7 64 0).slot 3).length = ((deering 5 7 64 0).slot 0).length ∧
      0 < ((deering 5 7 64 0).slot 0).length ∧
      ∀ i, i < ((deering 5 7 64 0).slot 0).length →
        (((deering 5 7 64 0).slot 0).getD i 0).toNat ≤ 5 ∧ (((deering 5 7 64 0).slot 1).getD i 0).toNat ≤ 7 ∧
        (((deering 5 7 64 0).slot 2).getD i 0).toNat * 2 ^ (13 - (6#4).toNat) ≤ 8192 ∧
        (((deering 5 7 64 0).slot 3).getD i 0).toNat * 2 ^ (13 - (6#4).toNat) ≤ 8192 := by decide +kernel

/-- The hypotheses of the failing clauses of Obligations.DeqDeeringCompletes (C-8, DEER-M, DEER-E1, DEER-E3). -/
theorem witness_DeqDeeringCompletes_errors :
    13 < (14#4).toNat ∧ (0x00060584#32) &&& 0xFFE0E0E0 ≠ 0 ∧
      (0x00060606#32).extractLsb' 0 5 = (0x00060606#32).extractLsb' 8 5 ∧
      (State.slot { slot0 [1] with larg0 := 0x00060504 } 1).length ≠ (State.slot { slot0 [1] with larg0 := 0x00060504 } 0).length ∧
      8192 < (((deering 0 7 65 0).slot 2).getD 0 0).toNat * 2 ^ (13 - (6#4).toNat) ∧
      5 < (((deering 6 7 0 0).slot 0).getD 0 0).toNat ∧ 0 < ((deering 6 7 0 0).slot 0).length := by decide +kernel

/-- The hypotheses of Obligations.VtxPack can be met. -/
theorem witness_VtxPack :
    ((slot0 [1]).slot 1).length ≠ ((slot0 [1]).slot 0).length ∧ ((slot0 [1]).slot 0).length = ((slot0 [1]).slot 0).length ∧
      3 * ((slot0 [1]).slot 0).length ≤ (slot0 [1]).params.slotCap ∧
      (State.params { slot0 [1] with params := { Params.reference with slotCap := 2 } }).slotCap < 3 * ((slot0 [1]).slot 0).length := by decide +kernel

/-- The hypotheses of Obligations.TopoRunOnEmptyStreams can be met. -/
theorem witness_TopoRunOnEmptyStreams :
    (State.reset.roleStream roleValence).getD [] = [] ∧ (∀ r : Role, r.val ≤ 14 → (State.reset.roleStream r).getD [] = []) ∧
      ((State.setSlot tetra 0 []).roleStream roleValence).getD [] = [] ∧
      ((State.setSlot tetra 0 []).roleStream 0).getD [] ≠ [] ∧
      ∀ q : Role, q.val < (0 : Role).val → ((State.setSlot tetra 0 []).roleStream q).getD [] = [] := by decide +kernel

/-- Reset with the streams of the list in the slots of their roles' numbers, every other role unassigned. -/
def withRoles (l : List (Role × List Word)) : State :=
  { State.reset with
    roleMap := Vector.ofFn fun r => ⟨BitVec.ofNat 5 r.val, (l.lookup r).isSome⟩
    slots := Vector.ofFn fun k => if h : k.val < 17 then (l.lookup ⟨k.val, h⟩).getD [] else [] }

/-- The hypotheses of the first-vertex clauses of Obligations.TopoRunOnEmptyStreams. -/
theorem witness_TopoRunOnEmptyStreams_first :
    (∀ l ∈ [[(roleValence, [1#32])], [(roleValence, [3#32])], [(roleValence, [3#32]), (1, [1#32])],
        [(roleValence, [3#32]), (1, [0#32])], [(roleValence, [3#32]), (1, [0#32]), (roleSplitFace, [0#32])],
        [(roleValence, [3#32]), (1, [3#32]), (roleAmask0, [8#32])], [(roleValence, [3#32]), (1, [3#32]), (roleAmask0, [])],
        [(roleValence, [3#32]), (roleGroup, [])], [(roleValence, [3#32]), (roleGroup, [7#32]), (roleFlags, [])],
        [(roleValence, [3#32]), (roleGroup, [7#32]), (roleFlags, [9#32])]],
      ∀ r : Role, r.val ≤ 14 → (withRoles l).roleStream r = l.lookup r) ∧
      (1#32).toInt < 2 ∧ 2 ≤ (3#32).toInt ∧ (3#32).toInt ≤ State.reset.params.maxValence ∧ 0 < State.reset.params.maxVtx ∧
      (3#32).toNat ≤ State.reset.params.maxIncid ∧ (3#32).toInt ≤ State.reset.params.maxDegree ∧
      2 ^ (3#32).toNat ≤ (8#32).toNat ∧ Params.maxVtx { Params.reference with maxVtx := 0 } = 0 ∧
      Params.maxIncid { Params.reference with maxIncid := 2 } < (3#32).toNat := by decide +kernel

/-- The streams of Obligations.TopoRunWorkedMeshes. -/
def workedStreams : List (List (Role × List Word)) := [
    [(8, [3, 3, 3, 3]), (0, [3, 3, 3]), (1, [3])],
    [(8, [3, 3, 3, 3]), (0, [3, 3, 3]), (1, [3]), (11, [5, 0, 1, 7])],
    [(8, [3, 3, 3, 3, 3, 3, 3, 3]), (0, [3, 3, 3, 3, 3, 3]), (1, [3, 3])],
    [(8, [4, 4, 4, 4, 4, 4, 4, 4, 4]), (4, [4, 4, 4, 4, 4, 4, 4, 4, 4, 0, 0]), (13, [4, 3]), (14, [1, 2])],
    [(8, [3, 3, 3, 3]), (0, [3, 3, 3, 3]), (1, [3])],
    [(8, [3, 3, 3]), (0, [3, 3, 3]), (1, [3])],
    [(8, [3])],
    [(8, [3]), (1, [3]), (0, [0]), (13, [0]), (14, [0])],
    [(8, [3]), (1, [3]), (0, [0]), (13, [0]), (14, [3])],
    [(8, [3]), (1, [3]), (0, [0]), (13, [1]), (14, [1])],
    [(8, [3]), (1, [3]), (0, [0]), (13, [0]), (14, [1])],
    [(8, [3, 3, 3, 3]), (0, [3, 3, 3]), (1, [3]), (11, [8, 0, 0, 0])],
    [(8, [3, 3, 3, 3]), (0, [3, 3, 3]), (1, [3]), (12, [1])],
    [(8, [2, 4, 3]), (7, [2, 2]), (14, [1])],
    [(8, [2, 3, 2, 4]), (0, [2, 3]), (7, [3, 3, 0])]]

/-- The hypotheses of Obligations.TopoRunWorkedMeshes can be met. -/
theorem witness_TopoRunWorkedMeshes :
    tetra.params = Params.reference ∧ tetra.RoleStreams [(8, [3, 3, 3, 3]), (0, [3, 3, 3]), (1, [3])] := by unfold State.RoleStreams; decide +kernel

/-- The hypotheses on the streams of Obligations.TopoRunWorkedMeshes can be met, for each list of streams. -/
theorem witness_TopoRunWorkedMeshes_all :
    ∀ l ∈ workedStreams, (withRoles l).params = Params.reference ∧
      ∀ r : Role, r.val ≤ 14 → (withRoles l).roleStream r = l.lookup r := by decide +kernel

/-- A run with one face of degree 3, its slot 0 held by vertex 0, on the queue, and a split read at vertex 0. -/
def oneFace : Topo :=
  { Topo.start with
    vertices := [⟨0, 0, [some 0, none, none]⟩], faces := [⟨0, [false, false, false], 0, [some 0, none, none]⟩], aq := [0] }

/-- The streams of a split at queue offset 0 and position `pos`. -/
def splitEnv (off pos : Word) : TopoEnv :=
  (withRoles [(0, [0]), (roleSplitFace, [off]), (roleSplitPos, [pos])]).topoEnv

/-- The hypotheses of the split and context clauses of Obligations.TopoRunWorkedMeshes: position 1 is empty, 0 is filled, 3 is outside, and offset 1 is past the queue. -/
theorem witness_TopoRunWorkedMeshes_split :
    (0 : Role) = roleDegree (topoCtx oneFace 0) ∧ ((splitEnv 0 1).stream 0)[oneFace.cursors[(0 : Role)]]? = some 0 ∧
      ((splitEnv 0 1).stream roleSplitFace)[oneFace.cursors[roleSplitFace]]? = some 0 ∧
      ((splitEnv 0 1).stream roleSplitPos)[oneFace.cursors[roleSplitPos]]? = some 1 ∧
      oneFace.aq.reverse[(0#32).toNat]? = some 0 ∧ (oneFace.fring 0)[(1#32).toNat]? = some none ∧
      (oneFace.fring 0)[(0#32).toNat]? = some (some 0) ∧ ((oneFace.fring 0).length : Int) ≤ (3#32).toInt ∧
      (oneFace.aq.length : Int) ≤ (1#32).toInt ∧
      oneFace.vertices[0]? = some ⟨0, 0, [some 0, none, none]⟩ := by decide +kernel

/-- The hypotheses of the attribute clause of Obligations.TopoRunWorkedMeshes. -/
theorem witness_TopoRunWorkedMeshes_ids :
    ∃ t, exec .topoRun tetraMasks = .next t ∧ t.meshValid = true := ends_next (p := fun t => t.meshValid) (by decide +kernel)

/-- The hypotheses of Obligations.TopoEmitCorners can be met. -/
theorem witness_TopoEmitCorners :
    State.roleSlot { pillow with roleMap := tetra.roleMap } roleCornerVtx = some 5 ∧ State.roleSlot { pillow with roleMap := tetra.roleMap } roleCornerAttr ≠ some 5 ∧
      State.meshValid { pillow with roleMap := tetra.roleMap } = true ∧ sumDegree pillow.mesh.faces ≤ pillow.params.slotCap ∧
      pillow.mesh.faces[1]? = some ⟨0, [false, false], 0, [some 1, some 0]⟩ ∧
      State.reset.roleSlot roleCornerVtx = none ∧ tetra.roleSlot roleCornerVtx ≠ none ∧
      tetra.roleSlot roleCornerVtx ≠ tetra.roleSlot roleCornerAttr ∧ tetra.meshValid = false ∧
      (Params.slotCap { Params.reference with slotCap := 3 }) < sumDegree pillow.mesh.faces := by decide +kernel

/-- The hypotheses of Obligations.VtxFaceAttrRotation can be met. -/
theorem witness_VtxFaceAttrRotation :
    (Face.mk 0 [true, false, true] 0 [none, none, none]).amask.length = (Face.mk 0 [true, false, true] 0 [none, none, none]).degree ∧
      1 < (Face.mk 0 [true, false, true] 0 [none, none, none]).degree ∧
      (Face.mk 0 [false] 0 [none]).nattr = 0 ∧
      (Face.mk 0 [true, false, true] 0 [none, none, none]).amask.getD 2 false = true ∧
      (Face.mk 0 [true, false, true] 0 [none, none, none]).amask.getD 1 false = false ∧
      0 < (Face.mk 0 [true, false, true] 0 [none, none, none]).nattr := by decide +kernel

end Sys2Proof.Tests
end

/-! What a TOPO_RUN that succeeds leaves (46_topology.md): a predicate on the working state that every link keeps is
kept by every loop of links, and the loops over faces and vertices leave no empty slot behind. -/

namespace Sys2Proof.Machine

/-! What a step of the decoder ensures. -/

/-- If the step `m` succeeds from `t`, its value and the state after it meet `Q`. -/
def TopoM.Ensures {α : Type} (m : TopoM α) (t : Topo) (Q : α → Topo → Prop) : Prop :=
  ∀ a u, m t = .ok (a, u) → Q a u

section
variable {α β : Type} {m : TopoM α} {t : Topo} {Q R : α → Topo → Prop}

theorem TopoM.Ensures.mono (h : TopoM.Ensures m t Q) (hQ : ∀ a u, Q a u → R a u) : TopoM.Ensures m t R :=
  fun a u hm => hQ a u (h a u hm)

theorem TopoM.Ensures.and (h : TopoM.Ensures m t Q) (h' : TopoM.Ensures m t R) :
    TopoM.Ensures m t fun a u => Q a u ∧ R a u :=
  fun a u hm => ⟨h a u hm, h' a u hm⟩

/-- A sequence ensures what its second half ensures from wherever the first ends. -/
theorem TopoM.Ensures.bind {f : α → TopoM β} {S : β → Topo → Prop} (h : TopoM.Ensures m t Q)
    (hf : ∀ a u, Q a u → TopoM.Ensures (f a) u S) : TopoM.Ensures (m >>= f) t S := by
  intro b u hu
  obtain ⟨a, w, hm, hb⟩ := TopoM.bind_ok.1 hu
  exact hf a w (h a w hm) b u hb

theorem TopoM.ensures_pure {a : α} (h : Q a t) : TopoM.Ensures (pure a) t Q := by
  intro b u hu
  cases hu
  exact h

theorem TopoM.ensures_raise (c : ErrCode) (i : Nat) : TopoM.Ensures (topoRaise c i) t Q := fun _ _ h => nomatch h

theorem TopoM.ensures_stuck : TopoM.Ensures topoStuck t Q := fun _ _ h => nomatch h

theorem TopoM.ensures_get_bind {f : Topo → TopoM β} {S : β → Topo → Prop} (h : TopoM.Ensures (f t) t S) :
    TopoM.Ensures (get >>= f) t S := h

theorem TopoM.ensures_set_bind {v : Topo} {f : PUnit → TopoM β} {S : β → Topo → Prop}
    (h : TopoM.Ensures (f ()) v S) : TopoM.Ensures (set v >>= f) t S := h

theorem TopoM.ensures_modify {g : Topo → Topo} {S : PUnit → Topo → Prop} (h : S () (g t)) :
    TopoM.Ensures (modify g) t S := by
  intro b u hu
  cases hu
  exact h

theorem TopoM.ensures_modify_bind {g : Topo → Topo} {f : PUnit → TopoM β} {S : β → Topo → Prop}
    (h : TopoM.Ensures (f ()) (g t) S) : TopoM.Ensures (modify g >>= f) t S := h

end

/-! The rings. -/

theorem Topo.vfaceAt_eq (t : Topo) (v j : Nat) : t.vfaceAt v j = (t.vring v)[j]? := by
  unfold Topo.vfaceAt Topo.vring
  cases t.vertices[v]? <;> simp

theorem Topo.fvtxAt_eq (t : Topo) (f s : Nat) : t.fvtxAt f s = (t.fring f)[s]? := by
  unfold Topo.fvtxAt Topo.fring
  cases t.faces[f]? <;> simp

/-- The two writes of a link: face `f` in slot `j` of vertex `v`, and `v` in slot `s` of `f` (R324). -/
def Topo.fill (t : Topo) (v j f s : Nat) : Topo := (t.setVface v j f).setFvtx f s v

theorem Topo.vring_fill (t : Topo) (v j f s w : Nat) :
    (t.fill v j f s).vring w = if w = v then (t.vring v).set j (some f) else t.vring w := by
  simp only [Topo.fill, Topo.setFvtx, Topo.setVface, Topo.vring, List.getElem?_modify]
  by_cases h : w = v
  · subst h
    cases t.vertices[w]? <;> simp
  · simp [h, Ne.symm h]

theorem Topo.fring_fill (t : Topo) (v j f s g : Nat) :
    (t.fill v j f s).fring g = if g = f then (t.fring f).set s (some v) else t.fring g := by
  simp only [Topo.fill, Topo.setFvtx, Topo.setVface, Topo.fring, List.getElem?_modify]
  by_cases h : g = f
  · subst h
    cases t.faces[g]? <;> simp
  · simp [h, Ne.symm h]

@[simp] theorem Topo.aq_addFace (t : Topo) (deg : Nat) (mask : List Bool) :
    (t.addFace deg mask).aq = t.aq ++ [t.faces.length] := rfl

@[simp] theorem Topo.vring_addFace (t : Topo) (deg : Nat) (mask : List Bool) (v : Nat) :
    (t.addFace deg mask).vring v = t.vring v := rfl

/-- The ring at place `i` of a table that got one entry more. -/
theorem getD_map_append_singleton {γ : Type} (xs : List γ) (x : γ) (ring : γ → List (Option Nat)) (i : Nat) :
    (((xs ++ [x])[i]?).map ring).getD [] = if i = xs.length then ring x else ((xs[i]?).map ring).getD [] := by
  rcases lt_trichotomy i xs.length with h | rfl | h
  · simp [List.getElem?_append_left h, h.ne]
  · simp
  · have h1 : (xs ++ [x])[i]? = none := List.getElem?_eq_none (by simp; omega)
    have h2 : xs[i]? = none := List.getElem?_eq_none h.le
    simp [h1, h2, h.ne']

theorem Topo.fring_addFace (t : Topo) (deg : Nat) (mask : List Bool) (f : Nat) :
    (t.addFace deg mask).fring f = if f = t.faces.length then List.replicate deg none else t.fring f :=
  getD_map_append_singleton _ _ _ _

@[simp] theorem Topo.fring_addVertex (t : Topo) (val : Nat) (grp flg : Word) (f : Nat) :
    (t.addVertex val grp flg).fring f = t.fring f := rfl

theorem Topo.vring_addVertex (t : Topo) (val : Nat) (grp flg : Word) (v : Nat) :
    (t.addVertex val grp flg).vring v = if v = t.vertices.length then List.replicate val none else t.vring v :=
  getD_map_append_singleton _ _ _ _

/-! Reads of the tables and of the streams. -/

section
variable {t : Topo}

theorem ringSlot_ensures {ring : List (Option Nat)} {x : Nat} {Q : Nat → Topo → Prop} (h : ∀ k, Q k t) :
    TopoM.Ensures (ringSlot ring x) t Q := by
  unfold ringSlot
  split
  · exact TopoM.ensures_pure (h _)
  · exact TopoM.ensures_raise _ _

/-- `vslot` changes nothing. -/
theorem vslot_ensures {v f : Nat} {Q : Nat → Topo → Prop} (h : ∀ k, Q k t) : TopoM.Ensures (vslot v f) t Q :=
  TopoM.ensures_get_bind (ringSlot_ensures h)

/-- `fslot` changes nothing. -/
theorem fslot_ensures {f v : Nat} {Q : Nat → Topo → Prop} (h : ∀ k, Q k t) : TopoM.Ensures (fslot f v) t Q :=
  TopoM.ensures_get_bind (ringSlot_ensures h)

/-- `vertexBefore` changes nothing. -/
theorem vertexBefore_ensures {x : Nat} {f : Option Nat} {Q : Option Nat → Topo → Prop} (h : ∀ w, Q w t) :
    TopoM.Ensures (vertexBefore x f) t Q := by
  cases f with
  | none => exact TopoM.ensures_pure (h _)
  | some f =>
    exact (fslot_ensures (Q := fun _ u => u = t) fun _ => rfl).bind fun k u hu =>
      hu ▸ TopoM.ensures_get_bind (TopoM.ensures_pure (h _))

/-- `vertexAfter` changes nothing. -/
theorem vertexAfter_ensures {x : Nat} {g : Option Nat} {Q : Option Nat → Topo → Prop} (h : ∀ w, Q w t) :
    TopoM.Ensures (vertexAfter x g) t Q := by
  cases g with
  | none => exact TopoM.ensures_pure (h _)
  | some g =>
    exact (fslot_ensures (Q := fun _ u => u = t) fun _ => rfl).bind fun k u hu =>
      hu ▸ TopoM.ensures_get_bind (TopoM.ensures_pure (h _))

end

/-! What links keep. -/

/-- A predicate that a change of the worklist and a link of two empty slots keep (R324). -/
structure LinkStable (P : Topo → Prop) : Prop where
  setWork : ∀ {t : Topo} (wl : List (Nat × Nat)), P t → P (t.setWork wl)
  fill : ∀ {t : Topo} {v j f s : Nat}, P t → (t.vring v)[j]? = some none → (t.fring f)[s]? = some none →
    some f ∉ t.vring v → some v ∉ t.fring f → P (t.fill v j f s)

section
variable {P : Topo → Prop} {t : Topo}

theorem pushWork_keeps (hP : LinkStable P) (x : Nat × Nat) (h : P t) : TopoM.Ensures (pushWork x) t fun _ u => P u :=
  TopoM.ensures_modify (hP.setWork _ h)

theorem pushNeighbour_keeps (hP : LinkStable P) (v f : Nat) (w : Option Nat) (back : Bool) (h : P t) :
    TopoM.Ensures (pushNeighbour v f w back) t fun _ u => P u := by
  cases w with
  | none => exact TopoM.ensures_pure h
  | some w =>
    simp only [pushNeighbour]
    split
    · exact TopoM.ensures_pure h
    · exact (vslot_ensures fun _ => h).bind fun _ u hu => TopoM.ensures_get_bind (pushWork_keeps hP _ hu)

/-- The part of a link after its checks keeps what holds once the two slots are filled. -/
theorem linkSlots_keeps (hP : LinkStable P) {v j f s : Nat} (h : P (t.fill v j f s)) :
    TopoM.Ensures (linkSlots v j f s) t fun _ u => P u :=
  TopoM.ensures_modify_bind <| TopoM.ensures_get_bind <|
    (pushWork_keeps hP _ h).bind fun _ _ h => (pushWork_keeps hP _ h).bind fun _ _ h =>
      (pushNeighbour_keeps hP _ _ _ _ h).bind fun _ _ h => pushNeighbour_keeps hP _ _ _ _ h

/-- All a link can do: nothing, where it is already there, or the two writes, into empty slots of rings that do not
hold the link yet (R324). -/
theorem link_ensures {v j f s : Nat} {Q : Unit → Topo → Prop}
    (hold : (t.vring v)[j]? = some (some f) → Q () t)
    (hnew : (t.vring v)[j]? = some none → (t.fring f)[s]? = some none → some f ∉ t.vring v → some v ∉ t.fring f →
      TopoM.Ensures (linkSlots v j f s) t Q) :
    TopoM.Ensures (link v j f s) t Q := by
  refine TopoM.ensures_get_bind ?_
  simp only [Topo.vfaceAt_eq, Topo.fvtxAt_eq]
  split
  · next h => exact TopoM.ensures_pure (hold h.1)
  · split
    · exact TopoM.ensures_raise _ _
    · next hempty =>
      split
      · exact TopoM.ensures_raise _ _
      · next hnot =>
        simp only [ne_eq, not_or, not_not, List.contains_iff_mem] at hempty hnot
        obtain ⟨hv, hf⟩ := hempty
        obtain ⟨hfv, hvf⟩ := hnot
        exact hnew hv hf hfv hvf

theorem link_keeps (hP : LinkStable P) (v j f s : Nat) (h : P t) : TopoM.Ensures (link v j f s) t fun _ u => P u :=
  link_ensures (fun _ => h) fun hv hf hfv hvf => linkSlots_keeps hP (hP.fill h hv hf hfv hvf)

theorem closeCases_keeps (hP : LinkStable P) (x k : Nat) (f g wf wg : Option Nat) (h : P t) :
    TopoM.Ensures (closeCases x k f g wf wg) t fun _ u => P u := by
  unfold closeCases
  split
  · exact (vslot_ensures fun _ => h).bind fun _ _ h => (fslot_ensures fun _ => h).bind fun _ _ h =>
      TopoM.ensures_get_bind (link_keeps hP _ _ _ _ h)
  · exact (vslot_ensures fun _ => h).bind fun _ _ h => (fslot_ensures fun _ => h).bind fun _ _ h =>
      TopoM.ensures_get_bind (link_keeps hP _ _ _ _ h)
  · refine (vslot_ensures fun _ => h).bind fun _ _ h => TopoM.ensures_get_bind ?_
    split
    · exact TopoM.ensures_pure h
    · exact (fslot_ensures fun _ => h).bind fun _ _ h => TopoM.ensures_get_bind (link_keeps hP _ _ _ _ h)
  · refine (vslot_ensures fun _ => h).bind fun _ _ h => TopoM.ensures_get_bind ?_
    split
    · exact TopoM.ensures_pure h
    · exact (fslot_ensures fun _ => h).bind fun _ _ h => TopoM.ensures_get_bind (link_keeps hP _ _ _ _ h)
  · exact TopoM.ensures_pure h

theorem closeEdge_keeps (hP : LinkStable P) (x k : Nat) (h : P t) :
    TopoM.Ensures (closeEdge x k) t fun _ u => P u := by
  refine TopoM.ensures_get_bind <| (vertexBefore_ensures fun _ => h).bind fun wf _ h =>
    (vertexAfter_ensures fun _ => h).bind fun wg _ h => ?_
  split
  · exact TopoM.ensures_raise _ _
  · exact closeCases_keeps hP _ _ _ _ _ _ h

theorem closeAll_keeps (hP : LinkStable P) (fuel : Nat) (h : P t) : TopoM.Ensures (closeAll fuel) t fun _ u => P u := by
  induction fuel generalizing t with
  | zero =>
    refine TopoM.ensures_get_bind ?_
    split
    · exact TopoM.ensures_pure h
    · exact TopoM.ensures_stuck
  | succ fuel ih =>
    refine TopoM.ensures_get_bind ?_
    split
    · exact TopoM.ensures_pure h
    · exact TopoM.ensures_set_bind ((closeEdge_keeps hP _ _ (hP.setWork _ h)).bind fun _ _ h => ih h)

theorem topLink_keeps (hP : LinkStable P) (v j f s : Nat) (h : P t) :
    TopoM.Ensures (topLink v j f s) t fun _ u => P u :=
  (link_keeps hP v j f s h).bind fun _ _ h => TopoM.ensures_get_bind (closeAll_keeps hP _ h)

end

/-! What a link and an activation of slot `j` of vertex `v` fill. -/

/-- Slot `j` of vertex `v` holds a face. -/
def Topo.Filled (v j : Nat) (t : Topo) : Prop := ∃ f, (t.vring v)[j]? = some (some f)

theorem Topo.Filled.fill {v j : Nat} {t : Topo} (h : Topo.Filled v j t) (v' j' f s : Nat) :
    Topo.Filled v j (t.fill v' j' f s) := by
  obtain ⟨g, hg⟩ := h
  unfold Topo.Filled
  rw [Topo.vring_fill]
  split
  · next hv =>
    subst hv
    rw [List.getElem?_set]
    split
    · next hj =>
      subst hj
      exact ⟨f, by rw [if_pos (List.getElem?_eq_some_iff.1 hg).1]⟩
    · exact ⟨g, hg⟩
  · exact ⟨g, hg⟩

theorem Topo.Filled.linkStable (v j : Nat) : LinkStable (Topo.Filled v j) where
  setWork := fun _ h => h
  fill := fun h _ _ _ _ => h.fill _ _ _ _

theorem link_fills {t : Topo} (v j f s : Nat) : TopoM.Ensures (link v j f s) t fun _ u => Topo.Filled v j u := by
  refine link_ensures (fun h => ⟨f, h⟩) fun hv _ _ _ => linkSlots_keeps (Topo.Filled.linkStable v j) ⟨f, ?_⟩
  have hj : j < (t.vring v).length := (List.getElem?_eq_some_iff.1 hv).1
  simp [Topo.vring_fill, hj]

theorem topLink_fills {t : Topo} (v j f s : Nat) :
    TopoM.Ensures (topLink v j f s) t fun _ u => Topo.Filled v j u :=
  (link_fills v j f s).bind fun _ _ h => TopoM.ensures_get_bind (closeAll_keeps (Topo.Filled.linkStable v j) _ h)

/-! What an activation of faces keeps. -/

/-- A predicate that links, stream reads and new faces keep. -/
structure FaceStable (P : Topo → Prop) : Prop extends LinkStable P where
  cursors : ∀ {t : Topo} (c : Vector Nat 17), P t → P { t with cursors := c }
  addFace : ∀ {t : Topo} (deg : Nat) (mask : List Bool), P t → P (t.addFace deg mask)

section
variable {P : Topo → Prop} {t : Topo} (e : TopoEnv)

/-- A stream read moves one cursor. -/
theorem topoRead_keeps (hc : ∀ {t : Topo} (c : Vector Nat 17), P t → P { t with cursors := c }) (r : Role) (h : P t) :
    TopoM.Ensures (topoRead e r) t fun _ u => P u := by
  intro x u hu
  rcases topoRead_cases e r t with ⟨y, -, hy⟩ | ⟨-, hy⟩
  · rw [hy] at hu
    cases hu
    exact hc _ h
  · exact nomatch hy.symm.trans hu

theorem topoReadOr0_keeps (hc : ∀ {t : Topo} (c : Vector Nat 17), P t → P { t with cursors := c }) (r : Role)
    (h : P t) : TopoM.Ensures (topoReadOr0 e r) t fun _ u => P u := by
  unfold topoReadOr0
  split
  · exact topoRead_keeps e hc r h
  · exact TopoM.ensures_pure h

theorem maskWords_keeps (hP : FaceStable P) (n w : Nat) (h : P t) :
    TopoM.Ensures (maskWords e n w) t fun _ u => P u := by
  induction n generalizing t w with
  | zero => exact TopoM.ensures_pure h
  | succ n ih =>
    exact (topoRead_keeps e hP.cursors _ h).bind fun _ _ h => (ih _ h).bind fun _ _ h => TopoM.ensures_pure h

theorem readMask_keeps (hP : FaceStable P) (deg : Nat) (h : P t) :
    TopoM.Ensures (readMask e deg) t fun _ u => P u := by
  unfold readMask
  split
  · refine (topoRead_keeps e hP.cursors _ h).bind fun _ _ h => ?_
    split
    · exact (maskWords_keeps e hP _ _ h).bind fun _ _ h => TopoM.ensures_pure h
    · exact TopoM.ensures_pure h
  · exact TopoM.ensures_pure h

theorem newFace_keeps (hP : FaceStable P) (deg : Nat) (h : P t) :
    TopoM.Ensures (newFace e deg) t fun _ u => P u := by
  refine (readMask_keeps e hP deg h).bind fun mask u h => ?_
  split
  · exact TopoM.ensures_raise _ _
  · refine TopoM.ensures_get_bind ?_
    split
    · exact TopoM.ensures_raise _ _
    · split
      · exact TopoM.ensures_raise _ _
      · exact TopoM.ensures_set_bind (TopoM.ensures_pure (hP.addFace _ _ h))

/-- An activation reads streams, may create a face, and ends in a `TopLink` of the slot it activates (R330, R331): it
ensures what every such `TopLink` ensures. -/
theorem activateF_ensures (hP : FaceStable P) {v j : Nat} {Q : Unit → Topo → Prop} (h : P t)
    (hlink : ∀ (u : Topo) (f s : Nat), P u → TopoM.Ensures (topLink v j f s) u Q) :
    TopoM.Ensures (activateF e v j) t Q := by
  refine TopoM.ensures_get_bind <| (topoRead_keeps e hP.cursors _ h).bind fun deg _ h => ?_
  split
  · split
    · exact TopoM.ensures_raise _ _
    · exact (newFace_keeps e hP _ h).bind fun f u h => hlink u f 0 h
  · split
    · refine (topoRead_keeps e hP.cursors _ h).bind fun off _ h => TopoM.ensures_get_bind ?_
      split
      · exact TopoM.ensures_raise _ _
      · refine (topoRead_keeps e hP.cursors _ h).bind fun pos _ h => ?_
        split
        · exact TopoM.ensures_raise _ _
        · split
          · exact TopoM.ensures_raise _ _
          · exact hlink _ _ _ h
    · exact TopoM.ensures_raise _ _

theorem activateF_keeps (hP : FaceStable P) (v j : Nat) (h : P t) :
    TopoM.Ensures (activateF e v j) t fun _ u => P u :=
  activateF_ensures e hP h fun _ _ _ h => topLink_keeps hP.toLinkStable _ _ _ _ h

theorem faceStable_true : FaceStable fun _ => True where
  setWork := fun _ _ => trivial
  fill := fun _ _ _ _ _ => trivial
  cursors := fun _ _ => trivial
  addFace := fun _ _ _ => trivial

theorem activateF_fills (v j : Nat) : TopoM.Ensures (activateF e v j) t fun _ u => Topo.Filled v j u :=
  activateF_ensures e faceStable_true trivial fun _ _ _ _ => topLink_fills _ _ _ _

theorem activateSlots_keeps (hP : FaceStable P) (v : Nat) (js : List Nat) (h : P t) :
    TopoM.Ensures (activateSlots e v js) t fun _ u => P u := by
  induction js generalizing t with
  | nil => exact TopoM.ensures_pure h
  | cons j js ih =>
    refine TopoM.ensures_get_bind ?_
    split
    · exact (activateF_keeps e hP v j h).bind fun _ _ h => ih h
    · exact ih h

end

theorem Topo.Filled.faceStable (v j : Nat) : FaceStable (Topo.Filled v j) where
  toLinkStable := Topo.Filled.linkStable v j
  cursors := fun _ h => h
  addFace := fun _ _ h => h

theorem Topo.filled_of_ringGet {t : Topo} {v j : Nat} (h : ringGet (t.vring v) j ≠ none) : Topo.Filled v j t := by
  unfold ringGet at h
  unfold Topo.Filled
  cases hj : (t.vring v)[j]? with
  | none => simp [hj] at h
  | some x =>
    cases x with
    | none => simp [hj] at h
    | some f => exact ⟨f, rfl⟩

/-- Every slot of the list is filled once `activateSlots` has gone through it (R310, R333). -/
theorem activateSlots_fills (e : TopoEnv) {t : Topo} (v : Nat) (js : List Nat) :
    TopoM.Ensures (activateSlots e v js) t fun _ u => ∀ j ∈ js, Topo.Filled v j u := by
  induction js generalizing t with
  | nil => exact TopoM.ensures_pure (by simp)
  | cons j js ih =>
    have hrest {u : Topo} (h : Topo.Filled v j u) :
        TopoM.Ensures (activateSlots e v js) u fun _ w => ∀ i ∈ j :: js, Topo.Filled v i w :=
      ((activateSlots_keeps e (Topo.Filled.faceStable v j) v js h).and ih).mono fun _ _ ⟨h, hs⟩ =>
        List.forall_mem_cons.2 ⟨h, hs⟩
    refine TopoM.ensures_get_bind ?_
    split
    · exact (activateF_fills e v j).bind fun _ _ h => hrest h
    · next h => exact hrest (Topo.filled_of_ringGet h)

/-! The run's own invariant. -/

/-- Every link is in both rings, and in each once (10_state.md R43). -/
def Topo.TwoSided (t : Topo) : Prop :=
  ∀ v f, (t.vring v).count (some f) = (t.fring f).count (some v) ∧ (t.vring v).count (some f) ≤ 1

/-- Links are two-sided, a face with an empty slot is in the active-face queue, and no vertex has an empty slot but the
one, if any, whose slots are being activated. -/
structure Topo.Sound (except : Option Nat) (t : Topo) : Prop where
  twoSided : t.TwoSided
  queued : ∀ f, none ∈ t.fring f → f ∈ t.aq
  full : ∀ v, except ≠ some v → none ∉ t.vring v

/-- A ring in which one empty slot is filled holds the new id once more. -/
theorem count_set_of_empty {ring : List (Option Nat)} {k x : Nat} (h : ring[k]? = some none) (y : Nat) :
    (ring.set k (some x)).count (some y) = ring.count (some y) + if y = x then 1 else 0 := by
  obtain ⟨hk, hx⟩ := List.getElem?_eq_some_iff.1 h
  rw [List.count_set hk, hx]
  simp [@eq_comm _ x]

theorem Topo.TwoSided.fill {t : Topo} {v j f s : Nat} (h : t.TwoSided) (hv : (t.vring v)[j]? = some none)
    (hf : (t.fring f)[s]? = some none) (hfv : some f ∉ t.vring v) (hvf : some v ∉ t.fring f) :
    (t.fill v j f s).TwoSided := by
  intro w g
  obtain ⟨heq, hle⟩ := h w g
  have hcount : ((t.fill v j f s).vring w).count (some g) =
      (t.vring w).count (some g) + if w = v ∧ g = f then 1 else 0 := by
    rw [Topo.vring_fill]
    split
    · next hw => subst hw; simp [count_set_of_empty hv]
    · next hw => simp [hw]
  have hcount' : ((t.fill v j f s).fring g).count (some w) =
      (t.fring g).count (some w) + if w = v ∧ g = f then 1 else 0 := by
    rw [Topo.fring_fill]
    split
    · next hg => subst hg; simp [count_set_of_empty hf]
    · next hg => simp [hg]
  rw [hcount, hcount', heq]
  refine ⟨rfl, ?_⟩
  split
  · next hwg =>
    obtain ⟨rfl, rfl⟩ := hwg
    rw [List.count_eq_zero.2 hvf]
  · rw [← heq]
    exact hle

/-- A ring that gets an id into a slot has no new empty slot. -/
theorem none_mem_of_mem_set {ring : List (Option Nat)} {k x : Nat} (h : none ∈ ring.set k (some x)) : none ∈ ring := by
  rcases List.mem_or_eq_of_mem_set h with h | h
  · exact h
  · exact nomatch h

theorem Topo.Sound.fill {except : Option Nat} {t : Topo} {v j f s : Nat} (h : Topo.Sound except t)
    (hv : (t.vring v)[j]? = some none) (hf : (t.fring f)[s]? = some none) (hfv : some f ∉ t.vring v)
    (hvf : some v ∉ t.fring f) : Topo.Sound except (t.fill v j f s) where
  twoSided := h.twoSided.fill hv hf hfv hvf
  queued := fun g hg => by
    rw [Topo.fring_fill] at hg
    split at hg
    · next hgf => exact h.queued g (hgf ▸ none_mem_of_mem_set hg)
    · exact h.queued g hg
  full := fun w hw hn => by
    rw [Topo.vring_fill] at hn
    split at hn
    · next hwv => exact h.full w hw (hwv ▸ none_mem_of_mem_set hn)
    · exact h.full w hw hn

/-- No entry of a table, no ring. -/
theorem Topo.fring_length (t : Topo) : t.fring t.faces.length = [] := by simp [Topo.fring]

theorem Topo.vring_length (t : Topo) : t.vring t.vertices.length = [] := by simp [Topo.vring]

theorem Topo.TwoSided.addFace {t : Topo} (h : t.TwoSided) (deg : Nat) (mask : List Bool) :
    (t.addFace deg mask).TwoSided := by
  intro v f
  rw [Topo.vring_addFace, Topo.fring_addFace]
  split
  · next hf =>
    have hv := h v f
    subst hf
    simpa [Topo.fring_length, List.count_replicate] using hv
  · exact h v f

theorem Topo.TwoSided.addVertex {t : Topo} (h : t.TwoSided) (val : Nat) (grp flg : Word) :
    (t.addVertex val grp flg).TwoSided := by
  intro v f
  rw [Topo.fring_addVertex, Topo.vring_addVertex]
  split
  · next hv =>
    have hf := h v f
    subst hv
    simpa [Topo.vring_length, List.count_replicate] using hf
  · exact h v f

theorem Topo.Sound.addFace {except : Option Nat} {t : Topo} (h : Topo.Sound except t) (deg : Nat) (mask : List Bool) :
    Topo.Sound except (t.addFace deg mask) where
  twoSided := h.twoSided.addFace deg mask
  queued := fun f hf => by
    rw [Topo.fring_addFace] at hf
    rw [Topo.aq_addFace, List.mem_append]
    split at hf
    · next hlen => exact .inr (by simp [hlen])
    · exact .inl (h.queued f hf)
  full := h.full

theorem Topo.Sound.faceStable (except : Option Nat) : FaceStable (Topo.Sound except) where
  setWork := fun _ h => ⟨h.twoSided, h.queued, h.full⟩
  fill := Topo.Sound.fill
  cursors := fun _ h => ⟨h.twoSided, h.queued, h.full⟩
  addFace := fun deg mask h => h.addFace deg mask

/-! The loops over vertices and faces. -/

/-- A run that has activated every slot of `v` has no empty slot in it. -/
theorem Topo.none_not_mem_vring {t : Topo} {v : Nat} (h : ∀ j < t.valenceOf v, Topo.Filled v j t) :
    none ∉ t.vring v := by
  intro hn
  obtain ⟨j, hj, hjn⟩ := List.getElem_of_mem hn
  obtain ⟨f, hf⟩ := h j hj
  rw [List.getElem?_eq_getElem hj, hjn] at hf
  exact nomatch hf

/-- The valence of a vertex does not change. -/
theorem valenceOf_faceStable (v n : Nat) : FaceStable fun t => t.valenceOf v = n where
  setWork := fun _ h => h
  fill := fun {t w j f s} h _ _ _ _ => by
    simp only [Topo.valenceOf, Topo.vring_fill] at h ⊢
    split
    · next hv => subst hv; simpa using h
    · exact h
  cursors := fun _ h => h
  addFace := fun _ _ h => h

/-- A vertex whose slots are all filled is no exception any more. -/
theorem Topo.Sound.close {t : Topo} {v : Nat} (h : Topo.Sound (some v) t)
    (hv : ∀ j < t.valenceOf v, Topo.Filled v j t) : Topo.Sound none t where
  twoSided := h.twoSided
  queued := h.queued
  full := fun w _ => by
    by_cases hw : w = v
    · exact hw ▸ Topo.none_not_mem_vring hv
    · exact h.full w (by simpa [eq_comm] using hw)

/-- A new vertex is the one exception. -/
theorem Topo.Sound.addVertex {t : Topo} (h : Topo.Sound none t) (val : Nat) (grp flg : Word) :
    Topo.Sound (some t.vertices.length) (t.addVertex val grp flg) where
  twoSided := h.twoSided.addVertex val grp flg
  queued := h.queued
  full := fun w hw => by
    rw [Topo.vring_addVertex, if_neg (by simpa [eq_comm] using hw)]
    exact h.full w (by simp)

theorem vtxInit_sound (e : TopoEnv) {t : Topo} (h : Topo.Sound none t) :
    TopoM.Ensures (vtxInit e) t fun v u => Topo.Sound (some v) u := by
  have hc {u : Topo} := (Topo.Sound.faceStable none).cursors (t := u)
  refine (topoRead_keeps e hc _ h).bind fun val _ h => (topoReadOr0_keeps e hc _ h).bind fun grp _ h =>
    (topoReadOr0_keeps e hc _ h).bind fun flg u h => ?_
  split
  · exact TopoM.ensures_raise _ _
  · refine TopoM.ensures_get_bind ?_
    split
    · exact TopoM.ensures_raise _ _
    · split
      · exact TopoM.ensures_raise _ _
      · exact TopoM.ensures_set_bind (TopoM.ensures_pure (h.addVertex _ _ _))

/-- Activating every slot of the one vertex that may have empty ones leaves none, if the slots left out of the list are
filled already. -/
theorem activateSlots_sound (e : TopoEnv) {t : Topo} {v : Nat} {js : List Nat} (h : Topo.Sound (some v) t)
    (hjs : ∀ j < t.valenceOf v, j ∈ js ∨ Topo.Filled v j t) :
    TopoM.Ensures (activateSlots e v js) t fun _ u => Topo.Sound none u := by
  intro a u hu
  refine (activateSlots_keeps e (Topo.Sound.faceStable (some v)) v js h a u hu).close fun j hj => ?_
  rw [activateSlots_keeps e (valenceOf_faceStable v (t.valenceOf v)) v js rfl a u hu] at hj
  rcases hjs j hj with hmem | hfill
  · exact activateSlots_fills e v js a u hu j hmem
  · exact activateSlots_keeps e (Topo.Filled.faceStable v j) v js hfill a u hu

/-- `ActivateV` makes a vertex whose first slot is filled (R332). -/
theorem activateV_sound (e : TopoEnv) {t : Topo} (f s : Nat) (h : Topo.Sound none t) :
    TopoM.Ensures (activateV e f s) t fun v u => Topo.Sound (some v) u ∧ Topo.Filled v 0 u :=
  (vtxInit_sound e h).bind fun v _ h =>
    ((topLink_keeps (Topo.Sound.faceStable (some v)).toLinkStable v 0 f s h).and (topLink_fills v 0 f s)).bind
      fun _ _ h => TopoM.ensures_pure h

/-- `CompleteF` from the first slot goes through all the others (R333). -/
theorem completeF_sound (e : TopoEnv) {t : Topo} {v : Nat} (h : Topo.Sound (some v) t) (h0 : Topo.Filled v 0 t) :
    TopoM.Ensures (completeF e v 0) t fun _ u => Topo.Sound none u := by
  refine TopoM.ensures_get_bind (activateSlots_sound e h fun j hj => ?_)
  cases j with
  | zero => exact .inr h0
  | succ j =>
    refine .inl (List.mem_map.2 ⟨j, List.mem_range.2 (by omega), ?_⟩)
    rw [Nat.zero_add, Nat.mod_eq_of_lt hj]

/-- `CompleteV` ends when the face has no empty slot (R334). -/
theorem completeVLoop_sound (e : TopoEnv) {t : Topo} (f fuel : Nat) (h : Topo.Sound none t) :
    TopoM.Ensures (completeVLoop e f fuel) t fun _ u => Topo.Sound none u ∧ none ∉ u.fring f := by
  induction fuel generalizing t with
  | zero => exact TopoM.ensures_stuck
  | succ fuel ih =>
    refine TopoM.ensures_get_bind ?_
    split
    · next hnone =>
      refine TopoM.ensures_pure ⟨h, fun hmem => ?_⟩
      have := List.findIdx?_eq_none_iff.1 hnone none hmem
      simp at this
    · exact (activateV_sound e f _ h).bind fun v _ ⟨h, h0⟩ => (completeF_sound e h h0).bind fun _ _ h => ih h

/-- A face without empty slots may leave the active-face queue (R336). -/
theorem Topo.Sound.dequeue {t : Topo} {f : Nat} (h : Topo.Sound none t) (hf : none ∉ t.fring f) :
    Topo.Sound none { t with aq := t.aq.erase f } where
  twoSided := h.twoSided
  queued := fun g hg => by
    have hgf : g ≠ f := fun he => hf (he ▸ hg)
    exact (List.mem_erase_of_ne hgf).2 (h.queued g hg)
  full := h.full

theorem nextActiveFace_eq_none {t : Topo} (h : nextActiveFace t = none) : t.aq = [] := by
  unfold nextActiveFace at h
  split at h
  · next hq => simpa [Config.aqWindow] using hq
  · exact nomatch h

/-- A component ends when no face is active (R310, R336). -/
theorem componentLoop_sound (e : TopoEnv) {t : Topo} (fuel : Nat) (h : Topo.Sound none t) :
    TopoM.Ensures (componentLoop e fuel) t fun _ u => Topo.Sound none u ∧ u.aq = [] := by
  induction fuel generalizing t with
  | zero => exact TopoM.ensures_stuck
  | succ fuel ih =>
    refine TopoM.ensures_get_bind ?_
    split
    · next hnone => exact TopoM.ensures_pure ⟨h, nextActiveFace_eq_none hnone⟩
    · refine (TopoM.ensures_get_bind (completeVLoop_sound e _ _ h)).bind fun _ _ ⟨h, hf⟩ => ?_
      exact TopoM.ensures_modify_bind (ih (h.dequeue hf))

theorem runComponent_sound (e : TopoEnv) {t : Topo} (h : Topo.Sound none t) :
    TopoM.Ensures (runComponent e) t fun _ u => Topo.Sound none u ∧ u.aq = [] := by
  refine (vtxInit_sound e h).bind fun v u h => TopoM.ensures_modify_bind <| TopoM.ensures_get_bind ?_
  have hn : Topo.Sound (some v) { u with ncomp := u.ncomp + 1 } := ⟨h.twoSided, h.queued, h.full⟩
  refine (activateSlots_sound e hn fun j hj => .inl (List.mem_range.2 hj)).bind fun _ _ h => ?_
  exact TopoM.ensures_get_bind (componentLoop_sound e _ h)

theorem runComponents_sound (e : TopoEnv) {t : Topo} (fuel : Nat) (h : Topo.Sound none t) (hq : t.aq = []) :
    TopoM.Ensures (runComponents e fuel) t fun _ u => Topo.Sound none u ∧ u.aq = [] := by
  induction fuel generalizing t with
  | zero => exact TopoM.ensures_stuck
  | succ fuel ih =>
    refine TopoM.ensures_get_bind ?_
    split
    · exact (runComponent_sound e h).bind fun _ _ ⟨h, hq⟩ => ih h hq
    · exact TopoM.ensures_pure ⟨h, hq⟩

theorem Topo.start_sound : Topo.Sound none Topo.start where
  twoSided := fun v f => by simp [Topo.start, Topo.vring, Topo.fring]
  queued := fun f hf => by simp [Topo.start, Topo.fring] at hf
  full := fun v _ => by simp [Topo.start, Topo.vring]

theorem topoProgram_sound (e : TopoEnv) :
    TopoM.Ensures (topoProgram e) Topo.start fun _ u => Topo.Sound none u ∧ u.aq = [] := by
  refine TopoM.ensures_get_bind <| (runComponents_sound e _ Topo.start_sound rfl).bind fun _ _ h =>
    TopoM.ensures_get_bind ?_
  split
  · exact TopoM.ensures_pure h
  · exact TopoM.ensures_raise _ _

/-! The mesh. -/

theorem Mesh.fring_of_mem {m : Mesh} {x : Face} (h : x ∈ m.faces) : ∃ f, m.fring f = x.fvtx := by
  obtain ⟨f, hf, rfl⟩ := List.getElem_of_mem h
  exact ⟨f, by simp [Mesh.fring, hf]⟩

theorem Mesh.vring_of_mem {m : Mesh} {x : Vertex} (h : x ∈ m.vertices) : ∃ v, m.vring v = x.vface := by
  obtain ⟨v, hv, rfl⟩ := List.getElem_of_mem h
  exact ⟨v, by simp [Mesh.vring, hv]⟩

theorem Mesh.lt_of_mem_vring {m : Mesh} {v : Nat} {x : Option Nat} (h : x ∈ m.vring v) : v < m.vertices.length := by
  by_contra hv
  simp [Mesh.vring, List.getElem?_eq_none (Nat.le_of_not_lt hv)] at h

theorem Mesh.lt_of_mem_fring {m : Mesh} {f : Nat} {x : Option Nat} (h : x ∈ m.fring f) : f < m.faces.length := by
  by_contra hf
  simp [Mesh.fring, List.getElem?_eq_none (Nat.le_of_not_lt hf)] at h

/-- With two-sided links, a ring holds ids of existing entries only: the other side of the link is a slot of theirs. -/
theorem Mesh.TwoSided.mem_iff {m : Mesh} (h : m.TwoSided) (v f : Nat) : some f ∈ m.vring v ↔ some v ∈ m.fring f := by
  rw [← List.count_pos_iff, ← List.count_pos_iff, (h v f).1]

theorem Mesh.complete_of_twoSided {m : Mesh} (h : m.TwoSided) (hv : ∀ v, none ∉ m.vring v)
    (hf : ∀ f, none ∉ m.fring f) : m.Complete := by
  constructor
  · intro x hx
    obtain ⟨f, hring⟩ := Mesh.fring_of_mem hx
    rw [← hring, Face.emptyCount, ← hring]
    refine ⟨List.countP_eq_zero.2 fun y hy hnone => hf f ?_, fun v hmem => ?_⟩
    · exact Option.isNone_iff_eq_none.1 hnone ▸ hy
    · exact Mesh.lt_of_mem_vring ((h.mem_iff v f).2 hmem)
  · intro x hx
    obtain ⟨v, hring⟩ := Mesh.vring_of_mem hx
    rw [← hring]
    exact ⟨fun y hy hnone => hv v (hnone ▸ hy), fun f hmem => Mesh.lt_of_mem_fring ((h.mem_iff v f).1 hmem)⟩

/-- The mesh of a run that succeeds. -/
theorem topoRun_twoSided_complete {e : TopoEnv} {m : Mesh} (h : topoRun e = .ok m) : m.TwoSided ∧ m.Complete := by
  unfold topoRun at h
  split at h
  · next u hrun =>
    cases h
    obtain ⟨hs, hq⟩ := topoProgram_sound e _ _ hrun
    refine ⟨hs.twoSided, Mesh.complete_of_twoSided hs.twoSided (fun v => hs.full v (by simp)) fun f hf => ?_⟩
    have := hs.queued f hf
    rw [hq] at this
    exact nomatch this
  · exact nomatch h

end Sys2Proof.Machine

/-! How many values the codecs, the stream loaders and the vertex passes give (43_codecs.md R200,
42_streams.md R165). -/

namespace Sys2Proof.Machine

/-- A sequence whose first half is one of two computations is that half, then the rest. -/
theorem Cursor.bind_ite_ok {α β : Type} {c : Prop} [Decidable c] {m m' : Cursor α} {f : α → Cursor β} {p : Nat}
    {r : β × Nat} (h : (if c then m >>= f else m' >>= f) p = .ok r) :
    ∃ a q, (if c then m else m') p = .ok (a, q) ∧ f a q = .ok r := by
  split at h
  · next hc => rw [if_pos hc]; exact Cursor.bind_ok.1 h
  · next hc => rw [if_neg hc]; exact Cursor.bind_ok.1 h

/-! Codecs. -/

theorem bl1Values_length {src : BitSource} {len n p : Nat} {w : Int} {xs : List Word} {q : Nat}
    (h : bl1Values src len n w p = .ok (xs, q)) : xs.length = n := by
  induction n generalizing w p xs q with
  | zero => cases h; rfl
  | succ n ih =>
    obtain ⟨w', p', -, h⟩ := Cursor.bind_ok.1 h
    split at h
    · exact nomatch h
    · obtain ⟨x, p1, -, h⟩ := Cursor.bind_ok.1 h
      obtain ⟨rest, p2, hrest, h⟩ := Cursor.bind_ok.1 h
      cases h
      simp [ih hrest]

theorem exactly_ok {α : Type} {len p : Nat} {r : Except Err (α × Nat)} {a : α} (h : exactly len p r = .ok a) :
    r = .ok (a, len) := by
  unfold exactly at h
  split at h
  · exact nomatch h
  · split at h
    · exact nomatch h
    · next hk => cases h; simp_all

theorem bl2Fixed_length {src : BitSource} {n p : Nat} {xs : List Word} {q : Nat}
    (h : bl2Fixed src n p = .ok (xs, q)) : xs.length = n := by
  obtain ⟨minBits, p1, -, h⟩ := Cursor.bind_ok.1 h
  obtain ⟨maxBits, p2, -, h⟩ := Cursor.bind_ok.1 h
  split at h
  · exact nomatch h
  · obtain ⟨vmin, p3, -, h⟩ := Cursor.bind_ok.1 h
    obtain ⟨vmax, p4, -, h⟩ := Cursor.bind_ok.1 h
    split at h
    · cases h; simp
    · obtain ⟨offs, p5, hoffs, h⟩ := Cursor.bind_ok.1 h
      cases h
      simp [repeatRead_length hoffs]

theorem bl2Groups_length {src : BitSource} {len cw rl : Nat} {mean : Int} {fuel n p : Nat} {w : Int} {xs : List Word}
    {q : Nat} (h : bl2Groups src len cw rl mean fuel n w p = .ok (xs, q)) : xs.length = n := by
  induction fuel generalizing n w p xs q with
  | zero => exact nomatch h
  | succ fuel ih =>
    unfold bl2Groups at h
    split at h
    · next hn => cases h; exact hn.symm
    · obtain ⟨k0, p0, -, h⟩ := Cursor.bind_ok.1 h
      obtain ⟨w', p1, -, h⟩ := Cursor.bind_ite_ok h
      obtain ⟨run, p2, -, h⟩ := Cursor.bind_ok.1 h
      obtain ⟨k, p3, -, h⟩ := Cursor.bind_ok.1 h
      split at h
      · exact nomatch h
      · split at h
        · exact nomatch h
        · next hrun =>
          obtain ⟨vals, p4, hvals, h⟩ := Cursor.bind_ok.1 h
          obtain ⟨rest, p5, hrest, h⟩ := Cursor.bind_ok.1 h
          cases h
          rw [List.length_append, repeatRead_length hvals, ih hrest]
          omega

theorem bl2Values_length {src : BitSource} {len n p : Nat} {xs : List Word} {q : Nat}
    (h : bl2Values src len n p = .ok (xs, q)) : xs.length = n := by
  obtain ⟨mode, p1, -, h⟩ := Cursor.bind_ok.1 h
  split at h
  · obtain ⟨mean, p2, -, h⟩ := Cursor.bind_ok.1 h
    obtain ⟨cw, p3, -, h⟩ := Cursor.bind_ok.1 h
    obtain ⟨rl, p4, -, h⟩ := Cursor.bind_ok.1 h
    exact bl2Groups_length h
  · exact bl2Fixed_length h

theorem bitlength2Decode_length {ws : List Word} {len n p : Nat} {xs : List Word}
    (h : bitlength2Decode ws len n p = .ok xs) : xs.length = n :=
  bl2Values_length (exactly_ok h)

theorem bitlength1Decode_length {ws : List Word} {len n p : Nat} {xs : List Word}
    (h : bitlength1Decode ws len n p = .ok xs) : xs.length = n :=
  bl1Values_length (exactly_ok h)

theorem oobDone_ok {p : Nat} {r : Except Err (List Word × List Word)} {out : List Word} (h : oobDone p r = .ok out) :
    r = .ok (out, []) := by
  unfold oobDone at h
  split at h
  · exact nomatch h
  · cases h; rfl
  · exact nomatch h

theorem huffValues_length {src : BitSource} {trees : List HuffTree} {n c p : Nat} {oob xs left : List Word} {q : Nat}
    (h : huffValues src trees n c oob p = .ok ((xs, left), q)) : xs.length = n := by
  induction n generalizing c oob p xs left q with
  | zero => cases h; rfl
  | succ n ih =>
    unfold huffValues at h
    cases hc : trees[c]? with
    | none => simp [hc] at h
    | some tree =>
      simp only [hc] at h
      obtain ⟨e, p1, -, h⟩ := Cursor.bind_ok.1 h
      cases he : emitEntry e oob with
      | none => simp [he] at h
      | some x =>
        simp only [he] at h
        split at h
        · exact nomatch h
        · obtain ⟨⟨rest, left'⟩, p2, hrest, h⟩ := Cursor.bind_ok.1 h
          cases h
          simp [ih hrest]

theorem huffmanDecode_length {ws : List Word} {len n : Nat} {ctxs : List (List CtxEntry)} {oobVals : List Word}
    {p : Nat} {xs : List Word} (h : huffmanDecode ws len n ctxs oobVals p = .ok xs) : xs.length = n := by
  unfold huffmanDecode at h
  split at h
  · exact nomatch h
  · exact huffValues_length (exactly_ok (oobDone_ok h))

theorem arithValues_length {src : BitSource} {ctxs : List (List CtxEntry)} {n c p : Nat} {r : ArithRegs}
    {oob xs left : List Word} {q : Nat} (h : arithValues src ctxs n c r oob p = .ok ((xs, left), q)) :
    xs.length = n := by
  induction n generalizing c r oob p xs left q with
  | zero => cases h; rfl
  | succ n ih =>
    unfold arithValues at h
    cases hc : ctxs[c]? with
    | none => simp [hc] at h
    | some ctx =>
      simp only [hc] at h
      split at h
      · exact nomatch h
      · cases he : findEntry (r.resc (totalCount ctx)) ctx 0 with
        | none => simp [he] at h
        | some e =>
          simp only [he] at h
          cases hx : emitEntry e.1 oob with
          | none => simp [hx] at h
          | some x =>
            simp only [hx] at h
            split at h
            · exact nomatch h
            · obtain ⟨r', p1, -, h⟩ := Cursor.bind_ok.1 h
              split at h
              · exact nomatch h
              · obtain ⟨⟨rest, left'⟩, p2, hrest, h⟩ := Cursor.bind_ok.1 h
                cases h
                simp [ih hrest]

theorem arithDecode_length {ws : List Word} {len n : Nat} {ctxs : List (List CtxEntry)} {oobVals : List Word} {p : Nat}
    {xs : List Word} (h : arithDecode ws len n ctxs oobVals p = .ok xs) : xs.length = n := by
  unfold arithDecode at h
  split at h
  · have h := oobDone_ok h
    cases hs : arithStart (codetextSource ws len true p) ctxs n oobVals 0 with
    | error e => simp [hs, Except.map] at h
    | ok r =>
      obtain ⟨⟨out, left⟩, q⟩ := r
      simp only [hs, Except.map, Except.ok.injEq, Prod.mk.injEq] at h
      obtain ⟨code, p1, -, hv⟩ := Cursor.bind_ok.1 hs
      exact h.1 ▸ arithValues_length hv
  · exact nomatch h

/-- No CDP1 codec gives more values than declared (R200). -/
theorem cdp1Decode_length_le {codec : Cdp1Codec} {ws : List Word} {len n : Nat} {ctxs : List (List CtxEntry)}
    {oobVals : List Word} {p : Nat} {xs : List Word} (h : cdp1Decode codec ws len n ctxs oobVals p = .ok xs) :
    xs.length ≤ n := by
  cases codec with
  | null =>
    simp only [cdp1Decode, null1Decode] at h
    split at h
    · exact nomatch h
    · cases h
      exact List.length_take_le n ws
  | bitlength1 => exact (bitlength1Decode_length h).le
  | huffman => exact (huffmanDecode_length h).le
  | arithmetic => exact (arithDecode_length h).le

/-! Stream loaders. -/

theorem null2Load_length {v : InView} {n p : Nat} {xs : List Word} {q : Nat}
    (h : null2Load v n p = .ok (xs, q)) : xs.length = n := by
  obtain ⟨len, p1, -, h⟩ := Cursor.bind_ok.1 h
  split at h
  · exact nomatch h
  · split at h
    · exact nomatch h
    · exact repeatRead_length h

theorem bitlength2Load_length {v : InView} {n p : Nat} {xs : List Word} {q : Nat}
    (h : bitlength2Load v n p = .ok (xs, q)) : xs.length = n := by
  obtain ⟨len, p1, -, h⟩ := Cursor.bind_ok.1 h
  split at h
  · exact nomatch h
  · obtain ⟨ws, p2, -, h⟩ := Cursor.bind_ok.1 h
    obtain ⟨p3, p4, -, h⟩ := Cursor.bind_ok.1 h
    exact bitlength2Decode_length (liftExcept_ok.1 h).1

theorem arith2Load_length {v : InView} {n p : Nat} {load : Cursor (List Word)} {xs : List Word} {q : Nat}
    (h : arith2Load v n load p = .ok (xs, q)) : xs.length = n := by
  obtain ⟨len, p1, -, h⟩ := Cursor.bind_ok.1 h
  split at h
  · exact nomatch h
  · obtain ⟨ws, p2, -, h⟩ := Cursor.bind_ok.1 h
    obtain ⟨ctx, p3, -, h⟩ := Cursor.bind_ok.1 h
    obtain ⟨oobVals, p4, -, h⟩ := Cursor.bind_ok.1 h
    obtain ⟨p5, p6, -, h⟩ := Cursor.bind_ok.1 h
    exact arithDecode_length (liftExcept_ok.1 h).1

theorem chopperLoad_length {v : InView} {n p : Nat} {load : Cursor (List Word)} {xs : List Word} {q : Nat}
    (h : chopperLoad v n load p = .ok (xs, q)) : xs.length = n := by
  obtain ⟨chop, p1, -, h⟩ := Cursor.bind_ok.1 h
  split at h
  · obtain ⟨inner, p2, -, h⟩ := Cursor.bind_ok.1 h
    split at h
    · exact nomatch h
    · next hlen => cases h; exact not_not.1 hlen
  · obtain ⟨bias, p2, -, h⟩ := Cursor.bind_ok.1 h
    obtain ⟨span, p3, -, h⟩ := Cursor.bind_ok.1 h
    split at h
    · exact nomatch h
    · obtain ⟨msb, p4, -, h⟩ := Cursor.bind_ok.1 h
      obtain ⟨lsb, p5, -, h⟩ := Cursor.bind_ok.1 h
      split at h
      · exact nomatch h
      · next hlen =>
        cases h
        simp only [not_or, not_not] at hlen
        simp [hlen.1, hlen.2]

/-- Every CDP2 codec gives exactly the declared number of values (R200). -/
theorem cdp2Payload_length {v : InView} {load : Cursor (List Word)} {n : Nat} {codec : Cdp2Codec} {p : Nat}
    {xs : List Word} {q : Nat} (h : cdp2Payload v load n codec p = .ok (xs, q)) : xs.length = n := by
  cases codec with
  | null => exact null2Load_length h
  | bitlength2 => exact bitlength2Load_length h
  | arithmetic => exact arith2Load_length h
  | chopper => exact chopperLoad_length h

/-- A valueCount passes its checks only up to SLOT_CAP (R165). -/
theorem cdp2Count_le {v : InView} {p n q : Nat} (h : cdp2Count v p = .ok (n, q)) : n ≤ v.slotCap := by
  obtain ⟨k, p1, -, h⟩ := Cursor.bind_ok.1 h
  split at h
  · exact nomatch h
  · split at h
    · cases h; exact Nat.zero_le _
    · split at h
      · exact nomatch h
      · next hle => cases h; exact Nat.le_of_not_lt hle

theorem loadCdp2_length_le {v : InView} {levels p : Nat} {xs : List Word} {q : Nat}
    (h : loadCdp2 v levels p = .ok (xs, q)) : xs.length ≤ v.slotCap := by
  cases levels with
  | zero => exact nomatch h
  | succ levels =>
    obtain ⟨n, p1, hn, h⟩ := Cursor.bind_ok.1 h
    split at h
    · cases h; exact Nat.zero_le _
    · obtain ⟨id, p2, -, h⟩ := Cursor.bind_ok.1 h
      cases hc : cdp2CodecOf id with
      | none => simp [hc] at h
      | some codec =>
        simp only [hc] at h
        exact cdp2Payload_length h ▸ cdp2Count_le hn

theorem loadCdp2As_length_le {v : InView} {codec : Cdp2Codec} {p : Nat} {xs : List Word} {q : Nat}
    (h : loadCdp2As v codec p = .ok (xs, q)) : xs.length ≤ v.slotCap := by
  obtain ⟨n, p1, hn, h⟩ := Cursor.bind_ok.1 h
  split at h
  · cases h; exact Nat.zero_le _
  · obtain ⟨id, p2, -, h⟩ := Cursor.bind_ok.1 h
    exact cdp2Payload_length h ▸ cdp2Count_le hn

theorem cdp1Payload_length_le {v : InView} {load : Cursor (List Word)} {codec : Cdp1Codec} {p : Nat}
    {xs : List Word} {q : Nat} (h : cdp1Payload v load codec p = .ok (xs, q)) : xs.length ≤ v.slotCap := by
  obtain ⟨⟨ctxs, oobVals⟩, p1, -, h⟩ := Cursor.bind_ite_ok h
  obtain ⟨len, p2, -, h⟩ := Cursor.bind_ok.1 h
  obtain ⟨n, p3, -, h⟩ := Cursor.bind_ok.1 h
  split at h
  · exact nomatch h
  · split at h
    · exact nomatch h
    · next hle =>
      obtain ⟨symbols, p4, -, h⟩ := Cursor.bind_ite_ok h
      obtain ⟨nWords, p5, -, h⟩ := Cursor.bind_ok.1 h
      split at h
      · exact nomatch h
      · split at h
        · exact nomatch h
        · obtain ⟨ws, p6, -, h⟩ := Cursor.bind_ok.1 h
          obtain ⟨p7, p8, -, h⟩ := Cursor.bind_ok.1 h
          exact (cdp1Decode_length_le (liftExcept_ok.1 h).1).trans (Nat.le_of_not_lt hle)

theorem loadCdp1_length_le {v : InView} {levels p : Nat} {xs : List Word} {q : Nat}
    (h : loadCdp1 v levels p = .ok (xs, q)) : xs.length ≤ v.slotCap := by
  cases levels with
  | zero => exact nomatch h
  | succ levels =>
    obtain ⟨id, p1, -, h⟩ := Cursor.bind_ok.1 h
    cases hc : cdp1CodecOf id with
    | none => simp [hc] at h
    | some codec =>
      simp only [hc] at h
      exact cdp1Payload_length_le h

theorem loadCdp1As_length_le {v : InView} {codec : Cdp1Codec} {p : Nat} {xs : List Word} {q : Nat}
    (h : loadCdp1As v codec p = .ok (xs, q)) : xs.length ≤ v.slotCap := by
  obtain ⟨id, p1, -, h⟩ := Cursor.bind_ok.1 h
  exact cdp1Payload_length_le h

/-! Predictors, dequantizers, VTX_PACK and TOPO_EMIT. -/

theorem unpackFrom_length (t : PredType) (i : Nat) (built r : List Word) :
    (unpackFrom t i built r).length = r.length := by
  induction r generalizing i built with
  | nil => simp [unpackFrom]
  | cons x r ih => unfold unpackFrom; split <;> simp_all

@[simp] theorem unpack_length (t : PredType) (r : List Word) : (unpack t r).length = r.length := by
  cases t with
  | null => rfl
  | _ => exact unpackFrom_length _ _ _ _

@[simp] theorem quantValues_length (field : OpenField) (mn d2 : Word) (maxCode i : Nat) (vs : List Word) :
    (quantValues field mn d2 maxCode i vs).length = vs.length := by
  induction vs generalizing i with
  | nil => rfl
  | cons x vs ih => simp [quantValues, ih]

theorem deeringNormals_length_le {p : Params} {bpn i : Nat} {as bs cs ds : List Word}
    {ns : List (Word × Word × Word)} (h : deeringNormals p bpn i as bs cs ds = some ns) : ns.length ≤ as.length := by
  induction as generalizing i bs cs ds ns with
  | nil => unfold deeringNormals at h; cases h; rfl
  | cons a as ih =>
    match bs, cs, ds with
    | [], _, _ => simp [deeringNormals] at h; simp [h]
    | _ :: _, [], _ => simp [deeringNormals] at h; simp [h]
    | _ :: _, _ :: _, [] => simp [deeringNormals] at h; simp [h]
    | b :: bs, c :: cs, d :: ds =>
      simp only [deeringNormals] at h
      split at h
      · exact nomatch h
      · obtain ⟨ns', hns, rfl⟩ := Option.map_eq_some_iff.1 h
        exact Nat.succ_le_succ (ih hns)

theorem interleave_length_le (xs ys zs : List Word) : (interleave xs ys zs).length ≤ 3 * xs.length := by
  induction xs generalizing ys zs with
  | nil => simp [interleave]
  | cons x xs ih =>
    cases ys with
    | nil => simp [interleave]
    | cons y ys =>
      cases zs with
      | nil => simp [interleave]
      | cons z zs =>
        have := ih ys zs
        simp only [interleave, List.length_cons]
        omega

theorem flatMap_cornerVertices_length (fs : List Face) : (fs.flatMap cornerVertices).length = sumDegree fs := by
  simp only [List.length_flatMap, cornerVertices, List.length_map]
  rfl

theorem flatMap_cornerAttributes_length (fs : List Face) : (fs.flatMap cornerAttributes).length = sumDegree fs := by
  simp only [List.length_flatMap, cornerAttributes, List.length_map, List.length_range]
  rfl

end Sys2Proof.Machine

/-! What a command that ends leaves (40_commands.md R125, 60_exceptions.md R410): the inversion of `exec`, and what
follows for the state's fields and for the slots. -/

namespace Sys2Proof.Machine

/-- The sequences of the list written to their slots, in order. -/
def State.writeSlots (s : State) : List (SlotNo × List Word) → State
  | [] => s
  | w :: ws => (s.setSlot w.1 w.2).writeSlots ws

/-- Writes of slots change nothing but slots. -/
theorem State.writeSlots_eq (s : State) (ws : List (SlotNo × List Word)) :
    ∃ sl, s.writeSlots ws = { s with slots := sl } := by
  induction ws generalizing s with
  | nil => exact ⟨s.slots, rfl⟩
  | cons w ws ih =>
    obtain ⟨sl, h⟩ := ih (s.setSlot w.1 w.2)
    exact ⟨sl, h⟩

theorem State.emptySlots_eq (s : State) (ks : List SlotNo) : ∃ sl, s.emptySlots ks = { s with slots := sl } := by
  induction ks generalizing s with
  | nil => exact ⟨s.slots, rfl⟩
  | cons k ks ih =>
    obtain ⟨sl, h⟩ := ih (s.setSlot k [])
    exact ⟨sl, h⟩

theorem State.SlotInv.setSlot {s : State} (h : s.SlotInv) {k : SlotNo} {vs : List Word}
    (hvs : vs.length ≤ s.params.slotCap) : (s.setSlot k vs).SlotInv := by
  intro j
  rw [State.slot_setSlot, State.setSlot_params]
  split
  · exact hvs
  · exact h j

theorem State.SlotInv.writeSlots {s : State} (h : s.SlotInv) {ws : List (SlotNo × List Word)}
    (hws : ∀ w ∈ ws, w.2.length ≤ s.params.slotCap) : (s.writeSlots ws).SlotInv := by
  induction ws generalizing s with
  | nil => exact h
  | cons w ws ih =>
    obtain ⟨hw, hws⟩ := List.forall_mem_cons.1 hws
    exact ih (h.setSlot hw) hws

theorem State.SlotInv.emptySlots {s : State} (h : s.SlotInv) (ks : List SlotNo) : (s.emptySlots ks).SlotInv := by
  intro j
  rw [State.slot_emptySlots, State.emptySlots_params]
  split
  · exact Nat.zero_le _
  · exact h j

/-- How an instruction can end in the state `t`: it writes some of its destinations and completes, or takes the error
entry; TOPO_RUN replaces MESH and completes, or takes the error entry and discards MESH. -/
inductive Ending (i : Instr) (s : State) : State → Prop where
  | done (ws : List (SlotNo × List Word)) (draws : Nat) (r0 r1 : Word) (hi : i ≠ .topoRun)
      (hdests : ∀ w ∈ ws, w.1 ∈ destsOf i s)
      (hfits : s.SlotInv → ∀ w ∈ ws, w.2.length ≤ s.params.slotCap)
      (hdraws : drawsNaN i = false → draws = s.draws) :
      Ending i s ((State.writeSlots { s with draws := draws } ws).complete r0 r1)
  | error (c : ErrCode) (x : Word) (hi : i ≠ .topoRun) : Ending i s (s.errorEntry c x (destsOf i s))
  | mesh (m : Mesh) (r0 r1 : Word) (hi : i = .topoRun) (hm : topoRun s.topoEnv = .ok m) :
      Ending i s ((s.setMesh m).complete r0 r1)
  | meshError (c : ErrCode) (x : Word) (hi : i = .topoRun) : Ending i s (s.errorEntry c x []).discardMesh

section
variable {i : Instr} {s t : State}

/-- The ending of a command that writes one slot. -/
theorem Ending.done_one {k : SlotNo} {vs : List Word} {r0 r1 : Word} (hi : i ≠ .topoRun) (hk : k ∈ destsOf i s)
    (hfits : s.SlotInv → vs.length ≤ s.params.slotCap) : Ending i s ((s.setSlot k vs).complete r0 r1) :=
  Ending.done [(k, vs)] s.draws r0 r1 hi (by simpa using hk) (by simpa using hfits) fun _ => rfl

theorem Ending.failWith {c : ErrCode} (hi : i ≠ .topoRun) (h : failWith s c (destsOf i s) = .next t) :
    Ending i s t := by
  cases h
  exact Ending.error c 0 hi

theorem Ending.streamCommand {a : SlotNo} {load : Cursor (List Word)} (hi : i ≠ .topoRun) (hd : destsOf i s = [a])
    (hload : ∀ {p : Nat} {xs : List Word} {q : Nat}, load p = .ok (xs, q) → xs.length ≤ s.params.slotCap)
    (h : streamCommand s a load = .next t) : Ending i s t := by
  rcases streamCommand_cases s a load with ⟨vals, p, hok, heq⟩ | ⟨e, -, heq⟩ <;> rw [heq] at h <;> cases h
  · exact Ending.done_one hi (by simp [hd]) fun _ => hload hok
  · exact hd ▸ Ending.error e.code (u32 e.info) hi

theorem Ending.predCommand {p : PredType} {a b : SlotNo} (hi : i ≠ .topoRun) (hd : destsOf i s = [b])
    (h : predCommand p a b s = .next t) : Ending i s t := by
  rw [predCommand_eq] at h
  cases h
  exact Ending.done_one hi (by simp [hd]) fun hs => (unpack_length p (s.slot a)).symm ▸ hs a

theorem Ending.deqQuant {a b : SlotNo} (h : execDeqQuant a b s = .next t) : Ending (.deqQuant a b) s t := by
  unfold execDeqQuant at h
  split at h
  · exact Ending.failWith (by simp) h
  · cases h
    refine Ending.done [(b, _)] _ _ _ (by simp) (by simp [destsOf]) ?_ (by simp [drawsNaN])
    simpa using fun hs => hs a

theorem Ending.deqExpmant {a b c : SlotNo} (h : execDeqExpmant a b c s = .next t) :
    Ending (.deqExpmant a b c) s t := by
  unfold execDeqExpmant at h
  split at h
  · exact Ending.failWith (by simp) h
  · cases h
    refine Ending.done_one (by simp) (by simp [destsOf]) fun hs => ?_
    rw [List.length_zipWith]
    exact (min_le_left _ _).trans (hs a)

theorem Ending.deqDeering {a b c d : SlotNo} {m : BitVec 4} (h : execDeqDeering a b c d m s = .next t) :
    Ending (.deqDeering a b c d m) s t := by
  have fails {e : ErrCode} (h : Machine.failWith s e [deeringX s.larg0, deeringY s.larg0, deeringZ s.larg0] = .next t) :
      Ending (.deqDeering a b c d m) s t := Ending.failWith (by simp) h
  simp only [execDeqDeering] at h
  split at h
  · exact fails h
  · split at h
    · exact fails h
    · split at h
      · exact fails h
      · split at h
        · exact fails h
        · split at h
          · exact fails h
          · next ns hns =>
            cases h
            refine Ending.done [(deeringX s.larg0, _), (deeringY s.larg0, _), (deeringZ s.larg0, _)] _ _ _ (by simp)
              (by simp [destsOf]) ?_ (by simp [drawsNaN])
            simpa using fun hs => (deeringNormals_length_le hns).trans (hs a)

theorem Ending.vtxPack {a b c d : SlotNo} (h : execVtxPack a b c d s = .next t) : Ending (.vtxPack a b c d) s t := by
  unfold execVtxPack at h
  split at h
  · exact Ending.failWith (by simp) h
  · split at h
    · exact Ending.failWith (by simp) h
    · next hcap =>
      cases h
      exact Ending.done_one (by simp) (by simp [destsOf]) fun _ =>
        (interleave_length_le _ _ _).trans (Nat.le_of_not_lt hcap)

theorem Ending.topoEmit (h : execTopoEmit s = .next t) : Ending .topoEmit s t := by
  unfold execTopoEmit at h
  split at h
  · exact Ending.failWith (by simp) h
  · next cv hcv =>
    split at h
    · exact Ending.failWith (by simp) h
    · split at h
      · exact Ending.failWith (by simp) h
      · split at h
        · exact Ending.failWith (by simp) h
        · next hcap =>
          cases h
          have hv : (s.mesh.faces.flatMap cornerVertices).length ≤ s.params.slotCap := by
            rw [flatMap_cornerVertices_length]; exact Nat.le_of_not_lt hcap
          have ha : (s.mesh.faces.flatMap cornerAttributes).length ≤ s.params.slotCap := by
            rw [flatMap_cornerAttributes_length]; exact Nat.le_of_not_lt hcap
          cases hca : s.roleSlot roleCornerAttr with
          | none => exact Ending.done_one (by simp) (by simp [destsOf, State.emitSlots, hcv]) fun _ => hv
          | some ca =>
            exact Ending.done [(cv, _), (ca, _)] s.draws _ _ (by simp)
              (by simp [destsOf, State.emitSlots, hcv, hca])
              (fun _ => List.forall_mem_cons.2 ⟨hv, List.forall_mem_singleton.2 ha⟩) fun _ => rfl

theorem Ending.topoRun (h : execTopoRun s = .next t) : Ending .topoRun s t := by
  unfold execTopoRun at h
  split at h
  · next m hm => cases h; exact Ending.mesh m _ _ rfl hm
  · next e _ => cases h; exact Ending.meshError e.code (u32 e.info) rfl
  · exact nomatch h

/-- All an instruction can do. -/
theorem exec_ending (h : exec i s = .next t) : Ending i s t := by
  cases i with
  | nop => cases h; exact Ending.done [] s.draws 0 0 (by simp) (by simp) (by simp) fun _ => rfl
  | decCdp2 a => exact Ending.streamCommand (by simp) rfl loadCdp2_length_le h
  | decCdp1 a => exact Ending.streamCommand (by simp) rfl loadCdp1_length_le h
  | predLag1 a b => exact Ending.predCommand (by simp) rfl h
  | predLag2 a b => exact Ending.predCommand (by simp) rfl h
  | predStride1 a b => exact Ending.predCommand (by simp) rfl h
  | predStride2 a b => exact Ending.predCommand (by simp) rfl h
  | predStripindex a b => exact Ending.predCommand (by simp) rfl h
  | predRamp a b => exact Ending.predCommand (by simp) rfl h
  | predXor1 a b => exact Ending.predCommand (by simp) rfl h
  | predXor2 a b => exact Ending.predCommand (by simp) rfl h
  | predNull a b => exact Ending.predCommand (by simp) rfl h
  | deqQuant a b => exact Ending.deqQuant h
  | deqExpmant a b c => exact Ending.deqExpmant h
  | deqDeering a b c d m => exact Ending.deqDeering h
  | vtxPack a b c d => exact Ending.vtxPack h
  | topoRun => exact Ending.topoRun h
  | topoEmit => exact Ending.topoEmit h
  | cdp2Null => exact Ending.streamCommand (by simp) rfl loadCdp2As_length_le h
  | cdp2Bitlength2 => exact Ending.streamCommand (by simp) rfl loadCdp2As_length_le h
  | cdp2Arithmetic => exact Ending.streamCommand (by simp) rfl loadCdp2As_length_le h
  | cdp2Chopper => exact Ending.streamCommand (by simp) rfl loadCdp2As_length_le h
  | cdp1Null => exact Ending.streamCommand (by simp) rfl loadCdp1As_length_le h
  | cdp1Bitlength1 => exact Ending.streamCommand (by simp) rfl loadCdp1As_length_le h
  | cdp1Huffman => exact Ending.streamCommand (by simp) rfl loadCdp1As_length_le h
  | cdp1Arithmetic => exact Ending.streamCommand (by simp) rfl loadCdp1As_length_le h

end

/-! How the engine's step ends. -/

/-- How the engine's turn can end with a latched command: with nothing but slots, draws, results, MESH and status
changed, either done or with an error recorded. -/
inductive EngineEnd (s : State) : State → Prop where
  | done (sl : Vector (List Word) 32) (draws : Nat) (m : Mesh) (mv : Bool) (r0 r1 : Word) :
      EngineEnd s (State.complete { s with slots := sl, draws := draws, mesh := m, meshValid := mv } r0 r1)
  | error (sl : Vector (List Word) 32) (m : Mesh) (mv : Bool) (c : ErrCode) (x : Word) :
      EngineEnd s (State.recordError { s with slots := sl, mesh := m, meshValid := mv } c x)

theorem EngineEnd.errorEntry (s : State) (c : ErrCode) (x : Word) (ds : List SlotNo) :
    EngineEnd s (s.errorEntry c x ds) := by
  obtain ⟨sl, h⟩ := s.emptySlots_eq ds
  rw [State.errorEntry, h]
  exact .error sl s.mesh s.meshValid c x

theorem EngineEnd.errorEntry_discardMesh (s : State) (c : ErrCode) (x : Word) (ds : List SlotNo) :
    EngineEnd s (s.errorEntry c x ds).discardMesh := by
  obtain ⟨sl, h⟩ := s.emptySlots_eq ds
  rw [State.errorEntry, h]
  exact .error sl Mesh.empty false c x

theorem Ending.engineEnd {i : Instr} {s t : State} (h : Ending i s t) : EngineEnd s t := by
  cases h with
  | done ws draws r0 r1 =>
    obtain ⟨sl, h⟩ := State.writeSlots_eq { s with draws := draws } ws
    rw [h]
    exact .done sl draws s.mesh s.meshValid r0 r1
  | error c x => exact .errorEntry s c x _
  | mesh m r0 r1 => exact .done s.slots s.draws m true r0 r1
  | meshError c x => exact .errorEntry_discardMesh s c x _

theorem rejectCommand_engineEnd (s : State) (r : Reject) : EngineEnd s (s.rejectCommand r) := by
  cases r with
  | badOpcode op => exact .errorEntry s _ _ _
  | predType dst => exact .errorEntry s _ _ _
  | badCodec id => exact .errorEntry s _ _ _
  | unusedField op =>
    simp only [State.rejectCommand]
    split
    · exact .errorEntry_discardMesh s _ _ _
    · exact .errorEntry s _ _ _

theorem Ending.slotInv {i : Instr} {s t : State} (h : Ending i s t) (hs : s.SlotInv) : t.SlotInv := by
  cases h with
  | done ws draws r0 r1 hi hdests hfits =>
    exact State.SlotInv.writeSlots (s := { s with draws := draws }) hs (hfits hs)
  | error c x => exact hs.emptySlots _
  | mesh m r0 r1 => exact hs
  | meshError c x => exact hs

theorem rejectCommand_slotInv {s : State} (r : Reject) (hs : s.SlotInv) : (s.rejectCommand r).SlotInv := by
  cases r with
  | badOpcode op => exact hs
  | predType dst => exact hs.emptySlots _
  | badCodec id => exact hs
  | unusedField op =>
    simp only [State.rejectCommand]
    split <;> exact hs

/-! What changes MESH. -/

/-- How a step can leave MESH: as it is, discarded, or built by a TOPO_RUN that succeeds. -/
inductive MeshEnd (s t : State) : Prop where
  | same (hm : t.mesh = s.mesh) (hv : t.meshValid = s.meshValid)
  | discarded (hm : t.mesh = Mesh.empty) (hv : t.meshValid = false)
  | built (e : TopoEnv) (hm : topoRun e = .ok t.mesh) (hv : t.meshValid = true)

theorem Ending.meshEnd {i : Instr} {s t : State} (h : Ending i s t) : MeshEnd s t := by
  cases h with
  | done ws draws r0 r1 =>
    obtain ⟨sl, h⟩ := State.writeSlots_eq { s with draws := draws } ws
    rw [h]
    exact .same rfl rfl
  | error c x => exact .same (by simp) (by simp)
  | mesh m r0 r1 hi hm => exact .built s.topoEnv hm rfl
  | meshError c x => exact .discarded rfl rfl

/-- Every instruction but TOPO_RUN leaves MESH as it is (10_state.md R40). -/
theorem Ending.mesh_eq {i : Instr} {s t : State} (h : Ending i s t) (hi : i ≠ .topoRun) :
    t.mesh = s.mesh ∧ t.meshValid = s.meshValid := by
  cases h with
  | done ws draws r0 r1 =>
    obtain ⟨sl, h⟩ := State.writeSlots_eq { s with draws := draws } ws
    rw [h]
    exact ⟨rfl, rfl⟩
  | error c x => exact ⟨by simp, by simp⟩
  | mesh m r0 r1 hi' => exact absurd hi' hi
  | meshError c x hi' => exact absurd hi' hi

theorem decodePred_ne_topoRun (m : BitVec 4) (a b : SlotNo) : decodePred m a b ≠ .ok .topoRun := by
  unfold decodePred
  split <;> simp

theorem decodeOp_topoRun {w : Word} (h : decodeOp w = .ok .topoRun) : fieldOp w = 0x08 := by
  unfold decodeOp at h
  split at h
  case h_9 hop => exact BitVec.eq_of_toNat_eq hop
  case h_4 => exact absurd h (decodePred_ne_topoRun _ _ _)
  all_goals exact nomatch h

/-- Only a word with TOPO_RUN's opcode decodes to TOPO_RUN (30_encoding.md R83). -/
theorem decodeCmd_topoRun {w : Word} (h : decodeCmd w = .ok .topoRun) : fieldOp w = 0x08 := by
  unfold decodeCmd at h
  split at h
  · exact nomatch h
  · split at h
    · exact nomatch h
    · exact decodeOp_topoRun h

theorem decodeOp_unusedField {w : Word} {op : Byte} (h : decodeOp w = .error (.unusedField op)) : False := by
  unfold decodeOp decodePred at h
  split at h
  case h_4 => split at h <;> exact nomatch h
  all_goals exact nomatch h

theorem decodeCmd_unusedField {w : Word} {op : Byte} (h : decodeCmd w = .error (.unusedField op)) :
    op = fieldOp w := by
  unfold decodeCmd at h
  split at h
  · exact nomatch h
  · split at h
    · cases h; rfl
    · exact (decodeOp_unusedField h).elim

theorem rejectCommand_meshEnd (s : State) (r : Reject) : MeshEnd s (s.rejectCommand r) := by
  cases r with
  | badOpcode op => exact .same rfl rfl
  | predType dst => exact .same rfl rfl
  | badCodec id => exact .same rfl rfl
  | unusedField op =>
    simp only [State.rejectCommand]
    split
    · exact .discarded rfl rfl
    · exact .same rfl rfl

/-- A rejected word changes MESH only if its opcode is TOPO_RUN's (R310, R342). -/
theorem rejectCommand_mesh_eq {s : State} {r : Reject} (hr : r ≠ .unusedField 0x08) :
    (s.rejectCommand r).mesh = s.mesh ∧ (s.rejectCommand r).meshValid = s.meshValid := by
  cases r with
  | badOpcode op => exact ⟨rfl, rfl⟩
  | predType dst => exact ⟨rfl, rfl⟩
  | badCodec id => exact ⟨rfl, rfl⟩
  | unusedField op =>
    have hop : op ≠ 0x08 := fun h => hr (h ▸ rfl)
    simp only [State.rejectCommand, if_neg hop]
    exact ⟨rfl, rfl⟩

theorem engineStep_meshEnd {s t : State} (h : engineStep s = .next t) : MeshEnd s t := by
  rcases engineStep_cases h with ⟨-, rfl⟩ | ⟨-, i, -, hexec⟩ | ⟨-, r, -, rfl⟩
  · exact .same rfl rfl
  · exact (exec_ending hexec).meshEnd
  · exact rejectCommand_meshEnd s r

/-- The engine changes MESH only when it runs a command with TOPO_RUN's opcode. -/
theorem engineStep_mesh_eq {s t : State} (h : engineStep s = .next t) (hop : s.busy = true → fieldOp s.lcmd ≠ 0x08) :
    t.mesh = s.mesh ∧ t.meshValid = s.meshValid := by
  rcases engineStep_cases h with ⟨-, rfl⟩ | ⟨hb, i, hi, hexec⟩ | ⟨hb, r, hr, rfl⟩
  · exact ⟨rfl, rfl⟩
  · exact (exec_ending hexec).mesh_eq fun hi' => hop hb (decodeCmd_topoRun (hi' ▸ hi))
  · exact rejectCommand_mesh_eq fun hr' => hop hb (decodeCmd_unusedField (hr' ▸ hr)).symm

end Sys2Proof.Machine

/-! What a host access changes (20_memory.md R62 to R68), and what every step keeps. -/

namespace Sys2Proof.Machine

/-! The address map. -/

/-- CTRL stands at one offset (10_state.md R21). -/
theorem csrAt_eq_ctrl {off : Nat} (h : csrAt off = some .ctrl) : off = 0x004 := by
  unfold csrAt at h
  split at h
  · simp at h
  · split at h
    case h_2 => rfl
    all_goals simp at h

/-- A write reaches CTRL only as a 32-bit access at its offset. -/
theorem target_eq_ctrl {s : State} {width : Width} {off : Word} (h : s.target width off.toNat = .csr .ctrl) :
    width = .w32 ∧ off = 0x004 := by
  unfold State.target at h
  split at h
  · split at h
    · next r hr =>
      cases h
      exact ⟨rfl, BitVec.eq_of_toNat_eq (csrAt_eq_ctrl hr)⟩
    · exact nomatch h
  · split at h
    · split at h <;> exact nomatch h
    · exact nomatch h
    · split at h <;> exact nomatch h

/-- A byte of IN that an access addresses is inside IN_BYTES (R62). -/
theorem target_inByte {s : State} {width : Width} {off a : Nat} (h : s.target width off = .inByte a) :
    a < s.params.inBytes := by
  unfold State.target at h
  split at h
  · split at h <;> exact nomatch h
  · split at h
    · split at h
      · next hin => exact Target.inByte.inj h ▸ hin
      · exact nomatch h
    · exact nomatch h
    · split at h <;> exact nomatch h

/-- The four bytes of IN that an access addresses are inside IN_BYTES (R62). -/
theorem target_inWord {s : State} {width : Width} {off a : Nat} (h : s.target width off = .inWord a) :
    a + 3 < s.params.inBytes := by
  unfold State.target at h
  split at h
  · split at h <;> exact nomatch h
  · split at h
    · split at h <;> exact nomatch h
    · exact nomatch h
    · split at h
      · next hin => exact Target.inWord.inj h ▸ hin.2
      · exact nomatch h

/-! Predicates that host accesses keep. -/

/-- A predicate that the updates of a read keep: the value returned, ACCERR, SLOT_IDX. -/
structure ReadStable (P : State → Prop) : Prop where
  returnData : ∀ {s : State} (v : Word), P s → P (s.returnData v)
  refuse : ∀ {s : State}, P s → P s.refuse
  nextIdx : ∀ {s : State}, P s → P s.nextIdx

section
variable {P : State → Prop} {s : State}

theorem readSlot_keeps (hP : ReadStable P) (h : P s) {idle : State} (hidle : P idle) : P (s.readSlot idle) := by
  rcases s.readSlot_cases idle with ⟨-, -, heq⟩ | ⟨-, heq⟩ <;> rw [heq]
  · exact hP.returnData 0 (hP.refuse h)
  · exact hidle

theorem readSlotData_keeps (hP : ReadStable P) (h : P s) : P s.readSlotData := by
  refine readSlot_keeps hP h ?_
  split
  · exact hP.nextIdx (hP.returnData _ h)
  · exact hP.nextIdx (hP.returnData 0 (hP.refuse h))

theorem readCsr_keeps (hP : ReadStable P) (h : P s) (r : Csr) : P (s.readCsr r) := by
  cases r with
  | slotLen => exact readSlot_keeps hP h (hP.returnData _ h)
  | slotData => exact readSlotData_keeps hP h
  | _ => exact hP.returnData _ h

theorem hostRead_keeps (hP : ReadStable P) (h : P s) (width : Width) (off : Nat) : P (s.hostRead width off) := by
  unfold State.hostRead
  split
  · exact readCsr_keeps hP h _
  · exact hP.returnData _ h
  · exact hP.returnData _ h
  · exact hP.returnData 0 (hP.refuse h)

end

/-! MESH. -/

/-- A state with the MESH and the valid flag of `s`. -/
def State.SameMesh (s t : State) : Prop := t.mesh = s.mesh ∧ t.meshValid = s.meshValid

theorem State.SameMesh.readStable (s : State) : ReadStable s.SameMesh where
  returnData := fun _ h => h
  refuse := fun h => h
  nextIdx := fun h => h

theorem State.SameMesh.unlessBusy {s t : State} (h : s.SameMesh t) : s.SameMesh (s.unlessBusy t) := by
  unfold State.unlessBusy
  split
  · exact ⟨rfl, rfl⟩
  · exact h

/-- A CTRL write leaves MESH as it is, but for a soft reset, which discards it. -/
theorem writeCtrl_mesh (s : State) (v : Word) :
    s.SameMesh (s.writeCtrl v) ∨ (s.busy = false ∧ v.getLsbD 1 = true ∧ s.writeCtrl v = s.softReset) := by
  unfold State.writeCtrl
  split
  · exact .inl ⟨rfl, rfl⟩
  · next hb =>
    split
    · next hv => exact .inr ⟨by simpa using hb, hv, rfl⟩
    · split <;> exact .inl ⟨rfl, rfl⟩

theorem writeCsr_sameMesh (s : State) {r : Csr} (hr : r ≠ .ctrl) (v : Word) : s.SameMesh (s.writeCsr r v) := by
  cases r with
  | ctrl => exact absurd rfl hr
  | inLen => exact State.SameMesh.unlessBusy ⟨rfl, rfl⟩
  | roleMap i => exact State.SameMesh.unlessBusy ⟨rfl, rfl⟩
  | slotSel => exact State.SameMesh.unlessBusy ⟨rfl, rfl⟩
  | slotIdx => exact State.SameMesh.unlessBusy ⟨rfl, rfl⟩
  | slotLen =>
    refine State.SameMesh.unlessBusy ?_
    unfold State.writeSlotLen
    split <;> exact ⟨rfl, rfl⟩
  | slotData =>
    refine State.SameMesh.unlessBusy ?_
    unfold State.writeSlotData
    split <;> exact ⟨rfl, rfl⟩
  | _ => exact ⟨rfl, rfl⟩

/-- All a host access can do to MESH: nothing, or it is a CTRL write that resets the idle device (R441). -/
theorem hostAccess_mesh (s : State) (a : HostAccess) :
    s.SameMesh (s.hostAccess a) ∨
      (s.busy = false ∧ ∃ v, a = .write .w32 0x004 v ∧ v.getLsbD 1 = true ∧ s.hostAccess a = s.softReset) := by
  cases a with
  | read width off => exact .inl (hostRead_keeps (State.SameMesh.readStable s) ⟨rfl, rfl⟩ width off.toNat)
  | write width off v =>
    simp only [State.hostAccess, State.hostWrite]
    split
    · next r hr =>
      by_cases hctrl : r = .ctrl
      · subst hctrl
        obtain ⟨rfl, rfl⟩ := target_eq_ctrl hr
        rcases writeCtrl_mesh s v with h | ⟨hb, hv, h⟩
        · exact .inl h
        · exact .inr ⟨hb, v, rfl, hv, h⟩
      · exact .inl (writeCsr_sameMesh s hctrl v)
    · exact .inl (State.SameMesh.unlessBusy ⟨rfl, rfl⟩)
    · exact .inl (State.SameMesh.unlessBusy ⟨rfl, rfl⟩)
    · exact .inl ⟨rfl, rfl⟩

/-- All a step can do to MESH. -/
theorem step_meshEnd {s t : State} (h : step s = .next t) : MeshEnd s t := by
  rcases step_cases h with ⟨-, he⟩ | ⟨rest, -, he⟩ | ⟨a, rest, -, rfl⟩ | ⟨rest, -, rfl⟩
  · exact engineStep_meshEnd he
  · cases engineStep_meshEnd he with
    | same hm hv => exact .same hm hv
    | discarded hm hv => exact .discarded hm hv
    | built e hm hv => exact .built e hm hv
  · rcases hostAccess_mesh { s with inputs := rest } a with ⟨hm, hv⟩ | ⟨-, v, -, -, heq⟩
    · exact .same hm hv
    · rw [heq]
      exact .discarded rfl rfl
  · exact .discarded rfl rfl

/-- Settles O16: a run that succeeds leaves no empty slot, and no other step makes MESH valid. -/
theorem meshCompleteKept : Obligations.MeshCompleteKept := by
  intro s t hs hstep hv
  cases step_meshEnd hstep with
  | same hm hv' => exact hm ▸ hs (hv' ▸ hv)
  | discarded hm hv' => exact nomatch hv'.symm.trans hv
  | built e hm => exact (topoRun_twoSided_complete hm).2

/-- Settles O17: every link of a run writes both rings, and only links write rings. -/
theorem meshTwoSidedKept : Obligations.MeshTwoSidedKept := by
  intro s t hs hstep hv
  cases step_meshEnd hstep with
  | same hm hv' => exact hm ▸ hs (hv' ▸ hv)
  | discarded hm hv' => exact nomatch hv'.symm.trans hv
  | built e hm => exact (topoRun_twoSided_complete hm).1

/-- Settles O18, by the cases of a step. -/
theorem onlyTopoRunAndResetsChangeMesh : Obligations.OnlyTopoRunAndResetsChangeMesh := by
  intro s t hstep hne
  have changed (h : t.mesh = s.mesh ∧ t.meshValid = s.meshValid) : False := hne.elim (· h.1) (· h.2)
  rcases step_cases hstep with ⟨hin, he⟩ | ⟨rest, hin, he⟩ | ⟨a, rest, hin, rfl⟩ | ⟨rest, hin, rfl⟩
  · by_contra hno
    exact changed (engineStep_mesh_eq he fun hb hop => hno (.inr (.inr ⟨.inl hin, hb, hop⟩)))
  · by_contra hno
    exact changed (engineStep_mesh_eq (s := { s with inputs := rest }) he fun hb hop =>
      hno (.inr (.inr ⟨.inr ⟨rest, hin⟩, hb, hop⟩)))
  · rcases hostAccess_mesh { s with inputs := rest } a with h | ⟨hb, v, rfl, hv, -⟩
    · exact (changed h).elim
    · exact .inr (.inl ⟨v, rest, hin, hv, hb⟩)
  · exact .inl ⟨rest, hin⟩

/-! The machine invariant. -/

theorem State.Inv.readStable : ReadStable State.Inv where
  returnData := fun _ h => ⟨h.mem, h.slots, h.len, h.flags, h.errs, h.meshEmpty⟩
  refuse := fun h => ⟨h.mem, h.slots, h.len, h.flags, h.errs, h.meshEmpty⟩
  nextIdx := fun h => ⟨h.mem, h.slots, h.len, h.flags, h.errs, h.meshEmpty⟩

section
variable {s : State}

theorem State.Inv.setSlot (h : s.Inv) {k : SlotNo} {vs : List Word} (hvs : vs.length ≤ s.params.slotCap) :
    (s.setSlot k vs).Inv where
  mem := h.mem
  slots := h.slots.setSlot hvs
  len := h.len
  flags := h.flags
  errs := h.errs
  meshEmpty := h.meshEmpty

/-- Bytes written inside IN_BYTES (R29). -/
theorem State.Inv.writeIn (h : s.Inv) {a : Nat} {bs : List Byte} (hin : a + bs.length ≤ s.params.inBytes) :
    (s.writeIn a bs).Inv where
  mem := by
    refine ⟨Memory.wf_storeAll _ _ _ h.mem.1, fun c hc => ?_⟩
    rcases Memory.mem_storeAll hc with ⟨-, hlt⟩ | hc
    · exact hlt.trans_le hin
    · exact h.mem.2 c hc
  slots := h.slots
  len := h.len
  flags := h.flags
  errs := h.errs
  meshEmpty := h.meshEmpty

theorem toNat_u32_le (n : Nat) : (u32 n).toNat ≤ n := by
  rw [BitVec.toNat_ofNat]
  exact Nat.mod_le _ _

theorem State.Inv.writeInLen (h : s.Inv) (hb : s.busy = false) (v : Word) : (s.writeInLen v).Inv where
  mem := h.mem
  slots := h.slots
  len := ⟨(toNat_u32_le _).trans (min_le_right _ _), h.len.2⟩
  flags := ⟨h.flags.1, fun hb' => nomatch hb.symm.trans hb'⟩
  errs := h.errs
  meshEmpty := h.meshEmpty

theorem State.Inv.writeStatus (h : s.Inv) (v : Word) : (s.writeStatus v).Inv where
  mem := h.mem
  slots := h.slots
  len := h.len
  flags := by
    obtain ⟨hnot, hbusy⟩ := h.flags
    constructor
    · simp only [State.writeStatus, w1c, Bool.and_eq_true]
      exact fun ⟨⟨hd, _⟩, he, _⟩ => hnot ⟨hd, he⟩
    · intro hb
      obtain ⟨hd, he, hrest⟩ := hbusy hb
      exact ⟨by simp [State.writeStatus, w1c, hd], by simp [State.writeStatus, w1c, he], hrest⟩
  errs := by
    obtain ⟨hzero, hcode⟩ := h.errs
    simp only [State.ErrInv, State.writeStatus, w1c, Bool.and_eq_true]
    exact ⟨fun hbd => hzero (hbd.imp_right And.left), fun he => hcode he.1⟩
  meshEmpty := h.meshEmpty

theorem State.Inv.accept (h : s.Inv) (v : Word) : (s.accept v).Inv where
  mem := h.mem
  slots := h.slots
  len := ⟨h.len.1, h.len.1⟩
  flags := ⟨by simp, fun _ => ⟨rfl, rfl, rfl, rfl⟩⟩
  errs := ⟨fun _ => ⟨rfl, rfl⟩, fun he => (Bool.false_ne_true he).elim⟩
  meshEmpty := h.meshEmpty

theorem State.Inv.softReset (h : s.Inv) : s.softReset.Inv where
  mem := h.mem
  slots := fun k => by simp
  len := ⟨Nat.zero_le _, Nat.zero_le _⟩
  flags := ⟨fun hd => Bool.false_ne_true hd.1, fun hb => (Bool.false_ne_true hb).elim⟩
  errs := ⟨fun _ => ⟨rfl, rfl⟩, fun he => (Bool.false_ne_true he).elim⟩
  meshEmpty := fun _ => rfl

theorem State.Inv.powerOnReset (h : s.Inv) : s.powerOnReset.Inv where
  mem := ⟨rfl, fun _ hc => nomatch hc⟩
  slots := h.softReset.slots
  len := h.softReset.len
  flags := h.softReset.flags
  errs := h.softReset.errs
  meshEmpty := h.softReset.meshEmpty

theorem State.Inv.writeCtrl (h : s.Inv) (v : Word) : (s.writeCtrl v).Inv := by
  unfold State.writeCtrl
  split
  · exact ⟨h.mem, h.slots, h.len, h.flags, h.errs, h.meshEmpty⟩
  · next hb =>
    split
    · exact h.softReset
    · split
      · exact h.accept v
      · exact ⟨h.mem, h.slots, h.len, ⟨h.flags.1, fun hb' => absurd hb' hb⟩, h.errs, h.meshEmpty⟩

theorem State.Inv.unlessBusy {t : State} (h : s.Inv) (ht : s.busy = false → t.Inv) : (s.unlessBusy t).Inv := by
  unfold State.unlessBusy
  split
  · exact State.Inv.readStable.refuse h
  · next hb => exact ht (by simpa using hb)

theorem State.Inv.writeSlotLen (h : s.Inv) (v : Word) : (s.writeSlotLen v).Inv := by
  unfold State.writeSlotLen
  split
  · exact State.Inv.readStable.refuse h
  · refine h.setSlot ?_
    simp only [List.length_append, List.length_take, List.length_replicate]
    omega

theorem State.Inv.writeSlotData (h : s.Inv) (v : Word) : (s.writeSlotData v).Inv := by
  unfold State.writeSlotData
  split
  · refine State.Inv.readStable.nextIdx (h.setSlot ?_)
    rw [List.length_set]
    exact h.slots _
  · exact State.Inv.readStable.nextIdx (State.Inv.readStable.refuse h)

theorem State.Inv.writeCsr (h : s.Inv) (r : Csr) (v : Word) : (s.writeCsr r v).Inv := by
  cases r with
  | ctrl => exact h.writeCtrl v
  | status => exact h.writeStatus v
  | inLen => exact h.unlessBusy fun hb => h.writeInLen hb v
  | roleMap i => exact h.unlessBusy fun _ => ⟨h.mem, h.slots, h.len, h.flags, h.errs, h.meshEmpty⟩
  | slotSel => exact h.unlessBusy fun _ => ⟨h.mem, h.slots, h.len, h.flags, h.errs, h.meshEmpty⟩
  | slotIdx => exact h.unlessBusy fun _ => ⟨h.mem, h.slots, h.len, h.flags, h.errs, h.meshEmpty⟩
  | slotLen => exact h.unlessBusy fun _ => h.writeSlotLen v
  | slotData => exact h.unlessBusy fun _ => h.writeSlotData v
  | _ => exact ⟨h.mem, h.slots, h.len, h.flags, h.errs, h.meshEmpty⟩

theorem State.Inv.hostWrite (h : s.Inv) (width : Width) (off : Nat) (v : Word) : (s.hostWrite width off v).Inv := by
  unfold State.hostWrite
  split
  · exact h.writeCsr _ v
  · next a ha => exact h.unlessBusy fun _ => h.writeIn (Nat.succ_le_of_lt (target_inByte ha))
  · next a ha => exact h.unlessBusy fun _ => h.writeIn (Nat.succ_le_of_lt (target_inWord ha))
  · exact State.Inv.readStable.refuse h

theorem State.Inv.hostAccess (h : s.Inv) (a : HostAccess) : (s.hostAccess a).Inv := by
  cases a with
  | read width off => exact hostRead_keeps State.Inv.readStable h width off.toNat
  | write width off v => exact h.hostWrite width off.toNat v

/-- MESH stays empty while invalid (R40). -/
theorem MeshEnd.meshEmptyInv {t : State} (hm : MeshEnd s t) (h : s.MeshEmptyInv) : t.MeshEmptyInv := by
  intro hv
  cases hm with
  | same hm hv' => exact hm.trans (h (hv' ▸ hv))
  | discarded hm => exact hm
  | built e hm hv' => exact nomatch hv.symm.trans hv'

/-- A command that ends, from a state in which it runs, keeps the invariant. -/
theorem State.Inv.engineEnd {t : State} (h : s.Inv) (hb : s.busy = true) (he : EngineEnd s t) (hs : t.SlotInv)
    (hm : MeshEnd s t) : t.Inv := by
  obtain ⟨hdone, herr, -, -⟩ := h.flags.2 hb
  have hmesh := hm.meshEmptyInv h.meshEmpty
  cases he with
  | done sl draws m mv r0 r1 =>
    refine ⟨h.mem, hs, h.len, ⟨fun hd => ?_, fun hb' => (Bool.false_ne_true hb').elim⟩,
      ⟨fun _ => h.errs.1 (.inl hb), fun he => ?_⟩, hmesh⟩
    · exact Bool.false_ne_true (herr.symm.trans hd.2)
    · exact (Bool.false_ne_true (herr.symm.trans he)).elim
  | error sl m mv c x =>
    refine ⟨h.mem, hs, h.len, ⟨fun hd => ?_, fun hb' => (Bool.false_ne_true hb').elim⟩,
      ⟨fun hbd => ?_, fun _ => errCodeByte_ne_zero c⟩, hmesh⟩
    · exact Bool.false_ne_true (hdone.symm.trans hd.1)
    · exact (hbd.elim Bool.false_ne_true fun hd => Bool.false_ne_true (hdone.symm.trans hd)).elim

theorem State.Inv.engineStep {t : State} (h : s.Inv) (hstep : engineStep s = .next t) : t.Inv := by
  rcases engineStep_cases hstep with ⟨-, rfl⟩ | ⟨hb, i, -, hexec⟩ | ⟨hb, r, -, rfl⟩
  · exact h
  · have hend := exec_ending hexec
    exact h.engineEnd hb hend.engineEnd (hend.slotInv h.slots) hend.meshEnd
  · exact h.engineEnd hb (rejectCommand_engineEnd s r) (rejectCommand_slotInv r h.slots) (rejectCommand_meshEnd s r)

theorem State.Inv.withInputs (h : s.Inv) (rest : List Input) : State.Inv { s with inputs := rest } :=
  ⟨h.mem, h.slots, h.len, h.flags, h.errs, h.meshEmpty⟩

end

/-- Settles O14, by the cases of a step: the engine's turn, a host access, a power-on reset. -/
theorem invariantKept : Obligations.InvariantKept := by
  intro s t h hstep
  rcases step_cases hstep with ⟨-, he⟩ | ⟨rest, -, he⟩ | ⟨a, rest, -, rfl⟩ | ⟨rest, -, rfl⟩
  · exact h.engineStep he
  · exact (h.withInputs rest).engineStep he
  · exact (h.withInputs rest).hostAccess a
  · exact (h.withInputs rest).powerOnReset

end Sys2Proof.Machine

/-! What no command reads: IN from the latched IN_LEN on (20_memory.md R65), and the registers that are latched
(10_state.md R36, R37). -/

namespace Sys2Proof.Machine

/-! Readers of IN. -/

/-- The views `v` and `w` of IN agree on all that a command may read: every byte below IN_LEN. -/
structure SameView (v w : InView) : Prop where
  inLen : w.inLen = v.inLen
  endian : w.endian = v.endian
  slotCap : w.slotCap = v.slotCap
  byte : ∀ a < v.inLen, w.byte a = v.byte a

section
variable {v w : InView}

theorem SameView.word (h : SameView v w) {a : Nat} (ha : a + 4 ≤ v.inLen) : w.word a = v.word a := by
  simp only [InView.word, h.endian, h.byte a (by omega), h.byte (a + 1) (by omega), h.byte (a + 2) (by omega),
    h.byte (a + 3) (by omega)]

theorem SameView.readU8 (h : SameView v w) : readU8 w = readU8 v := by
  funext p
  simp only [Machine.readU8, h.inLen]
  split
  · rfl
  · rw [h.byte p (by omega)]

theorem SameView.readWord (h : SameView v w) : readWord w = readWord v := by
  funext p
  simp only [Machine.readWord, h.inLen]
  split
  · rfl
  · rw [h.word (by omega)]

theorem SameView.readInt (h : SameView v w) : readInt w = readInt v := by
  simp only [Machine.readInt, h.readWord]

theorem SameView.contextSource (h : SameView v w) (q0 : Nat) : contextSource w q0 = contextSource v q0 := by
  have hbit : contextBit w q0 = contextBit v q0 := by
    funext c
    simp only [contextBit, h.inLen]
    split
    · rfl
    · rw [h.word (by omega)]
  simp only [Machine.contextSource, hbit]

theorem SameView.withContextReader {α : Type} (h : SameView v w) (m : BitSource → Cursor α) :
    withContextReader w m = withContextReader v m := by
  funext q0
  simp only [Machine.withContextReader, h.contextSource]

theorem SameView.cdp2Payload (h : SameView v w) (load : Cursor (List Word)) (n : Nat) (codec : Cdp2Codec) :
    cdp2Payload w load n codec = cdp2Payload v load n codec := by
  cases codec with
  | null => simp only [Machine.cdp2Payload, null2Load, h.readInt, h.readWord]
  | bitlength2 => simp only [Machine.cdp2Payload, bitlength2Load, h.readInt, h.readWord]
  | arithmetic => simp only [Machine.cdp2Payload, arith2Load, h.readInt, h.readWord, h.withContextReader]
  | chopper => simp only [Machine.cdp2Payload, chopperLoad, h.readInt, h.readU8]

theorem SameView.cdp2Count (h : SameView v w) : cdp2Count w = cdp2Count v := by
  simp only [Machine.cdp2Count, h.readInt, h.slotCap]

theorem SameView.loadCdp2 (h : SameView v w) (levels : Nat) : loadCdp2 w levels = loadCdp2 v levels := by
  induction levels with
  | zero => rfl
  | succ levels ih => simp only [Machine.loadCdp2, h.cdp2Count, h.readU8, h.cdp2Payload, ih]

theorem SameView.loadCdp2As (h : SameView v w) (codec : Cdp2Codec) : loadCdp2As w codec = loadCdp2As v codec := by
  simp only [Machine.loadCdp2As, h.cdp2Count, h.readU8, h.cdp2Payload, h.loadCdp2]

theorem SameView.cdp1Payload (h : SameView v w) (load : Cursor (List Word)) (codec : Cdp1Codec) :
    cdp1Payload w load codec = cdp1Payload v load codec := by
  simp only [Machine.cdp1Payload, cdp1Table, h.readInt, h.readU8, h.readWord, h.withContextReader, h.slotCap]

theorem SameView.loadCdp1 (h : SameView v w) (levels : Nat) : loadCdp1 w levels = loadCdp1 v levels := by
  induction levels with
  | zero => rfl
  | succ levels ih => simp only [Machine.loadCdp1, h.readU8, h.cdp1Payload, ih]

theorem SameView.loadCdp1As (h : SameView v w) (codec : Cdp1Codec) : loadCdp1As w codec = loadCdp1As v codec := by
  simp only [Machine.loadCdp1As, h.readU8, h.cdp1Payload, h.loadCdp1]

end

/-! Updates of what no command writes. -/

/-- The counter of NaN draws after a command that draws (45_vertex.md R284). -/
def State.setDraws (s : State) (n : Nat) : State := { s with draws := n }

theorem State.setDraws_eq (s : State) (n : Nat) : { s with draws := n } = s.setDraws n := rfl

/-- An update of the state that commutes with every write a command makes, and leaves all that a command reads but IN
as it is. -/
structure CommandFrame (f : State → State) : Prop where
  setSlot : ∀ s k vs, (f s).setSlot k vs = f (s.setSlot k vs)
  complete : ∀ s r0 r1, (f s).complete r0 r1 = f (s.complete r0 r1)
  recordError : ∀ s c x, (f s).recordError c x = f (s.recordError c x)
  setMesh : ∀ s m, (f s).setMesh m = f (s.setMesh m)
  discardMesh : ∀ s, (f s).discardMesh = f s.discardMesh
  setDraws : ∀ s n, (f s).setDraws n = f (s.setDraws n)
  slot : ∀ s k, (f s).slot k = s.slot k
  params : ∀ s, (f s).params = s.params
  roleMap : ∀ s, (f s).roleMap = s.roleMap
  mesh : ∀ s, (f s).mesh = s.mesh
  meshValid : ∀ s, (f s).meshValid = s.meshValid
  draws : ∀ s, (f s).draws = s.draws
  lcmd : ∀ s, (f s).lcmd = s.lcmd
  larg0 : ∀ s, (f s).larg0 = s.larg0
  larg1 : ∀ s, (f s).larg1 = s.larg1
  larg2 : ∀ s, (f s).larg2 = s.larg2

/-- The outcome with `f` done to its next state. -/
def mapNext (f : State → State) : Result → Result
  | .next t => .next (f t)
  | .fault r => .fault r
  | .refused r => .refused r

section
variable {f : State → State} (hf : CommandFrame f) (s : State)
include hf

theorem CommandFrame.emptySlots (ks : List SlotNo) : (f s).emptySlots ks = f (s.emptySlots ks) := by
  induction ks generalizing s with
  | nil => rfl
  | cons k ks ih => rw [State.emptySlots, hf.setSlot, ih]; rfl

theorem CommandFrame.errorEntry (c : ErrCode) (x : Word) (ks : List SlotNo) :
    (f s).errorEntry c x ks = f (s.errorEntry c x ks) := by
  rw [State.errorEntry, hf.emptySlots, hf.recordError]; rfl

theorem CommandFrame.failWith (c : ErrCode) (ks : List SlotNo) :
    failWith (f s) c ks = mapNext f (failWith s c ks) := by
  rw [failWith_eq, hf.errorEntry]; rfl

theorem CommandFrame.setNormals (x y z : SlotNo) (ns : List (Word × Word × Word)) :
    (f s).setNormals x y z ns = f (s.setNormals x y z ns) := by
  simp only [State.setNormals, hf.setSlot]

theorem CommandFrame.setCornerAttr (k : Option SlotNo) (vs : List Word) :
    (f s).setCornerAttr k vs = f (s.setCornerAttr k vs) := by
  cases k with
  | none => rfl
  | some k => exact hf.setSlot s k vs

theorem CommandFrame.roleSlot (r : Role) : (f s).roleSlot r = s.roleSlot r := by
  simp only [State.roleSlot, hf.roleMap]

theorem CommandFrame.emitSlots : (f s).emitSlots = s.emitSlots := by
  simp only [State.emitSlots, hf.roleSlot]

theorem CommandFrame.topoEnv : (f s).topoEnv = s.topoEnv := by
  have hslot : (f s).slot = s.slot := funext (hf.slot s)
  simp only [State.topoEnv, State.roleStream, hf.roleSlot, hf.params, hslot]

theorem CommandFrame.streamCommand (a : SlotNo) {load load' : Cursor (List Word)} (hload : load' = load) :
    streamCommand (f s) a load' = mapNext f (streamCommand s a load) := by
  subst hload
  simp only [Machine.streamCommand, hf.larg0]
  cases load' s.larg0.toNat with
  | error e => simp only [hf.errorEntry, mapNext]
  | ok r => simp only [hf.setSlot, hf.complete, mapNext]

theorem CommandFrame.predCommand (t : PredType) (a b : SlotNo) :
    predCommand t a b (f s) = mapNext f (predCommand t a b s) := by
  simp only [predCommand_eq, hf.slot, hf.setSlot, hf.complete, mapNext]

theorem CommandFrame.execDeqQuant (a b : SlotNo) : execDeqQuant a b (f s) = mapNext f (execDeqQuant a b s) := by
  simp only [Machine.execDeqQuant, State.setDraws_eq]
  simp only [hf.larg0, hf.larg1, hf.larg2, hf.slot, hf.params, hf.draws]
  split
  · exact hf.failWith s _ _
  · rw [hf.setDraws, hf.setSlot, hf.complete]; rfl

theorem CommandFrame.execDeqExpmant (a b c : SlotNo) :
    execDeqExpmant a b c (f s) = mapNext f (execDeqExpmant a b c s) := by
  simp only [Machine.execDeqExpmant, hf.slot]
  split
  · exact hf.failWith s _ _
  · rw [hf.setSlot, hf.complete]; rfl

theorem CommandFrame.execDeqDeering (a b c d : SlotNo) (m : BitVec 4) :
    execDeqDeering a b c d m (f s) = mapNext f (execDeqDeering a b c d m s) := by
  simp only [Machine.execDeqDeering, State.setDraws_eq]
  simp only [hf.larg0, hf.slot, hf.params, hf.draws]
  split
  · exact hf.failWith s _ _
  · split
    · exact hf.failWith s _ _
    · split
      · exact hf.failWith s _ _
      · split
        · exact hf.failWith s _ _
        · split
          · exact hf.failWith s _ _
          · rw [hf.setDraws, hf.setNormals, hf.complete]; rfl

theorem CommandFrame.execVtxPack (a b c d : SlotNo) :
    execVtxPack a b c d (f s) = mapNext f (execVtxPack a b c d s) := by
  simp only [Machine.execVtxPack, hf.slot, hf.params]
  split
  · exact hf.failWith s _ _
  · split
    · exact hf.failWith s _ _
    · rw [hf.setSlot, hf.complete]; rfl

theorem CommandFrame.execTopoRun : execTopoRun (f s) = mapNext f (execTopoRun s) := by
  simp only [Machine.execTopoRun, hf.topoEnv]
  cases topoRun s.topoEnv with
  | ok m => simp only [hf.setMesh, hf.complete, mapNext]
  | error x =>
    cases x with
    | error e => simp only [hf.errorEntry, hf.discardMesh, mapNext]
    | stuck => rfl

theorem CommandFrame.execTopoEmit : execTopoEmit (f s) = mapNext f (execTopoEmit s) := by
  simp only [Machine.execTopoEmit, hf.roleSlot, hf.emitSlots, hf.meshValid, hf.mesh, hf.params]
  cases s.roleSlot roleCornerVtx with
  | none => exact hf.failWith s _ _
  | some cv =>
    simp only
    split
    · exact hf.failWith s _ _
    · split
      · exact hf.failWith s _ _
      · split
        · exact hf.failWith s _ _
        · rw [hf.setSlot, hf.setCornerAttr, hf.complete]; rfl

/-- Every instruction does on the updated state what it does on the state itself, if the two views of IN agree below
IN_LEN. -/
theorem CommandFrame.exec (i : Instr) (hv : SameView s.inView (f s).inView) :
    exec i (f s) = mapNext f (exec i s) := by
  have codec (load load' : Cursor (List Word)) (hload : load' = load) :
      Machine.streamCommand (f s) (fieldA (f s).lcmd) load' =
        mapNext f (Machine.streamCommand s (fieldA s.lcmd) load) := by
    rw [hf.lcmd]
    exact hf.streamCommand s _ hload
  cases i with
  | nop => exact congrArg Host.Outcome.next (hf.complete s 0 0)
  | decCdp2 a => exact hf.streamCommand s a (hv.loadCdp2 _)
  | decCdp1 a => exact hf.streamCommand s a (hv.loadCdp1 _)
  | predLag1 a b => exact hf.predCommand s _ a b
  | predLag2 a b => exact hf.predCommand s _ a b
  | predStride1 a b => exact hf.predCommand s _ a b
  | predStride2 a b => exact hf.predCommand s _ a b
  | predStripindex a b => exact hf.predCommand s _ a b
  | predRamp a b => exact hf.predCommand s _ a b
  | predXor1 a b => exact hf.predCommand s _ a b
  | predXor2 a b => exact hf.predCommand s _ a b
  | predNull a b => exact hf.predCommand s _ a b
  | deqQuant a b => exact hf.execDeqQuant s a b
  | deqExpmant a b c => exact hf.execDeqExpmant s a b c
  | deqDeering a b c d m => exact hf.execDeqDeering s a b c d m
  | vtxPack a b c d => exact hf.execVtxPack s a b c d
  | topoRun => exact hf.execTopoRun s
  | topoEmit => exact hf.execTopoEmit s
  | cdp2Null => exact codec _ _ (hv.loadCdp2As _)
  | cdp2Bitlength2 => exact codec _ _ (hv.loadCdp2As _)
  | cdp2Arithmetic => exact codec _ _ (hv.loadCdp2As _)
  | cdp2Chopper => exact codec _ _ (hv.loadCdp2As _)
  | cdp1Null => exact codec _ _ (hv.loadCdp1As _)
  | cdp1Bitlength1 => exact codec _ _ (hv.loadCdp1As _)
  | cdp1Huffman => exact codec _ _ (hv.loadCdp1As _)
  | cdp1Arithmetic => exact codec _ _ (hv.loadCdp1As _)

/-- The same, for an instruction that answers a next state. -/
theorem CommandFrame.exec_next {i : Instr} {s t : State} (hv : SameView s.inView (f s).inView)
    (h : Machine.exec i s = .next t) : Machine.exec i (f s) = .next (f t) := by
  rw [hf.exec s i hv, h]; rfl

end

/-- Another content of IN. -/
theorem CommandFrame.withMem (m : Memory) : CommandFrame fun s => { s with mem := m } := by
  constructor <;> intros <;> rfl

/-- Another content of the registers that an accepted GO has latched, and of those only the host's accesses read. -/
theorem CommandFrame.withHostRegisters (c x0 x1 x2 n ix : Word) (en irq acc : Bool) (sel : SlotNo) :
    CommandFrame fun s => { s with
      cmd := c, arg0 := x0, arg1 := x1, arg2 := x2, inLen := n, endian := en, irqEn := irq, accErr := acc,
      slotSel := sel, slotIdx := ix } := by
  constructor <;> intros <;> rfl

/-- No command writes IN (R73). -/
theorem exec_mem {i : Instr} {s t : State} (h : exec i s = .next t) : t.mem = s.mem := by
  cases (exec_ending h).engineEnd <;> rfl

/-- Settles O12: a stream reads a byte or a word of IN only after the check against the latched IN_LEN. -/
theorem engineReadsOnlyBelowInLen : Obligations.EngineReadsOnlyBelowInLen :=
  fun _ _ _ m hbytes h => ⟨exec_mem h, (CommandFrame.withMem m).exec_next ⟨rfl, rfl, rfl, hbytes⟩ h⟩

/-- Settles O13: a command's view of IN has the latched ENDIAN and IN_LEN, and no write of a command reads the
registers. -/
theorem engineExecutesTheLatchOnly : Obligations.EngineExecutesTheLatchOnly :=
  fun _ _ _ c x0 x1 x2 n ix en irq acc sel h =>
    (CommandFrame.withHostRegisters c x0 x1 x2 n ix en irq acc sel).exec_next ⟨rfl, rfl, rfl, fun _ _ => rfl⟩ h

end Sys2Proof.Machine

/-! Host accesses of the registers (10_state.md R21 to R33, 70_reset_and_hazards.md R452). -/

namespace Sys2Proof.Machine

/-- A step whose next move is a host access is that access (20_memory.md R68). -/
theorem State.host_eq (s : State) (a : HostAccess) : s.host a = .next (s.hostAccess a) := rfl

/-- Every register stands below the IN window (R61). -/
theorem csrAt_lt_inWindow {off : Nat} {r : Csr} (h : csrAt off = some r) : off < inWindow := by
  unfold csrAt at h
  split at h
  · next hrole => exact hrole.2.1.trans_lt (by decide)
  · split at h
    case h_22 => exact nomatch h
    all_goals decide

theorem target_csr (s : State) {off : Nat} {r : Csr} (h : csrAt off = some r) : s.target .w32 off = .csr r := by
  simp only [State.target, if_pos (csrAt_lt_inWindow h), h]

/-- A 32-bit read at a register's offset reads the register. -/
theorem host_read_csr (s : State) {off : Word} {r : Csr} (h : csrAt off.toNat = some r) :
    s.host (.read .w32 off) = .next (s.readCsr r) := by
  simp only [State.host_eq, State.hostAccess, State.hostRead, target_csr s h]

/-- A 32-bit write at a register's offset writes the register. -/
theorem host_write_csr (s : State) {off : Word} {r : Csr} (h : csrAt off.toNat = some r) (v : Word) :
    s.host (.write .w32 off v) = .next (s.writeCsr r v) := by
  simp only [State.host_eq, State.hostAccess, State.hostWrite, target_csr s h]

theorem csrAt_roleMap (r : Role) : csrAt (u32 (0x080 + 4 * r.val)).toNat = some (.roleMap r) := by
  have hr := r.isLt
  have hoff : (u32 (0x080 + 4 * r.val)).toNat = 0x080 + 4 * r.val := by
    rw [BitVec.toNat_ofNat]
    omega
  rw [hoff, csrAt, dif_pos (by omega)]
  congr 2
  apply Fin.ext
  simp only
  omega

theorem State.unlessBusy_busy (s : State) (h : s.busy = true) (t : State) : s.unlessBusy t = s.refuse := by
  simp only [State.unlessBusy, h, if_true]

theorem State.unlessBusy_idle (s : State) (h : s.busy = false) (t : State) : s.unlessBusy t = t := by
  simp only [State.unlessBusy, h, Bool.false_eq_true, if_false]

theorem State.readSlot_refused (s : State) (hb : s.busy = true) (hp : s.params.busySlotRead = .refused) (idle : State) :
    s.readSlot idle = s.refuseRead := by
  simp only [State.readSlot, hb, hp, and_self, if_true]

/-- A slot read that is not refused has its effect while idle. -/
theorem State.readSlot_accepted (s : State) (h : s.busy = false ∨ s.params.busySlotRead = .valueBefore)
    (idle : State) : s.readSlot idle = idle := by
  rcases h with h | h <;> simp [State.readSlot, h]

/-! SLOT_SEL, SLOT_LEN, SLOT_IDX and SLOT_DATA. -/

theorem readSlotData_inside {s : State} (h : s.busy = false ∨ s.params.busySlotRead = .valueBefore) {x : Word}
    (hx : (s.slot s.slotSel)[s.slotIdx.toNat]? = some x) : s.readSlotData = (s.returnData x).nextIdx := by
  rw [State.readSlotData, s.readSlot_accepted h, hx]

theorem readSlotData_outside {s : State} (h : s.busy = false ∨ s.params.busySlotRead = .valueBefore)
    (hx : (s.slot s.slotSel).length ≤ s.slotIdx.toNat) : s.readSlotData = s.refuseRead.nextIdx := by
  rw [State.readSlotData, s.readSlot_accepted h, List.getElem?_eq_none hx]

/-- The slot after a SLOT_LEN write of `n` to a slot that holds `vs` (R31). -/
theorem resize_getD {vs : List Word} {n i : Nat} (hi : i < n) :
    (vs.take n ++ List.replicate (n - vs.length) 0).getD i 0 = if i < vs.length then vs.getD i 0 else 0 := by
  by_cases h : i < vs.length
  · rw [if_pos h, List.getD_append _ _ _ _ (by simp [hi, h])]
    simp [List.getD_eq_getElem?_getD, hi]
  · rw [if_neg h, List.getD_append_right _ _ _ _ (by simp; omega)]
    simp

theorem resize_length (vs : List Word) (n : Nat) :
    (vs.take n ++ List.replicate (n - vs.length) (0 : Word)).length = n := by
  simp only [List.length_append, List.length_take, List.length_replicate]
  omega

/-- Settles O24, clause by clause from the equations of the slot registers. -/
theorem slotAccess : Obligations.SlotAccess := by
  intro s v
  have sel : csrAt (0x100#32).toNat = some .slotSel := by decide
  have len : csrAt (0x104#32).toNat = some .slotLen := by decide
  have idx : csrAt (0x108#32).toNat = some .slotIdx := by decide
  have data : csrAt (0x10C#32).toNat = some .slotData := by decide
  refine ⟨fun hb => ⟨?_, fun hp => ?_⟩, fun h => ⟨?_, fun x hx => ?_, fun hx => ?_⟩,
    fun hb => ⟨?_, ?_, fun hcap => ?_, fun hcap => ?_, fun hin => ⟨?_, List.length_set⟩, fun hout => ?_⟩⟩
  · have refused {o : Word} {r : Csr} (ho : csrAt o.toNat = some r) (hr : s.writeCsr r v = s.refuse) :
        s.host (.write .w32 o v) = .next { s with accErr := true } := (host_write_csr s ho v).trans (congrArg _ hr)
    simp only [List.forall_mem_cons]
    exact ⟨refused sel (s.unlessBusy_busy hb _), refused len (s.unlessBusy_busy hb _),
      refused idx (s.unlessBusy_busy hb _), refused data (s.unlessBusy_busy hb _), by simp⟩
  · have refused {o : Word} {r : Csr} (ho : csrAt o.toNat = some r) (hr : s.readCsr r = s.refuseRead) :
        s.host (.read .w32 o) = .next { s with accErr := true, hostData := 0 } :=
      (host_read_csr s ho).trans (congrArg _ hr)
    simp only [List.forall_mem_cons]
    exact ⟨refused len (s.readSlot_refused hb hp _), refused data (s.readSlot_refused hb hp _), by simp⟩
  · exact (host_read_csr s len).trans (congrArg _ (s.readSlot_accepted h _))
  · exact (host_read_csr s data).trans (congrArg _ (readSlotData_inside h hx))
  · exact (host_read_csr s data).trans (congrArg _ (readSlotData_outside h hx))
  · exact (host_write_csr s sel v).trans (congrArg _ (s.unlessBusy_idle hb _))
  · exact (host_write_csr s idx v).trans (congrArg _ (s.unlessBusy_idle hb _))
  · exact (host_write_csr s len v).trans (congrArg _ ((s.unlessBusy_idle hb _).trans (if_pos hcap)))
  · refine ⟨_, ?_, resize_length (s.slot s.slotSel) v.toNat, fun i hi => resize_getD hi⟩
    exact (host_write_csr s len v).trans
      (congrArg _ ((s.unlessBusy_idle hb _).trans (if_neg (Nat.not_lt.2 hcap))))
  · exact (host_write_csr s data v).trans (congrArg _ ((s.unlessBusy_idle hb _).trans (if_pos hin)))
  · exact (host_write_csr s data v).trans
      (congrArg _ ((s.unlessBusy_idle hb _).trans (if_neg (Nat.not_lt.2 hout))))

/-! IN_LEN and the role map. -/

theorem writeInLen_toNat (s : State) (v : Word) : (s.writeInLen v).inLen.toNat = min v.toNat s.params.inBytes := by
  have hv := v.isLt
  rw [State.writeInLen, BitVec.toNat_ofNat, Nat.mod_eq_of_lt (by omega)]

/-- Settles O25. -/
theorem inLenAndRoleMapAccess : Obligations.InLenAndRoleMapAccess := by
  intro s r v
  have inLen : csrAt (0x02C#32).toNat = some .inLen := by decide
  have role := csrAt_roleMap r
  refine ⟨fun hb => ⟨_, ?_, rfl, writeInLen_toNat s v⟩, fun hb => ?_, ?_, ?_, fun hb => ?_,
    fun hb => ⟨{ s with roleMap := s.roleMap.set r.val (roleOfWord v) r.isLt }, ?_, rfl, fun q => ?_⟩⟩
  · exact (host_write_csr s inLen v).trans (congrArg _ (s.unlessBusy_idle hb _))
  · exact (host_write_csr s inLen v).trans (congrArg _ (s.unlessBusy_busy hb _))
  · exact host_read_csr s inLen
  · exact host_read_csr s role
  · exact (host_write_csr s role v).trans (congrArg _ (s.unlessBusy_busy hb _))
  · exact (host_write_csr s role v).trans (congrArg _ (s.unlessBusy_idle hb _))
  · simp only [Fin.getElem_fin, Vector.getElem_set, roleOfWord, Fin.ext_iff, eq_comm (a := r.val)]

/-! The interrupt line. -/

/-- The interrupt is off where neither DONE nor ERR is set. -/
theorem irq_of_done_err {s : State} (hd : s.done = false) (he : s.err = false) : s.irq = false := by
  simp [State.irq, hd, he]

theorem irq_of_irqEn {s : State} (h : s.irqEn = false) : s.irq = false := by
  simp [State.irq, h]

/-- After a CTRL write, IRQ_EN is the written bit, unless the device was reset, which clears it. -/
theorem writeCtrl_irqEn (s : State) {v : Word} (h : v.getLsbD 9 = false) : (s.writeCtrl v).irqEn = false := by
  unfold State.writeCtrl
  split
  · exact h
  · split
    · rfl
    · split <;> exact h

/-- A CTRL write with GO on the idle device is an accept or a reset; both clear DONE and ERR (R121, R441). -/
theorem writeCtrl_go_irq {s : State} {v : Word} (hb : s.busy = false) (hgo : v.getLsbD 0 = true) :
    (s.writeCtrl v).irq = false := by
  simp only [State.writeCtrl, hb, hgo, Bool.false_eq_true, if_false, if_true]
  split
  · exact irq_of_irqEn rfl
  · exact irq_of_done_err rfl rfl

/-- Settles O29. -/
theorem interruptLine : Obligations.InterruptLine := by
  have ctrl : csrAt (0x004#32).toNat = some .ctrl := by decide
  have status : csrAt (0x008#32).toNat = some .status := by decide
  refine ⟨fun _ => rfl, rfl, fun s hnot => ⟨fun hd => ⟨_, host_write_csr s status _, ?_⟩,
    fun he => ⟨_, host_write_csr s status _, ?_⟩⟩, fun s v h => ⟨_, host_write_csr s ctrl v, ?_⟩,
    fun s v hb hgo => ⟨_, host_write_csr s ctrl v, writeCtrl_go_irq hb hgo⟩, fun _ _ => rfl⟩
  · have he : s.err = false := by simpa [hd] using hnot
    exact irq_of_done_err (by simp [State.writeCsr, State.writeStatus, w1c])
      (by simp [State.writeCsr, State.writeStatus, w1c, he])
  · have hd : s.done = false := by simpa [he] using hnot
    exact irq_of_done_err (by simp [State.writeCsr, State.writeStatus, w1c, hd])
      (by simp [State.writeCsr, State.writeStatus, w1c])
  · exact irq_of_irqEn (writeCtrl_irqEn s h)

/-! The control and status registers. -/

/-- A CTRL write on the idle device with neither SOFT_RESET nor GO stores its two fields (R22). -/
theorem writeCtrl_fields {s : State} {v : Word} (hb : s.busy = false) (hgo : v.getLsbD 0 = false)
    (hreset : v.getLsbD 1 = false) : s.writeCtrl v = { s with endian := v.getLsbD 8, irqEn := v.getLsbD 9 } := by
  simp only [State.writeCtrl, hb, hgo, hreset, Bool.false_eq_true, if_false]

/-- Settles O27, register by register. -/
theorem controlAndStatusRegisters : Obligations.ControlAndStatusRegisters := by
  intro s v
  have read (off : Word) (r : Csr) (h : csrAt off.toNat = some r) := host_read_csr s h
  have write (off : Word) (r : Csr) (h : csrAt off.toNat = some r) := host_write_csr s h v
  refine ⟨read 0x000 .id (by decide), read 0x004 .ctrl (by decide), read 0x008 .status (by decide),
    read 0x00C .errCode (by decide), read 0x010 .errInfo (by decide), read 0x014 .cmd (by decide),
    read 0x018 .arg0 (by decide), read 0x01C .arg1 (by decide), read 0x020 .arg2 (by decide),
    read 0x024 .result0 (by decide), read 0x028 .result1 (by decide), read 0x02C .inLen (by decide),
    read 0x030 .nv (by decide), read 0x034 .nf (by decide), read 0x038 .ncorner (by decide),
    read 0x03C .nattr (by decide), read 0x040 .ncomp (by decide), read 0x100 .slotSel (by decide),
    read 0x108 .slotIdx (by decide), write 0x014 .cmd (by decide), write 0x018 .arg0 (by decide),
    write 0x01C .arg1 (by decide), write 0x020 .arg2 (by decide), write 0x008 .status (by decide),
    fun hb hgo hreset => (write 0x004 .ctrl (by decide)).trans (congrArg _ (writeCtrl_fields hb hgo hreset)), ?_⟩
  simp only [List.forall_mem_cons]
  exact ⟨write _ .id (by decide), write _ .errCode (by decide), write _ .errInfo (by decide),
    write _ .result0 (by decide), write _ .result1 (by decide), write _ .nv (by decide), write _ .nf (by decide),
    write _ .ncorner (by decide), write _ .nattr (by decide), write _ .ncomp (by decide), by simp⟩

end Sys2Proof.Machine

/-! Memory: the accesses the address map refuses, the IN window, and the engine's reads of IN (20_memory.md). -/

namespace Sys2Proof.Machine

/-! Accesses the address map refuses. -/

/-- The registers stand at aligned offsets of three ranges (10_state.md R21). -/
theorem csrAt_offset {off : Nat} {r : Csr} (h : csrAt off = some r) :
    off % 4 = 0 ∧ (off ≤ 0x040 ∨ (0x080 ≤ off ∧ off ≤ 0x0C0) ∨ (0x100 ≤ off ∧ off ≤ 0x10C)) := by
  unfold csrAt at h
  split at h
  · next hrole =>
    obtain ⟨hlow, hhigh, halign⟩ := hrole
    exact ⟨halign, .inr (.inl ⟨hlow, hhigh⟩)⟩
  · split at h
    case h_22 => exact nomatch h
    all_goals decide

/-- An access that has a target is one of the three kinds of R61 to R63. -/
theorem mapped_of_target_ne_none {s : State} {width : Width} {off : Nat} (h : s.target width off ≠ .none) :
    Mapped s.params.inBytes width off := by
  unfold State.target inWindow at h
  split at h
  · split at h
    · next hr =>
      obtain ⟨halign, hrange⟩ := csrAt_offset hr
      exact .inl ⟨rfl, halign, hrange⟩
    · exact absurd rfl h
  · cases width with
    | w8 =>
      have hin := of_not_not fun hout => h (if_neg hout)
      exact .inr (.inl ⟨rfl, by omega, by omega⟩)
    | w16 => exact absurd rfl h
    | w32 =>
      have hin := of_not_not fun hout => h (if_neg hout)
      exact .inr (.inr ⟨rfl, by omega, by omega, by omega⟩)

theorem target_eq_none {s : State} {width : Width} {off : Nat} (h : ¬ Mapped s.params.inBytes width off) :
    s.target width off = .none :=
  of_not_not fun hne => h (mapped_of_target_ne_none hne)

/-- Settles O22: an access that is not mapped has no target, and one without a target is refused. -/
theorem unmappedAccessRefused : Obligations.UnmappedAccessRefused := by
  intro s width off v h
  have htarget := target_eq_none h
  constructor
  · simp only [State.host_eq, State.hostAccess, State.hostRead, htarget]
    rfl
  · simp only [State.host_eq, State.hostAccess, State.hostWrite, htarget]
    rfl

/-! The IN window. -/

section
variable (s : State)

theorem target_w8_window {off : Nat} (hwin : inWindow ≤ off) (hin : off - inWindow < s.params.inBytes) :
    s.target .w8 off = .inByte (off - inWindow) := by
  simp only [State.target, if_neg (not_lt.2 hwin), if_pos hin]

theorem target_w32_window {off : Nat} (hwin : inWindow ≤ off) (halign : off % 4 = 0)
    (hin : off - inWindow + 3 < s.params.inBytes) : s.target .w32 off = .inWord (off - inWindow) := by
  have hwin4 : (off - inWindow) % 4 = 0 := by
    unfold inWindow at hwin ⊢
    omega
  simp only [State.target, if_neg (not_lt.2 hwin), if_pos (And.intro hwin4 hin)]

/-- IN after the `n` low bytes of `v` are written from address `a` on: those bytes, and every other byte as before. -/
theorem State.inByte_writeIn_bytesOfWord (a n : Nat) (v : Word) (x : Nat) :
    (s.writeIn a ((List.range n).map (byteOfWord v))).inByte x =
      if a ≤ x ∧ x < a + n then byteOfWord v (x - a) else s.inByte x := by
  simp only [State.inByte, State.writeIn, Memory.lookup_storeAll, List.length_map, List.length_range]
  split
  · next hx =>
    have hlt : x - a < n := by omega
    simp [hlt]
  · rfl

variable {off : Word}

/-- An 8-bit read below IN_BYTES returns the byte (R62). -/
theorem host_read_w8 (hwin : inWindow ≤ off.toNat) (hin : off.toNat - inWindow < s.params.inBytes) :
    s.host (.read .w8 off) = .next (s.returnData ((s.inByte (off.toNat - inWindow)).setWidth 32)) := by
  simp only [State.host_eq, State.hostAccess, State.hostRead, target_w8_window s hwin hin]

/-- An 8-bit write below IN_BYTES stores the low byte of `v`, unless BUSY = 1 (R62, R452). -/
theorem host_write_w8 (hwin : inWindow ≤ off.toNat) (hin : off.toNat - inWindow < s.params.inBytes) (v : Word) :
    s.host (.write .w8 off v) =
      .next (s.unlessBusy (s.writeIn (off.toNat - inWindow) ((List.range 1).map (byteOfWord v)))) := by
  simp only [State.host_eq, State.hostAccess, State.hostWrite, target_w8_window s hwin hin]
  rfl

/-- An aligned 32-bit read inside IN_BYTES returns the host's word (R62). -/
theorem host_read_w32 (hwin : inWindow ≤ off.toNat) (halign : off.toNat % 4 = 0)
    (hin : off.toNat - inWindow + 3 < s.params.inBytes) :
    s.host (.read .w32 off) = .next (s.returnData (s.inWord (off.toNat - inWindow))) := by
  simp only [State.host_eq, State.hostAccess, State.hostRead, target_w32_window s hwin halign hin]

/-- An aligned 32-bit write inside IN_BYTES stores the four bytes of `v`, unless BUSY = 1 (R62, R452). -/
theorem host_write_w32 (hwin : inWindow ≤ off.toNat) (halign : off.toNat % 4 = 0)
    (hin : off.toNat - inWindow + 3 < s.params.inBytes) (v : Word) :
    s.host (.write .w32 off v) =
      .next (s.unlessBusy (s.writeIn (off.toNat - inWindow) ((List.range 4).map (byteOfWord v)))) := by
  simp only [State.host_eq, State.hostAccess, State.hostWrite, target_w32_window s hwin halign hin]
  rfl

end

/-- Settles O23: inside IN_BYTES from the target of the access, outside it from O22. -/
theorem inWindowAccess : Obligations.InWindowAccess := by
  intro s off v hwin
  have refused (width : Width) (h : ¬ Mapped s.params.inBytes width off.toNat) :=
    unmappedAccessRefused s width off v h
  have refused16 := refused .w16 (by simp [Mapped])
  refine ⟨fun hin => ⟨host_read_w8 s hwin hin, fun hb => ?_, fun hb => ?_⟩,
    fun halign hin => ⟨host_read_w32 s hwin halign hin, fun hb => ?_, fun hb => ?_⟩,
    refused16.1, refused16.2, fun hout => refused .w32 (by simp [Mapped]; omega)⟩
  · rw [host_write_w8 s hwin hin, s.unlessBusy_busy hb]
    rfl
  · refine ⟨_, (host_write_w8 s hwin hin v).trans (congrArg _ (s.unlessBusy_idle hb _)), rfl, fun x => ?_⟩
    rw [State.inByte_writeIn_bytesOfWord]
    by_cases hx : x = off.toNat - 0x01000000
    · rw [if_pos (by unfold inWindow; omega), if_pos hx, hx]
      simp [byteOfWord, inWindow]
    · rw [if_neg (by unfold inWindow; omega), if_neg hx]
  · rw [host_write_w32 s hwin halign hin, s.unlessBusy_busy hb]
    rfl
  · refine ⟨_, (host_write_w32 s hwin halign hin v).trans (congrArg _ (s.unlessBusy_idle hb _)), rfl,
      fun x => ?_⟩
    rw [State.inByte_writeIn_bytesOfWord]
    exact if_congr (by unfold inWindow; omega) rfl rfl

/-! The engine's reads of IN. -/

/-- A byte appended below a bit vector is the least significant digit to base 2 ^ 8. -/
theorem toNat_append_byte {n : Nat} (x : BitVec n) (b : Byte) : (x ++ b).toNat = b.toNat + 2 ^ 8 * x.toNat := by
  rw [BitVec.toNat_append, ← Nat.shiftLeft_add_eq_or_of_lt b.isLt, Nat.shiftLeft_eq]
  omega

/-- The number four bytes make, the first least significant (R64). -/
theorem wordOfBytes_toNat (b0 b1 b2 b3 : Byte) :
    (wordOfBytes b0 b1 b2 b3).toNat =
      b0.toNat + 2 ^ 8 * b1.toNat + 2 ^ 16 * b2.toNat + 2 ^ 24 * b3.toNat := by
  have hbytes : (wordOfBytes b0 b1 b2 b3).toNat = (b3 ++ b2 ++ b1 ++ b0).toNat := rfl
  rw [hbytes, toNat_append_byte, toNat_append_byte, toNat_append_byte]
  omega

/-- The value of a 32-bit two's-complement word is `sext_32` of it (00_scope.md R10). -/
theorem sext_32_toNat (w : Word) : sext 32 w.toNat = w.toInt := by
  have hmsb : w.toNat.testBit (32 - 1) = w.msb := (BitVec.msb_eq_getLsbD_last w).symm
  rw [sext, hmsb, Nat.mod_eq_of_lt w.isLt, BitVec.toInt_eq_msb_cond]
  cases w.msb <;> simp

/-- Settles O30: the word of a view is `wordOfBytes` in the latched order, and an i32 read is that word's value. -/
theorem engineByteOrder : Obligations.EngineByteOrder := by
  intro s a
  refine ⟨s.inView_byte a, fun hlittle => ?_, fun hbig => ?_, fun hin => ?_⟩
  · simp only [InView.word, State.inView_endian, hlittle, Bool.false_eq_true, if_false, wordOfBytes_toNat,
      State.inView_byte]
  · simp only [InView.word, State.inView_endian, hbig, if_true, wordOfBytes_toNat, State.inView_byte]
  · exact readInt_ok.2 ⟨hin, by rw [sext_32_toNat]⟩

end Sys2Proof.Machine

/-! The fields of a command word, and decoding as the inverse of encoding (30_encoding.md R80 to R101). -/

namespace Sys2Proof.Machine

open Laws.UnusedFieldsZero (getLsbD_commandWord fieldOp_commandWord)

/-! The fields of a command word (R80). -/

section
variable (op : Byte) (a b c d : SlotNo) (m : BitVec 4)

@[simp] theorem fieldA_commandWord : fieldA (commandWord op a b c d m) = a :=
  BitVec.eq_of_getLsbD_eq fun k hk => by
    rw [fieldA, BitVec.getLsbD_extractLsb', getLsbD_commandWord, if_neg (by omega), if_pos (by omega)]
    simp [hk]

@[simp] theorem fieldB_commandWord : fieldB (commandWord op a b c d m) = b :=
  BitVec.eq_of_getLsbD_eq fun k hk => by
    rw [fieldB, BitVec.getLsbD_extractLsb', getLsbD_commandWord, if_neg (by omega), if_neg (by omega),
      if_pos (by omega)]
    simp [hk]

@[simp] theorem fieldC_commandWord : fieldC (commandWord op a b c d m) = c :=
  BitVec.eq_of_getLsbD_eq fun k hk => by
    rw [fieldC, BitVec.getLsbD_extractLsb', getLsbD_commandWord, if_neg (by omega), if_neg (by omega),
      if_neg (by omega), if_pos (by omega)]
    simp [hk]

@[simp] theorem fieldD_commandWord : fieldD (commandWord op a b c d m) = d :=
  BitVec.eq_of_getLsbD_eq fun k hk => by
    rw [fieldD, BitVec.getLsbD_extractLsb', getLsbD_commandWord, if_neg (by omega), if_neg (by omega),
      if_neg (by omega), if_neg (by omega), if_pos (by omega)]
    simp [hk]

@[simp] theorem fieldM_commandWord : fieldM (commandWord op a b c d m) = m :=
  BitVec.eq_of_getLsbD_eq fun k hk => by
    rw [fieldM, BitVec.getLsbD_extractLsb', getLsbD_commandWord, if_neg (by omega), if_neg (by omega),
      if_neg (by omega), if_neg (by omega), if_neg (by omega)]
    simp [hk]

end

/-- A bit of a word as a bit of the field it lies in. -/
theorem getLsbD_extractLsb'_sub (w : Word) {start len k : Nat} (hlow : start ≤ k) (hhigh : k < start + len) :
    (w.extractLsb' start len).getLsbD (k - start) = w.getLsbD k := by
  rw [BitVec.getLsbD_extractLsb', decide_eq_true (by omega), Bool.true_and, Nat.add_sub_cancel' hlow]

/-- The six fields are all the bits of a word. -/
theorem commandWord_fields (w : Word) :
    commandWord (fieldOp w) (fieldA w) (fieldB w) (fieldC w) (fieldD w) (fieldM w) = w :=
  BitVec.eq_of_getLsbD_eq fun k hk => by
    rw [getLsbD_commandWord]
    split_ifs <;> exact getLsbD_extractLsb'_sub w (by omega) (by omega)

/-- A word is the one built from what its fields are. -/
theorem cmd_commandWord {w : Word} {op : Byte} {a b c d : SlotNo} {m : BitVec 4}
    (hop : (fieldOp w).toNat = op.toNat) (ha : fieldA w = a) (hb : fieldB w = b) (hc : fieldC w = c)
    (hd : fieldD w = d) (hm : fieldM w = m) :
    Encoding.cmd (commandWord op a b c d m) = .cmd w := by
  rw [← BitVec.eq_of_toNat_eq hop, ← ha, ← hb, ← hc, ← hd, ← hm, commandWord_fields]

/-! The checks of dispatch (R82, R84). -/

/-- The opcode is legal and the fields it does not use are 0 (R82). -/
def UnusedZero (w : Word) : Prop := ∃ used, usedFields (fieldOp w) = some used ∧ w &&& ~~~(used ||| 0xFF) = 0

theorem and_eq_self_of_and_not_eq_zero {w mask : Word} (h : w &&& ~~~mask = 0) : w &&& mask = w := by
  ext k hk
  have hbit : (w &&& ~~~mask)[k] = false := by rw [h]; exact BitVec.getElem_zero hk
  rw [BitVec.getElem_and, BitVec.getElem_not] at hbit
  rw [BitVec.getElem_and]
  cases hm : mask[k] <;> simp_all

/-- A field is 0 if the opcode does not use it. -/
theorem UnusedZero.field_eq_zero {w used : Word} {n start len : Nat} (h : UnusedZero w)
    (hop : (fieldOp w).toNat = n) (hused : usedFields (BitVec.ofNat 8 n) = some used)
    (hfield : (used ||| 0xFF).extractLsb' start len = 0#len) : w.extractLsb' start len = 0#len := by
  obtain ⟨used', hused', hzero⟩ := h
  have hop' : fieldOp w = BitVec.ofNat 8 n := by simp [← hop]
  obtain rfl : used' = used := Option.some.inj (hused'.symm.trans (hop' ▸ hused))
  rw [← and_eq_self_of_and_not_eq_zero hzero, BitVec.extractLsb'_and, hfield, BitVec.and_zero]

/-- Every instruction's command word passes the check, by the laws of the single instructions. -/
theorem unusedZero_of_encode {i : Instr} {w : Word} (h : encode i = .cmd w) : UnusedZero w := by
  have hall : Laws.UnusedFieldsZero.Statement i := by
    open Laws.UnusedFieldsZero in
    cases i <;> simp only [nop, decCdp2, decCdp1, predLag1, predLag2, predStride1, predStride2, predStripindex,
      predRamp, predXor1, predXor2, predNull, deqQuant, deqExpmant, deqDeering, vtxPack,
      Laws.UnusedFieldsZero.topoRun, topoEmit, cdp2Null, cdp2Bitlength2, cdp2Arithmetic, cdp2Chopper, cdp1Null,
      cdp1Bitlength1, cdp1Huffman, cdp1Arithmetic]
  exact hall w h

/-- A PRED word with C = D = 0 passes the check, whatever its type is. -/
theorem unusedZero_pred {w : Word} (hop : fieldOp w = 0x03) (hc : fieldC w = 0) (hd : fieldD w = 0) :
    UnusedZero w := by
  refine ⟨0xF003FF00, hop ▸ rfl, ?_⟩
  rw [← commandWord_fields w, hc, hd]
  refine BitVec.eq_of_getLsbD_eq fun k hk => ?_
  rw [BitVec.getLsbD_and, getLsbD_commandWord]
  interval_cases k <;> simp [hop]

theorem usedFields_eq_none {op : Byte} : usedFields op = none ↔ 0x0A ≤ op.toNat := by
  unfold usedFields
  split
  case h_11 =>
    simp only [imp_false, true_iff] at *
    omega
  all_goals next h => simp [h]

/-- All decoding can do: an illegal opcode, a non-zero unused field, or what the opcode map says (R122). -/
theorem decodeCmd_cases (w : Word) :
    (0x0A ≤ (fieldOp w).toNat ∧ decodeCmd w = .error (.badOpcode (fieldOp w))) ∨
      (¬ UnusedZero w ∧ decodeCmd w = .error (.unusedField (fieldOp w))) ∨
      (UnusedZero w ∧ decodeCmd w = decodeOp w) := by
  unfold decodeCmd
  split
  · next hnone => exact .inl ⟨usedFields_eq_none.1 hnone, rfl⟩
  · next used hused =>
    split
    · next hne => exact .inr (.inl ⟨fun ⟨used', hused', hzero⟩ => hne (by simp_all), rfl⟩)
    · next hzero => exact .inr (.inr ⟨⟨used, hused, of_not_not hzero⟩, rfl⟩)

theorem UnusedZero.opcode_lt {w : Word} (h : UnusedZero w) : (fieldOp w).toNat < 0x0A := by
  obtain ⟨used, hused, -⟩ := h
  exact not_le.1 fun hop => by simp [usedFields_eq_none.2 hop] at hused

theorem UnusedZero.decodeCmd_eq {w : Word} (h : UnusedZero w) : decodeCmd w = decodeOp w := by
  obtain ⟨hop, -⟩ | ⟨hno, -⟩ | ⟨-, heq⟩ := decodeCmd_cases w
  · exact absurd h.opcode_lt (not_lt.2 hop)
  · exact absurd h hno
  · exact heq

theorem decodeCmd_badOpcode {w : Word} (h : 0x0A ≤ (fieldOp w).toNat) :
    decodeCmd w = .error (.badOpcode (fieldOp w)) := by
  rw [decodeCmd, usedFields_eq_none.2 h]

theorem decodePred_illegal {m : BitVec 4} (a b : SlotNo) (h : 9 ≤ m.toNat) :
    decodePred m a b = .error (.predType b) := by
  unfold decodePred
  split
  case h_10 => rfl
  all_goals omega

/-- The opcode map rejects a legal opcode only for the type of a PRED (R84). -/
theorem decodeOp_error {w : Word} {r : Reject} (hop : (fieldOp w).toNat < 0x0A) (h : decodeOp w = .error r) :
    fieldOp w = 0x03 := by
  unfold decodeOp at h
  split at h
  case h_4 hpred => exact BitVec.eq_of_toNat_eq hpred
  case h_11 =>
    simp only [imp_false] at *
    omega
  all_goals exact nomatch h

/-! Decoding inverts encoding. -/

theorem encode_of_decodePred {m : BitVec 4} {a b : SlotNo} {i : Instr} (h : decodePred m a b = .ok i) :
    encode i = .cmd (commandWord 0x03 a b 0 0 m) := by
  unfold decodePred at h
  split at h
  case h_10 => exact nomatch h
  all_goals
    next htype =>
      cases h
      exact congrArg (fun m => Encoding.cmd (commandWord 0x03 a b 0 0 m)) (BitVec.eq_of_toNat_eq htype.symm)

/-- The opcode map reads the fields a command uses, and the check leaves the others 0 (R83). -/
theorem encode_of_decodeOp {w : Word} {i : Instr} (hz : UnusedZero w) (h : decodeOp w = .ok i) :
    encode i = .cmd w := by
  unfold decodeOp at h
  split at h
  case h_1 hop | h_9 hop | h_10 hop =>
    cases h
    refine cmd_commandWord hop ?_ ?_ ?_ ?_ ?_ <;> exact hz.field_eq_zero hop rfl rfl
  case h_2 hop | h_3 hop =>
    cases h
    refine cmd_commandWord hop rfl ?_ ?_ ?_ ?_ <;> exact hz.field_eq_zero hop rfl rfl
  case h_4 hop =>
    refine (encode_of_decodePred h).trans (cmd_commandWord hop rfl rfl ?_ ?_ rfl) <;>
      exact hz.field_eq_zero hop rfl rfl
  case h_5 hop =>
    cases h
    refine cmd_commandWord hop rfl rfl ?_ ?_ ?_ <;> exact hz.field_eq_zero hop rfl rfl
  case h_6 hop =>
    cases h
    refine cmd_commandWord hop rfl rfl rfl ?_ ?_ <;> exact hz.field_eq_zero hop rfl rfl
  case h_7 hop =>
    cases h
    exact cmd_commandWord hop rfl rfl rfl rfl rfl
  case h_8 hop =>
    cases h
    exact cmd_commandWord hop rfl rfl rfl rfl (hz.field_eq_zero hop rfl rfl)
  case h_11 => exact nomatch h

theorem decodeOp_of_encode {w : Word} {i : Instr} (h : encode i = .cmd w) : decodeOp w = .ok i := by
  cases i <;> cases h <;> simp [decodeOp, decodePred, fieldOp_commandWord]

/-- An instruction comes back from its encoding. -/
theorem decode_encode (i : Instr) : decode (encode i) = .ok i := by
  cases he : encode i with
  | cmd w => exact (unusedZero_of_encode he).decodeCmd_eq.trans (decodeOp_of_encode he)
  | cdp2 id => cases i <;> cases he <;> rfl
  | cdp1 id => cases i <;> cases he <;> rfl

theorem encode_of_decodeCmd {w : Word} {i : Instr} (h : decodeCmd w = .ok i) : encode i = .cmd w := by
  obtain ⟨-, herr⟩ | ⟨-, herr⟩ | ⟨hzero, heq⟩ := decodeCmd_cases w
  · exact nomatch herr.symm.trans h
  · exact nomatch herr.symm.trans h
  · exact encode_of_decodeOp hzero (heq ▸ h)

theorem encode_of_decodeCdp2 {id : Byte} {i : Instr} (h : decodeCdp2 id = .ok i) : encode i = .cdp2 id := by
  unfold decodeCdp2 at h
  split at h
  case h_5 => exact nomatch h
  all_goals
    next hid =>
      cases h
      exact congrArg Encoding.cdp2 (BitVec.eq_of_toNat_eq hid.symm)

theorem encode_of_decodeCdp1 {id : Byte} {i : Instr} (h : decodeCdp1 id = .ok i) : encode i = .cdp1 id := by
  unfold decodeCdp1 at h
  split at h
  case h_5 => exact nomatch h
  all_goals
    next hid =>
      cases h
      exact congrArg Encoding.cdp1 (BitVec.eq_of_toNat_eq hid.symm)

/-- Settles O1, from the two directions: encoding fixes the word that decodes, and decoding reads it back. -/
theorem decodeEncode : Obligations.DecodeEncode := by
  intro e i
  refine ⟨fun h => ?_, fun h => h ▸ decode_encode i⟩
  cases e with
  | cmd w => exact encode_of_decodeCmd h
  | cdp2 id => exact encode_of_decodeCdp2 h
  | cdp1 id => exact encode_of_decodeCdp1 h

/-- Settles O2: each word or codec byte is the encoding of the instruction named. -/
theorem workedEncodings : Obligations.WorkedEncodings :=
  ⟨decode_encode (.decCdp2 3), decode_encode (.predXor1 0 2), decode_encode (.vtxPack 6 7 8 9),
    decode_encode (.deqDeering 0 1 2 3 6), decode_encode .topoEmit, decode_encode .cdp2Chopper,
    decode_encode .cdp1Huffman⟩

/-! The engine's step on a latched word (40_commands.md R122, R124). -/

section
variable {s : State} (hb : s.busy = true) (hin : s.inputs = [])
include hb hin

theorem step_of_decodeCmd_ok {i : Instr} (h : decodeCmd s.lcmd = .ok i) : step s = exec i s := by
  simp only [step, hin, engineStep, hb, State.fetch, h, if_true]

theorem step_of_decodeCmd_error {r : Reject} (h : decodeCmd s.lcmd = .error r) :
    step s = .next (s.rejectCommand r) := by
  simp only [step, hin, engineStep, hb, State.fetch, h, if_true]

end

/-- A DEQ_DEERING with an illegal number of bits empties its three destinations (45_vertex.md R288). -/
theorem execDeqDeering_badArg {s : State} {a b c d : SlotNo} {m : BitVec 4} (h : 14 ≤ m.toNat) :
    execDeqDeering a b c d m s =
      failWith s .badArg [deeringX s.larg0, deeringY s.larg0, deeringZ s.larg0] :=
  if_pos h

/-- Settles O3: the opcode is checked first, PRED is rejected for its type, and DEQ_DEERING decodes, then fails. -/
theorem illegalOpcodesFail : Obligations.IllegalOpcodesFail := by
  intro s hb hin
  refine ⟨fun hop => step_of_decodeCmd_error hb hin (decodeCmd_badOpcode hop), fun hop hc hd htype => ?_,
    fun hop hm => ?_⟩
  · have hdecode : decodeCmd s.lcmd = .error (.predType (fieldB s.lcmd)) := by
      rw [(unusedZero_pred hop hc hd).decodeCmd_eq, decodeOp, hop]
      exact decodePred_illegal _ _ htype
    exact step_of_decodeCmd_error hb hin hdecode
  · have hword : encode (.deqDeering (fieldA s.lcmd) (fieldB s.lcmd) (fieldC s.lcmd) (fieldD s.lcmd) (fieldM s.lcmd)) =
        .cmd s.lcmd := cmd_commandWord (congrArg _ hop) rfl rfl rfl rfl rfl
    rw [step_of_decodeCmd_ok hb hin ((decodeEncode _ _).2 hword)]
    exact execDeqDeering_badArg hm

/-- Settles O4: of the three outcomes of decoding, only the check of the unused fields is left. -/
theorem nonzeroUnusedFieldFails : Obligations.NonzeroUnusedFieldFails := by
  intro s hb hin hlegal hno hpred
  obtain ⟨hop, -⟩ | ⟨-, herr⟩ | ⟨hzero, heq⟩ := decodeCmd_cases s.lcmd
  · omega
  · rw [step_of_decodeCmd_error hb hin herr, State.rejectCommand]
    rfl
  · cases hdecode : decodeOp s.lcmd with
    | ok i => exact absurd (encode_of_decodeOp hzero hdecode) (hno i)
    | error r =>
      have hop := decodeOp_error hzero.opcode_lt hdecode
      have hop' : (fieldOp s.lcmd).toNat = 3 := congrArg _ hop
      exact absurd ⟨hop, hzero.field_eq_zero hop' rfl rfl, hzero.field_eq_zero hop' rfl rfl⟩ hpred

/-! The codec a stream command runs (42_streams.md R163, R170). -/

/-- A stream command depends on its loader only where the stream starts. -/
theorem streamCommand_congr {s : State} (a : SlotNo) {load load' : Cursor (List Word)}
    (h : load s.larg0.toNat = load' s.larg0.toNat) : streamCommand s a load = streamCommand s a load' := by
  rw [streamCommand, h, streamCommand]

/-- The codec of a CDP2 codec byte, and what the byte does as an instruction (log 6). -/
theorem exec_of_decodeCdp2 {id : Byte} {i : Instr} (h : decodeCdp2 id = .ok i) :
    ∃ codec, cdp2CodecOf id = some codec ∧
      ∀ s, exec i s = streamCommand s (fieldA s.lcmd) (loadCdp2As s.inView codec) := by
  have hdecode := h
  unfold decodeCdp2 at h
  rw [cdp2CodecOf, hdecode]
  split at h
  case h_5 => exact nomatch h
  all_goals
    cases h
    exact ⟨_, rfl, fun _ => rfl⟩

/-- The codec of a CDP1 codec byte, and what the byte does as an instruction (log 6). -/
theorem exec_of_decodeCdp1 {id : Byte} {i : Instr} (h : decodeCdp1 id = .ok i) :
    ∃ codec, cdp1CodecOf id = some codec ∧
      ∀ s, exec i s = streamCommand s (fieldA s.lcmd) (loadCdp1As s.inView codec) := by
  have hdecode := h
  unfold decodeCdp1 at h
  rw [cdp1CodecOf, hdecode]
  split at h
  case h_5 => exact nomatch h
  all_goals
    cases h
    exact ⟨_, rfl, fun _ => rfl⟩

/-- The valueCount field is four bytes long (R163). -/
theorem cdp2Count_cursor {v : InView} {p n q : Nat} (h : cdp2Count v p = .ok (n, q)) : q = p + 4 := by
  obtain ⟨k, p1, hread, h⟩ := Cursor.bind_ok.1 h
  obtain ⟨-, hp1⟩ := readInt_ok.1 hread
  cases hp1
  split at h
  · exact nomatch h
  · split at h
    · cases h; rfl
    · split at h
      · exact nomatch h
      · cases h; rfl

/-- A top-level CDP2 stream is loaded as its codec byte says. -/
theorem loadCdp2_eq_loadCdp2As {v : InView} {p : Nat} {codec : Cdp2Codec}
    (h : cdp2CodecOf (v.byte (p + 4)) = some codec) : loadCdp2 v (levelsAt 0) p = loadCdp2As v codec p := by
  show (cdp2Count v >>= _) p = (cdp2Count v >>= _) p
  cases hn : cdp2Count v p with
  | error e => rw [Cursor.bind_eq_error hn, Cursor.bind_eq_error hn]
  | ok r =>
    obtain ⟨n, q⟩ := r
    obtain rfl := cdp2Count_cursor hn
    rw [Cursor.bind_eq hn, Cursor.bind_eq hn]
    split
    · rfl
    · cases hid : readU8 v (p + 4) with
      | error e => rw [Cursor.bind_eq_error hid, Cursor.bind_eq_error hid]
      | ok r =>
        obtain ⟨-, rfl⟩ := readU8_ok.1 hid
        rw [Cursor.bind_eq hid, Cursor.bind_eq hid, h]
        rfl

/-- A top-level CDP1 stream is loaded as its codec byte says. -/
theorem loadCdp1_eq_loadCdp1As {v : InView} {p : Nat} {codec : Cdp1Codec}
    (h : cdp1CodecOf (v.byte p) = some codec) : loadCdp1 v (levelsAt 0) p = loadCdp1As v codec p := by
  show (readU8 v >>= _) p = (readU8 v >>= _) p
  cases hid : readU8 v p with
  | error e => rw [Cursor.bind_eq_error hid, Cursor.bind_eq_error hid]
  | ok r =>
    obtain ⟨-, rfl⟩ := readU8_ok.1 hid
    rw [Cursor.bind_eq hid, Cursor.bind_eq hid, h]
    rfl

/-- Settles O6: both sides are stream commands, whose loaders agree at the stream's start. -/
theorem codecByteSelectsCodec : Obligations.CodecByteSelectsCodec := by
  rintro s a i rfl
  constructor
  · intro hdecode
    obtain ⟨codec, hcodec, hexec⟩ := exec_of_decodeCdp2 hdecode
    exact (streamCommand_congr _ (loadCdp2_eq_loadCdp2As hcodec)).trans (hexec s).symm
  · intro hdecode
    obtain ⟨codec, hcodec, hexec⟩ := exec_of_decodeCdp1 hdecode
    exact (streamCommand_congr _ (loadCdp1_eq_loadCdp1As hcodec)).trans (hexec s).symm

end Sys2Proof.Machine

/-! The commands' dispatch, NOP, the accept of a GO, and how every command ends (40_commands.md). -/

namespace Sys2Proof.Machine

/-! Dispatch (40_commands.md R120 to R124). -/

theorem step_of_nil {s : State} (hin : s.inputs = []) : step s = engineStep s := by
  simp only [step, hin]

theorem step_of_engineTurn {s : State} {rest : List Input} (hin : s.inputs = .engineTurn :: rest) :
    step s = engineStep { s with inputs := rest } := by
  simp only [step, hin]

theorem engineStep_of_idle {s : State} (hb : s.busy = false) : engineStep s = .next s := by
  simp only [engineStep, hb, Bool.false_eq_true, if_false]

theorem engineStep_of_decodeCmd_ok {s : State} {i : Instr} (hb : s.busy = true) (h : decodeCmd s.lcmd = .ok i) :
    engineStep s = exec i s := by
  simp only [engineStep, hb, State.fetch, h, if_true]

/-- Settles O5: the engine's turn decodes the latch, which taking the turn off the moves does not change. -/
theorem stepRunsDecodedInstruction : Obligations.StepRunsDecodedInstruction := by
  refine ⟨fun s i hb hi => ⟨fun hin => ?_, fun rest hin => ?_⟩, fun s hb hin => ?_⟩
  · exact (step_of_nil hin).trans (engineStep_of_decodeCmd_ok hb hi)
  · exact (step_of_engineTurn hin).trans (engineStep_of_decodeCmd_ok hb hi)
  · exact (step_of_nil hin).trans (engineStep_of_idle hb)

/-! NOP (R126). -/

/-- NOP's word is the only encoding with NOP's opcode. -/
theorem eq_zero_of_encode {i : Instr} {w : Word} (hop : fieldOp w = 0x00) (h : encode i = .cmd w) : w = 0 := by
  have hi := decodeOp_of_encode h
  rw [decodeOp, hop] at hi
  cases hi
  cases h
  rfl

/-- Settles O7: the one word of opcode 0 that decodes is 0, and any other has a non-zero unused field. -/
theorem nopCompletes : Obligations.NopCompletes := by
  refine ⟨fun s => rfl, fun s hb hin hop => ⟨fun hzero => ?_, fun hne => ?_⟩⟩
  · exact step_of_decodeCmd_ok hb hin (hzero ▸ decode_encode .nop)
  · have hword := nonzeroUnusedFieldFails s hb hin (by simp [hop]) (fun i h => hne (eq_zero_of_encode hop h))
      (by simp [hop])
    simpa [hop] using hword

/-! Accept (R121). -/

theorem writeCtrl_busy {s : State} (hb : s.busy = true) (v : Word) : s.writeCtrl v = s.writeCtrlBusy v := by
  simp only [State.writeCtrl, hb, if_true]

theorem writeCtrl_go {s : State} {v : Word} (hb : s.busy = false) (hgo : v.getLsbD 0 = true)
    (hreset : v.getLsbD 1 = false) : s.writeCtrl v = s.accept v := by
  simp only [State.writeCtrl, hb, hgo, hreset, Bool.false_eq_true, if_false, if_true]

/-- Settles O21: the write reaches CTRL, which accepts the command while idle and sets ACCERR for GO while busy. -/
theorem goAccept : Obligations.GoAccept := by
  intro s v hgo hreset
  rw [host_write_csr s (r := .ctrl) rfl, State.writeCsr]
  cases hb : s.busy with
  | false => rw [writeCtrl_go hb hgo hreset]; rfl
  | true => rw [writeCtrl_busy hb]; simp [State.writeCtrlBusy, hgo, hb]

/-! The endings (R125, 60_exceptions.md R410) and what they leave unchanged (R129). -/

theorem State.slot_writeSlots_of_not_mem (s : State) {ws : List (SlotNo × List Word)} {k : SlotNo}
    (h : ∀ w ∈ ws, w.1 ≠ k) : (s.writeSlots ws).slot k = s.slot k := by
  induction ws generalizing s with
  | nil => rfl
  | cons w ws ih =>
    obtain ⟨hw, hws⟩ := List.forall_mem_cons.1 h
    rw [State.writeSlots, ih _ hws, State.slot_setSlot, if_neg (Ne.symm hw)]

section
variable {i : Instr} {s t : State}

theorem EngineEnd.busy_eq (h : EngineEnd s t) : t.busy = false := by
  cases h <;> rfl

/-- The engine writes none of the registers and memory of the host's side (20_memory.md R73). -/
theorem EngineEnd.sameHostState (h : EngineEnd s t) : SameHostState s t := by
  cases h <;> constructor <;> intros <;> rfl

/-- A command writes no slot but its destinations. -/
theorem Ending.slot_eq (h : Ending i s t) {k : SlotNo} (hk : k ∉ destsOf i s) : t.slot k = s.slot k := by
  cases h with
  | done ws draws r0 r1 hi hdests =>
    exact State.slot_writeSlots_of_not_mem { s with draws := draws } fun w hw hwk => hk (hwk ▸ hdests w hw)
  | error c x => rw [State.slot_errorEntry, if_neg hk]
  | mesh m r0 r1 => rfl
  | meshError c x => rfl

/-- Only the instructions that draw NaNs move the counter of draws (45_vertex.md R284). -/
theorem Ending.draws_eq (h : Ending i s t) (hi : drawsNaN i = false) : t.draws = s.draws := by
  cases h with
  | done ws draws r0 r1 _ _ _ hdraws =>
    obtain ⟨sl, hsl⟩ := State.writeSlots_eq { s with draws := draws } ws
    rw [hsl]
    exact hdraws hi
  | error c x => exact State.errorEntry_draws s c x _
  | mesh m r0 r1 => rfl
  | meshError c x => rfl

/-- A command that ends is done with no error recorded, or took the error entry. -/
theorem Ending.done_or_error (h : Ending i s t) :
    (t.done = true ∧ t.err = s.err ∧ t.errCode = s.errCode ∧ t.errInfo = s.errInfo) ∨
      ∃ (c : ErrCode) (x : Word),
        t = if i = .topoRun then (s.recordError c x).discardMesh else (s.emptySlots (destsOf i s)).recordError c x := by
  cases h with
  | done ws draws r0 r1 =>
    obtain ⟨sl, hsl⟩ := State.writeSlots_eq { s with draws := draws } ws
    rw [hsl]
    exact .inl ⟨rfl, rfl, rfl, rfl⟩
  | error c x hi => exact .inr ⟨c, x, (if_neg hi).symm⟩
  | mesh m r0 r1 => exact .inl ⟨rfl, rfl, rfl, rfl⟩
  | meshError c x hi => exact .inr ⟨c, x, (if_pos hi).symm⟩

end

/-- Settles O10, by the inversion of `exec`. -/
theorem commandEndsDoneOrErrorEntry : Obligations.CommandEndsDoneOrErrorEntry :=
  fun _ _ _ h => ⟨(exec_ending h).engineEnd.busy_eq, (exec_ending h).done_or_error⟩

/-- Settles O11, by the inversion of `exec`. -/
theorem instructionFrame : Obligations.InstructionFrame :=
  fun _ _ _ h => ⟨(exec_ending h).engineEnd.sameHostState, fun _ hk => (exec_ending h).slot_eq hk,
    fun hi => (exec_ending h).mesh_eq hi, fun hi => (exec_ending h).draws_eq hi⟩

end Sys2Proof.Machine

/-! No command faults or is refused (40_commands.md R127): the loops of TOPO_RUN end within their bounds, by the
measures of 46_topology.md R344. -/

namespace Sys2Proof.Machine

/-! Steps of the decoder that use up no bound. -/

/-- The step `m` from `t` ends with an error of the command, or with a value and a state that meet `Q`. -/
def TopoM.Ends {α : Type} (m : TopoM α) (t : Topo) (Q : α → Topo → Prop) : Prop :=
  m t ≠ .error .stuck ∧ TopoM.Ensures m t Q

section
variable {α β : Type} {m : TopoM α} {t : Topo} {Q R : α → Topo → Prop}

theorem TopoM.Ends.mono (h : TopoM.Ends m t Q) (hQ : ∀ a u, Q a u → R a u) : TopoM.Ends m t R :=
  ⟨h.1, h.2.mono hQ⟩

/-- What a step ensures whenever it succeeds may be added to what it ends with. -/
theorem TopoM.Ends.and (h : TopoM.Ends m t Q) (h' : TopoM.Ensures m t R) : TopoM.Ends m t fun a u => Q a u ∧ R a u :=
  ⟨h.1, h.2.and h'⟩

theorem TopoM.Ends.bind {f : α → TopoM β} {S : β → Topo → Prop} (h : TopoM.Ends m t Q)
    (hf : ∀ a u, Q a u → TopoM.Ends (f a) u S) : TopoM.Ends (m >>= f) t S := by
  refine ⟨fun hstuck => ?_, h.2.bind fun a u hq => (hf a u hq).2⟩
  rcases TopoM.bind_error.1 hstuck with hm | ⟨a, u, hm, hfa⟩
  · exact h.1 hm
  · exact (hf a u (h.2 a u hm)).1 hfa

theorem TopoM.ends_pure {a : α} (h : Q a t) : TopoM.Ends (pure a) t Q := ⟨nofun, TopoM.ensures_pure h⟩

theorem TopoM.ends_raise (c : ErrCode) (i : Nat) : TopoM.Ends (topoRaise c i) t Q :=
  ⟨nofun, TopoM.ensures_raise c i⟩

theorem TopoM.ends_get_bind {f : Topo → TopoM β} {S : β → Topo → Prop} (h : TopoM.Ends (f t) t S) :
    TopoM.Ends (get >>= f) t S := h

theorem TopoM.ends_set_bind {v : Topo} {f : PUnit → TopoM β} {S : β → Topo → Prop} (h : TopoM.Ends (f ()) v S) :
    TopoM.Ends (set v >>= f) t S := h

theorem TopoM.ends_modify {g : Topo → Topo} {S : PUnit → Topo → Prop} (h : S () (g t)) :
    TopoM.Ends (modify g) t S := ⟨nofun, TopoM.ensures_modify h⟩

theorem TopoM.ends_modify_bind {g : Topo → Topo} {f : PUnit → TopoM β} {S : β → Topo → Prop}
    (h : TopoM.Ends (f ()) (g t) S) : TopoM.Ends (modify g >>= f) t S := h

end

/-! The worklist (R327): a measure that no closing of an edge raises. -/

/-- The entries of WL and, for each slot still open, the four entries that filling it can add (R324, R344). -/
def Topo.work (t : Topo) : Nat := t.wl.length + 4 * t.openSlots

/-- Changing one entry of a list by one less changes its sum by one less. -/
theorem sum_map_modify {γ : Type} {g : γ → Nat} {change : γ → γ} {xs : List γ} {i : Nat} {x : γ} (hx : xs[i]? = some x)
    (hg : g (change x) + 1 = g x) : ((xs.modify i change).map g).sum + 1 = (xs.map g).sum := by
  induction xs generalizing i with
  | nil => simp at hx
  | cons y ys ih =>
    cases i with
    | zero =>
      obtain rfl : y = x := by simpa using hx
      simp only [List.modify_zero_cons, List.map_cons, List.sum_cons]
      omega
    | succ i =>
      have := ih (i := i) (by simpa using hx)
      simp only [List.modify_succ_cons, List.map_cons, List.sum_cons]
      omega

theorem countP_isNone_set {ring : List (Option Nat)} {j f : Nat} (h : ring[j]? = some none) :
    (ring.set j (some f)).countP Option.isNone + 1 = ring.countP Option.isNone := by
  obtain ⟨hj, hnone⟩ := List.getElem?_eq_some_iff.1 h
  have hpos : 0 < ring.countP Option.isNone := List.countP_pos_iff.2 ⟨none, hnone ▸ List.getElem_mem hj, rfl⟩
  rw [List.countP_set hj, hnone]
  simp
  omega

/-- A link fills one open slot (R324). -/
theorem Topo.openSlots_fill {t : Topo} {v j : Nat} (h : (t.vring v)[j]? = some none) (f s : Nat) :
    (t.fill v j f s).openSlots + 1 = t.openSlots := by
  obtain ⟨x, hx⟩ : ∃ x, t.vertices[v]? = some x := by
    cases hv : t.vertices[v]? with
    | none => simp [Topo.vring, hv] at h
    | some x => exact ⟨x, rfl⟩
  have hring : x.vface[j]? = some none := by simpa [Topo.vring, hx] using h
  exact sum_map_modify hx (countP_isNone_set hring)

section
variable {t : Topo}

/-- The step `m` from `t` changes nothing and ends with a value or an error of the command. -/
def TopoM.Reads {α : Type} (m : TopoM α) (t : Topo) : Prop := TopoM.Ends m t fun _ u => u = t

theorem TopoM.Reads.bind {α β : Type} {m : TopoM α} {f : α → TopoM β} {S : β → Topo → Prop} (h : TopoM.Reads m t)
    (hf : ∀ a, TopoM.Ends (f a) t S) : TopoM.Ends (m >>= f) t S :=
  TopoM.Ends.bind h fun a _ hu => hu ▸ hf a

theorem ringSlot_reads (ring : List (Option Nat)) (x : Nat) : TopoM.Reads (ringSlot ring x) t := by
  unfold ringSlot
  split
  · exact TopoM.ends_pure rfl
  · exact TopoM.ends_raise _ _

theorem vslot_reads (v f : Nat) : TopoM.Reads (vslot v f) t := TopoM.ends_get_bind (ringSlot_reads _ _)

theorem fslot_reads (f v : Nat) : TopoM.Reads (fslot f v) t := TopoM.ends_get_bind (ringSlot_reads _ _)

theorem vertexBefore_reads (x : Nat) (f : Option Nat) : TopoM.Reads (vertexBefore x f) t := by
  cases f with
  | none => exact TopoM.ends_pure rfl
  | some f => exact (fslot_reads f x).bind fun _ => TopoM.ends_get_bind (TopoM.ends_pure rfl)

theorem vertexAfter_reads (x : Nat) (g : Option Nat) : TopoM.Reads (vertexAfter x g) t := by
  cases g with
  | none => exact TopoM.ends_pure rfl
  | some g => exact (fslot_reads g x).bind fun _ => TopoM.ends_get_bind (TopoM.ends_pure rfl)

theorem pushWork_ends {n : Nat} (x : Nat × Nat) (h : t.work ≤ n) :
    TopoM.Ends (pushWork x) t fun _ u => u.work ≤ n + 1 := by
  refine TopoM.ends_modify ?_
  simp only [Topo.work, Topo.openSlots, List.length_append, List.length_singleton] at h ⊢
  omega

theorem pushNeighbour_ends {n : Nat} (v f : Nat) (w : Option Nat) (back : Bool) (h : t.work ≤ n) :
    TopoM.Ends (pushNeighbour v f w back) t fun _ u => u.work ≤ n + 1 := by
  cases w with
  | none => exact TopoM.ends_pure (Nat.le_succ_of_le h)
  | some w =>
    simp only [pushNeighbour]
    split
    · exact TopoM.ends_pure (Nat.le_succ_of_le h)
    · exact (vslot_reads w f).bind fun _ => TopoM.ends_get_bind (pushWork_ends _ h)

/-- A link fills one open slot and adds at most four entries to WL (R324). -/
theorem linkSlots_ends {n v j f s : Nat} (hv : (t.vring v)[j]? = some none) (h : t.work ≤ n) :
    TopoM.Ends (linkSlots v j f s) t fun _ u => u.work ≤ n := by
  have hfill : (t.fill v j f s).work + 4 = t.work := by
    have := Topo.openSlots_fill hv f s
    have hwl : (t.fill v j f s).wl = t.wl := rfl
    simp only [Topo.work, hwl]
    omega
  refine TopoM.ends_modify_bind <| TopoM.ends_get_bind <|
    (pushWork_ends (n := n - 4) _ (show (t.fill v j f s).work ≤ n - 4 by omega)).bind fun _ _ h =>
      (pushWork_ends _ h).bind fun _ _ h =>
        (pushNeighbour_ends _ _ _ _ h).bind fun _ _ h => (pushNeighbour_ends _ _ _ _ h).mono fun _ _ h => ?_
  omega

theorem link_ends {n : Nat} (v j f s : Nat) (h : t.work ≤ n) : TopoM.Ends (link v j f s) t fun _ u => u.work ≤ n := by
  refine TopoM.ends_get_bind ?_
  simp only [Topo.vfaceAt_eq, Topo.fvtxAt_eq]
  split
  · exact TopoM.ends_pure h
  · split
    · exact TopoM.ends_raise _ _
    · next hempty =>
      split
      · exact TopoM.ends_raise _ _
      · exact linkSlots_ends (of_not_not fun hv => hempty (.inl hv)) h

theorem closeCases_ends {n : Nat} (x k : Nat) (f g wf wg : Option Nat) (h : t.work ≤ n) :
    TopoM.Ends (closeCases x k f g wf wg) t fun _ u => u.work ≤ n := by
  unfold closeCases
  split
  · exact (vslot_reads _ _).bind fun _ => (fslot_reads _ _).bind fun _ => TopoM.ends_get_bind (link_ends _ _ _ _ h)
  · exact (vslot_reads _ _).bind fun _ => (fslot_reads _ _).bind fun _ => TopoM.ends_get_bind (link_ends _ _ _ _ h)
  · refine (vslot_reads _ _).bind fun _ => TopoM.ends_get_bind ?_
    split
    · exact TopoM.ends_pure h
    · exact (fslot_reads _ _).bind fun _ => TopoM.ends_get_bind (link_ends _ _ _ _ h)
  · refine (vslot_reads _ _).bind fun _ => TopoM.ends_get_bind ?_
    split
    · exact TopoM.ends_pure h
    · exact (fslot_reads _ _).bind fun _ => TopoM.ends_get_bind (link_ends _ _ _ _ h)
  · exact TopoM.ends_pure h

/-- Closing an edge makes at most one link (R326). -/
theorem closeEdge_ends {n : Nat} (x k : Nat) (h : t.work ≤ n) :
    TopoM.Ends (closeEdge x k) t fun _ u => u.work ≤ n := by
  refine TopoM.ends_get_bind <| (vertexBefore_reads _ _).bind fun wf => (vertexAfter_reads _ _).bind fun wg => ?_
  split
  · exact TopoM.ends_raise _ _
  · exact closeCases_ends _ _ _ _ _ _ h

/-- Each round of the worklist loop takes one entry off WL, so the work to do bounds the rounds (R327, R344). -/
theorem closeAll_ends (fuel : Nat) (h : t.work ≤ fuel) : TopoM.Ends (closeAll fuel) t fun _ _ => True := by
  induction fuel generalizing t with
  | zero =>
    have hwl : t.wl = [] := List.length_eq_zero_iff.1 (by simp only [Topo.work] at h; omega)
    refine TopoM.ends_get_bind ?_
    rw [if_pos hwl]
    exact TopoM.ends_pure trivial
  | succ fuel ih =>
    refine TopoM.ends_get_bind ?_
    split
    · exact TopoM.ends_pure trivial
    · next x k rest hwl =>
      have hrest : (t.setWork rest).work ≤ fuel := by
        simp only [Topo.work, hwl, List.length_cons] at h
        simp only [Topo.work, Topo.setWork, Topo.openSlots] at h ⊢
        omega
      exact TopoM.ends_set_bind ((closeEdge_ends x k hrest).bind fun _ _ h => ih h)

end

/-! The streams and the active-face queue. -/

/-- Links do not touch the cursors and the active-face queue. -/
theorem cursors_aq_linkStable (c : Vector Nat 17) (q : List Nat) : LinkStable fun u => u.cursors = c ∧ u.aq = q where
  setWork := fun _ h => h
  fill := fun h _ _ _ _ => h

section
variable (e : TopoEnv)

/-- From `t` to `u` no stream has gained elements to read, and the active-face queue is the same. -/
structure Topo.Quiet (t u : Topo) : Prop where
  left : ∀ r, u.left e r ≤ t.left e r
  aq : u.aq = t.aq

/-- From `t` to `u` no stream has gained elements to read, no face has left the active-face queue, and every face that
entered it was read from a degree stream (R344). -/
structure Topo.Advances (t u : Topo) : Prop where
  left : ∀ r, u.left e r ≤ t.left e r
  aq : t.aq ⊆ u.aq
  queue : u.aq.length + u.degreesLeft e ≤ t.aq.length + t.degreesLeft e

variable {e} {t u w : Topo}

theorem Topo.Quiet.refl (t : Topo) : t.Quiet e t := ⟨fun _ => le_rfl, rfl⟩

theorem Topo.Quiet.trans (h : t.Quiet e u) (h' : u.Quiet e w) : t.Quiet e w :=
  ⟨fun r => (h'.left r).trans (h.left r), h'.aq.trans h.aq⟩

theorem Topo.Advances.refl (t : Topo) : t.Advances e t := ⟨fun _ => le_rfl, List.Subset.refl _, le_rfl⟩

theorem Topo.Advances.trans (h : t.Advances e u) (h' : u.Advances e w) : t.Advances e w :=
  ⟨fun r => (h'.left r).trans (h.left r), List.Subset.trans h.aq h'.aq, h'.queue.trans h.queue⟩

theorem Topo.degreesLeft_le (h : ∀ r, u.left e r ≤ t.left e r) : u.degreesLeft e ≤ t.degreesLeft e :=
  List.sum_le_sum fun c _ => h (roleDegree c)

theorem Topo.degreesLeft_lt (h : ∀ r, u.left e r ≤ t.left e r) {c : Nat}
    (hc : u.left e (roleDegree c) < t.left e (roleDegree c)) : u.degreesLeft e < t.degreesLeft e := by
  have hrole : roleDegree (c % 8) = roleDegree c := by simp [roleDegree]
  refine List.sum_lt_sum _ _ (fun i _ => h (roleDegree i)) ⟨c % 8, List.mem_range.2 (Nat.mod_lt _ (by decide)), ?_⟩
  rw [hrole]
  exact hc

theorem Topo.Quiet.advances (h : t.Quiet e u) : t.Advances e u where
  left := h.left
  aq := h.aq ▸ List.Subset.refl _
  queue := h.aq ▸ Nat.add_le_add_left (Topo.degreesLeft_le h.left) _

variable (e)

/-- A cursor moved one on leaves one element less of its stream. -/
theorem Topo.left_cursor_succ (r r' : Role) :
    Topo.left { t with cursors := t.cursors.set r.val (t.cursors[r] + 1) r.isLt } e r' =
      if r = r' then t.left e r' - 1 else t.left e r' := by
  split
  · next hr => subst hr; simp only [Topo.left, Fin.getElem_fin, Vector.getElem_set_self]; omega
  · next hr => simp [Topo.left, Fin.val_ne_of_ne hr]

/-- A read takes one element off its stream (R312). -/
theorem topoRead_ends (r : Role) :
    TopoM.Ends (topoRead e r) t fun _ u => t.Quiet e u ∧ u.left e r < t.left e r := by
  rcases topoRead_cases e r t with ⟨x, hx, hread⟩ | ⟨-, hread⟩
  · refine ⟨by simp [hread], fun a u hu => ?_⟩
    cases hread.symm.trans hu
    have hpos : 0 < t.left e r := Nat.sub_pos_of_lt (List.getElem?_eq_some_iff.1 hx).1
    refine ⟨⟨fun r' => ?_, rfl⟩, ?_⟩
    · rw [Topo.left_cursor_succ]
      split <;> omega
    · rw [Topo.left_cursor_succ, if_pos rfl]
      omega
  · exact ⟨by simp [hread], fun a u hu => nomatch hread.symm.trans hu⟩

theorem topoReadOr0_ends (r : Role) : TopoM.Ends (topoReadOr0 e r) t fun _ u => t.Quiet e u := by
  unfold topoReadOr0
  split
  · exact (topoRead_ends e r).mono fun _ _ h => h.1
  · exact TopoM.ends_pure (.refl t)

theorem maskWords_ends (n i : Nat) : TopoM.Ends (maskWords e n i) t fun _ u => t.Quiet e u := by
  induction n generalizing t i with
  | zero => exact TopoM.ends_pure (.refl t)
  | succ n ih =>
    exact (topoRead_ends e _).bind fun _ _ ⟨h, _⟩ => (ih _).bind fun _ _ h' => TopoM.ends_pure (h.trans h')

theorem readMask_ends (deg : Nat) : TopoM.Ends (readMask e deg) t fun _ u => t.Quiet e u := by
  unfold readMask
  split
  · refine (topoRead_ends e _).bind fun _ _ ⟨h, _⟩ => ?_
    split
    · exact (maskWords_ends e _ _).bind fun _ _ h' => TopoM.ends_pure (h.trans h')
    · exact TopoM.ends_pure h
  · exact TopoM.ends_pure (.refl t)

/-- A new face is one more in the active-face queue (R319, R321). -/
theorem newFace_ends (deg : Nat) :
    TopoM.Ends (newFace e deg) t fun f u => (∀ r, u.left e r ≤ t.left e r) ∧ u.aq = t.aq ++ [f] := by
  refine (readMask_ends e deg).bind fun mask u h => ?_
  split
  · exact TopoM.ends_raise _ _
  · refine TopoM.ends_get_bind ?_
    split
    · exact TopoM.ends_raise _ _
    · split
      · exact TopoM.ends_raise _ _
      · exact TopoM.ends_set_bind (TopoM.ends_pure ⟨h.left, by rw [Topo.aq_addFace, h.aq]⟩)

theorem vtxInit_ends :
    TopoM.Ends (vtxInit e) t fun _ u => t.Quiet e u ∧ u.left e roleValence < t.left e roleValence := by
  refine (topoRead_ends e _).bind fun val _ ⟨h, hlt⟩ => (topoReadOr0_ends e _).bind fun grp _ hg =>
    (topoReadOr0_ends e _).bind fun flg u hf => ?_
  have hq := hg.trans hf
  split
  · exact TopoM.ends_raise _ _
  · refine TopoM.ends_get_bind ?_
    split
    · exact TopoM.ends_raise _ _
    · split
      · exact TopoM.ends_raise _ _
      · exact TopoM.ends_set_bind (TopoM.ends_pure ⟨⟨(h.trans hq).left, (h.trans hq).aq⟩, (hq.left _).trans_lt hlt⟩)

theorem topLink_ends (v j f s : Nat) : TopoM.Ends (topLink v j f s) t fun _ u => t.Quiet e u := by
  have hends : TopoM.Ends (topLink v j f s) t fun _ _ => True :=
    (link_ends v j f s le_rfl).bind fun _ _ _ => TopoM.ends_get_bind (closeAll_ends _ le_rfl)
  refine (hends.and (topLink_keeps (cursors_aq_linkStable t.cursors t.aq) v j f s ⟨rfl, rfl⟩)).mono ?_
  rintro _ u ⟨-, hc, hq⟩
  exact ⟨fun r => by simp only [Topo.left, hc, le_refl], hq⟩

theorem activateSplit_ends (v j : Nat) : TopoM.Ends (activateSplit e v j) t fun _ u => t.Quiet e u := by
  refine (topoRead_ends e _).bind fun off _ ⟨h, _⟩ => TopoM.ends_get_bind ?_
  split
  · exact TopoM.ends_raise _ _
  · refine (topoRead_ends e _).bind fun pos _ ⟨h', _⟩ => ?_
    split
    · exact TopoM.ends_raise _ _
    · split
      · exact TopoM.ends_raise _ _
      · exact (topLink_ends e _ _ _ _).mono fun _ _ h'' => (h.trans h').trans h''

/-- An activation reads a degree element, and puts at most one face on the active-face queue (R330). -/
theorem activateF_ends (v j : Nat) : TopoM.Ends (activateF e v j) t fun _ u => t.Advances e u := by
  refine TopoM.ends_get_bind <| (topoRead_ends e _).bind fun deg t' ⟨h, hlt⟩ => ?_
  split
  · split
    · exact TopoM.ends_raise _ _
    · refine (newFace_ends e _).bind fun f u ⟨hleft, haq⟩ => (topLink_ends e v j f 0).mono fun _ w hw => ?_
      have hdeg := Topo.degreesLeft_lt h.left hlt
      have hdeg' := Topo.degreesLeft_le hleft
      have hface : t.Advances e u :=
        { left := fun r => (hleft r).trans (h.left r)
          aq := by simp [haq, h.aq]
          queue := by simp only [haq, h.aq, List.length_append, List.length_singleton]; omega }
      exact hface.trans hw.advances
  · split
    · exact (activateSplit_ends e v j).mono fun _ _ h' => (h.trans h').advances
    · exact TopoM.ends_raise _ _

theorem activateSlots_ends (v : Nat) (js : List Nat) :
    TopoM.Ends (activateSlots e v js) t fun _ u => t.Advances e u := by
  induction js generalizing t with
  | nil => exact TopoM.ends_pure (.refl t)
  | cons j js ih =>
    refine TopoM.ends_get_bind ?_
    split
    · exact (activateF_ends e v j).bind fun _ _ h => ih.mono fun _ _ h' => h.trans h'
    · exact ih

/-! The loops over faces and vertices. -/

theorem activateV_ends (f s : Nat) :
    TopoM.Ends (activateV e f s) t fun _ u => t.Quiet e u ∧ u.left e roleValence < t.left e roleValence :=
  (vtxInit_ends e).bind fun v _ ⟨h, hlt⟩ => (topLink_ends e v 0 f s).bind fun _ _ h' =>
    TopoM.ends_pure ⟨h.trans h', (h'.left _).trans_lt hlt⟩

/-- Each round of `CompleteV` reads a VALENCE element, so the elements left bound the rounds (R334, R344). -/
theorem completeVLoop_ends (f fuel : Nat) (h : t.left e roleValence < fuel) :
    TopoM.Ends (completeVLoop e f fuel) t fun _ u => t.Advances e u := by
  induction fuel generalizing t with
  | zero => omega
  | succ fuel ih =>
    refine TopoM.ends_get_bind ?_
    split
    · exact TopoM.ends_pure (.refl t)
    · refine (activateV_ends e f _).bind fun v u ⟨hu, hlt⟩ =>
        TopoM.Ends.bind (TopoM.ends_get_bind (activateSlots_ends e v _)) fun _ w hw => ?_
      have hleft := hw.left roleValence
      exact (ih (by omega)).mono fun _ _ h' => (hu.advances.trans hw).trans h'

theorem completeV_ends (f : Nat) : TopoM.Ends (completeV e f) t fun _ u => t.Advances e u :=
  TopoM.ends_get_bind (completeVLoop_ends e f _ (Nat.lt_succ_self _))

theorem fewestEmpty_mem (t : Topo) (best : Nat) (fs : List Nat) : fewestEmpty t best fs ∈ best :: fs := by
  induction fs generalizing best with
  | nil => simp [fewestEmpty]
  | cons f fs ih =>
    unfold fewestEmpty
    split
    · exact List.mem_cons_of_mem _ (ih f)
    · rcases List.mem_cons.1 (ih best) with h | h
      · simp [h]
      · simp [h]

/-- The next active face is in the queue (R335). -/
theorem nextActiveFace_mem {f : Nat} (h : nextActiveFace t = some f) : f ∈ t.aq := by
  unfold nextActiveFace at h
  split at h
  · exact nomatch h
  · next g rest hq =>
    cases h
    exact List.mem_reverse.1 (List.mem_of_mem_take (hq ▸ fewestEmpty_mem t g rest))

/-- Each round of a component takes a face off the active-face queue, and every face put on it takes an element off a
degree stream, so the two together bound the rounds (R336, R344). -/
theorem componentLoop_ends (fuel : Nat) (h : t.aq.length + t.degreesLeft e < fuel) :
    TopoM.Ends (componentLoop e fuel) t fun _ u => u.left e roleValence ≤ t.left e roleValence := by
  induction fuel generalizing t with
  | zero => omega
  | succ fuel ih =>
    refine TopoM.ends_get_bind ?_
    split
    · exact TopoM.ends_pure le_rfl
    · next f hf =>
      refine (completeV_ends e f).bind fun _ u hu => TopoM.ends_modify_bind ?_
      have hmem : f ∈ u.aq := hu.aq (nextActiveFace_mem hf)
      have hqueue := hu.queue
      have hfuel : (u.aq.erase f).length + u.degreesLeft e < fuel := by
        have hpos := List.length_pos_of_mem hmem
        rw [List.length_erase_of_mem hmem]
        omega
      exact (ih (t := { u with aq := u.aq.erase f }) hfuel).mono fun _ _ h' => h'.trans (hu.left roleValence)

/-- A component reads at least its seed's VALENCE element (R310). -/
theorem runComponent_ends :
    TopoM.Ends (runComponent e) t fun _ u => u.left e roleValence < t.left e roleValence := by
  refine (vtxInit_ends e).bind fun v u ⟨_, hlt⟩ => TopoM.ends_modify_bind <| TopoM.ends_get_bind <|
    (activateSlots_ends e v _).bind fun _ w hw => TopoM.ends_get_bind <|
      (componentLoop_ends e _ (Nat.lt_succ_self _)).mono fun _ _ h => ?_
  exact (h.trans (hw.left roleValence)).trans_lt hlt

theorem runComponents_ends (fuel : Nat) (h : t.left e roleValence < fuel) :
    TopoM.Ends (runComponents e fuel) t fun _ _ => True := by
  induction fuel generalizing t with
  | zero => omega
  | succ fuel ih =>
    refine TopoM.ends_get_bind ?_
    split
    · exact (runComponent_ends e).bind fun _ _ hlt => ih (by omega)
    · exact TopoM.ends_pure trivial

theorem topoProgram_ends : TopoM.Ends (topoProgram e) t fun _ _ => True := by
  refine TopoM.ends_get_bind <| (runComponents_ends e _ (Nat.lt_succ_self _)).bind fun _ _ _ =>
    TopoM.ends_get_bind ?_
  split
  · exact TopoM.ends_pure trivial
  · exact TopoM.ends_raise _ _

/-- No run uses up a loop bound (log 9). -/
theorem topoRun_ne_stuck : topoRun e ≠ .error .stuck := by
  unfold topoRun
  split
  · exact nofun
  · next x hx =>
    intro hstuck
    cases hstuck
    exact (topoProgram_ends e).1 hx

end

/-! Every instruction. -/

section
variable (s : State)

theorem safe_failWith (c : ErrCode) (ds : List SlotNo) : Safe (failWith s c ds) := ⟨_, failWith_eq s c ds⟩

theorem safe_streamCommand (a : SlotNo) (load : Cursor (List Word)) : Safe (streamCommand s a load) := by
  rcases streamCommand_cases s a load with ⟨vals, p, -, h⟩ | ⟨e, -, h⟩
  · exact ⟨_, h⟩
  · exact ⟨_, h⟩

theorem safe_predCommand (p : PredType) (a b : SlotNo) : Safe (predCommand p a b s) := ⟨_, predCommand_eq p a b s⟩

theorem safe_deqQuant (a b : SlotNo) : Safe (execDeqQuant a b s) := by
  unfold execDeqQuant
  split
  · exact safe_failWith s _ _
  · exact ⟨_, rfl⟩

theorem safe_deqExpmant (a b c : SlotNo) : Safe (execDeqExpmant a b c s) := by
  unfold execDeqExpmant
  split
  · exact safe_failWith s _ _
  · exact ⟨_, rfl⟩

theorem safe_deqDeering (a b c d : SlotNo) (m : BitVec 4) : Safe (execDeqDeering a b c d m s) := by
  simp only [execDeqDeering]
  split
  · exact safe_failWith s _ _
  · split
    · exact safe_failWith s _ _
    · split
      · exact safe_failWith s _ _
      · split
        · exact safe_failWith s _ _
        · split
          · exact safe_failWith s _ _
          · exact ⟨_, rfl⟩

theorem safe_vtxPack (a b c d : SlotNo) : Safe (execVtxPack a b c d s) := by
  unfold execVtxPack
  split
  · exact safe_failWith s _ _
  · split
    · exact safe_failWith s _ _
    · exact ⟨_, rfl⟩

theorem safe_topoRun : Safe (execTopoRun s) := by
  unfold execTopoRun
  split
  · exact ⟨_, rfl⟩
  · exact ⟨_, rfl⟩
  · next hstuck => exact absurd hstuck (topoRun_ne_stuck s.topoEnv)

theorem safe_topoEmit : Safe (execTopoEmit s) := by
  unfold execTopoEmit
  split
  · exact safe_failWith s _ _
  · split
    · exact safe_failWith s _ _
    · split
      · exact safe_failWith s _ _
      · split
        · exact safe_failWith s _ _
        · exact ⟨_, rfl⟩

end

/-- Settles O8, instruction by instruction; what it turns on is that no loop of TOPO_RUN uses up its bound. -/
theorem everyCommandTerminates : Obligations.EveryCommandTerminates := by
  intro i s
  cases i with
  | nop => exact ⟨_, rfl⟩
  | decCdp2 a => exact safe_streamCommand s _ _
  | decCdp1 a => exact safe_streamCommand s _ _
  | predLag1 a b => exact safe_predCommand s _ _ _
  | predLag2 a b => exact safe_predCommand s _ _ _
  | predStride1 a b => exact safe_predCommand s _ _ _
  | predStride2 a b => exact safe_predCommand s _ _ _
  | predStripindex a b => exact safe_predCommand s _ _ _
  | predRamp a b => exact safe_predCommand s _ _ _
  | predXor1 a b => exact safe_predCommand s _ _ _
  | predXor2 a b => exact safe_predCommand s _ _ _
  | predNull a b => exact safe_predCommand s _ _ _
  | deqQuant a b => exact safe_deqQuant s a b
  | deqExpmant a b c => exact safe_deqExpmant s a b c
  | deqDeering a b c d m => exact safe_deqDeering s a b c d m
  | vtxPack a b c d => exact safe_vtxPack s a b c d
  | topoRun => exact safe_topoRun s
  | topoEmit => exact safe_topoEmit s
  | cdp2Null => exact safe_streamCommand s _ _
  | cdp2Bitlength2 => exact safe_streamCommand s _ _
  | cdp2Arithmetic => exact safe_streamCommand s _ _
  | cdp2Chopper => exact safe_streamCommand s _ _
  | cdp1Null => exact safe_streamCommand s _ _
  | cdp1Bitlength1 => exact safe_streamCommand s _ _
  | cdp1Huffman => exact safe_streamCommand s _ _
  | cdp1Arithmetic => exact safe_streamCommand s _ _

end Sys2Proof.Machine

/-! Fields of bits read from a codetext or a probability context (41_bitreader.md R142 to R146). -/

namespace Sys2Proof.Machine

/-! The number a field of bits holds. -/

theorem msbBits_succ (n x : Nat) : msbBits (n + 1) x = x.testBit n :: msbBits n x := by
  simp only [msbBits, List.range_succ_eq_map, List.map_cons, List.map_map, Function.comp_def, Nat.sub_zero,
    Nat.add_sub_cancel, Nat.succ_eq_add_one, Nat.sub_sub, Nat.add_comm 1]

/-- `sext_n` of a field is its two's-complement value (00_scope.md R10). -/
theorem sext_of_lt {n x : Nat} (hn : 1 ≤ n) (hx : x < 2 ^ n) :
    sext n x = if 2 * x < 2 ^ n then (x : Int) else (x : Int) - 2 ^ n := by
  obtain ⟨m, rfl⟩ := Nat.exists_eq_add_of_le' hn
  have hpow : 2 ^ (m + 1) = 2 * 2 ^ m := Nat.pow_succ'
  rw [sext, Nat.mod_eq_of_lt hx, Nat.add_sub_cancel]
  split
  · next hlow => simp [Nat.testBit_lt_two_pow (show x < 2 ^ m by omega)]
  · next hhigh => simp [Nat.testBit_of_two_pow_le_and_two_pow_add_one_gt (show 2 ^ m ≤ x by omega) hx]

/-! What `ReadBit()` gives. -/

/-- After `k` consumed bits the source gives `bits`, and each read consumes one. -/
def BitSource.Gives (src : BitSource) (k : Nat) (bits : List Bool) : Prop :=
  ∀ j, j < bits.length → src.bit (k + j) = .ok (bits.getD j false, k + j + 1)

theorem BitSource.gives_cons {src : BitSource} {k : Nat} {b : Bool} {bits : List Bool} :
    src.Gives k (b :: bits) ↔ src.bit k = .ok (b, k + 1) ∧ src.Gives (k + 1) bits := by
  simp only [BitSource.Gives, List.length_cons, Nat.forall_lt_succ_left', Nat.add_zero, List.getD_cons_zero,
    List.getD_cons_succ, Nat.add_right_comm k 1, Nat.add_assoc]

/-- The bit a codetext holds at a place below its declared length, in either mode. -/
theorem codetextBit_of_lt {ws : List Word} {len k : Nat} (h : k < len) (padded : Bool) (p : Nat) :
    codetextBit ws len padded p k = .ok (wordsBit ws k, k + 1) := if_pos h

/-- A strict reader has no bit at or past the declared length. -/
theorem codetextBit_eq_error {ws : List Word} {len k : Nat} (h : len ≤ k) (p : Nat) :
    codetextBit ws len false p k = .error { code := .codetext, info := p } := if_neg (by omega)

/-- Each bit the source gives consumes one. -/
def BitSource.Counts (src : BitSource) : Prop := ∀ ⦃k b k'⦄, src.bit k = .ok (b, k') → k' = k + 1

theorem codetextSource_counts (ws : List Word) (len : Nat) (padded : Bool) (p : Nat) :
    (codetextSource ws len padded p).Counts := by
  intro k b k' h
  cases padded with
  | false => exact congrArg Prod.snd (codetextBit_strict.1 h).2
  | true =>
    cases (codetextBit_padded ws len p k).symm.trans h
    rfl

theorem codetextSource_gives {ws : List Word} {len k : Nat} {bits : List Bool} (hlen : k + bits.length ≤ len)
    (h : BitsFrom ws k bits) (padded : Bool) (p : Nat) : (codetextSource ws len padded p).Gives k bits :=
  fun j hj => (codetextBit_of_lt (by omega) padded p).trans (by rw [BitsFrom.iff_wordsBit.1 h j hj])

/-- A padded reader sees the codetext's bits, then 0 bits. -/
theorem codetextSource_padded_gives {ws : List Word} {len k : Nat} {bits : List Bool}
    (h : ∀ j, j < bits.length → (decide (k + j < len) && wordsBit ws (k + j)) = bits.getD j false) (p : Nat) :
    (codetextSource ws len true p).Gives k bits :=
  fun j hj => (codetextBit_padded ws len p (k + j)).trans (by rw [h j hj])

/-- A context reader whose words all lie below IN_LEN gives their bits. -/
theorem contextSource_gives {v : InView} {q c : Nat} {bits : List Bool}
    (hlen : q + 4 * ((c + bits.length + 31) / 32) ≤ v.inLen)
    (h : ∀ j, j < bits.length → (v.word (q + 4 * ((c + j) / 32))).getLsbD (31 - (c + j) % 32) = bits.getD j false) :
    (contextSource v q).Gives c bits :=
  fun j hj => (if_neg (by omega)).trans (by rw [h j hj])

/-- A context reader has no bit of a word that is not below IN_LEN. -/
theorem contextBit_eq_error {v : InView} {q c : Nat} (h : v.inLen < q + 4 * (c / 32) + 4) :
    contextBit v q c = .error { code := .trunc, info := q + 4 * (c / 32) } := if_pos h

/-! Runs of bits. -/

theorem readBits_of_gives {src : BitSource} {n x k : Nat} (acc : Nat) (h : src.Gives k (msbBits n x)) :
    readBits src n acc k = .ok (2 ^ n * acc + x % 2 ^ n, k + n) := by
  induction n generalizing acc k with
  | zero => simp [readBits, Nat.mod_one]
  | succ n ih =>
    rw [msbBits_succ, BitSource.gives_cons] at h
    obtain ⟨hbit, hrest⟩ := h
    have hacc : 2 ^ n * (2 * acc + (x.testBit n).toNat) + x % 2 ^ n = 2 ^ (n + 1) * acc + x % 2 ^ (n + 1) := by
      rw [Nat.mod_pow_succ, Nat.toNat_testBit]
      ring
    rw [readBits, Cursor.bind_eq hbit, ih _ hrest, hacc, Nat.add_right_comm k, Nat.add_assoc]

/-- A run of bits consumes as many as it reads. -/
theorem readBits_cursor {src : BitSource} (hsrc : src.Counts) {n acc k x k' : Nat}
    (h : readBits src n acc k = .ok (x, k')) : k' = k + n := by
  induction n generalizing acc k with
  | zero => cases h; rfl
  | succ n ih =>
    obtain ⟨b, k1, hb, hrest⟩ := Cursor.bind_ok.1 h
    rw [ih hrest, hsrc hb, Nat.add_assoc, Nat.add_comm 1]

theorem readBits_eq_error {src : BitSource} {n k : Nat} {e : Err} (acc : Nat) (hn : 1 ≤ n)
    (h : src.bit k = .error e) : readBits src n acc k = .error e := by
  obtain ⟨m, rfl⟩ := Nat.exists_eq_add_of_le' hn
  exact Cursor.bind_eq_error h

/-- A strict run past the declared length reaches the first missing bit. -/
theorem readBits_strict_eq_error {ws : List Word} {len n k : Nat} (acc p : Nat) (hn : 1 ≤ n) (h : len < k + n) :
    readBits (codetextSource ws len false p) n acc k = .error { code := .codetext, info := p } := by
  induction n, hn using Nat.le_induction generalizing acc k with
  | base => exact readBits_eq_error acc le_rfl (codetextBit_eq_error (by omega) p)
  | succ n hn ih =>
    by_cases hk : k < len
    · exact (Cursor.bind_eq (codetextBit_of_lt hk false p)).trans (ih _ (by omega))
    · exact readBits_eq_error acc (by omega) (codetextBit_eq_error (by omega) p)

/-! Field reads (R143, R144). -/

section

variable {src : BitSource} {n x k : Nat}

/-- A legal width reads that many bits. -/
theorem readU32_eq_readBits (hn : 1 ≤ n) (hn' : n ≤ 32) : readU32 src n = readBits src n 0 :=
  if_neg (by omega)

theorem readU32_eq_error (hn : n = 0 ∨ 32 < n) :
    readU32 src n k = .error { code := .range, info := src.pos k } := by
  rw [readU32, if_pos (by omega), BitSource.raise_eq]

theorem readU32_of_gives (hn : 1 ≤ n) (hn' : n ≤ 32) (hx : x < 2 ^ n) (h : src.Gives k (msbBits n x)) :
    readU32 src n k = .ok (x, k + n) := by
  rw [readU32_eq_readBits hn hn', readBits_of_gives 0 h, Nat.mod_eq_of_lt hx, Nat.mul_zero, Nat.zero_add]

theorem readI32_of_gives (hn : 1 ≤ n) (hn' : n ≤ 32) (hx : x < 2 ^ n) (h : src.Gives k (msbBits n x)) :
    readI32 src n k = .ok (if 2 * x < 2 ^ n then (x : Int) else (x : Int) - 2 ^ n, k + n) := by
  rw [readI32, Cursor.bind_eq (readU32_of_gives hn hn' hx h), Cursor.pure_eq, sext_of_lt hn hx]

theorem readU32_cursor (hsrc : src.Counts) {y k' : Nat} (h : readU32 src n k = .ok (y, k')) : k' = k + n := by
  by_cases hn : n = 0 ∨ 32 < n
  · rw [readU32_eq_error hn] at h
    exact nomatch h
  · rw [readU32_eq_readBits (by omega) (by omega)] at h
    exact readBits_cursor hsrc h

theorem readI32_cursor (hsrc : src.Counts) {y : Int} {k' : Nat} (h : readI32 src n k = .ok (y, k')) : k' = k + n := by
  obtain ⟨x, k1, hx, h⟩ := Cursor.bind_ok.1 h
  cases h
  exact readU32_cursor hsrc hx

@[simp] theorem readU32Or0_zero (src : BitSource) (k : Nat) : readU32Or0 src 0 k = .ok (0, k) := rfl

@[simp] theorem readI32Or0_zero (src : BitSource) (k : Nat) : readI32Or0 src 0 k = .ok (0, k) := rfl

end

/-- Settles O31: a source that gives a field's bits gives its number, whichever reader it is; the errors are those of
the first bit the source does not have. -/
theorem fieldReadsMsbFirst : Obligations.FieldReadsMsbFirst := by
  refine ⟨fun ws len p k n x => ⟨fun hn hn' hx hlen h padded => ?field, fun hn hn' hlen => ?pastEnd,
      fun hn hn' hx h => ?padded, fun hn padded => readU32_eq_error hn, fun padded => ?cursor⟩,
    fun v q c n x hn hn' hx => ⟨fun hlen h => ?context, fun hlen => ?missingWord⟩⟩
  case field =>
    have hgives : (codetextSource ws len padded p).Gives k (msbBits n x) :=
      codetextSource_gives (by simpa using hlen) (by simpa only [BitsFrom, msbBits_length] using h) padded p
    exact ⟨readU32_of_gives hn hn' hx hgives, readI32_of_gives hn hn' hx hgives⟩
  case pastEnd => rw [readU32_eq_readBits hn hn', readBits_strict_eq_error 0 p hn hlen]
  case padded =>
    exact readU32_of_gives hn hn' hx
      (codetextSource_padded_gives (by simpa only [wordsBit, msbBits_length] using h) p)
  case cursor =>
    have hsrc := codetextSource_counts ws len padded p
    exact ⟨fun _ _ => readU32_cursor hsrc, fun _ _ => readI32_cursor hsrc, readU32Or0_zero _ k, readI32Or0_zero _ k⟩
  case context =>
    exact readU32_of_gives hn hn' hx
      (contextSource_gives (by simpa using hlen) (by simpa only [msbBits_length] using h))
  case missingWord => rw [readU32_eq_readBits hn hn', readBits_eq_error 0 hn (contextBit_eq_error hlen)]

end Sys2Proof.Machine

/-! Field reads as numbers and words, the two endings of a stream command, and the header of a CDP2 stream
(42_streams.md R160 to R166). -/

namespace Sys2Proof.Machine

/-! Field reads. -/

/-- A word whose i32 value is a natural number is that number. -/
theorem toInt_eq_natCast {w : Word} {n : Nat} : w.toInt = n ↔ w = u32 n ∧ n < 2 ^ 31 := by
  constructor
  · intro h
    have hn : n < 2 ^ 31 := by
      have hw := BitVec.toInt_lt (x := w)
      omega
    have hw : w.toInt = (w.toNat : Int) := BitVec.toInt_eq_toNat_of_msb (by simp [BitVec.msb_eq_toInt, h])
    refine ⟨BitVec.eq_of_toNat_eq ?_, hn⟩
    rw [BitVec.toNat_ofNat]
    omega
  · rintro ⟨rfl, hn⟩
    rw [BitVec.toInt_eq_toNat_of_lt] <;> rw [BitVec.toNat_ofNat] <;> omega

theorem toInt_u32 {n : Nat} (hn : n < 2 ^ 31) : (u32 n).toInt = n := toInt_eq_natCast.2 ⟨rfl, hn⟩

/-- A field that holds a small number reads as it. -/
theorem readInt_of_word_eq {v : InView} {p n : Nat} (hin : p + 4 ≤ v.inLen) (hw : v.word p = u32 n) (hn : n < 2 ^ 31) :
    readInt v p = .ok ((n : Int), p + 4) :=
  readInt_ok.2 ⟨hin, by rw [hw, toInt_u32 hn]⟩

theorem readInt_eq_error {v : InView} {p : Nat} (h : v.inLen < p + 4) :
    readInt v p = .error { code := .trunc, info := p } :=
  Cursor.bind_eq_error (readWord_error.2 ⟨h, rfl⟩)

/-- A run of words that starts below IN_LEN reads as the words there, if it ends there too. -/
theorem repeatRead_readWord_ok {v : InView} {n p : Nat} (hp : p ≤ v.inLen) {r : List Word × Nat} :
    repeatRead (readWord v) n p = .ok r ↔ p + 4 * n ≤ v.inLen ∧ r = (wordsAt v p n, p + 4 * n) := by
  induction n generalizing p r with
  | zero => simp [repeatRead, wordsAt, hp, eq_comm]
  | succ n ih =>
    have hwords : wordsAt v p (n + 1) = v.word p :: wordsAt v (p + 4) n := by
      simp only [wordsAt, List.range_succ_eq_map, List.map_cons, List.map_map, Function.comp_def, Nat.mul_zero,
        Nat.add_zero, Nat.succ_eq_add_one, Nat.mul_add, Nat.mul_one, Nat.add_assoc, Nat.add_comm 4]
    have hend : p + 4 + 4 * n = p + 4 * (n + 1) := by omega
    constructor
    · intro h
      obtain ⟨w, q, hw, h⟩ := Cursor.bind_ok.1 h
      obtain ⟨ws, q', hws, h⟩ := Cursor.bind_ok.1 h
      obtain ⟨hin, heq⟩ := readWord_ok.1 hw
      cases heq
      obtain ⟨hin', heq'⟩ := (ih hin).1 hws
      cases heq'
      cases h
      exact ⟨hend ▸ hin', by rw [hwords, hend]⟩
    · rintro ⟨hin, rfl⟩
      have hrest := (ih (p := p + 4) (by omega)).2 ⟨by omega, rfl⟩
      rw [repeatRead, Cursor.bind_eq (readWord_ok.2 ⟨by omega, rfl⟩), Cursor.bind_eq hrest, Cursor.pure_eq, hwords,
        hend]

/-! The endings of a stream command (R161, R162, 60_exceptions.md R410). -/

theorem streamCommand_of_ok {s : State} {load : Cursor (List Word)} {vals : List Word} {p : Nat} (a : SlotNo)
    (h : load s.larg0.toNat = .ok (vals, p)) : streamCommand s a load = streamDone s a vals p := by
  simp only [streamCommand, h, streamDone]

theorem streamCommand_of_error {s : State} {load : Cursor (List Word)} {c : ErrCode} {p : Nat} (a : SlotNo)
    (h : load s.larg0.toNat = .error { code := c, info := p }) :
    streamCommand s a load = .next ((s.setSlot a []).recordError c (u32 p)) := by
  simp only [streamCommand, h]
  rfl

/-- A stream command that sets DONE has loaded its stream. -/
theorem streamCommand_done {s t : State} {a : SlotNo} {load : Cursor (List Word)} (h : streamCommand s a load = .next t)
    (hs : s.done = false) (ht : t.done = true) :
    ∃ vals p, load s.larg0.toNat = .ok (vals, p) ∧ t = (s.setSlot a vals).complete (u32 p) (u32 vals.length) := by
  rcases streamCommand_cases s a load with ⟨vals, p, hload, heq⟩ | ⟨e, -, heq⟩ <;> rw [heq] at h <;> cases h
  · exact ⟨vals, p, hload, rfl⟩
  · rw [State.errorEntry_done, hs] at ht
    exact nomatch ht

/-! The valueCount field (R163, R165, R166). -/

section

variable {v : InView} {p : Nat}

/-- All a valueCount field that passes its checks can hold. -/
theorem cdp2Count_ok {n q : Nat} :
    cdp2Count v p = .ok (n, q) ↔
      p + 4 ≤ v.inLen ∧ v.word p = u32 n ∧ n < 2 ^ 31 ∧ n ≤ v.slotCap ∧ q = p + 4 := by
  constructor
  · intro h
    obtain rfl := cdp2Count_cursor h
    have hcap := cdp2Count_le h
    obtain ⟨k, q, hread, h⟩ := Cursor.bind_ok.1 h
    obtain ⟨hin, heq⟩ := readInt_ok.1 hread
    cases heq
    split at h
    · exact nomatch h
    · next hneg =>
      have hn : (v.word p).toInt = n := by
        split at h
        · cases h; assumption
        · split at h
          · exact nomatch h
          · cases h; exact (Int.toNat_of_nonneg (not_lt.1 hneg)).symm
      obtain ⟨hword, hlt⟩ := toInt_eq_natCast.1 hn
      exact ⟨hin, hword, hlt, hcap, rfl⟩
  · rintro ⟨hin, hword, hn, hcap, rfl⟩
    rw [cdp2Count, Cursor.bind_eq (readInt_of_word_eq hin hword hn), if_neg (by omega)]
    split
    · next hzero => rw [Int.natCast_eq_zero.1 hzero]; rfl
    · rw [Int.toNat_natCast, if_neg (by omega), Cursor.pure_eq]

theorem cdp2Count_eq_trunc (h : v.inLen < p + 4) : cdp2Count v p = .error { code := .trunc, info := p } :=
  Cursor.bind_eq_error (readInt_eq_error h)

theorem cdp2Count_eq_range (hin : p + 4 ≤ v.inLen) (hneg : (v.word p).toInt < 0) :
    cdp2Count v p = .error { code := .range, info := p + 4 } := by
  rw [cdp2Count, Cursor.bind_eq (readInt_ok.2 ⟨hin, rfl⟩), if_pos hneg, raiseHere_eq]

theorem cdp2Count_eq_capacity (hin : p + 4 ≤ v.inLen) (hnonneg : 0 ≤ (v.word p).toInt)
    (hcap : v.slotCap < (v.word p).toNat) : cdp2Count v p = .error { code := .capacity, info := p + 4 } := by
  obtain ⟨n, hn⟩ := Int.eq_ofNat_of_zero_le hnonneg
  obtain ⟨hword, hlt⟩ := toInt_eq_natCast.1 hn
  have hnat : (v.word p).toNat = n := by rw [hword, BitVec.toNat_ofNat]; omega
  rw [cdp2Count, Cursor.bind_eq (readInt_of_word_eq hin hword hlt), if_neg (by omega), if_neg (by omega),
    Int.toNat_natCast, if_pos (by omega), raiseHere_eq]

/-! The codec id (R163, R92, R95). -/

theorem cdp2CodecOf_eq_none {id : Byte} (h : id.toNat ∉ [0, 1, 3, 4]) : cdp2CodecOf id = none := by
  have hreject : decodeCdp2 id = .error (.badCodec id) := by
    unfold decodeCdp2
    split
    case h_5 => rfl
    all_goals simp_all
  rw [cdp2CodecOf, hreject]

theorem cdp1CodecOf_eq_none {id : Byte} (h : 3 < id.toNat) : cdp1CodecOf id = none := by
  have hreject : decodeCdp1 id = .error (.badCodec id) := by
    unfold decodeCdp1
    split
    case h_5 => rfl
    all_goals omega
  rw [cdp1CodecOf, hreject]

/-- A stream of no values ends with its count. -/
theorem loadCdp2_of_count_zero {levels : Nat} (hin : p + 4 ≤ v.inLen) (hword : v.word p = 0) :
    loadCdp2 v (levels + 1) p = .ok ([], p + 4) := by
  rw [loadCdp2, Cursor.bind_eq (cdp2Count_ok.2 ⟨hin, hword, by decide, Nat.zero_le _, rfl⟩), if_pos rfl, Cursor.pure_eq]

theorem loadCdp2_of_count_error {levels : Nat} {e : Err} (h : cdp2Count v p = .error e) :
    loadCdp2 v (levels + 1) p = .error e := Cursor.bind_eq_error h

/-- A stream with a count and a codec byte goes on to what the byte selects. -/
theorem loadCdp2_of_count {levels n : Nat} (hn : 0 < n) (hcount : cdp2Count v p = .ok (n, p + 4))
    (hin : p + 5 ≤ v.inLen) :
    loadCdp2 v (levels + 1) p =
      ((cdp2CodecOf (v.byte (p + 4))).elim (raiseHere .badCodec) (cdp2Payload v (loadCdp2 v levels) n)) (p + 5) := by
  rw [loadCdp2, Cursor.bind_eq hcount, if_neg hn.ne', Cursor.bind_eq (readU8_ok.2 ⟨hin, rfl⟩)]
  cases cdp2CodecOf (v.byte (p + 4)) <;> rfl

theorem loadCdp1_of_badCodec {levels : Nat} (hin : p + 1 ≤ v.inLen) (hid : 3 < (v.byte p).toNat) :
    loadCdp1 v (levels + 1) p = .error { code := .badCodec, info := p + 1 } := by
  rw [loadCdp1, Cursor.bind_eq (readU8_ok.2 ⟨hin, rfl⟩), cdp1CodecOf_eq_none hid]
  rfl

end

/-- Settles O32: the checks in the order of R163, each an ending of the loader where the stream starts. -/
theorem streamHeaderChecks : Obligations.StreamHeaderChecks := by
  intro s a
  have fails {c : ErrCode} {p : Nat} (h : cdp2Count s.inView s.larg0.toNat = .error { code := c, info := p }) :
      exec (.decCdp2 a) s = .next ((s.setSlot a []).recordError c (u32 p)) :=
    streamCommand_of_error a (loadCdp2_of_count_error h)
  refine ⟨fun hin => ⟨fun hneg => ?negative, fun hnonneg hcap => ?capacity, fun hzero => ?zero,
    fun hpos hcap hin' hid => ?badCodec⟩, fun htrunc => ?trunc, fun hin hid => ?badCodec1⟩
  case negative => exact fails (cdp2Count_eq_range hin hneg)
  case capacity => exact fails (cdp2Count_eq_capacity hin hnonneg hcap)
  case zero => exact streamCommand_of_ok a (loadCdp2_of_count_zero hin hzero)
  case badCodec =>
    obtain ⟨n, hn⟩ := Int.eq_ofNat_of_zero_le hpos.le
    obtain ⟨hword, hlt⟩ := toInt_eq_natCast.1 hn
    rw [hword, BitVec.toNat_ofNat, Nat.mod_eq_of_lt (by omega)] at hcap
    refine streamCommand_of_error a ?_
    have hcount := cdp2Count_ok.2 ⟨hin, hword, hlt, hcap, rfl⟩
    rw [show levelsAt 0 = 8 + 1 from rfl, loadCdp2_of_count (by omega) hcount hin', cdp2CodecOf_eq_none hid]
    rfl
  case trunc => simpa using fails (cdp2Count_eq_trunc htrunc)
  case badCodec1 => exact streamCommand_of_error a (loadCdp1_of_badCodec hin hid)

/-! Nesting (R164, R246). -/

/-- A Chopper wrapper of chop 0 fails as the stream in it does. -/
theorem loadCdp2_wrapper_error {v : InView} {levels p : Nat} {e : Err} (hcap : 1 ≤ v.slotCap) (hin : p + 6 ≤ v.inLen)
    (hword : v.word p = 1) (hid : v.byte (p + 4) = 4) (hchop : v.byte (p + 5) = 0)
    (h : loadCdp2 v levels (p + 6) = .error e) : loadCdp2 v (levels + 1) p = .error e := by
  have hcount : cdp2Count v p = .ok (1, p + 4) := cdp2Count_ok.2 ⟨by omega, hword, by omega, hcap, rfl⟩
  rw [loadCdp2_of_count one_pos hcount (by omega), hid]
  show chopperLoad v 1 (loadCdp2 v levels) (p + 5) = .error e
  rw [chopperLoad, Cursor.bind_eq (readU8_ok.2 ⟨hin, rfl⟩), if_pos hchop, Cursor.bind_eq_error h]

/-- As many wrappers as there are levels leave none for the stream in them. -/
theorem loadCdp2_wrappers_depth {v : InView} (hcap : 1 ≤ v.slotCap) {levels p : Nat} (hin : p + 6 * levels ≤ v.inLen)
    (h : ∀ i, i < levels → v.word (p + 6 * i) = 1 ∧ v.byte (p + 6 * i + 4) = 4 ∧ v.byte (p + 6 * i + 5) = 0) :
    loadCdp2 v levels p = .error { code := .depth, info := p + 6 * levels } := by
  induction levels generalizing p with
  | zero => rfl
  | succ levels ih =>
    obtain ⟨hword, hid, hchop⟩ := h 0 (by omega)
    have hinner : ∀ i, p + 6 + 6 * i = p + 6 * (i + 1) := by omega
    refine loadCdp2_wrapper_error hcap (by omega) hword hid hchop ?_
    rw [← hinner]
    exact ih (by omega) fun i hi => hinner i ▸ h (i + 1) (by omega)

/-- Settles O33: nine wrappers use up the nine levels of a top-level stream. -/
theorem nestingDepthBound : Obligations.NestingDepthBound :=
  fun _ a hcap hin h => streamCommand_of_error a (loadCdp2_wrappers_depth hcap hin h)

end Sys2Proof.Machine

/-! Where a stream decode leaves the IN cursor: never before its start, never past IN_LEN (42_streams.md R160). -/

namespace Sys2Proof.Machine

/-- Where the computation succeeds, it leaves a cursor with the property `I` if it found one. -/
def Cursor.Keeps {α : Type} (I : Nat → Prop) (m : Cursor α) : Prop := ∀ ⦃p a q⦄, m p = .ok (a, q) → I p → I q

section

variable {α β : Type} {I : Nat → Prop} {m m' : Cursor α}

theorem Cursor.keeps_pure (a : α) : Cursor.Keeps I (pure a) := by
  intro p b q h hp
  cases h
  exact hp

theorem Cursor.keeps_get : Cursor.Keeps I (get : Cursor Nat) := by
  intro p a q h hp
  cases h
  exact hp

theorem Cursor.keeps_raiseHere (c : ErrCode) : Cursor.Keeps I (raiseHere c : Cursor α) := fun _ _ _ h => nomatch h

theorem Cursor.keeps_raise (src : BitSource) (c : ErrCode) : Cursor.Keeps I (src.raise c : Cursor α) :=
  fun _ _ _ h => nomatch h

theorem Cursor.keeps_liftExcept (x : Except Err α) : Cursor.Keeps I (liftExcept x) := by
  intro p a q h hp
  obtain ⟨-, rfl⟩ := liftExcept_ok.1 h
  exact hp

theorem Cursor.Keeps.bind {f : α → Cursor β} (hm : Cursor.Keeps I m) (hf : ∀ a, Cursor.Keeps I (f a)) :
    Cursor.Keeps I (m >>= f) := by
  intro p b q h hp
  obtain ⟨a, r, hma, hfa⟩ := Cursor.bind_ok.1 h
  exact hf a hfa (hm hma hp)

theorem Cursor.Keeps.ite {c : Prop} [Decidable c] (hm : Cursor.Keeps I m) (hm' : Cursor.Keeps I m') :
    Cursor.Keeps I (if c then m else m') := by
  split
  · exact hm
  · exact hm'

theorem Cursor.Keeps.repeatRead (hm : Cursor.Keeps I m) (n : Nat) : Cursor.Keeps I (repeatRead m n) := by
  induction n with
  | zero => exact Cursor.keeps_pure []
  | succ n ih => exact hm.bind fun a => ih.bind fun rest => Cursor.keeps_pure (a :: rest)

end

/-! Bits and contexts. -/

section

variable {I : Nat → Prop} {src : BitSource}

theorem Cursor.Keeps.readU32Or0 (h : Cursor.Keeps I src.bit) (n : Nat) : Cursor.Keeps I (readU32Or0 src n) := by
  have hbits (n acc : Nat) : Cursor.Keeps I (readBits src n acc) := by
    induction n generalizing acc with
    | zero => exact Cursor.keeps_pure acc
    | succ n ih => exact h.bind fun b => ih _
  exact (Cursor.keeps_pure 0).ite ((Cursor.keeps_raise src _).ite (hbits n 0))

theorem Cursor.Keeps.readI32Or0 (h : Cursor.Keeps I src.bit) (n : Nat) : Cursor.Keeps I (readI32Or0 src n) := by
  by_cases hn : n = 0
  · rw [Machine.readI32Or0, if_pos hn]
    exact Cursor.keeps_pure 0
  · have hread := h.readU32Or0 n
    rw [Machine.readU32Or0, if_neg hn] at hread
    rw [Machine.readI32Or0, if_neg hn]
    exact hread.bind fun x => Cursor.keeps_pure _

theorem Cursor.Keeps.readContext (h : Cursor.Keeps I src.bit) (layout : CtxLayout) :
    Cursor.Keeps I (readContext layout src) := by
  have hentry (sb ob vb nb : Nat) (minV : Int) : Cursor.Keeps I (readCtxEntry src sb ob vb nb minV) :=
    (h.readU32Or0 sb).bind fun _ => (h.readU32Or0 ob).bind fun _ => (h.readU32Or0 vb).bind fun _ =>
      (h.readU32Or0 nb).bind fun _ => Cursor.keeps_pure _
  exact (h.readU32Or0 _).bind fun cnt => (h.readU32Or0 _).bind fun sb => (h.readU32Or0 _).bind fun ob =>
    (h.readU32Or0 _).bind fun vb => (h.readU32Or0 _).bind fun nb => (h.readI32Or0 _).bind fun minV =>
      (Cursor.keeps_raise src _).ite ((Cursor.keeps_raise src _).ite ((hentry sb ob vb nb minV).repeatRead cnt))

end

/-! Fields and streams. -/

/-- The cursor `q` is not before `lo` and not past IN_LEN. -/
def InView.Between (v : InView) (lo q : Nat) : Prop := lo ≤ q ∧ q ≤ v.inLen

section

variable {v : InView} {lo : Nat}

theorem keeps_readU8 : Cursor.Keeps (v.Between lo) (readU8 v) := by
  rintro p a q h ⟨hlo, -⟩
  obtain ⟨hin, heq⟩ := readU8_ok.1 h
  cases heq
  exact ⟨by omega, hin⟩

theorem keeps_readWord : Cursor.Keeps (v.Between lo) (readWord v) := by
  rintro p a q h ⟨hlo, -⟩
  obtain ⟨hin, heq⟩ := readWord_ok.1 h
  cases heq
  exact ⟨by omega, hin⟩

theorem keeps_readInt : Cursor.Keeps (v.Between lo) (readInt v) :=
  keeps_readWord.bind fun _ => Cursor.keeps_pure _

/-- A bit of a context is in a word below IN_LEN (41_bitreader.md R146). -/
theorem contextBit_keeps (q0 : Nat) : Cursor.Keeps (fun c => contextPos q0 c ≤ v.inLen) (contextSource v q0).bit := by
  intro c b c' h _
  simp only [contextSource, contextBit] at h
  split at h
  · exact nomatch h
  · cases h
    simp only [contextPos, ceilDiv32]
    omega

theorem keeps_withContextReader {α : Type} {m : BitSource → Cursor α}
    (hm : ∀ (I : Nat → Prop) (src : BitSource), Cursor.Keeps I src.bit → Cursor.Keeps I (m src)) :
    Cursor.Keeps (v.Between lo) (withContextReader v m) := by
  rintro p a q h ⟨hlo, hin⟩
  unfold withContextReader at h
  split at h
  · next c hread =>
    cases h
    have hend : contextPos p c ≤ v.inLen := hm _ _ (contextBit_keeps p) hread (by simpa [contextPos, ceilDiv32])
    exact ⟨hlo.trans (Nat.le_add_right _ _), hend⟩
  · exact nomatch h

theorem keeps_cdp2Payload {load : Cursor (List Word)} (hload : Cursor.Keeps (v.Between lo) load) (n : Nat)
    (codec : Cdp2Codec) : Cursor.Keeps (v.Between lo) (cdp2Payload v load n codec) := by
  cases codec with
  | null =>
    exact keeps_readInt.bind fun len => (Cursor.keeps_raiseHere _).ite
      ((Cursor.keeps_raiseHere _).ite (keeps_readWord.repeatRead n))
  | bitlength2 =>
    exact keeps_readInt.bind fun len => (Cursor.keeps_raiseHere _).ite
      ((keeps_readWord.repeatRead _).bind fun ws => Cursor.keeps_get.bind fun p => Cursor.keeps_liftExcept _)
  | arithmetic =>
    exact keeps_readInt.bind fun len => (Cursor.keeps_raiseHere _).ite
      ((keeps_readWord.repeatRead _).bind fun ws =>
        (keeps_withContextReader fun I src h => h.readContext mark2).bind fun ctx =>
          hload.bind fun oob => Cursor.keeps_get.bind fun p => Cursor.keeps_liftExcept _)
  | chopper =>
    exact keeps_readU8.bind fun chop => Cursor.Keeps.ite
      (hload.bind fun inner => (Cursor.keeps_raiseHere _).ite (Cursor.keeps_pure inner))
      (keeps_readInt.bind fun bias => keeps_readU8.bind fun span => (Cursor.keeps_raiseHere _).ite
        (hload.bind fun msb => hload.bind fun lsb => (Cursor.keeps_raiseHere _).ite (Cursor.keeps_pure _)))

theorem keeps_loadCdp2 (levels : Nat) : Cursor.Keeps (v.Between lo) (loadCdp2 v levels) := by
  induction levels with
  | zero => exact Cursor.keeps_raiseHere _
  | succ levels ih =>
    have hcount : Cursor.Keeps (v.Between lo) (cdp2Count v) := by
      rintro p n q h ⟨hlo, -⟩
      obtain ⟨hin, -, -, -, rfl⟩ := cdp2Count_ok.1 h
      exact ⟨by omega, hin⟩
    refine hcount.bind fun n => (Cursor.keeps_pure []).ite (keeps_readU8.bind fun id => ?_)
    cases cdp2CodecOf id with
    | none => exact Cursor.keeps_raiseHere _
    | some codec => exact keeps_cdp2Payload ih n codec

/-- What a CDP2 stream that loads has read: its count, and bytes below IN_LEN. -/
theorem loadCdp2_result {levels p : Nat} {vals : List Word} {q : Nat} (h : loadCdp2 v (levels + 1) p = .ok (vals, q)) :
    v.word p = u32 vals.length ∧ vals.length < 2 ^ 31 ∧ v.Between (p + 4) q := by
  obtain ⟨n, p1, hn, h⟩ := Cursor.bind_ok.1 h
  obtain ⟨hin, hword, hlt, -, rfl⟩ := cdp2Count_ok.1 hn
  have hstart : v.Between (p + 4) (p + 4) := ⟨le_rfl, hin⟩
  split at h
  · next hzero =>
    cases h
    exact ⟨hword.trans (congrArg u32 hzero), by decide, hstart⟩
  · obtain ⟨id, p2, hid, h⟩ := Cursor.bind_ok.1 h
    cases hcodec : cdp2CodecOf id with
    | none => rw [hcodec] at h; exact nomatch h
    | some codec =>
      rw [hcodec] at h
      obtain rfl := cdp2Payload_length h
      exact ⟨hword, hlt, keeps_cdp2Payload (keeps_loadCdp2 levels) _ codec h (keeps_readU8 hid hstart)⟩

/-! CDP1 (R170). -/

/-- The context table and the OOB values of a stream with this codec: none if the codec has no table. -/
def cdp1Header (v : InView) (load : Cursor (List Word)) (codec : Cdp1Codec) :
    Cursor (List (List CtxEntry) × List Word) :=
  if codec.hasTable then cdp1Table v load else pure ([], [])

theorem keeps_cdp1Header {load : Cursor (List Word)} (hload : Cursor.Keeps (v.Between lo) load) (codec : Cdp1Codec) :
    Cursor.Keeps (v.Between lo) (cdp1Header v load codec) := by
  have hoob (ctxs : List (List CtxEntry)) (count : Int) (oob : List Word) : Cursor.Keeps (v.Between lo)
      (if (oob.length : Int) ≠ count then raiseHere .count else pure (ctxs, oob)) :=
    (Cursor.keeps_raiseHere _).ite (Cursor.keeps_pure _)
  have htable : Cursor.Keeps (v.Between lo) (cdp1Table v load) :=
    keeps_readU8.bind fun tc => (Cursor.keeps_raiseHere _).ite
      ((keeps_withContextReader fun I src h => (h.readContext mark1).repeatRead _).bind fun ctxs =>
        keeps_readInt.bind fun count => (Cursor.keeps_raiseHere _).ite
          ((hload.bind (hoob ctxs count)).ite ((Cursor.keeps_pure []).bind (hoob ctxs count))))
  exact htable.ite (Cursor.keeps_pure _)

/-- What a CDP1 stream has read after its codec byte: three fields at least, and bytes below IN_LEN. -/
theorem cdp1Payload_result {load : Cursor (List Word)} {codec : Cdp1Codec} {p : Nat} {vals : List Word} {q : Nat}
    (hload : Cursor.Keeps (v.Between p) load) (hp : p ≤ v.inLen) (h : cdp1Payload v load codec p = .ok (vals, q)) :
    vals.length < 2 ^ 31 ∧ v.Between (p + 12) q := by
  obtain ⟨⟨ctxs, oob⟩, t, hheader, h⟩ := Cursor.bind_ite_ok h
  obtain ⟨hpt, -⟩ := keeps_cdp1Header hload codec hheader ⟨le_rfl, hp⟩
  obtain ⟨len, p2, hlen, h⟩ := Cursor.bind_ok.1 h
  obtain ⟨-, heq⟩ := readInt_ok.1 hlen
  cases heq
  obtain ⟨n, p3, hn, h⟩ := Cursor.bind_ok.1 h
  obtain ⟨hin, heq⟩ := readInt_ok.1 hn
  cases heq
  split at h
  · exact nomatch h
  · split at h
    · exact nomatch h
    · obtain ⟨symbols, p4, hsymbols, h⟩ := Cursor.bind_ite_ok h
      obtain ⟨hpt', -⟩ : v.Between (p + 8) p4 :=
        (keeps_readInt.ite (Cursor.keeps_pure 0)) hsymbols ⟨by omega, hin⟩
      obtain ⟨nWords, p5, hnWords, h⟩ := Cursor.bind_ok.1 h
      obtain ⟨hin', heq⟩ := readInt_ok.1 hnWords
      cases heq
      split at h
      · exact nomatch h
      · split at h
        · exact nomatch h
        · obtain ⟨ws, p6, hws, h⟩ := Cursor.bind_ok.1 h
          obtain ⟨p7, p8, hget, h⟩ := Cursor.bind_ok.1 h
          cases hget
          obtain ⟨hvals, rfl⟩ := liftExcept_ok.1 h
          have hlength : vals.length ≤ (v.word (t + 4)).toInt.toNat := cdp1Decode_length_le hvals
          have hlt := BitVec.toInt_lt (x := v.word (t + 4))
          exact ⟨by omega, keeps_readWord.repeatRead _ hws ⟨by omega, hin'⟩⟩

theorem keeps_loadCdp1 (levels : Nat) : Cursor.Keeps (v.Between lo) (loadCdp1 v levels) := by
  induction levels generalizing lo with
  | zero => exact Cursor.keeps_raiseHere _
  | succ levels ih =>
    refine keeps_readU8.bind fun b => ?_
    cases cdp1CodecOf b with
    | none => exact Cursor.keeps_raiseHere _
    | some codec =>
      rintro p vals q h ⟨hlo, hin⟩
      obtain ⟨-, hpq, hq⟩ := cdp1Payload_result ih hin h
      exact ⟨by omega, hq⟩

/-- A CDP1 stream has at least 13 bytes, all below IN_LEN (R162). -/
theorem loadCdp1_result {levels p : Nat} {vals : List Word} {q : Nat} (h : loadCdp1 v (levels + 1) p = .ok (vals, q)) :
    vals.length < 2 ^ 31 ∧ v.Between (p + 13) q := by
  obtain ⟨id, p1, hid, h⟩ := Cursor.bind_ok.1 h
  obtain ⟨hin, heq⟩ := readU8_ok.1 hid
  cases heq
  cases hcodec : cdp1CodecOf (v.byte p) with
  | none => rw [hcodec] at h; exact nomatch h
  | some codec =>
    rw [hcodec] at h
    exact cdp1Payload_result (keeps_loadCdp1 levels) hin h

end

/-- The results of a stream command that ends without error, as numbers. -/
theorem streamResults_toNat (s : State) (a : SlotNo) {vals : List Word} {p : Nat} (hvals : vals.length < 2 ^ 31)
    (hp : p ≤ s.lInLen.toNat) :
    (((s.setSlot a vals).complete (u32 p) (u32 vals.length)).slot a).length = (u32 vals.length).toNat ∧
      (u32 p).toNat = p := by
  have hlen : s.lInLen.toNat < 2 ^ 32 := s.lInLen.isLt
  simp only [State.slot_complete, State.slot_setSlot, if_true, BitVec.toNat_ofNat]
  omega

/-- Settles O34: a command that sets DONE has loaded its stream, which has read its count and stayed below IN_LEN. -/
theorem streamResults : Obligations.StreamResults := by
  intro s t a hs
  constructor
  · intro hexec ht
    obtain ⟨vals, p, hload, rfl⟩ := streamCommand_done hexec hs ht
    obtain ⟨hword, hlt, hstart, hend⟩ := loadCdp2_result hload
    obtain ⟨hlength, hp⟩ := streamResults_toNat s a hlt hend
    exact ⟨hword.symm, hlength, hp.symm ▸ hstart, hp.symm ▸ hend⟩
  · intro hexec ht
    obtain ⟨vals, p, hload, rfl⟩ := streamCommand_done hexec hs ht
    obtain ⟨hlt, hstart, hend⟩ := loadCdp1_result hload
    obtain ⟨hlength, hp⟩ := streamResults_toNat s a hlt hend
    exact ⟨hlength, hp.symm ▸ hstart, hp.symm ▸ hend⟩

end Sys2Proof.Machine

/-! CDP1 streams from their fields, and the fields of a Mark 1 context table (42_streams.md R170 to R173, R180). -/

namespace Sys2Proof.Machine

/-! The codetext part (R170, R173, R174). -/

@[simp] theorem wordsAt_length (v : InView) (p n : Nat) : (wordsAt v p n).length = n := by simp [wordsAt]

/-- A sequence whose first half is one of two computations, and succeeds. -/
theorem Cursor.bind_ite_eq {α β : Type} {c : Prop} [Decidable c] {m m' : Cursor α} {f : α → Cursor β} {p q : Nat}
    {a : α} (h : (if c then m else m') p = .ok (a, q)) : (if c then m >>= f else m' >>= f) p = f a q := by
  split at h
  · next hc => rw [if_pos hc, Cursor.bind_eq h]
  · next hc => rw [if_neg hc, Cursor.bind_eq h]

/-- A symbolCount field is there exactly when the table has more than one context, and whatever it holds is passed
over (R173). -/
theorem readSymbolCount {v : InView} {t x contexts : Nat} (hx : x = if 1 < contexts then 4 else 0)
    (hin : t + x ≤ v.inLen) :
    ∃ symbols, (if 1 < contexts then readInt v else pure 0) t = .ok (symbols, t + x) := by
  subst hx
  split
  · next hc =>
    rw [if_pos hc] at hin
    exact ⟨_, readInt_ok.2 ⟨hin, rfl⟩⟩
  · exact ⟨0, rfl⟩

/-- A stream whose header reads and whose fields agree with each other gives what its codetext decodes to. -/
theorem cdp1Payload_of_fields {v : InView} {load : Cursor (List Word)} {codec : Cdp1Codec} {p t x len n : Nat}
    {ctxs : List (List CtxEntry)} {oob : List Word} (hheader : cdp1Header v load codec p = .ok ((ctxs, oob), t))
    (hx : x = if 1 < ctxs.length then 4 else 0) (hin : t + 12 + x + 4 * ceilDiv32 len ≤ v.inLen)
    (hlen : v.word t = u32 len) (hn : v.word (t + 4) = u32 n) (hnWords : v.word (t + 8 + x) = u32 (ceilDiv32 len))
    (hlen' : len < 2 ^ 31) (hn' : n < 2 ^ 31) (hcap : n ≤ v.slotCap) {vals : List Word}
    (hvals : cdp1Decode codec (wordsAt v (t + 12 + x) (ceilDiv32 len)) len n ctxs oob
      (t + 12 + x + 4 * ceilDiv32 len) = .ok vals) :
    cdp1Payload v load codec p = .ok (vals, t + 12 + x + 4 * ceilDiv32 len) := by
  have hwords : ceilDiv32 len < 2 ^ 31 := by
    unfold ceilDiv32
    omega
  obtain ⟨symbols, hsymbols⟩ := readSymbolCount (v := v) (t := t + 8) hx (by omega)
  have hend : t + 8 + x + 4 = t + 12 + x := by omega
  refine (Cursor.bind_ite_eq hheader).trans ?_
  refine (Cursor.bind_eq (readInt_of_word_eq (by omega) hlen hlen')).trans ?_
  refine (Cursor.bind_eq (readInt_of_word_eq (by omega) hn hn')).trans ?_
  rw [if_neg (by omega), Int.toNat_natCast, if_neg (by omega)]
  refine (Cursor.bind_ite_eq hsymbols).trans ?_
  refine (Cursor.bind_eq (readInt_of_word_eq (by omega) hnWords hwords)).trans ?_
  rw [if_neg (by omega), Int.toNat_natCast, Int.toNat_natCast, if_neg (not_not.2 rfl), hend,
    Cursor.bind_eq ((repeatRead_readWord_ok (by omega)).2 ⟨hin, rfl⟩), Cursor.bind_eq (Cursor.get_eq _)]
  exact liftExcept_ok.2 ⟨hvals, rfl⟩

/-- A CDP1 codec byte whose stream loads: the codec's instruction completes, and DEC_CDP1 does the same (log 6). -/
theorem exec_cdp1_of_payload {s : State} {a : SlotNo} {i : Instr} {codec : Cdp1Codec} {vals : List Word} {q : Nat}
    (ha : fieldA s.lcmd = a) (hin : s.larg0.toNat + 1 ≤ s.lInLen.toNat)
    (hi : decodeCdp1 (s.inView.byte s.larg0.toNat) = .ok i)
    (hcodec : cdp1CodecOf (s.inView.byte s.larg0.toNat) = some codec)
    (h : cdp1Payload s.inView (loadCdp1 s.inView (levelsAt 1)) codec (s.larg0.toNat + 1) = .ok (vals, q)) :
    exec i s = streamDone s a vals q ∧ exec (.decCdp1 a) s = exec i s := by
  obtain ⟨codec', hcodec', hexec⟩ := exec_of_decodeCdp1 hi
  obtain rfl : codec = codec' := Option.some.inj (hcodec.symm.trans hcodec')
  refine ⟨?_, (codecByteSelectsCodec s a i ha).2 hi⟩
  rw [hexec, ha]
  exact streamCommand_of_ok a ((Cursor.bind_eq (readU8_ok.2 ⟨hin, rfl⟩)).trans h)

/-- Settles O44: a codec with no table has its fields right after the codec byte. -/
theorem cdp1NullAndBitlengthComplete : Obligations.Cdp1NullAndBitlengthComplete := by
  intro s a n len ha hcap hn' hlen' hin hlen hn hnWords
  have hload {codec : Cdp1Codec} (hcodec : codec.hasTable = false) {vals : List Word}
      (hvals : cdp1Decode codec (wordsAt s.inView (s.larg0.toNat + 13) (ceilDiv32 len)) len n [] []
        (s.larg0.toNat + 13 + 4 * ceilDiv32 len) = .ok vals) :
      cdp1Payload s.inView (loadCdp1 s.inView (levelsAt 1)) codec (s.larg0.toNat + 1) =
        .ok (vals, s.larg0.toNat + 13 + 4 * ceilDiv32 len) := by
    have hheader : cdp1Header s.inView (loadCdp1 s.inView (levelsAt 1)) codec (s.larg0.toNat + 1) =
        .ok (([], []), s.larg0.toNat + 1) := by rw [cdp1Header, hcodec]; rfl
    exact cdp1Payload_of_fields (x := 0) hheader rfl hin hlen hn hnWords hlen' hn' hcap hvals
  constructor
  · rintro hid rfl
    have hwords : ceilDiv32 (32 * n) = n := by unfold ceilDiv32; omega
    have hvals : null1Decode (wordsAt s.inView (s.larg0.toNat + 13) n) (32 * n) n (s.larg0.toNat + 13 + 4 * n) =
        .ok (wordsAt s.inView (s.larg0.toNat + 13) n) := by
      rw [null1Decode, if_neg (not_not.2 rfl), List.take_of_length_le (by simp)]
    rw [hwords] at hload
    exact exec_cdp1_of_payload ha (by omega) (by rw [hid]; rfl) (by rw [hid]; rfl) (hload (codec := .null) rfl hvals)
  · intro vals hid hvals
    exact exec_cdp1_of_payload ha (by omega) (by rw [hid]; rfl) (by rw [hid]; rfl)
      (hload (codec := .bitlength1) rfl hvals)

end Sys2Proof.Machine

/-! Probability contexts and CDP1 context tables written to their layouts (42_streams.md R171, R172, R180, R181,
41_bitreader.md R146). -/

namespace Sys2Proof.Machine

/-! Computations that read back what bits were written for. -/

theorem BitSource.gives_append {src : BitSource} {k : Nat} {xs ys : List Bool} :
    src.Gives k (xs ++ ys) ↔ src.Gives k xs ∧ src.Gives (k + xs.length) ys := by
  induction xs generalizing k with
  | nil => simp [BitSource.Gives]
  | cons x xs ih =>
    rw [List.cons_append, BitSource.gives_cons, BitSource.gives_cons, ih, List.length_cons, Nat.add_right_comm,
      Nat.add_assoc k, and_assoc]

/-- Wherever the source gives `bits`, the computation `m` consumes exactly them and goes on as `m'`; with `pure a` for
`m'`, its result is `a`. -/
def BitSource.Passes {α : Type} (src : BitSource) (m : Cursor α) (bits : List Bool) (m' : Cursor α) : Prop :=
  ∀ ⦃k⦄, src.Gives k bits → m k = m' (k + bits.length)

section

variable {α β : Type} {src : BitSource}

theorem BitSource.Passes.refl (m : Cursor α) : src.Passes m [] m := fun _ _ => rfl

theorem BitSource.Passes.trans {m m' m'' : Cursor α} {xs ys : List Bool} (h : src.Passes m xs m')
    (h' : src.Passes m' ys m'') : src.Passes m (xs ++ ys) m'' := by
  intro k hk
  obtain ⟨hxs, hys⟩ := BitSource.gives_append.1 hk
  rw [h hxs, h' hys, List.length_append, Nat.add_assoc]

theorem BitSource.Passes.bind {m : Cursor α} {f : α → Cursor β} {m' : Cursor β} {xs ys : List Bool} {a : α}
    (hm : src.Passes m xs (pure a)) (hf : src.Passes (f a) ys m') : src.Passes (m >>= f) (xs ++ ys) m' :=
  BitSource.Passes.trans (m' := f a) (fun _ hk => Cursor.bind_eq (hm hk)) hf

/-- The last read of a computation. -/
theorem BitSource.Passes.bind_last {m : Cursor α} {f : α → Cursor β} {xs : List Bool} {a : α}
    (hm : src.Passes m xs (pure a)) : src.Passes (m >>= f) xs (f a) :=
  fun _ hk => Cursor.bind_eq (hm hk)

/-- Records written one after the other are read in order. -/
theorem BitSource.passes_repeatRead {γ : Type} {m : Cursor α} {enc : γ → List Bool} {val : γ → α} {items : List γ}
    (hm : ∀ x ∈ items, src.Passes m (enc x) (pure (val x))) :
    src.Passes (repeatRead m items.length) (items.flatMap enc) (pure (items.map val)) := by
  induction items with
  | nil => exact .refl _
  | cons x xs ih =>
    obtain ⟨hx, hxs⟩ := List.forall_mem_cons.1 hm
    exact hx.bind (ih hxs).bind_last

/-- A field of a legal width reads as its number; a field of no bits is 0 (R144). -/
theorem BitSource.passes_readU32Or0 {n x : Nat} (hn : n ≤ 32) (hx : x < 2 ^ n) :
    src.Passes (readU32Or0 src n) (msbBits n x) (pure x) := by
  intro k h
  rw [msbBits_length]
  by_cases hzero : n = 0
  · subst hzero
    rw [Nat.lt_one_iff.1 hx]
    rfl
  · rw [readU32Or0, if_neg hzero, readU32_of_gives (by omega) hn hx h, Cursor.pure_eq]

theorem BitSource.passes_readI32Or0 {n x : Nat} (hn : 1 ≤ n) (hn' : n ≤ 32) (hx : x < 2 ^ n) :
    src.Passes (readI32Or0 src n) (msbBits n x) (pure (sext n x)) := by
  intro k h
  rw [msbBits_length, readI32Or0, if_neg (by omega), readI32, Cursor.bind_eq (readU32_of_gives hn hn' hx h)]

end

/-! Contexts (R180, R181). -/

/-- The layouts of the two marks differ in the widths of the count and of the next-context width (R180). -/
def ctxLayout (w0 w4 : Nat) : CtxLayout := { w0 := w0, w1 := 6, w2 := 6, w3 := 6, w4 := w4, w5 := 32 }

theorem mark1_eq : mark1 = ctxLayout 32 6 := rfl

theorem mark2_eq : mark2 = ctxLayout 16 0 := rfl

/-- What follows a context's header: the checks of its count and widths, then its entries. -/
def contextBody (src : BitSource) (cnt sb ob vb nb : Nat) (minV : Int) : Cursor (List CtxEntry) :=
  if cnt < 1 ∨ Config.maxCtxEntries < cnt then src.raise .ctx
  else if 32 < sb ∨ 32 < ob ∨ 32 < vb ∨ 32 < nb then src.raise .ctx
  else repeatRead (readCtxEntry src sb ob vb nb minV) cnt

section

variable {src : BitSource} {w0 w4 : Nat}

theorem passes_contextHeader {cnt sb ob vb nb minV : Nat} (hw0 : w0 ≤ 32) (hw4 : w4 ≤ 32) (hcnt : cnt < 2 ^ w0)
    (hsb : sb < 64) (hob : ob < 64) (hvb : vb < 64) (hnb : nb < 2 ^ w4) (hminV : minV < 2 ^ 32) :
    src.Passes (readContext (ctxLayout w0 w4) src) (contextHeader w0 w4 cnt sb ob vb nb minV)
      (contextBody src cnt sb ob vb nb (sext 32 minV)) := by
  have hwidth {x : Nat} (hx : x < 64) : src.Passes (readU32Or0 src 6) (msbBits 6 x) (pure x) :=
    BitSource.passes_readU32Or0 (by decide) hx
  simp only [contextHeader, List.append_assoc]
  exact (BitSource.passes_readU32Or0 hw0 hcnt).bind <| (hwidth hsb).bind <| (hwidth hob).bind <| (hwidth hvb).bind <|
    (BitSource.passes_readU32Or0 hw4 hnb).bind <|
      (BitSource.passes_readI32Or0 (by decide) (by decide) hminV).bind_last

/-- A header with an illegal count or width is E_CTX just past it (R181). -/
theorem readContext_of_badHeader {cnt sb ob vb nb minV k : Nat} (hw0 : w0 ≤ 32) (hw4 : w4 ≤ 32) (hcnt : cnt < 2 ^ w0)
    (hsb : sb < 64) (hob : ob < 64) (hvb : vb < 64) (hnb : nb < 2 ^ w4) (hminV : minV < 2 ^ 32)
    (hbad : cnt = 0 ∨ 65535 < cnt ∨ 32 < sb ∨ 32 < ob ∨ 32 < vb ∨ 32 < nb)
    (h : src.Gives k (contextHeader w0 w4 cnt sb ob vb nb minV)) :
    readContext (ctxLayout w0 w4) src k = .error { code := .ctx, info := src.pos (k + (w0 + w4 + 50)) } := by
  rw [passes_contextHeader hw0 hw4 hcnt hsb hob hvb hnb hminV h, contextHeader_length, contextBody,
    Config.maxCtxEntries]
  split
  · rfl
  · rw [if_pos (by omega), BitSource.raise_eq]

/-- An entry whose fields fit their widths reads as the entry they stand for. -/
theorem passes_readCtxEntry {c : ContextFields} (hc : c.Fits) {minV : Int} {e : EntryFields} (he : e ∈ c.entries) :
    src.Passes (readCtxEntry src c.sb c.ob c.vb c.nb minV)
      (msbBits c.sb e.sym ++ msbBits c.ob e.occ ++ msbBits c.vb e.val ++ msbBits c.nb e.next)
      (pure { symbol := (e.sym : Int) - 2, occ := e.occ, val := wrap32 (e.val + minV), next := e.next }) := by
  obtain ⟨hsb, hob, hvb, hnb, -, -, -, hentries⟩ := hc
  obtain ⟨hsym, hocc, hval, hnext⟩ := hentries e he
  simp only [List.append_assoc]
  exact (BitSource.passes_readU32Or0 hsb hsym).bind <| (BitSource.passes_readU32Or0 hob hocc).bind <|
    (BitSource.passes_readU32Or0 hvb hval).bind (BitSource.passes_readU32Or0 hnb hnext).bind_last

/-- A context that fits the layout of either mark reads as its entries. -/
theorem passes_readContext {c : ContextFields} (hc : c.Fits) (hw0 : w0 ≤ 32) (hw4 : w4 ≤ 32)
    (hcnt : c.entries.length < 2 ^ w0) (hnb : c.nb < 2 ^ w4) :
    src.Passes (readContext (ctxLayout w0 w4) src) (c.bits w0 w4) (pure c.entriesRead) := by
  have hentries := BitSource.passes_repeatRead (src := src) (items := c.entries) fun e he =>
    passes_readCtxEntry hc (minV := sext 32 c.minV) he
  obtain ⟨hsb, hob, hvb, hnb32, hminV, hpos, hmax, -⟩ := hc
  refine (passes_contextHeader hw0 hw4 hcnt (by omega) (by omega) (by omega) hnb hminV).trans ?_
  rw [contextBody, if_neg (by unfold Config.maxCtxEntries; omega), if_neg (by omega)]
  exact hentries

end

/-! Context readers (41_bitreader.md R146). -/

section

variable {α : Type} {v : InView} {m : BitSource → Cursor α} {q : Nat} {bits : List Bool}

theorem contextSource_gives_of_holdsAt (hin : q + 4 * ceilDiv32 bits.length ≤ v.inLen) (h : HoldsAt v q bits) :
    (contextSource v q).Gives 0 bits :=
  contextSource_gives (by simpa [ceilDiv32] using hin) (by simpa [HoldsAt] using h)

/-- A context reader that has read all that was written leaves the cursor past the last word used. -/
theorem withContextReader_of_passes {a : α} (hm : (contextSource v q).Passes (m (contextSource v q)) bits (pure a))
    (hin : q + 4 * ceilDiv32 bits.length ≤ v.inLen) (h : HoldsAt v q bits) :
    withContextReader v m q = .ok (a, q + 4 * ceilDiv32 bits.length) := by
  have hread := hm (contextSource_gives_of_holdsAt hin h)
  rw [Cursor.pure_eq, Nat.zero_add] at hread
  simp only [withContextReader, hread, contextPos]

/-- A context reader fails as its reads do. -/
theorem withContextReader_eq_error {e : Err} (h : m (contextSource v q) 0 = .error e) :
    withContextReader v m q = .error e := by
  simp only [withContextReader, h]

end

/-! CDP1 context tables (R170 to R172). -/

section

variable {v : InView} {load : Cursor (List Word)} {p : Nat}

/-- A table of no contexts is E_CTX. -/
theorem cdp1Table_eq_ctx (hin : p + 1 ≤ v.inLen) (h : v.byte p = 0) :
    cdp1Table v load p = .error { code := .ctx, info := p + 1 } := by
  rw [cdp1Table, Cursor.bind_eq (readU8_ok.2 ⟨hin, rfl⟩), if_pos (by rw [h]; decide), raiseHere_eq]

/-- The table fails as its contexts do. -/
theorem cdp1Table_of_contexts_error {e : Err} (hin : p + 1 ≤ v.inLen) (hpos : v.byte p ≠ 0)
    (h : withContextReader v (fun src => repeatRead (readContext mark1 src) (v.byte p).toNat) (p + 1) = .error e) :
    cdp1Table v load p = .error e := by
  have hcount : (v.byte p).toNat ≠ 0 := BitVec.toNat_ne.1 hpos
  rw [cdp1Table, Cursor.bind_eq (readU8_ok.2 ⟨hin, rfl⟩), if_neg (by omega), Cursor.bind_eq_error h]

/-- The OOB part after the contexts: its count, and as many values (R172). -/
theorem cdp1Table_of_contexts {ctxs : List (List CtxEntry)} {q : Nat} (hin : p + 1 ≤ v.inLen) (hpos : v.byte p ≠ 0)
    (h : withContextReader v (fun src => repeatRead (readContext mark1 src) (v.byte p).toNat) (p + 1) = .ok (ctxs, q))
    (hin' : q + 4 ≤ v.inLen) :
    ((v.word q).toInt < 0 → cdp1Table v load p = .error { code := .range, info := q + 4 }) ∧
      (v.word q = 0 → cdp1Table v load p = .ok ((ctxs, []), q + 4)) ∧
      (0 < (v.word q).toInt → ∀ oob r, load (q + 4) = .ok (oob, r) → cdp1Table v load p =
        if oob.length = (v.word q).toNat then .ok ((ctxs, oob), r) else .error { code := .count, info := r }) := by
  have hcount : (v.byte p).toNat ≠ 0 := BitVec.toNat_ne.1 hpos
  rw [cdp1Table, Cursor.bind_eq (readU8_ok.2 ⟨hin, rfl⟩), if_neg (by omega), Cursor.bind_eq h,
    Cursor.bind_eq (readInt_ok.2 ⟨hin', rfl⟩)]
  refine ⟨fun hneg => ?negative, fun hzero => ?zero, fun hpos oob r hload => ?positive⟩
  case negative => rw [if_pos hneg, raiseHere_eq]
  case zero =>
    rw [hzero]
    rfl
  case positive =>
    obtain ⟨n, hn⟩ := Int.eq_ofNat_of_zero_le hpos.le
    obtain ⟨hword, hlt⟩ := toInt_eq_natCast.1 hn
    have hnat : (v.word q).toNat = n := by rw [hword]; exact Nat.mod_eq_of_lt (by omega)
    rw [if_neg (by omega), hnat, hn]
    refine (Cursor.bind_ite_eq (by rw [if_pos (by omega)]; exact hload)).trans ?_
    by_cases hlen : oob.length = n
    · rw [if_pos hlen]
      exact congrFun (if_neg (by omega)) r
    · rw [if_neg hlen]
      exact congrFun (if_pos (by omega)) r

end

/-- Settles O46: the fields after the table give the codetext part; contexts written to the Mark 1 layout are read back
one after the other, and an illegal header stops the first of them. -/
theorem cdp1TableCodecsComplete : Obligations.Cdp1TableCodecsComplete := by
  refine ⟨fun s a n len q x ctxs oob vals ha hcap hn' hlen' hin0 htable hx hin hlen hn hnWords => ?complete,
    fun v load p hin => ⟨cdp1Table_eq_ctx hin, fun cs q hpos hbyte hlt hfits hq hin' hbits => ?contexts,
      fun cnt sb ob vb nb minV hbyte hcnt hsb hob hvb hnb hminV hbad hin' hbits => ?badHeader⟩⟩
  case complete =>
    have hload {codec : Cdp1Codec} (hcodec : codec.hasTable = true)
        (hvals : cdp1Decode codec (wordsAt s.inView (q + 12 + x) (ceilDiv32 len)) len n ctxs oob
          (q + 12 + x + 4 * ceilDiv32 len) = .ok vals) :
        cdp1Payload s.inView (loadCdp1 s.inView (levelsAt 1)) codec (s.larg0.toNat + 1) =
          .ok (vals, q + 12 + x + 4 * ceilDiv32 len) := by
      have hheader : cdp1Header s.inView (loadCdp1 s.inView (levelsAt 1)) codec (s.larg0.toNat + 1) =
          .ok ((ctxs, oob), q) := by rw [cdp1Header, if_pos hcodec, htable]
      exact cdp1Payload_of_fields hheader hx hin hlen hn hnWords hlen' hn' hcap hvals
    exact ⟨fun hid hvals => exec_cdp1_of_payload ha hin0 (by rw [hid]; rfl) (by rw [hid]; rfl)
        (hload (codec := .huffman) rfl hvals),
      fun hid hvals => exec_cdp1_of_payload ha hin0 (by rw [hid]; rfl) (by rw [hid]; rfl)
        (hload (codec := .arithmetic) rfl hvals)⟩
  case contexts =>
    subst hq
    have hcount : (v.byte p).toNat = cs.length := by rw [hbyte]; exact Nat.mod_eq_of_lt hlt
    have hread (src : BitSource) : src.Passes (repeatRead (readContext mark1 src) (v.byte p).toNat)
        (cs.flatMap (ContextFields.bits 32 6)) (pure (cs.map ContextFields.entriesRead)) := by
      rw [hcount, mark1_eq]
      refine BitSource.passes_repeatRead fun c hc => ?_
      obtain ⟨-, -, -, hnb, -, -, hmax, -⟩ := hfits c hc
      exact passes_readContext (hfits c hc) (by decide) (by decide) (by omega) (by omega)
    refine cdp1Table_of_contexts hin (fun h0 => ?_) (withContextReader_of_passes (hread _) (by omega) hbits) hin'
    rw [h0] at hcount
    exact hpos.ne hcount
  case badHeader =>
    obtain ⟨rest, hrest⟩ : ∃ rest, (v.byte p).toNat = rest + 1 :=
      Nat.exists_eq_succ_of_ne_zero (BitVec.toNat_ne.1 hbyte)
    have hwords : ceilDiv32 (contextHeader 32 6 cnt sb ob vb nb minV).length = 3 := by rw [contextHeader_length]; rfl
    refine cdp1Table_of_contexts_error hin hbyte (withContextReader_eq_error ?_)
    rw [hrest]
    exact Cursor.bind_eq_error (readContext_of_badHeader (by decide) (by decide) hcnt hsb hob hvb hnb hminV hbad
      (contextSource_gives_of_holdsAt (by omega) hbits))

end Sys2Proof.Machine

/-! CDP2 streams from their fields, for each of the four codecs (42_streams.md R163, 43_codecs.md R200 to R246). -/

namespace Sys2Proof.Machine

/-- A CDP1 codec on a codetext of the declared words gives exactly the declared number of values (R200). -/
theorem cdp1Decode_length {codec : Cdp1Codec} {ws : List Word} {len n : Nat} {ctxs : List (List CtxEntry)}
    {oobVals : List Word} {p : Nat} {xs : List Word} (hws : ws.length = ceilDiv32 len)
    (h : cdp1Decode codec ws len n ctxs oobVals p = .ok xs) : xs.length = n := by
  cases codec with
  | null =>
    simp only [cdp1Decode, null1Decode] at h
    split at h
    · exact nomatch h
    · next hlen =>
      cases h
      unfold ceilDiv32 at hws
      exact List.length_take_of_le (by omega)
  | bitlength1 => exact bitlength1Decode_length h
  | huffman => exact huffmanDecode_length h
  | arithmetic => exact arithDecode_length h

/-- Settles O35: each codec by the lemma on its own loop. -/
theorem codecsReturnExactlyN : Obligations.CodecsReturnExactlyN :=
  ⟨fun _ _ _ _ _ _ _ => cdp2Payload_length, fun _ _ _ _ _ _ _ _ => cdp1Decode_length⟩

/-- A stream with a count and a codec byte: the byte's instruction runs the codec on what follows, and DEC_CDP2 does
the same (R163, log 6). -/
theorem exec_cdp2_of_count {s : State} {a : SlotNo} {n : Nat} {i : Instr} {codec : Cdp2Codec} (ha : fieldA s.lcmd = a)
    (hn : 0 < n) (hcap : n ≤ s.params.slotCap) (hlt : n < 2 ^ 31) (hin : s.larg0.toNat + 5 ≤ s.lInLen.toNat)
    (hword : s.inView.word s.larg0.toNat = u32 n) (hi : decodeCdp2 (s.inView.byte (s.larg0.toNat + 4)) = .ok i)
    (hcodec : cdp2CodecOf (s.inView.byte (s.larg0.toNat + 4)) = some codec) :
    exec i s = streamCommand s a
        (fun _ => cdp2Payload s.inView (loadCdp2 s.inView (levelsAt 1)) n codec (s.larg0.toNat + 5)) ∧
      exec (.decCdp2 a) s = exec i s := by
  obtain ⟨codec', hcodec', hexec⟩ := exec_of_decodeCdp2 hi
  obtain rfl : codec = codec' := Option.some.inj (hcodec.symm.trans hcodec')
  refine ⟨?_, (codecByteSelectsCodec s a i ha).1 hi⟩
  have hcount : cdp2Count s.inView s.larg0.toNat = .ok (n, s.larg0.toNat + 4) :=
    cdp2Count_ok.2 ⟨Nat.le_of_succ_le hin, hword, hlt, hcap, rfl⟩
  rw [hexec, ha]
  refine streamCommand_congr a ?_
  rw [loadCdp2As, Cursor.bind_eq hcount, if_neg hn.ne', Cursor.bind_eq (readU8_ok.2 ⟨hin, rfl⟩)]

/-! Null (R201). -/

section

variable {v : InView} {n p : Nat}

/-- A run of words fails at the first word that is not below IN_LEN. -/
theorem repeatRead_readWord_eq_error {k : Nat} (hk : k < n) (hin : p + 4 * k ≤ v.inLen)
    (hmissing : v.inLen < p + 4 * (k + 1)) :
    repeatRead (readWord v) n p = .error { code := .trunc, info := p + 4 * k } := by
  induction k generalizing n p with
  | zero =>
    obtain ⟨m, rfl⟩ := Nat.exists_eq_add_of_le' hk
    exact Cursor.bind_eq_error (readWord_error.2 ⟨hmissing, rfl⟩)
  | succ k ih =>
    obtain ⟨m, rfl⟩ := Nat.exists_eq_add_of_le' (Nat.zero_lt_of_lt hk)
    have hstart : p + 4 * (k + 1) = p + 4 + 4 * k := by omega
    rw [hstart]
    exact (Cursor.bind_eq (readWord_ok.2 ⟨by omega, rfl⟩)).trans
      (Cursor.bind_eq_error (ih (by omega) (by omega) (by omega)))

theorem null2Load_eq_trunc (h : v.inLen < p + 4) : null2Load v n p = .error { code := .trunc, info := p } :=
  Cursor.bind_eq_error (readInt_eq_error h)

theorem null2Load_eq_range (hin : p + 4 ≤ v.inLen) (hneg : (v.word p).toInt < 0) :
    null2Load v n p = .error { code := .range, info := p + 4 } := by
  rw [null2Load, Cursor.bind_eq (readInt_ok.2 ⟨hin, rfl⟩), if_pos hneg, raiseHere_eq]

theorem null2Load_eq_count (hin : p + 4 ≤ v.inLen) (hnonneg : 0 ≤ (v.word p).toInt) (hne : v.word p ≠ u32 n) :
    null2Load v n p = .error { code := .count, info := p + 4 } := by
  have hdiffers : (v.word p).toInt ≠ n := fun h => hne (toInt_eq_natCast.1 h).1
  rw [null2Load, Cursor.bind_eq (readInt_ok.2 ⟨hin, rfl⟩), if_neg (by omega), if_pos hdiffers, raiseHere_eq]

/-- With the right length field the words follow. -/
theorem null2Load_eq_words (hin : p + 4 ≤ v.inLen) (hlen : v.word p = u32 n) (hn : n < 2 ^ 31) :
    null2Load v n p = repeatRead (readWord v) n (p + 4) := by
  rw [null2Load, Cursor.bind_eq (readInt_of_word_eq hin hlen hn), if_neg (by omega), if_neg (not_not.2 rfl)]

end

/-- Settles O36: the length field, then the words, each checked against IN_LEN before it is read. -/
theorem cdp2NullCompletes : Obligations.Cdp2NullCompletes := by
  intro s a n ha hn hcap hlt hin hword hid
  obtain ⟨hexec, hdec⟩ := exec_cdp2_of_count (i := .cdp2Null) (codec := .null) ha hn hcap hlt hin hword
    (by rw [hid]; rfl) (by rw [hid]; rfl)
  have fails {c : ErrCode} {q : Nat} (h : null2Load s.inView n (s.larg0.toNat + 5) = .error { code := c, info := q }) :
      exec .cdp2Null s = .next ((s.setSlot a []).recordError c (u32 q)) := hexec.trans (streamCommand_of_error a h)
  refine ⟨fun htrunc => fails (null2Load_eq_trunc htrunc), fun hin' hneg => fails (null2Load_eq_range hin' hneg),
    fun hin' hnonneg hne => fails (null2Load_eq_count hin' hnonneg hne),
    fun hin' hlen => ⟨fun k hk hpresent hmissing => ?missingWord, fun hwords => ?complete⟩⟩
  case missingWord =>
    exact fails ((null2Load_eq_words hin' hlen hlt).trans (repeatRead_readWord_eq_error hk hpresent hmissing))
  case complete =>
    refine ⟨?_, hdec⟩
    have hload := (null2Load_eq_words hin' hlen hlt).trans ((repeatRead_readWord_ok hin').2 ⟨hwords, rfl⟩)
    rw [hexec, streamCommand_of_ok a hload, streamDone, wordsAt_length]

/-! Codetexts: Bitlength2 (R210) and Arithmetic (R230). -/

section

variable {v : InView} {len n p : Nat}

/-- A codetext that lies below IN_LEN is decoded, with the cursor just past its words. -/
theorem bitlength2Load_of_words (hlen : v.word p = u32 len) (hlt : len < 2 ^ 31)
    (hin : p + 4 + 4 * ceilDiv32 len ≤ v.inLen) :
    bitlength2Load v n p =
      liftExcept (bitlength2Decode (wordsAt v (p + 4) (ceilDiv32 len)) len n (p + 4 + 4 * ceilDiv32 len))
        (p + 4 + 4 * ceilDiv32 len) := by
  rw [bitlength2Load, Cursor.bind_eq (readInt_of_word_eq (by omega) hlen hlt), if_neg (by omega), Int.toNat_natCast,
    Cursor.bind_eq ((repeatRead_readWord_ok (by omega)).2 ⟨hin, rfl⟩), Cursor.bind_eq (Cursor.get_eq _)]

/-- A codetext, a context and an OOB stream that load are decoded, with the cursor just past the OOB stream. -/
theorem arith2Load_of_parts {load : Cursor (List Word)} {ctx : List CtxEntry} {oob : List Word} {q r : Nat}
    (hlen : v.word p = u32 len) (hlt : len < 2 ^ 31) (hin : p + 4 + 4 * ceilDiv32 len ≤ v.inLen)
    (hctx : withContextReader v (readContext mark2) (p + 4 + 4 * ceilDiv32 len) = .ok (ctx, q))
    (hload : load q = .ok (oob, r)) :
    arith2Load v n load p =
      liftExcept (arithDecode (wordsAt v (p + 4) (ceilDiv32 len)) len n [ctx] oob r) r := by
  rw [arith2Load, Cursor.bind_eq (readInt_of_word_eq (by omega) hlen hlt), if_neg (by omega), Int.toNat_natCast,
    Cursor.bind_eq ((repeatRead_readWord_ok (by omega)).2 ⟨hin, rfl⟩), Cursor.bind_eq hctx, Cursor.bind_eq hload,
    Cursor.bind_eq (Cursor.get_eq _)]

end

/-- Settles O37: the loader hands the codetext to the decoder and keeps what it gives. -/
theorem cdp2Bitlength2Completes : Obligations.Cdp2Bitlength2Completes := by
  intro s a n len ha hn hcap hlt hlen hin hword hid hlenWord
  obtain ⟨hexec, hdec⟩ := exec_cdp2_of_count (i := .cdp2Bitlength2) (codec := .bitlength2) ha hn hcap hlt (by omega)
    hword (by rw [hid]; rfl) (by rw [hid]; rfl)
  have hload := bitlength2Load_of_words (n := n) hlenWord hlen hin
  refine ⟨hdec, fun vals hvals => hexec.trans (streamCommand_of_ok a ?_),
    fun e he => hexec.trans (streamCommand_of_error a ?_)⟩
  · exact hload.trans (liftExcept_ok.2 ⟨hvals, rfl⟩)
  · exact hload.trans (liftExcept_error.2 he)

/-! Chopper (R245). -/

section

variable {v : InView} {n p : Nat} {load : Cursor (List Word)} {msb : List Word} {q : Nat}

/-- A chop byte of 0 passes the one child on. -/
theorem chopperLoad_of_chop_zero (hin : p + 1 ≤ v.inLen) (hchop : v.byte p = 0) (hmsb : load (p + 1) = .ok (msb, q))
    (hlength : msb.length = n) : chopperLoad v n load p = .ok (msb, q) := by
  rw [chopperLoad, Cursor.bind_eq (readU8_ok.2 ⟨hin, rfl⟩), if_pos hchop, Cursor.bind_eq hmsb,
    if_neg (not_not.2 hlength), Cursor.pure_eq]

/-- Two children of the declared length are recombined value by value. -/
theorem chopperLoad_of_children {lsb : List Word} {r : Nat} (hin : p + 6 ≤ v.inLen) (hchop : v.byte p ≠ 0)
    (hle : v.byte p ≤ v.byte (p + 5)) (hspan : (v.byte (p + 5)).toNat - (v.byte p).toNat ≤ 31)
    (hmsb : load (p + 6) = .ok (msb, q)) (hlsb : load q = .ok (lsb, r)) (hlength : msb.length = n)
    (hlength' : lsb.length = n) :
    chopperLoad v n load p =
      .ok (List.zipWith (chopperValue ((v.byte (p + 5)).toNat - (v.byte p).toNat) (v.word (p + 1)).toInt) msb lsb,
        r) := by
  have hlegal : ¬ ((v.byte (p + 5)).toNat < (v.byte p).toNat ∨ 31 < (v.byte (p + 5)).toNat - (v.byte p).toNat) :=
    not_or.2 ⟨not_lt.2 (BitVec.le_def.1 hle), not_lt.2 hspan⟩
  rw [chopperLoad, Cursor.bind_eq (readU8_ok.2 ⟨by omega, rfl⟩), if_neg hchop,
    Cursor.bind_eq (readInt_ok.2 ⟨by omega, rfl⟩), Cursor.bind_eq (readU8_ok.2 ⟨by omega, rfl⟩), if_neg hlegal,
    Cursor.bind_eq hmsb, Cursor.bind_eq hlsb, if_neg (by omega), Cursor.pure_eq]

end

/-- Settles O43: the children in order, each of the declared length. -/
theorem cdp2ChopperCompletes : Obligations.Cdp2ChopperCompletes := by
  intro s a n q r msb lsb ha hn hcap hlt hword hid hmsbLength
  have completes {vals : List Word} {r : Nat} (hin : s.larg0.toNat + 5 ≤ s.lInLen.toNat)
      (h : chopperLoad s.inView n (loadCdp2 s.inView (levelsAt 1)) (s.larg0.toNat + 5) = .ok (vals, r)) :
      exec .cdp2Chopper s = streamDone s a vals r ∧ exec (.decCdp2 a) s = streamDone s a vals r := by
    obtain ⟨hexec, hdec⟩ := exec_cdp2_of_count (i := .cdp2Chopper) (codec := .chopper) ha hn hcap hlt hin hword
      (by rw [hid]; rfl) (by rw [hid]; rfl)
    have hdone := hexec.trans (streamCommand_of_ok a h)
    exact ⟨hdone, hdec.trans hdone⟩
  refine ⟨fun hin hchop hmsb => ?passedOn, fun hin hchop hle hspan hlsbLength hmsb hlsb => ?recombined⟩
  case passedOn => exact completes (by omega) (chopperLoad_of_chop_zero hin hchop hmsb hmsbLength)
  case recombined =>
    obtain ⟨hexec, hdec⟩ := completes (by omega)
      (chopperLoad_of_children hin hchop hle hspan hmsb hlsb hmsbLength hlsbLength)
    refine ⟨_, hexec, hdec, by simp [hmsbLength, hlsbLength], fun i hi => ?_⟩
    simp [List.getD, hmsbLength, hlsbLength, hi, chopperValue]

end Sys2Proof.Machine

/-! Bit sources that end, and the Mark 2 context of CDP2 Arithmetic (41_bitreader.md R146, 42_streams.md R180, R181). -/

namespace Sys2Proof.Machine

/-- The source has the bits up to place `b`, and reading there raises `e`. -/
def BitSource.EndsAt (src : BitSource) (b : Nat) (e : Err) : Prop :=
  (∀ k, k < b → ∃ x, src.bit k = .ok (x, k + 1)) ∧ src.bit b = .error e

/-- From every place up to `b`, `m` consumes exactly `n` bits if they end by `b`. -/
def Cursor.Takes {α : Type} (b n : Nat) (m : Cursor α) : Prop := ∀ k, k + n ≤ b → ∃ a, m k = .ok (a, k + n)

/-- From every place up to `b`, `m` raises `e` if its next `n` bits go past `b`. -/
def Cursor.FailsPast {α : Type} (b : Nat) (e : Err) (n : Nat) (m : Cursor α) : Prop :=
  ∀ k, k ≤ b → b < k + n → m k = .error e

section

variable {α β : Type} {src : BitSource} {b n : Nat} {e : Err}

theorem Cursor.failsPast_zero (m : Cursor α) : Cursor.FailsPast b e 0 m := fun _ hk hlt => absurd hk (by omega)

theorem Cursor.Takes.bind_failsPast {m : Cursor α} {f : α → Cursor β} {n' : Nat} (ht : Cursor.Takes b n m)
    (hm : Cursor.FailsPast b e n m) (hf : ∀ a, Cursor.FailsPast b e n' (f a)) :
    Cursor.FailsPast b e (n + n') (m >>= f) := by
  intro k hk hlt
  by_cases hin : k + n ≤ b
  · obtain ⟨a, ha⟩ := ht k hin
    exact (Cursor.bind_eq ha).trans (hf a _ hin (by omega))
  · exact Cursor.bind_eq_error (hm k hk (by omega))

theorem takes_readBits (hsrc : ∀ k, k < b → ∃ x, src.bit k = .ok (x, k + 1)) (acc : Nat) :
    Cursor.Takes b n (readBits src n acc) := by
  induction n generalizing acc with
  | zero => exact fun k _ => ⟨acc, rfl⟩
  | succ n ih =>
    intro k hk
    obtain ⟨x, hx⟩ := hsrc k (by omega)
    obtain ⟨a, ha⟩ := ih (2 * acc + x.toNat) (k + 1) (by omega)
    exact ⟨a, (Cursor.bind_eq hx).trans (by rw [ha, Nat.add_assoc, Nat.add_comm 1])⟩

theorem failsPast_readBits (hsrc : src.EndsAt b e) (acc : Nat) : Cursor.FailsPast b e n (readBits src n acc) := by
  induction n generalizing acc with
  | zero => exact Cursor.failsPast_zero _
  | succ n ih =>
    intro k hk hlt
    rcases hk.lt_or_eq with hk | rfl
    · obtain ⟨x, hx⟩ := hsrc.1 k hk
      exact (Cursor.bind_eq hx).trans (ih _ (k + 1) hk (by omega))
    · exact Cursor.bind_eq_error hsrc.2

theorem readU32Or0_eq_readBits (hn : n ≤ 32) : readU32Or0 src n = readBits src n 0 := by
  by_cases hzero : n = 0
  · subst hzero
    rfl
  · rw [readU32Or0, if_neg hzero, readU32_eq_readBits (by omega) hn]

/-- A field, and what follows it. -/
theorem failsPast_readU32Or0_bind (hsrc : src.EndsAt b e) (hn : n ≤ 32) {f : Nat → Cursor β} {n' : Nat}
    (hf : ∀ a, Cursor.FailsPast b e n' (f a)) : Cursor.FailsPast b e (n + n') (readU32Or0 src n >>= f) := by
  rw [readU32Or0_eq_readBits hn]
  exact (takes_readBits hsrc.1 0).bind_failsPast (failsPast_readBits hsrc 0) hf

theorem failsPast_readI32Or0 (hsrc : src.EndsAt b e) (hn : 1 ≤ n) (hn' : n ≤ 32) :
    Cursor.FailsPast b e n (readI32Or0 src n) := by
  rw [readI32Or0, if_neg (by omega), readI32, readU32_eq_readBits hn hn']
  exact (takes_readBits hsrc.1 0).bind_failsPast (n' := 0) (failsPast_readBits hsrc 0) fun _ => Cursor.failsPast_zero _

/-- A context fails where the source ends inside its header. -/
theorem failsPast_readContext {w0 w4 : Nat} (hsrc : src.EndsAt b e) (hw0 : w0 ≤ 32) (hw4 : w4 ≤ 32) :
    Cursor.FailsPast b e (w0 + (6 + (6 + (6 + (w4 + 32))))) (readContext (ctxLayout w0 w4) src) :=
  failsPast_readU32Or0_bind hsrc hw0 fun _ => failsPast_readU32Or0_bind hsrc (by decide) fun _ =>
    failsPast_readU32Or0_bind hsrc (by decide) fun _ => failsPast_readU32Or0_bind hsrc (by decide) fun _ =>
      failsPast_readU32Or0_bind hsrc hw4 fun _ k hk hlt =>
        Cursor.bind_eq_error (failsPast_readI32Or0 (n := 32) hsrc (by decide) le_rfl k hk hlt)

/-- A context reader ends with the last word that lies below IN_LEN. -/
theorem contextSource_endsAt {v : InView} {q i : Nat} (hin : q + 4 * i ≤ v.inLen) (hmissing : v.inLen < q + 4 * i + 4) :
    (contextSource v q).EndsAt (32 * i) { code := .trunc, info := q + 4 * i } := by
  have hword : 32 * i / 32 = i := Nat.mul_div_cancel_left i (by decide)
  refine ⟨fun k hk => ⟨_, if_neg (by omega)⟩, ?_⟩
  exact (contextBit_eq_error (by omega)).trans (by rw [hword])

end

/-- Settles O39: the parts of the stream in order; a Mark 2 context written to its layout is read back, an illegal
header stops it, and so does the first header word that is not there. -/
theorem cdp2ArithmeticCompletes : Obligations.Cdp2ArithmeticCompletes := by
  refine ⟨fun s a n len q r ctx oob vals ha hn hcap hlt hlen hin hword hid hlenWord hctx hload hvals => ?complete,
    fun v q => ⟨fun c hc hnb hin hbits => ?context,
      fun cnt sb ob vb minV hcnt hsb hob hvb hminV hbad hin hbits => ?badHeader,
      fun i hi hin hmissing => ?missingWord⟩⟩
  case complete =>
    obtain ⟨hexec, hdec⟩ := exec_cdp2_of_count (i := .cdp2Arithmetic) (codec := .arithmetic) ha hn hcap hlt
      (by omega) hword (by rw [hid]; rfl) (by rw [hid]; rfl)
    have hparts := arith2Load_of_parts (n := n) hlenWord hlen hin hctx hload
    have hdone := hexec.trans (streamCommand_of_ok a (hparts.trans (liftExcept_ok.2 ⟨hvals, rfl⟩)))
    exact ⟨hdone, hdec.trans hdone⟩
  case context =>
    have ⟨_, _, _, _, _, _, hmax, _⟩ := hc
    rw [mark2_eq]
    exact withContextReader_of_passes (passes_readContext hc (by decide) (by decide) (by omega) (by simp [hnb])) hin
      hbits
  case badHeader =>
    have hwords : ceilDiv32 (contextHeader 16 0 cnt sb ob vb 0 minV).length = 3 := by rw [contextHeader_length]; rfl
    exact withContextReader_eq_error (readContext_of_badHeader (by decide) (by decide) hcnt hsb hob hvb (by decide)
      hminV (by omega) (contextSource_gives_of_holdsAt (by omega) hbits))
  case missingWord =>
    exact withContextReader_eq_error
      (failsPast_readContext (contextSource_endsAt hin hmissing) (by decide) (by decide) 0 (by omega) (by omega))

end Sys2Proof.Machine

/-! Codetexts written to the layouts of Bitlength (v1) and Bitlength2 (43_codecs.md R205 to R216). -/

namespace Sys2Proof.Machine

/-! Codetexts that hold what was written (41_bitreader.md R140, R142). -/

section

variable {α : Type} {ws : List Word} {len p : Nat} {bits : List Bool} {m m' : Cursor α}

/-- A decode that consumes all that was written succeeds (R206, R216). -/
theorem exactly_of_passes {a : α} (h : HoldsBits ws len bits)
    (hm : (codetextSource ws len false p).Passes m bits (pure a)) : exactly len p (m 0) = .ok a := by
  obtain ⟨rfl, hbits⟩ := h
  rw [hm (codetextSource_gives (Nat.zero_add _).le hbits false p), Cursor.pure_eq, Nat.zero_add]
  exact if_neg (not_not.2 rfl)

/-- A decode that fails after what was written fails. -/
theorem exactly_of_passes_error {e : Err} (h : StartsWith ws len bits)
    (hm : (codetextSource ws len false p).Passes m bits m') (he : m' bits.length = .error e) :
    exactly len p (m 0) = .error e := by
  obtain ⟨hlen, hbits⟩ := h
  rw [hm (codetextSource_gives ((Nat.zero_add _).trans_le hlen) hbits false p), Nat.zero_add, he]
  rfl

end

/-! Fields that are read back. -/

section

variable {src : BitSource} {n x : Nat}

theorem BitSource.Passes.bind_congr {α β : Type} {m m' : Cursor α} {f : α → Cursor β} {bits : List Bool}
    (h : src.Passes m bits m') : src.Passes (m >>= f) bits (m' >>= f) :=
  fun _ hk => congrArg (fun x : Except Err (α × Nat) => x >>= fun r => f r.1 r.2) (h hk)

theorem BitSource.passes_bit (b : Bool) : src.Passes src.bit [b] (pure b) :=
  fun _ h => (BitSource.gives_cons.1 h).1

theorem BitSource.passes_readU32 (hn : 1 ≤ n) (hn' : n ≤ 32) (hx : x < 2 ^ n) :
    src.Passes (readU32 src n) (msbBits n x) (pure x) := by
  intro k h
  rw [readU32_of_gives hn hn' hx h, msbBits_length, Cursor.pure_eq]

theorem BitSource.passes_readI32 (hn : 1 ≤ n) (hn' : n ≤ 32) (hx : x < 2 ^ n) :
    src.Passes (readI32 src n) (msbBits n x) (pure (sext n x)) :=
  (BitSource.passes_readU32 hn hn' hx).bind_last

/-- A signed field of any legal width, none included (R144). -/
theorem BitSource.passes_fieldValue (hn : n ≤ 32) (hx : x < 2 ^ n) :
    src.Passes (readI32Or0 src n) (msbBits n x) (pure (fieldValue n x)) := by
  rcases n.eq_zero_or_pos with rfl | hpos
  · exact .refl _
  · rw [fieldValue, if_neg hpos.ne']
    exact BitSource.passes_readI32Or0 hpos hn hx

end

/-! Bitlength (v1), R205. -/

section

variable {src : BitSource} {len k : Nat}

/-- An upward adjustment of `m + 1` steps. -/
theorem passes_bl1Steps {m fuel : Nat} (hfuel : m < fuel) (w : Int) :
    src.Passes (bl1Steps src true fuel w) (List.replicate m true ++ [false]) (pure (w + 2 * (m + 1 : Nat))) := by
  induction m generalizing fuel w with
  | zero =>
    obtain ⟨fuel, rfl⟩ := Nat.exists_eq_add_of_le' hfuel
    exact (BitSource.passes_bit false).bind_last
  | succ m ih =>
    obtain ⟨fuel, rfl⟩ := Nat.exists_eq_add_of_le' (Nat.zero_lt_of_lt hfuel)
    have hsum : w + 2 + 2 * (m + 1 : Nat) = w + 2 * (m + 1 + 1 : Nat) := by omega
    exact (BitSource.passes_bit true).bind (hsum ▸ ih (by omega) (w + 2))

/-- An upward adjustment to the width 2k from 0. -/
theorem passes_bl1Width_up (hk : 1 ≤ k) (hfuel : k ≤ len) :
    src.Passes (bl1Width src len 0) ([true, true] ++ List.replicate (k - 1) true ++ [false])
      (pure ((2 * k : Nat) : Int)) := by
  have hwidth : (0 : Int) + 2 * (k - 1 + 1 : Nat) = (2 * k : Nat) := by omega
  exact (BitSource.passes_bit true).bind ((BitSource.passes_bit true).bind
    (hwidth ▸ passes_bl1Steps (m := k - 1) (by omega) 0))

/-- A width left as it is. -/
theorem passes_bl1Width_same (w : Int) : src.Passes (bl1Width src len w) [false] (pure w) :=
  (BitSource.passes_bit false).bind_last

/-- One value, after an adjustment to the width 2k. -/
theorem passes_bl1Values_succ {w : Int} {adjust : List Bool} {x n : Nat} (hk : 1 ≤ k) (hk' : k ≤ 16)
    (hx : x < 2 ^ (2 * k)) (hwidth : src.Passes (bl1Width src len w) adjust (pure ((2 * k : Nat) : Int))) :
    src.Passes (bl1Values src len (n + 1) w) (adjust ++ msbBits (2 * k) x)
      (do
        let rest ← bl1Values src len n (2 * k : Nat)
        pure (wrap32 (sext (2 * k) x) :: rest)) := by
  refine hwidth.bind ?_
  rw [if_neg (by omega), Int.toNat_natCast]
  exact (BitSource.passes_readI32Or0 (by omega) (by omega) hx).bind_last

/-- Values at one width. -/
theorem passes_bl1Values (hk : 1 ≤ k) (hk' : k ≤ 16) {xs : List Nat} (hxs : ∀ y ∈ xs, y < 2 ^ (2 * k)) :
    src.Passes (bl1Values src len xs.length (2 * k : Nat)) (xs.flatMap fun y => false :: msbBits (2 * k) y)
      (pure (xs.map fun y => wrap32 (sext (2 * k) y))) := by
  induction xs with
  | nil => exact .refl _
  | cons x xs ih =>
    obtain ⟨hx, hxs⟩ := List.forall_mem_cons.1 hxs
    exact (passes_bl1Values_succ hk hk' hx (passes_bl1Width_same _)).trans (ih hxs).bind_last

end

/-- Settles O45: the adjustment and its value, then the values at the width it leaves. -/
theorem bitlength1RunAtOneWidth : Obligations.Bitlength1RunAtOneWidth := by
  intro ws len p k x xs hk hk' hx hxs hbits
  have hlen : k ≤ len := by
    obtain ⟨rfl, -⟩ := hbits
    simp only [List.length_append, List.length_replicate, List.length_cons]
    omega
  exact exactly_of_passes hbits
    ((passes_bl1Values_succ hk hk' hx (passes_bl1Width_up hk hlen)).trans (passes_bl1Values hk hk' hxs).bind_last)

/-! Bitlength2, fixed width (R212). -/

theorem ceilLog2_le {x n : Nat} (h : x ≤ 2 ^ n) : ceilLog2 x ≤ n := by
  unfold ceilLog2
  split
  · exact Nat.zero_le n
  · exact (Nat.log2_lt (by omega)).2 (by omega)

theorem fieldValue_bounds {n x : Nat} (hn : n ≤ 32) (hx : x < 2 ^ n) :
    -2 ^ 31 ≤ fieldValue n x ∧ fieldValue n x < 2 ^ 31 := by
  have hpow : 2 ^ n ≤ 2 ^ 32 := Nat.pow_le_pow_right (by decide) hn
  have hcast : ((2 ^ n : Nat) : Int) = 2 ^ n := by push_cast; rfl
  unfold fieldValue
  split
  · decide
  · rw [sext_of_lt (by omega) hx]
    split <;> omega

/-- What follows the bounds of a fixed-width codetext. -/
def bl2Offsets (src : BitSource) (n : Nat) (vmin vmax : Int) : Cursor (List Word) :=
  if vmax ≤ vmin then pure (List.replicate n (wrap32 vmin))
  else do
    let offs ← repeatRead (readU32Or0 src (ceilLog2 (vmax - vmin + 1).toNat)) n
    pure (offs.map fun (o : Nat) => wrap32 (vmin + o))

section

variable {src : BitSource} {len mb xb n : Nat}

theorem passes_bl2Values_fixed {lo hi : Nat} (hmb : mb ≤ 32) (hxb : xb ≤ 32) (hlo : lo < 2 ^ mb) (hhi : hi < 2 ^ xb) :
    src.Passes (bl2Values src len n) ([false] ++ msbBits 6 mb ++ msbBits 6 xb ++ msbBits mb lo ++ msbBits xb hi)
      (bl2Offsets src n (fieldValue mb lo) (fieldValue xb hi)) := by
  simp only [List.append_assoc]
  refine (BitSource.passes_bit false).bind <| (BitSource.passes_readU32 (by decide) (by decide) (by omega)).bind <|
    (BitSource.passes_readU32 (by decide) (by decide) (by omega)).bind ?_
  rw [if_neg (by omega)]
  exact (BitSource.passes_fieldValue hmb hlo).bind (BitSource.passes_fieldValue hxb hhi).bind_last

theorem passes_bl2Values_badWidth (hmb : mb < 64) (hxb : xb < 64) (hbad : 32 < mb ∨ 32 < xb) :
    src.Passes (bl2Values src len n) ([false] ++ msbBits 6 mb ++ msbBits 6 xb) (src.raise .range) := by
  simp only [List.append_assoc]
  refine (BitSource.passes_bit false).bind <| (BitSource.passes_readU32 (by decide) (by decide) hmb).bind fun k h => ?_
  exact (Cursor.bind_eq (BitSource.passes_readU32 (by decide) (by decide) hxb h)).trans (congrFun (if_pos hbad) _)

/-- Offsets of the field width the bounds need are read back. -/
theorem passes_bl2Offsets {vmin vmax : Int} {offs : List Nat} (hlt : vmin < vmax)
    (hwidth : ceilLog2 (vmax - vmin + 1).toNat ≤ 32) (hoffs : ∀ o ∈ offs, o < 2 ^ ceilLog2 (vmax - vmin + 1).toNat) :
    src.Passes (bl2Offsets src offs.length vmin vmax)
      (offs.flatMap (msbBits (ceilLog2 (vmax - vmin + 1).toNat)))
      (pure (offs.map fun (o : Nat) => wrap32 (vmin + o))) := by
  have hread := BitSource.passes_repeatRead (src := src) (val := fun o => o) fun o ho =>
    BitSource.passes_readU32Or0 hwidth (hoffs o ho)
  rw [List.map_id'] at hread
  rw [bl2Offsets, if_neg (not_le.2 hlt)]
  exact hread.bind_last

end

/-! Bitlength2, variable width (R213 to R215): the chain of deltas. -/

/-- A delta is an escape exactly when it is the least or the greatest value of its width. -/
theorem sext_ne_escape_iff {cw x : Nat} (hcw : 1 ≤ cw) (hx : x < 2 ^ cw) :
    (sext cw x ≠ -(2 ^ (cw - 1)) ∧ sext cw x ≠ 2 ^ (cw - 1) - 1) ↔ x ≠ 2 ^ (cw - 1) ∧ x ≠ 2 ^ (cw - 1) - 1 := by
  obtain ⟨m, rfl⟩ := Nat.exists_eq_add_of_le' hcw
  have hpow : 2 ^ (m + 1) = 2 * 2 ^ m := Nat.pow_succ'
  have hcast : ((2 ^ m : Nat) : Int) = 2 ^ m := by push_cast; rfl
  have hpos : 0 < 2 ^ m := Nat.two_pow_pos m
  rw [sext_of_lt hcw hx, Nat.add_sub_cancel, pow_succ]
  split <;> omega

section

variable {src : BitSource} {len cw : Nat}

theorem passes_bl2Delta (hcw : 1 ≤ cw) (hcw' : cw ≤ 32) {escapes : List Nat} {delta fuel : Nat}
    (hescapes : ∀ e ∈ escapes, e = 2 ^ (cw - 1) ∨ e = 2 ^ (cw - 1) - 1) (hlt : delta < 2 ^ cw)
    (hends : delta ≠ 2 ^ (cw - 1) ∧ delta ≠ 2 ^ (cw - 1) - 1) (hfuel : escapes.length < fuel) (w : Int) :
    src.Passes (bl2Delta src cw fuel w) ((escapes ++ [delta]).flatMap (msbBits cw))
      (pure (w + ((escapes ++ [delta]).map (sext cw)).sum)) := by
  induction escapes generalizing fuel w with
  | nil =>
    obtain ⟨fuel, rfl⟩ := Nat.exists_eq_add_of_le' hfuel
    simp only [List.nil_append, List.flatMap_singleton, List.map_singleton, List.sum_singleton]
    intro k h
    exact (Cursor.bind_eq (BitSource.passes_readI32 hcw hcw' hlt h)).trans
      (congrFun (if_pos ((sext_ne_escape_iff hcw hlt).2 hends)) _)
  | cons e es ih =>
    obtain ⟨fuel, rfl⟩ := Nat.exists_eq_add_of_le' (Nat.zero_lt_of_lt hfuel)
    obtain ⟨he, hes⟩ := List.forall_mem_cons.1 hescapes
    have hpow : 2 ^ cw = 2 * 2 ^ (cw - 1) := by rw [← Nat.pow_succ', Nat.succ_eq_add_one, Nat.sub_add_cancel hcw]
    have he' : e < 2 ^ cw := by
      have := Nat.two_pow_pos (cw - 1)
      omega
    rw [List.cons_append, List.map_cons, List.sum_cons, ← add_assoc]
    refine (BitSource.passes_readI32 hcw hcw' he').bind ?_
    rw [if_neg fun h => by have := (sext_ne_escape_iff hcw he').1 h; omega]
    exact ih hes (Nat.lt_of_succ_lt_succ hfuel) (w + sext cw e)

theorem length_flatMap_msbBits (n : Nat) (xs : List Nat) : (xs.flatMap (msbBits n)).length = xs.length * n := by
  simp [List.length_flatMap]

/-- The deltas of a group lead to its running width. -/
theorem passes_groupWidth {g : Bl2Group} (hg : g.Chain cw) (hcw : cw ≤ 32)
    (hlen : ((g.deltas cw).flatMap (msbBits cw)).length ≤ len) (w : Int) :
    src.Passes (if 0 < cw then bl2Delta src cw (len + 1) w else pure w) ((g.deltas cw).flatMap (msbBits cw))
      (pure (g.width cw w)) := by
  rcases cw.eq_zero_or_pos with rfl | hpos
  · simpa [Bl2Group.width] using BitSource.Passes.refl (pure w)
  · obtain ⟨hescapes, hlt, hends⟩ := hg hpos
    rw [length_flatMap_msbBits] at hlen
    rw [if_pos hpos, Bl2Group.width]
    simp only [Bl2Group.deltas, if_neg hpos.ne', List.length_append, List.length_singleton] at hlen ⊢
    have hescapesLen := Nat.le_mul_of_pos_right (g.escapes.length + 1) hpos
    exact passes_bl2Delta hpos hcw hescapes hlt hends (by omega) w

/-- A width of one bit has no delta but escapes, so the chain runs out of bits. -/
theorem bl2Delta_one_eq_error (ws : List Word) (len p fuel k : Nat) (w : Int) :
    bl2Delta (codetextSource ws len false p) 1 fuel w k = .error { code := .codetext, info := p } := by
  induction fuel generalizing k w with
  | zero => rfl
  | succ fuel ih =>
    by_cases hk : k < len
    · have hbit : (codetextSource ws len false p).Gives k (msbBits 1 (wordsBit ws k).toNat) := by
        have hone : msbBits 1 (wordsBit ws k).toNat = [wordsBit ws k] := by cases wordsBit ws k <;> rfl
        exact hone ▸ BitSource.gives_cons.2 ⟨codetextBit_of_lt hk false p, fun _ h => absurd h (Nat.not_lt_zero _)⟩
      have hlt := Bool.toNat_lt (wordsBit ws k)
      refine (Cursor.bind_eq (BitSource.passes_readI32 le_rfl (by decide) hlt hbit)).trans ?_
      rw [if_neg fun h => by have := (sext_ne_escape_iff le_rfl hlt).1 h; omega]
      exact ih _ _
    · refine Cursor.bind_eq_error (Cursor.bind_eq_error ?_)
      rw [readU32_eq_readBits le_rfl (by decide)]
      exact readBits_strict_eq_error 0 p le_rfl (by omega)

end

/-! The runs and the groups. -/

/-- What follows a group's deltas and its run length. -/
def bl2Run (src : BitSource) (len cw rl : Nat) (mean : Int) (fuel n : Nat) (w : Int) (run : Nat) :
    Cursor (List Word) :=
  if n < run then src.raise .count
  else do
    let vals ← repeatRead (bl2Value src mean w) run
    let rest ← bl2Groups src len cw rl mean fuel (n - run) w
    pure (vals ++ rest)

section

variable {src : BitSource} {len cw rl fuel n : Nat} {mean w : Int} {g : Bl2Group}

theorem bl2Groups_of_none_left : bl2Groups src len cw rl mean (fuel + 1) 0 w = pure [] := by
  rw [bl2Groups, if_pos rfl]

/-- A group's deltas and run length have at least one bit if either has a width. -/
theorem deltas_run_length_pos (hbits : 0 < cw ∨ 0 < rl) (g : Bl2Group) (run : Nat) :
    0 < ((g.deltas cw).flatMap (msbBits cw) ++ msbBits rl run).length := by
  rw [List.length_append, length_flatMap_msbBits, msbBits_length]
  rcases hbits with hpos | hpos
  · simp [Bl2Group.deltas, hpos.ne', hpos]
  · omega

/-- A group with at least one bit goes on to its run. -/
theorem passes_bl2Groups_run {run : Nat} (hn : 0 < n) (hcw : cw ≤ 32) (hrl : rl ≤ 32) (hbits : 0 < cw ∨ 0 < rl)
    (hg : g.Chain cw) (hrun : run < 2 ^ rl) (hlen : ((g.deltas cw).flatMap (msbBits cw)).length ≤ len) :
    src.Passes (bl2Groups src len cw rl mean (fuel + 1) n w) ((g.deltas cw).flatMap (msbBits cw) ++ msbBits rl run)
      (bl2Run src len cw rl mean fuel n (g.width cw w) run) := by
  have hpos := deltas_run_length_pos hbits g run
  intro k h
  obtain ⟨hdeltas, hlength⟩ := BitSource.gives_append.1 h
  rw [bl2Groups, if_neg hn.ne', Cursor.bind_eq (Cursor.get_eq k)]
  refine (Cursor.bind_ite_eq (passes_groupWidth hg hcw hlen w hdeltas)).trans ?_
  refine (Cursor.bind_eq (BitSource.passes_readU32Or0 hrl hrun hlength)).trans ?_
  rw [Nat.add_assoc, ← List.length_append, Cursor.bind_eq (Cursor.get_eq _), if_neg (by omega), bl2Run]

theorem passes_bl2Value {x : Nat} (hw : w ≤ 32) (hx : 0 < w → x < 2 ^ w.toNat) :
    src.Passes (bl2Value src mean w) (msbBits w.toNat x)
      (pure (if w ≤ 0 then wrap32 mean else wrap32 (mean + sext w.toNat x))) := by
  unfold bl2Value
  by_cases hpos : w ≤ 0
  · rw [if_pos hpos, if_pos hpos, Int.toNat_of_nonpos hpos]
    exact .refl _
  · rw [if_neg hpos, if_neg hpos, if_neg (by omega)]
    exact (BitSource.passes_readI32 (by omega) (by omega) (hx (by omega))).bind_last

/-- A group that fits its layout gives its values, and the next groups go on at its width. -/
theorem passes_bl2Groups_succ (hn : 0 < n) (hcw : cw ≤ 32) (hrl : rl ≤ 32) (hg : g.Fits cw rl w)
    (hcount : g.fields.length ≤ n) (hlen : (g.bits cw rl w).length ≤ len) :
    src.Passes (bl2Groups src len cw rl mean (fuel + 1) n w) (g.bits cw rl w)
      (do
        let rest ← bl2Groups src len cw rl mean fuel (n - g.fields.length) (g.width cw w)
        pure (g.vals cw mean w ++ rest)) := by
  obtain ⟨hchain, hrun, hbits, hwidth, hfields⟩ := hg
  have hdeltas : ((g.deltas cw).flatMap (msbBits cw)).length ≤ len := by
    rw [Bl2Group.bits, List.append_assoc, List.length_append] at hlen
    omega
  refine (passes_bl2Groups_run hn hcw hrl hbits hchain hrun hdeltas).trans ?_
  rw [bl2Run, if_neg (by omega)]
  exact (BitSource.passes_repeatRead fun x hx =>
    passes_bl2Value (hwidth (List.ne_nil_of_mem hx)) fun hpos => hfields hpos x hx).bind_last

/-- Groups that fit their layout give their values where more values are missing, and the next groups go on. -/
theorem passes_bl2Groups {gs : List Bl2Group} (hcw : cw ≤ 32) (hrl : rl ≤ 32) (hgs : bl2Fits cw rl w gs)
    (hn : (bl2Vals cw mean w gs).length < n) (hlen : (bl2Bits cw rl w gs).length ≤ len) :
    src.Passes (bl2Groups src len cw rl mean (gs.length + fuel) n w) (bl2Bits cw rl w gs)
      (do
        let rest ← bl2Groups src len cw rl mean fuel (n - (bl2Vals cw mean w gs).length) (bl2Width cw w gs)
        pure (bl2Vals cw mean w gs ++ rest)) := by
  induction gs generalizing n w with
  | nil => simpa using BitSource.Passes.refl _
  | cons g gs ih =>
    simp only [bl2Fits_cons, bl2Vals_cons, bl2Bits_cons, bl2Width_cons, List.length_append, List.length_cons,
      Bl2Group.vals_length] at *
    obtain ⟨hg, hgs⟩ := hgs
    rw [Nat.add_right_comm]
    refine (passes_bl2Groups_succ (by omega) hcw hrl hg (by omega) (by omega)).trans ?_
    have hrest := (ih hgs (n := n - g.fields.length) (by omega) (by omega)).bind_congr
      (f := fun rest => pure (g.vals cw mean w ++ rest))
    simpa only [bind_assoc, pure_bind, List.append_assoc, Nat.sub_sub] using hrest

/-- Every group has at least one bit. -/
theorem length_le_bl2Bits_length {gs : List Bl2Group} (hgs : bl2Fits cw rl w gs) :
    gs.length ≤ (bl2Bits cw rl w gs).length := by
  induction gs generalizing w with
  | nil => exact Nat.zero_le _
  | cons g gs ih =>
    obtain ⟨⟨-, -, hbits, -⟩, hgs⟩ := hgs
    have hpos := deltas_run_length_pos hbits g g.fields.length
    have hrest := ih hgs
    rw [bl2Bits_cons, List.length_append, List.length_cons, Bl2Group.bits, List.length_append]
    omega

end

theorem bl2Fits_append {cw rl : Nat} {w : Int} {xs ys : List Bl2Group} :
    bl2Fits cw rl w (xs ++ ys) ↔ bl2Fits cw rl w xs ∧ bl2Fits cw rl (bl2Width cw w xs) ys := by
  induction xs generalizing w with
  | nil => simp
  | cons x xs ih => simp [ih, and_assoc]

theorem bl2Vals_append (cw : Nat) (mean w : Int) (xs ys : List Bl2Group) :
    bl2Vals cw mean w (xs ++ ys) = bl2Vals cw mean w xs ++ bl2Vals cw mean (bl2Width cw w xs) ys := by
  induction xs generalizing w with
  | nil => rfl
  | cons x xs ih => simp [ih]

/-- Without a bit for deltas or run lengths there is no group, and with one bit for deltas there is none either. -/
theorem eq_nil_of_bl2Fits {cw rl : Nat} {w : Int} {gs : List Bl2Group} (hcw : cw = 1 ∨ cw = 0 ∧ rl = 0)
    (hgs : bl2Fits cw rl w gs) : gs = [] := by
  cases gs with
  | nil => rfl
  | cons g gs =>
    obtain ⟨⟨hchain, -, hbits, -⟩, -⟩ := hgs
    rcases hcw with rfl | ⟨rfl, rfl⟩
    · obtain ⟨-, hlt, hleast, hgreatest⟩ := hchain one_pos
      omega
    · exact absurd hbits (by decide)

section

variable {src : BitSource} {len cw rl n mean : Nat}

theorem passes_bl2Header (hmean : mean < 2 ^ 32) (hcw : cw < 8) (hrl : rl < 8) :
    src.Passes (bl2Values src len n) (bl2Header mean cw rl)
      (bl2Groups src len cw rl (sext 32 mean) (len + 1) n 0) := by
  simp only [bl2Header, List.append_assoc]
  exact (BitSource.passes_bit true).bind <| (BitSource.passes_readI32 (by decide) (by decide) hmean).bind <|
    (BitSource.passes_readU32 (by decide) (by decide) hcw).bind
      (BitSource.passes_readU32 (by decide) (by decide) hrl).bind_last

/-- A variable-width codetext up to a group that begins with values missing. -/
theorem passes_bl2Values_groups {gs : List Bl2Group} (hmean : mean < 2 ^ 32) (hcw : cw < 8) (hrl : rl < 8)
    (hgs : bl2Fits cw rl 0 gs) (hn : (bl2Vals cw (sext 32 mean) 0 gs).length < n)
    (hlen : (bl2Bits cw rl 0 gs).length ≤ len) :
    src.Passes (bl2Values src len n) (bl2Header mean cw rl ++ bl2Bits cw rl 0 gs)
      (do
        let rest ← bl2Groups src len cw rl (sext 32 mean) (len + 1 - gs.length)
          (n - (bl2Vals cw (sext 32 mean) 0 gs).length) (bl2Width cw 0 gs)
        pure (bl2Vals cw (sext 32 mean) 0 gs ++ rest)) := by
  have hcount := length_le_bl2Bits_length hgs
  have hgroups := passes_bl2Groups (src := src) (len := len) (fuel := len + 1 - gs.length) (by omega) (by omega) hgs hn
    hlen
  rw [Nat.add_sub_cancel' (by omega)] at hgroups
  exact (passes_bl2Header hmean hcw hrl).trans hgroups

end

/-- A run at a width above 32 is illegal (R213). -/
theorem bl2Run_eq_range {src : BitSource} {len cw rl fuel n run k : Nat} {mean w : Int} (hpos : 0 < run) (hle : run ≤ n)
    (hw : 32 < w) : bl2Run src len cw rl mean fuel n w run k = .error { code := .range, info := src.pos k } := by
  obtain ⟨m, rfl⟩ := Nat.exists_eq_add_of_le' hpos
  have hvalue : bl2Value src mean w k = .error { code := .range, info := src.pos k } := by
    rw [bl2Value, if_neg (by omega), if_pos hw, BitSource.raise_eq]
  rw [bl2Run, if_neg (by omega)]
  exact Cursor.bind_eq_error (Cursor.bind_eq_error hvalue)

section

variable {ws : List Word} {len p n mean cw rl : Nat}

/-- A codetext that fails at the run of a group, after groups that leave values missing. -/
theorem bitlength2Decode_run_error {gs : List Bl2Group} {g : Bl2Group} {run : Nat} {e : Err} (hmean : mean < 2 ^ 32)
    (hcw : cw < 8) (hrl : rl < 8) (hgs : bl2Fits cw rl 0 gs) (hn : (bl2Vals cw (sext 32 mean) 0 gs).length < n)
    (hchain : g.Chain cw) (hpos : 0 < run) (hrun : run < 2 ^ rl)
    (hbits : StartsWith ws len (bl2Header mean cw rl ++ bl2Bits cw rl 0 gs ++ (g.deltas cw).flatMap (msbBits cw) ++
      msbBits rl run))
    (he : ∀ fuel k, bl2Run (codetextSource ws len false p) len cw rl (sext 32 mean) fuel
      (n - (bl2Vals cw (sext 32 mean) 0 gs).length) (g.width cw (bl2Width cw 0 gs)) run k = .error e) :
    bitlength2Decode ws len n p = .error e := by
  have hrl' : 0 < rl := Nat.pos_of_ne_zero fun h => by subst h; omega
  have hlen := hbits.1
  simp only [List.length_append] at hlen
  have hcount := length_le_bl2Bits_length hgs
  have hgroups := passes_bl2Values_groups (src := codetextSource ws len false p) (len := len) hmean hcw hrl hgs hn
    (by omega)
  obtain ⟨fuel, hfuel⟩ : ∃ fuel, len + 1 - gs.length = fuel + 1 := ⟨len - gs.length, by omega⟩
  rw [hfuel] at hgroups
  have hlast := passes_bl2Groups_run (src := codetextSource ws len false p) (len := len) (fuel := fuel)
    (mean := sext 32 mean) (w := bl2Width cw 0 gs) (Nat.sub_pos_of_lt hn) (by omega) (by omega) (.inr hrl') hchain hrun
    (by omega)
  rw [List.append_assoc] at hbits
  exact exactly_of_passes_error hbits (hgroups.trans hlast.bind_congr) (Cursor.bind_eq_error (he _ _))

/-- A codetext that holds groups to the last value (R216). -/
theorem bitlength2Decode_groups {gs : List Bl2Group} (hmean : mean < 2 ^ 32) (hcw : cw < 8) (hrl : rl < 8)
    (hgs : bl2Fits cw rl 0 gs) (hlast : ∀ g, gs.getLast? = some g → g.fields ≠ [])
    (hbits : HoldsBits ws len (bl2Header mean cw rl ++ bl2Bits cw rl 0 gs)) :
    bitlength2Decode ws len (bl2Vals cw (sext 32 mean) 0 gs).length p = .ok (bl2Vals cw (sext 32 mean) 0 gs) := by
  have hlen := hbits.1
  rw [List.length_append] at hlen
  refine exactly_of_passes hbits ?_
  rcases List.eq_nil_or_concat gs with rfl | ⟨init, g, rfl⟩
  · have hheader := passes_bl2Header (src := codetextSource ws len false p) (len := len) (n := 0) hmean hcw hrl
    rw [bl2Groups_of_none_left] at hheader
    rwa [bl2Bits_nil, List.append_nil]
  · rw [List.concat_eq_append] at hgs hlast hlen ⊢
    obtain ⟨hinit, hg, -⟩ := bl2Fits_append.1 hgs
    have hfields := List.length_pos_of_ne_nil (hlast g (by simp))
    simp only [bl2Bits_append, bl2Vals_append, bl2Bits_cons, bl2Vals_cons, bl2Bits_nil, bl2Vals_nil, List.append_nil,
      List.length_append, Bl2Group.vals_length] at hlen ⊢
    have hcount := length_le_bl2Bits_length hgs
    rw [bl2Bits_append, List.length_append, List.length_append, List.length_singleton, bl2Bits_cons, bl2Bits_nil,
      List.append_nil] at hcount
    have hgroups := passes_bl2Values_groups (src := codetextSource ws len false p) (len := len)
      (n := (bl2Vals cw (sext 32 mean) 0 init).length + g.fields.length) hmean hcw hrl hinit (by omega) (by omega)
    obtain ⟨fuel, hfuel⟩ : ∃ fuel, len + 1 - init.length = fuel + 1 + 1 := ⟨len - init.length - 1, by omega⟩
    have hgroup := passes_bl2Groups_succ (src := codetextSource ws len false p) (len := len) (fuel := fuel + 1)
      (mean := sext 32 mean) hfields (by omega) (by omega) hg le_rfl (by omega)
    rw [Nat.sub_self, bl2Groups_of_none_left, pure_bind, List.append_nil] at hgroup
    rw [Nat.add_sub_cancel_left, hfuel] at hgroups
    rw [← List.append_assoc]
    exact hgroups.trans hgroup.bind_last

end

/-- Settles O38: a codetext written to a layout is read back field by field, and an illegal field is where it fails. -/
theorem bitlength2Modes : Obligations.Bitlength2Modes := by
  intro ws len p
  refine ⟨fun mb xb lo hi hmb hxb hlo hhi => ⟨fun hle hbits n => ?minOnly, fun offs hlt hoffs hbits => ?offsets⟩,
    fun mb xb hmb hxb hbad n hbits => ?badWidth,
    fun mean cw rl gs hmean hcw hrl hgs => ⟨fun hlast hbits => bitlength2Decode_groups hmean hcw hrl hgs hlast hbits,
      fun n hn => ⟨fun g run hchain hrun hbits => ⟨fun hcount => ?count, fun hpos hle hwidth => ?range⟩,
        fun hcw0 hrl0 hbits => ?noProgress, fun hcw1 hbits => ?codetext⟩⟩⟩
  case minOnly =>
    have hfixed := passes_bl2Values_fixed (src := codetextSource ws len false p) (len := len) (n := n) hmb hxb hlo hhi
    rw [bl2Offsets, if_pos hle] at hfixed
    exact exactly_of_passes hbits hfixed
  case offsets =>
    obtain ⟨hlow, -⟩ := fieldValue_bounds hmb hlo
    obtain ⟨-, hhigh⟩ := fieldValue_bounds hxb hhi
    have hwidth : ceilLog2 (fieldValue xb hi - fieldValue mb lo + 1).toNat ≤ 32 := ceilLog2_le (by omega)
    have hcast : (do let o ← offs; pure (o : Int)) = offs.map Nat.cast := List.map_eq_flatMap.symm
    rw [hcast, List.map_map]
    exact exactly_of_passes hbits
      ((passes_bl2Values_fixed hmb hxb hlo hhi).trans (passes_bl2Offsets hlt hwidth hoffs))
  case badWidth => exact exactly_of_passes_error hbits (passes_bl2Values_badWidth hmb hxb hbad) rfl
  case count =>
    refine bitlength2Decode_run_error hmean hcw hrl hgs hn hchain (by omega) hrun hbits fun fuel k => ?_
    rw [bl2Run, if_pos (by omega), BitSource.raise_eq]
    rfl
  case range =>
    exact bitlength2Decode_run_error hmean hcw hrl hgs hn hchain hpos hrun hbits fun fuel k =>
      bl2Run_eq_range hpos (by omega) hwidth
  case noProgress =>
    subst hcw0 hrl0
    obtain rfl := eq_nil_of_bl2Fits (.inr ⟨rfl, rfl⟩) hgs
    refine exactly_of_passes_error hbits (passes_bl2Header hmean hcw hrl) ?_
    rw [bl2Groups, if_neg (Nat.ne_zero_of_lt hn)]
    rfl
  case codetext =>
    subst hcw1
    obtain rfl := eq_nil_of_bl2Fits (.inl rfl) hgs
    refine exactly_of_passes_error hbits (passes_bl2Header hmean hcw hrl) ?_
    rw [bl2Groups, if_neg (Nat.ne_zero_of_lt hn), Cursor.bind_eq (Cursor.get_eq _), if_pos one_pos]
    exact Cursor.bind_eq_error (bl2Delta_one_eq_error ws len p _ _ _)

end Sys2Proof.Machine

/-! Arithmetic decoding: the interval the coder keeps (43_codecs.md R230 to R237). -/

namespace Sys2Proof.Machine

/-! The registers as numbers. -/

/-- The code lies in the interval of the registers (R234). -/
def ArithRegs.Ordered (r : ArithRegs) : Prop := r.low ≤ r.code ∧ r.code ≤ r.high

theorem ArithRegs.ordered_iff {r : ArithRegs} :
    r.Ordered ↔ r.low.toNat ≤ r.code.toNat ∧ r.code.toNat ≤ r.high.toNat := Iff.rfl

theorem getLsbD_eq_iff {x y : BitVec 16} (i : Nat) :
    x.getLsbD i = y.getLsbD i ↔ (x.toNat / 2 ^ i % 2 = 1 ↔ y.toNat / 2 ^ i % 2 = 1) := by
  simp only [BitVec.getLsbD, Nat.testBit_eq_decide_div_mod_eq, decide_eq_decide]

theorem getLsbD_iff {x : BitVec 16} (i : Nat) : x.getLsbD i = true ↔ x.toNat / 2 ^ i % 2 = 1 := by
  simp only [BitVec.getLsbD, Nat.testBit_eq_decide_div_mod_eq, decide_eq_true_eq]

/-- A shift that takes in a bit drops the top bit and doubles the rest. -/
theorem toNat_shiftLeft_or (x y : BitVec 16) (hy : y.toNat < 2) :
    ((x <<< 1) ||| y).toNat = 2 * (x.toNat % 2 ^ 15) + y.toNat := by
  have hshift : (x <<< 1).toNat = 2 ^ 1 * (x.toNat % 2 ^ 15) := by
    rw [BitVec.toNat_shiftLeft, Nat.shiftLeft_eq]
    omega
  rw [BitVec.toNat_or, hshift, ← Nat.two_pow_add_eq_or_of_lt (by simpa using hy), pow_one]

/-- The low register in an underflow. -/
theorem toNat_and_quarter (x : BitVec 16) : (x &&& 0x3FFF).toNat = x.toNat % 2 ^ 14 :=
  Nat.and_two_pow_sub_one_eq_mod x.toNat 14

/-- The high register in an underflow. -/
theorem toNat_or_quarter {x : BitVec 16} (h : x.toNat / 2 ^ 14 = 2) : (x ||| 0x4000).toNat = x.toNat + 2 ^ 14 := by
  have hdiv := Nat.or_div_two_pow (a := x.toNat) (b := 2 ^ 14) (n := 14)
  have hmod := Nat.or_mod_two_pow (a := x.toNat) (b := 2 ^ 14) (n := 14)
  rw [h] at hdiv
  have hor : 2 ||| 2 ^ 14 / 2 ^ 14 = 3 := rfl
  have hzero : x.toNat % 2 ^ 14 ||| 2 ^ 14 % 2 ^ 14 = x.toNat % 2 ^ 14 := Nat.or_zero _
  show x.toNat ||| 2 ^ 14 = _
  omega

/-- The code register in an underflow. -/
theorem toNat_xor_quarter {x : BitVec 16} (h : x.toNat / 2 ^ 14 = 1 ∨ x.toNat / 2 ^ 14 = 2) :
    (x ^^^ 0x4000).toNat % 2 ^ 15 = x.toNat - 2 ^ 14 := by
  have hdiv := Nat.xor_div_two_pow (a := x.toNat) (b := 2 ^ 14) (n := 14)
  have hmod := Nat.xor_mod_two_pow (a := x.toNat) (b := 2 ^ 14) (n := 14)
  have hzero : x.toNat % 2 ^ 14 ^^^ 2 ^ 14 % 2 ^ 14 = x.toNat % 2 ^ 14 := Nat.xor_zero _
  show (x.toNat ^^^ 2 ^ 14) % 2 ^ 15 = _
  rcases h with h | h <;> rw [h] at hdiv
  · have hxor : 1 ^^^ 2 ^ 14 / 2 ^ 14 = 0 := rfl
    omega
  · have hxor : 2 ^^^ 2 ^ 14 / 2 ^ 14 = 3 := rfl
    omega

/-! Renormalization (R235). -/

section

variable {r : ArithRegs}

/-- A shift keeps the order of the registers without their top bits, and doubles the interval. -/
theorem ArithRegs.ordered_shift (b : Bool) (hlc : r.low.toNat % 2 ^ 15 ≤ r.code.toNat % 2 ^ 15)
    (hch : r.code.toNat % 2 ^ 15 ≤ r.high.toNat % 2 ^ 15) :
    (r.shift b).Ordered ∧ (r.shift b).range = 2 * (r.high.toNat % 2 ^ 15 - r.low.toNat % 2 ^ 15 + 1) := by
  have hl : (r.shift b).low.toNat = 2 * (r.low.toNat % 2 ^ 15) := by
    simpa [ArithRegs.shift] using toNat_shiftLeft_or r.low 0 (by decide)
  have hc : (r.shift b).code.toNat = 2 * (r.code.toNat % 2 ^ 15) + b.toNat := by
    have hbit : ((BitVec.ofBool b).setWidth 16).toNat = b.toNat := by cases b <;> rfl
    exact hbit ▸ toNat_shiftLeft_or r.code _ (hbit ▸ Bool.toNat_lt b)
  have hh : (r.shift b).high.toNat = 2 * (r.high.toNat % 2 ^ 15) + 1 := toNat_shiftLeft_or r.high 1 (by decide)
  have hb := Bool.toNat_lt b
  rw [ArithRegs.ordered_iff, ArithRegs.range]
  omega

/-- The round for equal top bits. -/
theorem ArithRegs.Ordered.shift (hr : r.Ordered) (htop : r.high.getLsbD 15 = r.low.getLsbD 15) (b : Bool) :
    (r.shift b).Ordered ∧ (r.shift b).range = 2 * r.range := by
  obtain ⟨hlc, hch⟩ := ArithRegs.ordered_iff.1 hr
  rw [getLsbD_eq_iff] at htop
  have hrange : r.range = r.high.toNat % 2 ^ 15 - r.low.toNat % 2 ^ 15 + 1 := by
    rw [ArithRegs.range]
    omega
  rw [hrange]
  exact ArithRegs.ordered_shift b (by omega) (by omega)

/-- The round for an underflow: low in the second quarter, high in the third. -/
theorem ArithRegs.Ordered.underflow_shift (hr : r.Ordered)
    (hunder : r.low.getLsbD 14 = true ∧ r.high.getLsbD 14 = false) (b : Bool) :
    (r.underflow.shift b).Ordered ∧ (r.underflow.shift b).range = 2 * r.range := by
  obtain ⟨hlc, hch⟩ := ArithRegs.ordered_iff.1 hr
  obtain ⟨hlow, hhigh⟩ := hunder
  rw [getLsbD_iff] at hlow
  rw [← Bool.not_eq_true, getLsbD_iff] at hhigh
  have hl : r.underflow.low.toNat = r.low.toNat % 2 ^ 14 := toNat_and_quarter r.low
  have hh : r.underflow.high.toNat = r.high.toNat + 2 ^ 14 := toNat_or_quarter (by omega)
  have hc : r.underflow.code.toNat % 2 ^ 15 = r.code.toNat - 2 ^ 14 := toNat_xor_quarter (by omega)
  have hrange : r.range = r.underflow.high.toNat % 2 ^ 15 - r.underflow.low.toNat % 2 ^ 15 + 1 := by
    rw [ArithRegs.range]
    omega
  rw [hrange]
  exact ArithRegs.ordered_shift b (by omega) (by omega)

theorem ArithRegs.range_le (r : ArithRegs) : r.range ≤ 2 ^ 16 := by
  have := r.high.isLt
  rw [ArithRegs.range]
  omega

/-- The registers a renormalization ends with (R235). -/
def ArithRegs.Settled (r : ArithRegs) : Prop :=
  r.high.getLsbD 15 ≠ r.low.getLsbD 15 ∧ ¬ (r.low.getLsbD 14 = true ∧ r.high.getLsbD 14 = false)

/-- Every read gives a bit. -/
def BitSource.Endless (src : BitSource) : Prop := ∀ k, ∃ b, src.bit k = .ok (b, k + 1)

theorem codetextSource_padded_endless (ws : List Word) (len p : Nat) : (codetextSource ws len true p).Endless :=
  fun k => ⟨_, codetextBit_padded ws len p k⟩

variable {src : BitSource}

theorem arithRenorm_of_settled (hr : r.Settled) (fuel k : Nat) : arithRenorm src (fuel + 1) r k = .ok (r, k) := by
  rw [arithRenorm, if_neg hr.1, if_neg hr.2, Cursor.pure_eq]

/-- Each round doubles the interval, so the rounds end before it would be wider than the registers. -/
theorem arithRenorm_settles (hsrc : src.Endless) {fuel : Nat} (hr : r.Ordered) (hfuel : 2 ^ 17 ≤ r.range * 2 ^ fuel)
    (k : Nat) : ∃ r' k', arithRenorm src fuel r k = .ok (r', k') ∧ r'.Settled ∧ r'.Ordered := by
  induction fuel generalizing r k with
  | zero =>
    have := r.range_le
    omega
  | succ fuel ih =>
    obtain ⟨b, hb⟩ := hsrc k
    have next {t : ArithRegs} (ht : t.Ordered ∧ t.range = 2 * r.range) :
        ∃ r' k', arithRenorm src fuel t (k + 1) = .ok (r', k') ∧ r'.Settled ∧ r'.Ordered :=
      ih ht.1 (by rwa [ht.2, Nat.mul_comm 2, Nat.mul_assoc, ← Nat.pow_succ']) (k + 1)
    by_cases htop : r.high.getLsbD 15 = r.low.getLsbD 15
    · rw [arithRenorm, if_pos htop, Cursor.bind_eq hb]
      exact next (hr.shift htop b)
    · by_cases hunder : r.low.getLsbD 14 = true ∧ r.high.getLsbD 14 = false
      · rw [arithRenorm, if_neg htop, if_pos hunder, Cursor.bind_eq hb]
        exact next (hr.underflow_shift hunder b)
      · exact ⟨r, k, arithRenorm_of_settled ⟨htop, hunder⟩ fuel k, ⟨htop, hunder⟩, hr⟩

/-- The model's bound on the rounds is enough (log 10). -/
theorem arithRenorm_reaches (hsrc : src.Endless) (hr : r.Ordered) (k : Nat) :
    ∃ r' k', arithRenorm src 17 r k = .ok (r', k') ∧ r'.Settled ∧ r'.Ordered :=
  arithRenorm_settles hsrc hr (Nat.le_mul_of_pos_left _ (Nat.succ_pos _)) k

end

/-- Settles O42: each round doubles the interval and keeps its order. -/
theorem arithRenormReaches : Obligations.ArithRenormReaches := by
  intro ws len p k r hlow hhigh
  obtain ⟨r', k', hrenorm, ⟨htop, hunder⟩, hlow', hhigh'⟩ :=
    arithRenorm_reaches (codetextSource_padded_endless ws len p) ⟨hlow, hhigh⟩ k
  exact ⟨r', k', hrenorm, htop, hunder, hlow', hhigh'⟩

/-! The symbol step (R233). -/

theorem totalCount_cons (e : CtxEntry) (ctx : List CtxEntry) : totalCount (e :: ctx) = e.occ + totalCount ctx := by
  simp [totalCount]

/-- The cumulative ranges of a context cover all counts below its total. -/
theorem findEntry_of_lt {resc cum : Nat} {ctx : List CtxEntry} (hle : cum ≤ resc) (hlt : resc < cum + totalCount ctx) :
    ∃ e c, findEntry resc ctx cum = some (e, c) ∧ c ≤ resc ∧ resc < c + e.occ ∧ c + e.occ ≤ cum + totalCount ctx := by
  induction ctx generalizing cum with
  | nil => exact absurd hlt (by simp [totalCount, hle])
  | cons e ctx ih =>
    rw [totalCount_cons] at hlt ⊢
    rw [findEntry]
    by_cases hin : cum ≤ resc ∧ resc < cum + e.occ
    · exact ⟨e, cum, if_pos hin, hin.1, hin.2, by omega⟩
    · obtain ⟨e', c, hfind, hc, hrc, hend⟩ := ih (cum := cum + e.occ) (by omega) (by omega)
      exact ⟨e', c, (if_neg hin).trans hfind, hc, hrc, by omega⟩

/-- The registers after a symbol, before they are renormalized. -/
def ArithRegs.narrow (r : ArithRegs) (cum occ t : Nat) : ArithRegs :=
  { low := BitVec.ofNat 16 (r.newLow cum t), high := BitVec.ofInt 16 (r.newHigh cum occ t), code := r.code }

section

variable {r : ArithRegs} {t cum occ : Nat}

theorem ArithRegs.Ordered.resc_lt (hr : r.Ordered) (ht : 1 ≤ t) : r.resc t < t := by
  obtain ⟨hlc, hch⟩ := ArithRegs.ordered_iff.1 hr
  have hle : (r.code.toNat - r.low.toNat + 1) * t ≤ r.range * t :=
    Nat.mul_le_mul_right t (by rw [ArithRegs.range]; omega)
  have hpos : 0 < r.range * t := Nat.mul_pos (Nat.succ_pos _) ht
  have hrange : 0 < r.range := Nat.succ_pos _
  rw [ArithRegs.resc, Nat.div_lt_iff_lt_mul hrange, Nat.mul_comm t]
  omega

/-- The interval of the entry that contains `resc` holds the code, inside the old interval. -/
theorem ArithRegs.Ordered.narrow_bounds (hr : r.Ordered) (ht : 1 ≤ t) (hcum : cum ≤ r.resc t)
    (hocc : r.resc t < cum + occ) (hend : cum + occ ≤ t) :
    r.newLow cum t ≤ r.code.toNat ∧ (r.code.toNat : Int) ≤ r.newHigh cum occ t ∧
      r.newHigh cum occ t ≤ r.high.toNat := by
  obtain ⟨hlc, hch⟩ := ArithRegs.ordered_iff.1 hr
  have hrange : 0 < r.range := Nat.succ_pos _
  have hx : 0 < (r.code.toNat - r.low.toNat + 1) * t := Nat.mul_pos (Nat.succ_pos _) ht
  rw [ArithRegs.resc, Nat.le_div_iff_mul_le hrange] at hcum
  rw [ArithRegs.resc, Nat.div_lt_iff_lt_mul hrange] at hocc
  have hlow : r.range * cum / t < r.code.toNat - r.low.toNat + 1 := by
    rw [Nat.div_lt_iff_lt_mul ht, Nat.mul_comm]
    omega
  have hhigh : r.code.toNat - r.low.toNat + 1 ≤ r.range * (cum + occ) / t := by
    rw [Nat.le_div_iff_mul_le ht, Nat.mul_comm r.range]
    omega
  have hle : r.range * (cum + occ) / t ≤ r.range :=
    Nat.div_le_of_le_mul (by rw [Nat.mul_comm t]; exact Nat.mul_le_mul_left _ hend)
  unfold ArithRegs.newLow ArithRegs.newHigh
  have hdef : r.range = r.high.toNat - r.low.toNat + 1 := rfl
  omega

theorem ArithRegs.Ordered.narrow (hr : r.Ordered) (ht : 1 ≤ t) (hcum : cum ≤ r.resc t) (hocc : r.resc t < cum + occ)
    (hend : cum + occ ≤ t) : (r.narrow cum occ t).Ordered := by
  obtain ⟨hlow, hhigh, htop⟩ := hr.narrow_bounds ht hcum hocc hend
  have hl : (r.narrow cum occ t).low.toNat = r.newLow cum t := Nat.mod_eq_of_lt (by omega)
  have hh : ((r.narrow cum occ t).high.toNat : Int) = r.newHigh cum occ t := by
    rw [ArithRegs.narrow, BitVec.toNat_ofInt]
    omega
  rw [ArithRegs.ordered_iff]
  show _ ≤ r.code.toNat ∧ r.code.toNat ≤ _
  omega

end

section

variable {src : BitSource} {ctxs : List (List CtxEntry)} {ctx : List CtxEntry} {n c k : Nat} {r : ArithRegs}
  {oob : List Word} {e : CtxEntry} {cum : Nat}

/-- The code lies in the interval, so the check of R234 passes. -/
theorem ArithRegs.Ordered.not_outside (hr : r.Ordered) : ¬ (r.code < r.low ∨ r.high < r.code) :=
  not_or.2 ⟨BitVec.not_lt.2 hr.1, BitVec.not_lt.2 hr.2⟩

/-- The symbol step for a matching entry with an output value. -/
theorem arithValues_succ {x : Word} {oob' : List Word} (hc : ctxs[c]? = some ctx) (hr : r.Ordered)
    (ht : 1 ≤ totalCount ctx) (hfind : findEntry (r.resc (totalCount ctx)) ctx 0 = some (e, cum))
    (hcum : cum ≤ r.resc (totalCount ctx)) (hocc : r.resc (totalCount ctx) < cum + e.occ)
    (hend : cum + e.occ ≤ totalCount ctx) (hemit : emitEntry e oob = some (x, oob')) :
    arithValues src ctxs (n + 1) c r oob = (do
      let r' ← arithRenorm src 17 (r.narrow cum e.occ (totalCount ctx))
      if ctxs.length ≤ e.next then src.raise .ctx
      else do
        let rest ← arithValues src ctxs n e.next r' oob'
        pure (x :: rest.1, rest.2)) := by
  obtain ⟨hlow, hhigh, -⟩ := hr.narrow_bounds ht hcum hocc hend
  simp only [arithValues, hc, if_neg hr.not_outside, hfind, hemit]
  rw [if_neg (by omega)]
  rfl

/-- The symbol step for an escape with no OOB value left. -/
theorem arithValues_succ_oob (hc : ctxs[c]? = some ctx) (hr : r.Ordered)
    (hfind : findEntry (r.resc (totalCount ctx)) ctx 0 = some (e, cum)) (hemit : emitEntry e oob = none) :
    arithValues src ctxs (n + 1) c r oob = src.raise .oob := by
  simp only [arithValues, hc, if_neg hr.not_outside, hfind, hemit]

/-- From ordered registers no symbol step raises E_ARITH (R234). -/
theorem arithValues_error_code (hsrc : src.Endless) (htotals : ∀ ctx ∈ ctxs, 1 ≤ totalCount ctx) (hr : r.Ordered)
    {err : Err} (h : arithValues src ctxs n c r oob k = .error err) : err.code ≠ .arith := by
  induction n generalizing c r oob k with
  | zero => exact nomatch h
  | succ n ih =>
    cases hc : ctxs[c]? with
    | none =>
      simp only [arithValues, hc, BitSource.raise_eq] at h
      cases h
      exact nofun
    | some ctx =>
      have ht := htotals ctx (List.mem_of_getElem? hc)
      obtain ⟨e, cum, hfind, hcum, hocc, hend⟩ :=
        findEntry_of_lt (ctx := ctx) (Nat.zero_le _) (by simpa using hr.resc_lt ht)
      rw [Nat.zero_add] at hend
      cases hemit : emitEntry e oob with
      | none =>
        rw [arithValues_succ_oob hc hr hfind hemit] at h
        cases h
        exact nofun
      | some out =>
        obtain ⟨r', k', hrenorm, -, hr'⟩ := arithRenorm_reaches hsrc (hr.narrow ht hcum hocc hend) k
        rw [arithValues_succ hc hr ht hfind hcum hocc hend hemit, Cursor.bind_eq hrenorm] at h
        split at h
        · cases h
          exact nofun
        · rcases Cursor.bind_error.1 h with h | ⟨_, _, _, h⟩
          · exact ih hr' h
          · exact nomatch h

end

/-! The seed (R231). -/

/-- The registers the seed gives. -/
def ArithRegs.seed (code : BitVec 16) : ArithRegs := { low := 0x0000, high := 0xFFFF, code := code }

theorem ArithRegs.seed_ordered (code : BitVec 16) : (ArithRegs.seed code).Ordered :=
  ArithRegs.ordered_iff.2 ⟨Nat.zero_le _, Nat.le_of_lt_succ code.isLt⟩

theorem ArithRegs.seed_settled (code : BitVec 16) : (ArithRegs.seed code).Settled :=
  ⟨show (0xFFFF#16).getLsbD 15 ≠ (0x0000#16).getLsbD 15 by decide,
    show ¬ ((0x0000#16).getLsbD 14 = true ∧ (0xFFFF#16).getLsbD 14 = false) by decide⟩

/-- A padded codetext always gives the 16 bits of the seed. -/
theorem arithStart_eq (ws : List Word) (len p : Nat) (ctxs : List (List CtxEntry)) (n : Nat) (oob : List Word) :
    ∃ code, arithStart (codetextSource ws len true p) ctxs n oob 0 =
      arithValues (codetextSource ws len true p) ctxs n 0 (ArithRegs.seed code) oob 16 := by
  obtain ⟨x, hx⟩ := takes_readBits (b := 16) (n := 16) (fun k _ => codetextSource_padded_endless ws len p k) 0 0 le_rfl
  exact ⟨_, Cursor.bind_eq ((congrFun (readU32_eq_readBits (by decide) (by decide)) 0).trans hx)⟩

theorem oobDone_error {p : Nat} {r : Except Err (List Word × List Word)} {e : Err} (h : oobDone p r = .error e) :
    r = .error e ∨ e.code = .oob := by
  unfold oobDone at h
  split at h
  · cases h
    exact .inl rfl
  · exact nomatch h
  · cases h
    exact .inr rfl

/-- Settles O41: the interval always holds the code, so an entry matches and the new interval holds the code again. -/
theorem arithErrorUnreachable : Obligations.ArithErrorUnreachable := by
  intro ws len n ctxs oob p e h
  unfold arithDecode at h
  split at h
  · next hfit =>
    have htotals : ∀ ctx ∈ ctxs, 1 ≤ totalCount ctx := fun ctx hctx => by
      have hctx := List.all_eq_true.1 hfit ctx hctx
      simp only [Bool.and_eq_true, decide_eq_true_eq] at hctx
      exact hctx.1
    obtain ⟨code, hstart⟩ := arithStart_eq ws len p ctxs n oob
    rcases oobDone_error h with h | h
    · rw [hstart] at h
      cases hvals : arithValues (codetextSource ws len true p) ctxs n 0 (ArithRegs.seed code) oob 16 with
      | ok vals => rw [hvals] at h; exact nomatch h
      | error e' =>
        rw [hvals] at h
        cases h
        exact arithValues_error_code (codetextSource_padded_endless ws len p) htotals (ArithRegs.seed_ordered code)
          hvals
    · rw [h]
      decide
  · cases h
    exact nofun

/-! One symbol (R237). -/

/-- Entries of count 0 are never found. -/
theorem findEntry_append_of_zero {resc cum : Nat} {pre rest : List CtxEntry} (hpre : ∀ x ∈ pre, x.occ = 0) :
    findEntry resc (pre ++ rest) cum = findEntry resc rest cum := by
  induction pre with
  | nil => rfl
  | cons x pre ih =>
    obtain ⟨hx, hpre⟩ := List.forall_mem_cons.1 hpre
    rw [List.cons_append, findEntry, hx, if_neg (by omega), Nat.add_zero, ih hpre]

theorem totalCount_append (xs ys : List CtxEntry) : totalCount (xs ++ ys) = totalCount xs + totalCount ys := by
  simp [totalCount]

theorem totalCount_of_zero {ctx : List CtxEntry} (h : ∀ x ∈ ctx, x.occ = 0) : totalCount ctx = 0 :=
  List.sum_eq_zero (by simpa using h)

/-- An entry with all the counts leaves the seed's interval as it is. -/
theorem ArithRegs.narrow_seed (code : BitVec 16) {t : Nat} (ht : 1 ≤ t) :
    (ArithRegs.seed code).narrow 0 t t = ArithRegs.seed code := by
  have hlow : (ArithRegs.seed code).newLow 0 t = 0 := by
    rw [ArithRegs.newLow, Nat.mul_zero, Nat.zero_div]
    rfl
  have hrange : (ArithRegs.seed code).range = 65536 := by simp [ArithRegs.range, ArithRegs.seed]
  have hhigh : (ArithRegs.seed code).newHigh 0 t t = 0xFFFF := by
    rw [ArithRegs.newHigh, Nat.zero_add, Nat.mul_div_cancel _ ht, hrange]
    simp [ArithRegs.seed]
  rw [ArithRegs.narrow, hlow, hhigh]
  rfl

/-- Where one entry has all the counts, its value is decoded over and over from the seed's interval. -/
theorem arithValues_single {src : BitSource} {ctx : List CtxEntry} {e : CtxEntry} (htotal : totalCount ctx = e.occ)
    (hocc : 1 ≤ e.occ) (hfind : ∀ resc, resc < e.occ → findEntry resc ctx 0 = some (e, 0)) (hsymbol : e.symbol ≠ -2)
    (hnext : e.next = 0) (code : BitVec 16) (n k : Nat) :
    arithValues src [ctx] n 0 (ArithRegs.seed code) [] k = .ok ((List.replicate n e.val, []), k) := by
  have hordered := ArithRegs.seed_ordered code
  have hresc := hordered.resc_lt (htotal ▸ hocc)
  induction n with
  | zero => rfl
  | succ n ih =>
    rw [arithValues_succ rfl hordered (htotal ▸ hocc) (hfind _ (htotal ▸ hresc)) (Nat.zero_le _) (by omega) (by omega)
      (if_neg hsymbol), htotal, ArithRegs.narrow_seed code hocc,
      Cursor.bind_eq (arithRenorm_of_settled (ArithRegs.seed_settled code) _ _), hnext, if_neg (by simp),
      Cursor.bind_eq ih]
    rfl

/-- Settles O40: the one entry takes the whole interval, so no bit is read after the seed. -/
theorem singleSymbolArithmetic : Obligations.SingleSymbolArithmetic := by
  intro ws len p n pre post e hpre hpost hocc _ hsymbol hnext
  obtain ⟨code, hstart⟩ := arithStart_eq ws len p [pre ++ e :: post] n []
  have htotal : totalCount (pre ++ e :: post) = e.occ := by
    rw [totalCount_append, totalCount_cons, totalCount_of_zero hpre, totalCount_of_zero hpost]
    omega
  have hfind (resc : Nat) (h : resc < e.occ) : findEntry resc (pre ++ e :: post) 0 = some (e, 0) := by
    rw [findEntry_append_of_zero hpre, findEntry, if_pos (by omega)]
  exact hstart.trans (arithValues_single htotal hocc hfind hsymbol hnext code n 16)

end Sys2Proof.Machine

/-! Huffman trees and their walks (43_codecs.md R220 to R225). -/

namespace Sys2Proof.Machine

/-! The heap keeps its nodes (R221). -/

@[simp] theorem HuffTree.weight_leaf (e : CtxEntry) : (HuffTree.leaf e).weight = e.occ := rfl

@[simp] theorem HuffTree.weight_node (w : Nat) (l r : HuffTree) : (HuffTree.node w l r).weight = w := rfl

/-- The weight of all nodes of a heap. -/
def heapTotal (h : List HuffTree) : Nat := (h.map HuffTree.weight).sum

@[simp] theorem heapTotal_cons (x : HuffTree) (h : List HuffTree) : heapTotal (x :: h) = x.weight + heapTotal h := by
  simp [heapTotal]

theorem heapTotal_perm {h h' : List HuffTree} (hp : h.Perm h') : heapTotal h = heapTotal h' :=
  (hp.map HuffTree.weight).sum_eq

theorem weight_le_heapTotal {x : HuffTree} {h : List HuffTree} (hx : x ∈ h) : x.weight ≤ heapTotal h :=
  List.single_le_sum (fun _ _ => Nat.zero_le _) _ (List.mem_map_of_mem hx)

theorem heapSwap_perm (h : List HuffTree) (i j : Nat) : (heapSwap h i j).Perm h := by
  unfold heapSwap
  split
  · next a b ha hb =>
    obtain ⟨hi, rfl⟩ := List.getElem?_eq_some_iff.1 ha
    obtain ⟨hj, rfl⟩ := List.getElem?_eq_some_iff.1 hb
    exact List.set_set_perm hi hj
  · exact .refl h

theorem heapSwap_comm {i j : Nat} (hij : i ≠ j) (h : List HuffTree) : heapSwap h j i = heapSwap h i j := by
  unfold heapSwap
  cases h[i]? with
  | none => cases h[j]? <;> rfl
  | some a =>
    cases h[j]? with
    | none => rfl
    | some b => exact List.set_comm a b hij.symm

theorem siftUp_perm (fuel i : Nat) (h : List HuffTree) : (siftUp fuel i h).Perm h := by
  induction fuel generalizing i h with
  | zero => exact .refl h
  | succ fuel ih =>
    rw [siftUp]
    split
    · exact (ih _ _).trans (heapSwap_perm h _ _)
    · exact .refl h

theorem siftDown_perm (fuel i : Nat) (h : List HuffTree) : (siftDown fuel i h).Perm h := by
  induction fuel generalizing i h with
  | zero => exact .refl h
  | succ fuel ih =>
    rw [siftDown]
    split
    · exact (ih _ _).trans (heapSwap_perm h _ _)
    · exact .refl h

theorem heapPush_perm (h : List HuffTree) (x : HuffTree) : (heapPush h x).Perm (x :: h) :=
  (siftUp_perm _ _ _).trans (List.perm_append_singleton x h)

theorem foldl_heapPush_perm (ctx : List CtxEntry) (h : List HuffTree) :
    (ctx.foldl (fun h e => heapPush h (.leaf e)) h).Perm (ctx.map .leaf ++ h) := by
  induction ctx generalizing h with
  | nil => exact .refl h
  | cons e ctx ih => exact (ih _).trans (((heapPush_perm h (.leaf e)).append_left _).trans List.perm_middle)

theorem heapPop_singleton (x : HuffTree) : heapPop [x] = some (x, []) := rfl

/-- The last node takes the place of the top. -/
theorem heapPop_append (top last : HuffTree) (h : List HuffTree) :
    heapPop (top :: (h ++ [last])) = some (top, siftDown (h.length + 2) 0 (last :: h)) := by
  have hlast : (top :: (h ++ [last])).getLast? = some last := by
    rw [← List.cons_append, List.getLast?_append, List.getLast?_singleton]
    rfl
  have hrest : (top :: (h ++ [last])).dropLast = top :: h := by
    rw [← List.cons_append, List.dropLast_concat]
  simp only [heapPop, hlast, hrest, List.head?_cons, List.set_cons_zero, List.length_cons, List.length_append,
    List.length_nil]

/-! No sift moves a heaviest node up to the top. -/

theorem heapWeight_eq {h : List HuffTree} {i : Nat} {x : HuffTree} (hx : h[i]? = some x) :
    heapWeight h i = x.weight := by
  simp [heapWeight, hx]

section

variable {h : List HuffTree} {t : HuffTree}

/-- A swap that brings a lighter node to the top. -/
theorem heapSwap_zero_head {j : Nat} (hmax : ∀ x ∈ h, x.weight ≤ t.weight) (hj : 0 < j) (hlen : j < h.length)
    (hlt : heapWeight h j < heapWeight h 0) : (heapSwap h 0 j).head? ≠ some t := by
  obtain ⟨j, rfl⟩ := Nat.exists_eq_add_of_le' hj
  cases h with
  | nil => exact absurd hlen (Nat.not_lt_zero _)
  | cons top h =>
    have hget : (top :: h)[j + 1]? = some (h[j]'(Nat.lt_of_succ_lt_succ hlen)) := by simp
    rw [heapWeight_eq hget, heapWeight_eq List.getElem?_cons_zero] at hlt
    have htop := hmax top (List.mem_cons_self ..)
    simp only [heapSwap, hget, List.getElem?_cons_zero, List.set_cons_zero, List.set_cons_succ, List.head?_cons, ne_eq,
      Option.some.injEq]
    rintro rfl
    omega

/-- A swap of a place with a later, lighter one. -/
theorem heapSwap_head {i j : Nat} (hmax : ∀ x ∈ h, x.weight ≤ t.weight) (hij : i < j)
    (hlt : heapWeight h j < heapWeight h i) (hhead : h.head? ≠ some t) : (heapSwap h i j).head? ≠ some t := by
  by_cases hlen : j < h.length
  · cases i with
    | zero => exact heapSwap_zero_head hmax hij hlen hlt
    | succ i =>
      obtain ⟨j, rfl⟩ := Nat.exists_eq_add_of_le' (Nat.zero_lt_of_lt hij)
      cases h with
      | nil => exact hhead
      | cons top h =>
        unfold heapSwap
        split <;> exact hhead
  · have hnone : h[j]? = none := List.getElem?_eq_none (not_lt.1 hlen)
    have hsame : heapSwap h i j = h := by
      unfold heapSwap
      split
      · next hb => simp [hnone] at hb
      · rfl
    rwa [hsame]

theorem siftUp_head {fuel i : Nat} (hmax : ∀ x ∈ h, x.weight ≤ t.weight) (hhead : h.head? ≠ some t) :
    (siftUp fuel i h).head? ≠ some t := by
  induction fuel generalizing i h with
  | zero => exact hhead
  | succ fuel ih =>
    rw [siftUp]
    split
    · next hlt =>
      exact ih (fun x hx => hmax x ((heapSwap_perm ..).subset hx)) (heapSwap_head hmax (by omega) hlt.2 hhead)
    · exact hhead

theorem lt_smallerChild (h : List HuffTree) (i : Nat) : i < smallerChild h i := by
  unfold smallerChild
  split <;> omega

theorem smallerChild_lt {i : Nat} (hi : 2 * i + 1 < h.length) : smallerChild h i < h.length := by
  unfold smallerChild
  split <;> omega

theorem siftDown_head {fuel i : Nat} (hmax : ∀ x ∈ h, x.weight ≤ t.weight) (hhead : h.head? ≠ some t) :
    (siftDown fuel i h).head? ≠ some t := by
  induction fuel generalizing i h with
  | zero => exact hhead
  | succ fuel ih =>
    rw [siftDown]
    split
    · next hlt =>
      have hchild := lt_smallerChild h i
      rw [heapSwap_comm hchild.ne]
      exact ih (fun x hx => hmax x ((heapSwap_perm ..).subset hx)) (heapSwap_head hmax hchild hlt.2 hhead)
    · exact hhead

/-- A node at the top that is heavier than every other one sinks. -/
theorem siftDown_head_of_heavier {fuel : Nat} (hne : h ≠ []) (hlt : ∀ x ∈ h, x.weight < t.weight) :
    (siftDown (fuel + 1) 0 (t :: h)).head? ≠ some t := by
  have hmax : ∀ x ∈ t :: h, x.weight ≤ t.weight := List.forall_mem_cons.2 ⟨le_rfl, fun x hx => (hlt x hx).le⟩
  have hpos := lt_smallerChild (t :: h) 0
  have hchild : smallerChild (t :: h) 0 < (t :: h).length := by
    refine smallerChild_lt ?_
    have := List.length_pos_of_ne_nil hne
    rw [List.length_cons]
    omega
  have hlighter : heapWeight (t :: h) (smallerChild (t :: h) 0) < heapWeight (t :: h) 0 := by
    obtain ⟨j, hj⟩ := Nat.exists_eq_add_of_le' hpos
    rw [hj] at hchild ⊢
    have hget : (t :: h)[j + 1]? = some (h[j]'(Nat.lt_of_succ_lt_succ hchild)) := by simp
    rw [heapWeight_eq hget, heapWeight_eq List.getElem?_cons_zero]
    exact hlt _ (List.getElem_mem _)
  rw [siftDown, if_pos ⟨by omega, hlighter⟩, heapSwap_comm hpos.ne]
  exact siftDown_head (fun x hx => hmax x ((heapSwap_perm ..).subset hx)) (heapSwap_zero_head hmax hpos hchild hlighter)

end

/-! A heap with a leaf heavier than all other nodes together (R225). -/

/-- The heap holds the leaf of `e`, with more than half of the total weight, and has it at the top only when it is
alone. -/
structure MajorityHeap (e : CtxEntry) (h : List HuffTree) : Prop where
  mem : .leaf e ∈ h
  total : heapTotal h < 2 * e.occ
  head : 2 ≤ h.length → h.head? ≠ some (.leaf e)

section

variable {e : CtxEntry} {h : List HuffTree}

theorem weight_le_of_majority (hmem : .leaf e ∈ h) (htotal : heapTotal h < 2 * e.occ) :
    ∀ x ∈ h, x.weight ≤ (HuffTree.leaf e).weight := by
  intro x hx
  obtain ⟨xs, ys, rfl⟩ := List.append_of_mem hmem
  have hperm : (xs ++ .leaf e :: ys).Perm (.leaf e :: (xs ++ ys)) := List.perm_middle
  rw [heapTotal_perm hperm, heapTotal_cons] at htotal
  rcases List.mem_cons.1 (hperm.subset hx) with rfl | hx
  · exact le_rfl
  · have hle := weight_le_heapTotal hx
    rw [HuffTree.weight_leaf] at *
    omega

/-- A heap of one node is the leaf alone. -/
theorem eq_singleton_of_majority (hmem : .leaf e ∈ h) (hlen : ¬ 2 ≤ h.length) : h = [.leaf e] := by
  have hpos := List.length_pos_of_mem hmem
  obtain ⟨x, rfl⟩ := List.length_eq_one_iff.1 (show h.length = 1 by omega)
  rw [List.mem_singleton.1 hmem]

theorem MajorityHeap.push (hh : MajorityHeap e h) {x : HuffTree} (hx : x.weight + heapTotal h < 2 * e.occ) :
    MajorityHeap e (heapPush h x) := by
  have hperm := heapPush_perm h x
  have hmem : .leaf e ∈ x :: h := List.mem_cons_of_mem _ hh.mem
  refine ⟨hperm.mem_iff.2 hmem, by rwa [heapTotal_perm hperm, heapTotal_cons], fun _ => ?_⟩
  have hmax : ∀ y ∈ h ++ [x], y.weight ≤ (HuffTree.leaf e).weight := fun y hy =>
    weight_le_of_majority hmem (by rwa [heapTotal_cons]) y ((List.perm_append_singleton x h).subset hy)
  by_cases hlen : 2 ≤ h.length
  · refine siftUp_head hmax ?_
    rw [List.head?_append_of_ne_nil _ (List.ne_nil_of_mem hh.mem)]
    exact hh.head hlen
  · obtain rfl := eq_singleton_of_majority hh.mem hlen
    have hlt : heapWeight [.leaf e, x] 1 < heapWeight [.leaf e, x] 0 := by
      have hlight : x.weight < e.occ := by
        rw [heapTotal_cons, HuffTree.weight_leaf] at hx
        omega
      exact hlight
    show (siftUp 1 1 [.leaf e, x]).head? ≠ _
    rw [siftUp, if_pos ⟨one_pos, hlt⟩]
    exact heapSwap_zero_head hmax one_pos Nat.one_lt_two hlt

/-- The leaf itself joins lighter nodes. -/
theorem majorityHeap_push_leaf (hlight : heapTotal h < e.occ) : MajorityHeap e (heapPush h (.leaf e)) := by
  have hperm := heapPush_perm h (.leaf e)
  have htotal : heapTotal (.leaf e :: h) < 2 * e.occ := by
    rw [heapTotal_cons, HuffTree.weight_leaf]
    omega
  have hmem : HuffTree.leaf e ∈ .leaf e :: h := List.mem_cons_self ..
  refine ⟨hperm.mem_iff.2 hmem, by rwa [heapTotal_perm hperm], fun hlen => ?_⟩
  have hne : h ≠ [] := by
    rintro rfl
    exact absurd hlen (Nat.not_succ_le_self 1)
  refine siftUp_head (fun y hy => weight_le_of_majority hmem htotal y ((List.perm_append_singleton _ h).subset hy)) ?_
  rw [List.head?_append_of_ne_nil _ hne]
  intro hhead
  exact absurd hlight (not_lt.2 (weight_le_heapTotal (List.mem_of_mem_head? hhead)))

theorem MajorityHeap.foldl_push (hh : MajorityHeap e h) {ctx : List CtxEntry}
    (htotal : totalCount ctx + heapTotal h < 2 * e.occ) :
    MajorityHeap e (ctx.foldl (fun h x => heapPush h (.leaf x)) h) := by
  induction ctx generalizing h with
  | nil => exact hh
  | cons x ctx ih =>
    rw [totalCount_cons] at htotal
    refine ih (hh.push (by rw [HuffTree.weight_leaf]; omega)) ?_
    rw [heapTotal_perm (heapPush_perm h (.leaf x)), heapTotal_cons, HuffTree.weight_leaf]
    omega

/-- Another node is taken from the top while there is one. -/
theorem MajorityHeap.pop (hh : MajorityHeap e h) (hlen : 2 ≤ h.length) :
    ∃ a h', heapPop h = some (a, h') ∧ h.Perm (a :: h') ∧ MajorityHeap e h' := by
  obtain ⟨hmem, htotal, hhead⟩ := hh
  have hhead := hhead hlen
  cases h with
  | nil => exact absurd hmem List.not_mem_nil
  | cons top h =>
    rcases List.eq_nil_or_concat h with rfl | ⟨xs, last, rfl⟩
    · exact absurd hlen (Nat.not_succ_le_self 1)
    · rw [List.concat_eq_append] at *
      have hperm : (last :: xs).Perm (xs ++ [last]) := (List.perm_append_singleton last xs).symm
      have hsift := siftDown_perm (xs.length + 2) 0 (last :: xs)
      have hne : top ≠ .leaf e := fun h => hhead (congrArg some h)
      have hmem' : .leaf e ∈ last :: xs := hperm.mem_iff.2 ((List.mem_cons.1 hmem).resolve_left hne.symm)
      have htotal' : heapTotal (last :: xs) < 2 * e.occ := by
        rw [heapTotal_cons, ← heapTotal_perm hperm] at htotal
        omega
      refine ⟨_, _, heapPop_append top last xs, (hperm.symm.trans hsift.symm).cons top, hsift.mem_iff.2 hmem',
        by rwa [heapTotal_perm hsift], fun hlen' => ?_⟩
      by_cases hlast : last = .leaf e
      · subst hlast
        have hxs : xs ≠ [] := by
          rintro rfl
          exact absurd (hlen'.trans_eq hsift.length_eq) (Nat.not_succ_le_self 1)
        refine siftDown_head_of_heavier hxs fun x hx => ?_
        have hle := weight_le_heapTotal hx
        rw [heapTotal_cons, HuffTree.weight_leaf] at htotal'
        rw [HuffTree.weight_leaf]
        omega
      · exact siftDown_head (weight_le_of_majority hmem' htotal') fun h => hlast (Option.some.inj h)

/-- The leaf is merged last, as the second node taken. -/
theorem mergeHeap_majority {p fuel : Nat} {t : HuffTree} (hh : MajorityHeap e h) (hlen : 2 ≤ h.length)
    (ht : mergeHeap p fuel h = .ok t) : ∃ w l, t = .node w l (.leaf e) := by
  induction fuel generalizing h with
  | zero => exact nomatch ht
  | succ fuel ih =>
    obtain ⟨a, h1, hpop, hperm, hh1⟩ := hh.pop hlen
    by_cases hlen1 : 2 ≤ h1.length
    · obtain ⟨b, h2, hpop1, hperm1, hh2⟩ := hh1.pop hlen1
      simp only [mergeHeap, hpop, hpop1] at ht
      split at ht
      · exact nomatch ht
      · have htotal := hh.total
        rw [heapTotal_perm hperm, heapTotal_cons, heapTotal_perm hperm1, heapTotal_cons] at htotal
        refine ih (hh2.push (by rw [HuffTree.weight_node]; omega)) ?_ ht
        rw [(heapPush_perm _ _).length_eq, List.length_cons]
        have := List.length_pos_of_mem hh2.mem
        omega
    · obtain rfl := eq_singleton_of_majority hh1.mem hlen1
      simp only [mergeHeap, hpop, heapPop_singleton] at ht
      split at ht
      · exact nomatch ht
      · cases fuel with
        | zero => exact nomatch ht
        | succ fuel =>
          cases ht
          exact ⟨_, _, rfl⟩

end

/-- Settles O47: the entry's leaf outweighs all other nodes together, which the heap and the merging keep. -/
theorem huffmanMajorityCode : Obligations.HuffmanMajorityCode := by
  intro p pre post e t hne hmajor ht
  rw [totalCount_append] at hmajor
  have htotal (ctx : List CtxEntry) : heapTotal (ctx.map .leaf ++ []) = totalCount ctx := by
    rw [List.append_nil, heapTotal, List.map_map]
    rfl
  have hpre := foldl_heapPush_perm pre []
  have hlight : heapTotal (pre.foldl (fun h x => heapPush h (.leaf x)) []) < e.occ := by
    rw [heapTotal_perm hpre, htotal]
    omega
  rw [buildTree, List.foldl_append, List.foldl_cons] at ht
  refine mergeHeap_majority ((majorityHeap_push_leaf hlight).foldl_push ?_) ?_ ht
  · rw [heapTotal_perm (heapPush_perm ..), heapTotal_cons, HuffTree.weight_leaf, heapTotal_perm hpre, htotal]
    omega
  · have hlen := (foldl_heapPush_perm (pre ++ e :: post) []).length_eq
    have hpos := List.length_pos_of_ne_nil hne
    rw [List.foldl_append, List.foldl_cons] at hlen
    simp only [List.append_nil, List.length_map, List.length_append, List.length_cons] at hlen hpos
    omega

/-! Walks (R220, R224), and the escape (R203, R223). -/

section

variable {src : BitSource} {trees : List HuffTree} {t : HuffTree} {e : CtxEntry} {n c k k' : Nat} {oob : List Word}

/-- A value: a walk to a leaf, its output, and its next context. -/
theorem huffValues_succ {x : Word} {oob' : List Word} (hc : trees[c]? = some t) (hwalk : huffWalk src t k = .ok (e, k'))
    (hemit : emitEntry e oob = some (x, oob')) (hnext : e.next < trees.length) :
    huffValues src trees (n + 1) c oob k = (do
      let rest ← huffValues src trees n e.next oob'
      pure (x :: rest.1, rest.2)) k' := by
  simp only [huffValues, hc]
  rw [Cursor.bind_eq hwalk]
  simp only [hemit]
  rw [if_neg (not_le.2 hnext)]

theorem huffValues_succ_oob (hc : trees[c]? = some t) (hwalk : huffWalk src t k = .ok (e, k'))
    (hemit : emitEntry e oob = none) :
    huffValues src trees (n + 1) c oob k = .error { code := .oob, info := src.pos k' } := by
  simp only [huffValues, hc]
  rw [Cursor.bind_eq hwalk]
  simp only [hemit, BitSource.raise_eq]

/-- A tree of one leaf gives its value without reading a bit. -/
theorem huffValues_leaf (hsymbol : e.symbol ≠ -2) (hnext : e.next = 0) :
    huffValues src [.leaf e] n 0 oob k = .ok ((List.replicate n e.val, oob), k) := by
  induction n with
  | zero => rfl
  | succ n ih =>
    rw [huffValues_succ rfl rfl (if_neg hsymbol) (by simp [hnext]), hnext, Cursor.bind_eq ih]
    rfl

/-- A tree of one escape leaf gives the OOB values in order, until none is left. -/
theorem huffValues_escape (hsymbol : e.symbol = -2) (hnext : e.next = 0) :
    huffValues src [.leaf e] n 0 oob k =
      if n ≤ oob.length then .ok ((oob.take n, oob.drop n), k) else .error { code := .oob, info := src.pos k } := by
  induction n generalizing oob with
  | zero => rfl
  | succ n ih =>
    cases oob with
    | nil => exact huffValues_succ_oob rfl rfl (if_pos hsymbol)
    | cons x oob =>
      have hemit : emitEntry e (x :: oob) = some (x, oob) := if_pos hsymbol
      rw [huffValues_succ rfl rfl hemit (by simp [hnext]), hnext]
      simp only [List.length_cons, Nat.add_le_add_iff_right, List.take_succ_cons, List.drop_succ_cons]
      have ih := ih (oob := oob)
      by_cases hle : n ≤ oob.length
      · rw [if_pos hle] at ih ⊢
        rw [Cursor.bind_eq ih]
        rfl
      · rw [if_neg hle] at ih ⊢
        exact Cursor.bind_eq_error ih

/-- A tree of two leaves reads one bit for each value. -/
theorem passes_huffValues_pair {w : Nat} {x y : CtxEntry} {bits : List Bool} (hx : x.symbol ≠ -2) (hy : y.symbol ≠ -2)
    (hxnext : x.next = 0) (hynext : y.next = 0) :
    src.Passes (huffValues src [.node w (.leaf x) (.leaf y)] bits.length 0 []) bits
      (pure (bits.map fun b => if b then x.val else y.val, [])) := by
  induction bits with
  | nil => exact .refl _
  | cons b bits ih =>
    intro k h
    obtain ⟨hbit, hbits⟩ := BitSource.gives_cons.1 h
    have hwalk : huffWalk src (.node w (.leaf x) (.leaf y)) k = .ok (if b then x else y, k + 1) := by
      rw [huffWalk, Cursor.bind_eq hbit]
      cases b <;> rfl
    have hemit : emitEntry (if b then x else y) [] = some (if b then x.val else y.val, []) := by
      cases b
      · exact if_neg hy
      · exact if_neg hx
    have hnext : (if b then x else y).next = 0 := by cases b <;> assumption
    rw [List.length_cons, huffValues_succ rfl hwalk hemit (by simp [hnext]), hnext, Cursor.bind_eq (ih hbits),
      Nat.add_right_comm, Nat.add_assoc]
    rfl

end

/-- The tree of two entries, the rarer first. -/
theorem buildTree_pair {p : Nat} {x y : CtxEntry} (hlt : x.occ < y.occ) (hsum : x.occ + y.occ < 2 ^ 32) :
    buildTree p [x, y] = .ok (.node (x.occ + y.occ) (.leaf x) (.leaf y)) := by
  have hle : ¬ heapWeight [.leaf x, .leaf y] 1 < heapWeight [.leaf x, .leaf y] 0 := Nat.lt_asymm hlt
  have hpush : siftUp 1 1 [.leaf x, .leaf y] = [.leaf x, .leaf y] := if_neg fun h => hle h.2
  have hpop : heapPop [.leaf x, .leaf y] = some (.leaf x, [.leaf y]) := rfl
  have hlegal : ¬ 2 ^ 32 - 1 < (HuffTree.leaf x).weight + (HuffTree.leaf y).weight := by
    show ¬ 2 ^ 32 - 1 < x.occ + y.occ
    omega
  show mergeHeap p 2 (siftUp 1 1 [.leaf x, .leaf y]) = _
  rw [hpush, mergeHeap]
  simp only [hpop, heapPop_singleton, if_neg hlegal]
  rfl

/-- A codetext decoded with one context. -/
theorem huffmanDecode_of_tree {p : Nat} {ctx : List CtxEntry} {t : HuffTree} (h : buildTree p ctx = .ok t)
    (ws : List Word) (len n : Nat) (oob : List Word) :
    huffmanDecode ws len n [ctx] oob p =
      oobDone p (exactly len p (huffValues (codetextSource ws len false p) [t] n 0 oob 0)) := by
  simp only [huffmanDecode, buildTrees, h]

/-- Settles O48: the walk in a tree of one leaf reads no bit, in a tree of two leaves one. -/
theorem huffmanWalk : Obligations.HuffmanWalk := by
  refine ⟨fun ws n p e hnext => ⟨fun hsymbol => ?leaf, fun hsymbol oob => ?escape⟩,
    fun ws len p x y bits hxnext hynext hx hy hlt hsum hbits => ?pair⟩
  case leaf => rw [huffmanDecode_of_tree (t := .leaf e) rfl, huffValues_leaf hsymbol hnext]; rfl
  case escape =>
    rw [huffmanDecode_of_tree (t := .leaf e) rfl, huffValues_escape hsymbol hnext]
    rcases lt_trichotomy oob.length n with hlt | rfl | hgt
    · rw [if_neg (not_le.2 hlt), if_neg hlt.ne]
      rfl
    · rw [if_pos le_rfl, if_pos rfl, List.take_length, List.drop_length]
      rfl
    · rw [if_pos hgt.le, if_neg hgt.ne', List.drop_eq_getElem_cons hgt]
      rfl
  case pair =>
    rw [huffmanDecode_of_tree (buildTree_pair hlt hsum),
      exactly_of_passes hbits (passes_huffValues_pair hx hy hxnext hynext)]
    rfl

end Sys2Proof.Machine

/-! Predictor passes (44_predictors.md R260 to R273). -/

namespace Sys2Proof.Machine

/-! Each value from the values before it (R261, R262). -/

/-- The value `unpackFrom` puts at index `i` for the residual `x`, the values already built being `built`, newest
first. -/
def nextValue (t : PredType) (i : Nat) (built : List Word) (x : Word) : Word :=
  if 4 ≤ built.length then combine t x (predict t i (built.getD 0 0) (built.getD 1 0) (built.getD 3 0)) else x

theorem unpackFrom_cons (t : PredType) (i : Nat) (built : List Word) (x : Word) (r : List Word) :
    unpackFrom t i built (x :: r) =
      nextValue t i built x :: unpackFrom t (i + 1) (nextValue t i built x :: built) r := by
  match built with
  | [] | [_] | [_, _] | [_, _, _] | _ :: _ :: _ :: _ :: _ => simp [unpackFrom, nextValue]

/-- A value of the whole list, the values built before the run included, is the next value of those before it. -/
theorem getD_reverse_append_unpackFrom (t : PredType) (built r v : List Word)
    (hv : v = built.reverse ++ unpackFrom t built.length built r) {k : Nat} (hk : k < r.length) :
    v.getD (built.length + k) 0 =
      nextValue t (built.length + k) (v.take (built.length + k)).reverse (r.getD k 0) := by
  induction r generalizing built k with
  | nil => exact absurd hk (Nat.not_lt_zero k)
  | cons x r ih =>
    rw [unpackFrom_cons] at hv
    cases k with
    | zero => simp [hv]
    | succ k =>
      have hlen : built.length + (k + 1) = (nextValue t built.length built x :: built).length + k := by
        rw [List.length_cons, Nat.add_right_comm, Nat.add_assoc]
      rw [hlen]
      exact ih _ (by simp [hv]) (Nat.lt_of_succ_lt_succ hk)

theorem getD_unpackFrom (t : PredType) {r : List Word} {k : Nat} (hk : k < r.length) :
    (unpackFrom t 0 [] r).getD k 0 = nextValue t k ((unpackFrom t 0 [] r).take k).reverse (r.getD k 0) := by
  simpa using getD_reverse_append_unpackFrom t [] r _ rfl hk

/-- Newest first, the values before index `k` are those 1, 2, ... places before it. -/
theorem getD_reverse_take {v : List Word} {k j : Nat} (hk : k ≤ v.length) (hj : j < k) :
    (v.take k).reverse.getD j 0 = v.getD (k - (j + 1)) 0 := by
  have hlen : (v.take k).length = k := List.length_take_of_le hk
  rw [List.getD_eq_getElem?_getD, List.getElem?_reverse (by omega), List.getElem?_take_of_lt (by omega), hlen,
    List.getD_eq_getElem?_getD, Nat.sub_sub, Nat.add_comm 1 j]

theorem rebuilt_unpackFrom (t : PredType) (r : List Word) :
    Rebuilt r (unpackFrom t 0 [] r) fun i x v1 v2 v4 => combine t x (predict t i v1 v2 v4) := by
  refine ⟨unpackFrom_length t 0 [] r, fun i hi => ?_⟩
  have hle : i ≤ (unpackFrom t 0 [] r).length := by rw [unpackFrom_length]; exact hi.le
  have hlen : ((unpackFrom t 0 [] r).take i).reverse.length = i := by
    rw [List.length_reverse, List.length_take_of_le hle]
  rw [getD_unpackFrom t hi, nextValue, hlen]
  refine ⟨fun hfirst => if_neg (Nat.not_le.2 hfirst), fun hlater => ?_⟩
  rw [if_pos hlater, getD_reverse_take hle (by omega), getD_reverse_take hle (by omega),
    getD_reverse_take hle (by omega)]

/-! Wrapped sums of i32 values as sums of words (R10). -/

theorem wrap32_toInt (x : Word) : wrap32 x.toInt = x := BitVec.ofInt_toInt

theorem wrap32_toInt_add (x : Word) (n : Int) : wrap32 (x.toInt + n) = x + wrap32 n :=
  (BitVec.ofInt_add x.toInt n).trans (congrArg (· + wrap32 n) (wrap32_toInt x))

/-- A residual, a value and an extrapolation `n`: wrapping once at the end is wrapping each sum. -/
theorem wrap32_toInt_add_toInt_add (r x : Word) (n : Int) :
    wrap32 (r.toInt + x.toInt + n) = r + (x + wrap32 n) := by
  rw [Int.add_assoc, wrap32_toInt_add, wrap32_toInt_add]

theorem wrap32_toInt_sub (x y : Word) : wrap32 (x.toInt - y.toInt) = x - y :=
  BitVec.eq_of_toInt_eq (by rw [BitVec.toInt_ofInt, BitVec.toInt_sub])

/-! The commands. -/

/-- Every type but NULL unpacks from no values built (R261). -/
theorem unpack_eq_unpackFrom {t : PredType} (ht : t ≠ .null) (r : List Word) : unpack t r = unpackFrom t 0 [] r := by
  cases t with
  | null => exact absurd rfl ht
  | _ => rfl

/-- Every PRED but NULL completes with values that follow its type's recurrence (R260, R261). -/
theorem predCommand_rebuilds {t : PredType} (ht : t ≠ .null) (s : State) (a b : SlotNo)
    {f : Nat → Word → Word → Word → Word → Word}
    (hf : ∀ i x v1 v2 v4, combine t x (predict t i v1 v2 v4) = f i x v1 v2 v4) :
    ∃ v, predCommand t a b s = .next ((s.setSlot b v).complete 0 (u32 v.length)) ∧ Rebuilt (s.slot a) v f := by
  have hrec : (fun i x v1 v2 v4 => combine t x (predict t i v1 v2 v4)) = f := by
    funext i x v1 v2 v4
    exact hf i x v1 v2 v4
  refine ⟨unpack t (s.slot a), ?_, ?_⟩
  · rw [predCommand_eq, unpack_length]
  · rw [unpack_eq_unpackFrom ht, ← hrec]
    exact rebuilt_unpackFrom t (s.slot a)

/-- Settles O49: each type's recurrence, with the sum of words as the wrapped sum. -/
theorem predLagXorRampNull : Obligations.PredLagXorRampNull := by
  refine fun s a b => ⟨?lag1, ?lag2, ?ramp, ?xor1, ?xor2, ?null⟩
  case lag1 =>
    refine predCommand_rebuilds (t := .lag1) nofun s a b fun _ r v1 _ _ => ?_
    rw [wrap32_toInt_add, wrap32_toInt]
    rfl
  case lag2 =>
    refine predCommand_rebuilds (t := .lag2) nofun s a b fun _ r _ v2 _ => ?_
    rw [wrap32_toInt_add, wrap32_toInt]
    rfl
  case ramp =>
    refine predCommand_rebuilds (t := .ramp) nofun s a b fun i r _ _ _ => ?_
    rw [wrap32_toInt_add]
    exact congrArg (r + ·) (BitVec.ofInt_natCast 32 i).symm
  case xor1 => exact predCommand_rebuilds (t := .xor1) nofun s a b fun _ _ _ _ _ => rfl
  case xor2 => exact predCommand_rebuilds (t := .xor2) nofun s a b fun _ _ _ _ _ => rfl
  case null => exact predCommand_eq .null a b s

/-- Settles O50: the extrapolations wrap once or at each step alike, STRIPINDEX by its two cases. -/
theorem predStride : Obligations.PredStride := by
  refine fun s a b => ⟨?stride1, ?stride2, ?stripindex⟩
  case stride1 =>
    refine predCommand_rebuilds (t := .stride1) nofun s a b fun _ r v1 v2 _ => ?_
    rw [wrap32_toInt_add_toInt_add, wrap32_toInt_sub]
    rfl
  case stride2 =>
    refine predCommand_rebuilds (t := .stride2) nofun s a b fun _ r _ v2 v4 => ?_
    rw [wrap32_toInt_add_toInt_add, wrap32_toInt_sub]
    rfl
  case stripindex =>
    refine predCommand_rebuilds (t := .stripindex) nofun s a b fun _ r _ v2 v4 => ?_
    show r + (if _ then v2 + (v2 - v4) else v2 + 2) = _
    split
    case isTrue => rw [wrap32_toInt_add_toInt_add, wrap32_toInt]
    case isFalse =>
      rw [wrap32_toInt_add_toInt_add]
      rfl

end Sys2Proof.Machine

/-! Rounding (00_scope.md R11, 45_vertex.md R284). -/

namespace Sys2Proof.Machine

/-- An exact quotient is not changed by rounding. -/
theorem divNearestEven_mul_right (m : Nat) {den : Nat} (h : 0 < den) : divNearestEven (m * den) den = m := by
  simp [divNearestEven, h]

/-- The quotient is within half a unit of the exact one, and even at a tie. -/
theorem divNearestEven_nearest (num : Nat) {den : Nat} (hden : 0 < den) :
    2 * num ≤ 2 * (den * divNearestEven num den) + den ∧ 2 * (den * divNearestEven num den) ≤ 2 * num + den ∧
      (2 * num = 2 * (den * divNearestEven num den) + den ∨ 2 * (den * divNearestEven num den) = 2 * num + den →
        divNearestEven num den % 2 = 0) := by
  have hdiv := Nat.div_add_mod num den
  have hmod := Nat.mod_lt num hden
  unfold divNearestEven
  split_ifs with hbelow habove
  · omega
  · rw [Nat.mul_add_one]
    omega
  · have htie : 2 * (num % den) = den := by omega
    obtain heven | hodd := Nat.mod_two_eq_zero_or_one (num / den)
    · rw [heven, Nat.add_zero]
      omega
    · rw [hodd, Nat.mul_add_one]
      omega

/-! Values that a format holds exactly. -/

theorem log2_mul_two_pow {m : Nat} (hm : m ≠ 0) (k : Nat) : Nat.log2 (m * 2 ^ k) = Nat.log2 m + k := by
  obtain ⟨hge, hlt⟩ := (Nat.log2_eq_iff hm).1 rfl
  refine (Nat.log2_eq_iff (Nat.mul_ne_zero hm (Nat.two_pow_pos k).ne')).2 ⟨?_, ?_⟩
  · rw [Nat.pow_add]
    exact Nat.mul_le_mul_right _ hge
  · rw [Nat.add_right_comm, Nat.pow_add]
    exact Nat.mul_lt_mul_of_pos_right hlt (Nat.two_pow_pos k)

theorem log2_twoDen (e : Int) : Nat.log2 (twoDen e) = (-e).toNat := Nat.log2_two_pow

/-- The leading bit of `m * 2^e`. -/
theorem floorLog2_mul_twoNum {m : Nat} (hm : m ≠ 0) (e : Int) :
    floorLog2 (m * twoNum e) (twoDen e) = Nat.log2 m + e := by
  have hlog : (Nat.log2 (m * twoNum e) : Int) - Nat.log2 (twoDen e) = Nat.log2 m + e := by
    rw [twoNum, log2_mul_two_pow hm, log2_twoDen]
    omega
  have hle : twoDen e * twoNum (Nat.log2 m + e) ≤ m * twoNum e * twoDen (Nat.log2 m + e) := by
    have hself : 2 ^ Nat.log2 m ≤ m := Nat.log2_self_le hm
    calc twoDen e * twoNum (Nat.log2 m + e) = 2 ^ Nat.log2 m * (twoNum e * twoDen (Nat.log2 m + e)) := by
          simp only [twoNum, twoDen, ← Nat.pow_add]
          congr 1
          omega
      _ ≤ m * (twoNum e * twoDen (Nat.log2 m + e)) := Nat.mul_le_mul_right _ hself
      _ = m * twoNum e * twoDen (Nat.log2 m + e) := (Nat.mul_assoc ..).symm
  simp only [floorLog2, hlog, if_pos hle]

/-- The format holds `m * 2^e` with `e` as the exponent of its last bit: the mantissa uses the whole precision, or the
exponent is the least one (a subnormal). -/
structure FloatFormat.Holds (f : FloatFormat) (m : Nat) (e : Int) : Prop where
  ne_zero : m ≠ 0
  lt : m < 2 ^ f.prec
  normal : 2 ^ (f.prec - 1) ≤ m ∨ e = f.qmin
  qmin_le : f.qmin ≤ e
  le_qmax : e ≤ f.qmax

/-- Rounding picks the exponent the value is held with. -/
theorem FloatFormat.Holds.exponent {f : FloatFormat} {m : Nat} {e : Int} (h : f.Holds m e) :
    max ((Nat.log2 m : Int) + e - (f.prec - 1)) f.qmin = e := by
  have hlt : Nat.log2 m < f.prec := (Nat.log2_lt h.ne_zero).2 h.lt
  have hqmin := h.qmin_le
  rcases h.normal with hfull | hsub
  · have hge : f.prec - 1 ≤ Nat.log2 m := (Nat.le_log2 h.ne_zero).2 hfull
    omega
  · omega

/-- A value the format holds is not changed by rounding. -/
theorem roundFin_of_holds {f : FloatFormat} {m : Nat} {e : Int} (h : f.Holds m e) (neg : Bool) :
    roundFin f neg m e = .fin neg m e := by
  have hnum : m * twoNum e ≠ 0 := Nat.mul_ne_zero h.ne_zero (Nat.two_pow_pos _).ne'
  have hquot : divNearestEven (m * twoNum e * twoDen e) (twoDen e * twoNum e) = m := by
    rw [Nat.mul_assoc, Nat.mul_comm (twoNum e)]
    exact divNearestEven_mul_right m (Nat.mul_pos (Nat.two_pow_pos _) (Nat.two_pow_pos _))
  have hfits : ¬ (f.qmax < e ∨ e = f.qmax ∧ 2 ^ f.prec ≤ m) := by
    rintro (hgt | ⟨-, hge⟩)
    · exact absurd h.le_qmax (not_le.2 hgt)
    · exact absurd h.lt (not_lt.2 hge)
  simp only [roundFin, roundTo, if_neg hnum, floorLog2_mul_twoNum h.ne_zero, h.exponent, hquot, if_neg hfits]

/-! Bit patterns of binary32. -/

/-- A word is its sign bit and the 31 bits below it. -/
theorem sign_or_mod (w : Word) :
    (if w.getLsbD 31 then (0x80000000 : Word) else 0) ||| u32 (w.toNat % 2 ^ 31) = w := by
  have hsign : (0x80000000 : Word) = BitVec.twoPow 32 31 := by decide
  refine BitVec.eq_of_getLsbD_eq fun i hi => ?_
  rw [BitVec.getLsbD_or, BitVec.getLsbD_ofNat, Nat.testBit_mod_two_pow, BitVec.testBit_toNat, hsign]
  rcases Nat.lt_succ_iff_lt_or_eq.1 hi with hlt | rfl
  · have hclear : (if w.getLsbD 31 then BitVec.twoPow 32 31 else 0).getLsbD i = false := by
      split <;> simp [BitVec.getLsbD_twoPow, hlt.ne']
    rw [hclear]
    simp [hi, hlt]
  · cases w.getLsbD 31 <;> simp

/-- The exponent and fraction fields make up the 31 bits below the sign. -/
theorem exponent_fraction (w : Word) :
    (w.extractLsb' 23 8).toNat * 2 ^ 23 + (w.extractLsb' 0 23).toNat = w.toNat % 2 ^ 31 := by
  simp only [BitVec.extractLsb'_toNat, Nat.shiftRight_eq_div_pow]
  omega

/-- All a word can be read as (R9): a NaN, an infinity, a zero, or a value binary32 holds; and what its bits below the
sign then are. -/
theorem ofBits32_cases (w : Word) :
    ofBits32 w = .nan ∨ (ofBits32 w = .inf (w.getLsbD 31) ∧ w.toNat % 2 ^ 31 = 0x7F800000) ∨
      (ofBits32 w = .fin (w.getLsbD 31) 0 (-149) ∧ w.toNat % 2 ^ 31 = 0) ∨
      ∃ m e, ofBits32 w = .fin (w.getLsbD 31) m e ∧ binary32.Holds m e ∧ magnitude32 m e = w.toNat % 2 ^ 31 := by
  have hbits := exponent_fraction w
  have hfrac : (w.extractLsb' 0 23).toNat < 2 ^ 23 := (w.extractLsb' 0 23).isLt
  have hexp : (w.extractLsb' 23 8).toNat < 2 ^ 8 := (w.extractLsb' 23 8).isLt
  rw [← hbits]
  unfold ofBits32
  simp only
  generalize (w.extractLsb' 0 23).toNat = frac at *
  generalize (w.extractLsb' 23 8).toNat = exp at *
  split_ifs with hmax hinf hmin
  case pos => exact .inr (.inl ⟨rfl, by omega⟩)
  case neg => exact .inl rfl
  case pos =>
    rcases Nat.eq_zero_or_pos frac with rfl | hpos
    · exact .inr (.inr (.inl ⟨rfl, by omega⟩))
    · refine .inr (.inr (.inr ⟨_, _, rfl, ⟨hpos.ne', hfrac.trans (by decide), .inr rfl, le_rfl, by decide⟩, ?_⟩))
      rw [hmin]
      rfl
  case neg =>
    have hlt : 2 ^ 23 + frac < 2 ^ 24 := by omega
    refine .inr (.inr (.inr ⟨_, _, rfl, ⟨by omega, hlt, .inl (Nat.le_add_right ..), ?_, ?_⟩, ?_⟩))
    · show (-149 : Int) ≤ exp - 150
      omega
    · show (exp : Int) - 150 ≤ 104
      omega
    · have hshift : ((exp : Int) - 150 + 149).toNat + 1 = exp := by omega
      rw [magnitude32, ← Nat.add_assoc, ← Nat.add_one_mul, hshift]

/-- Settles O53: the nearest quotient, and no rounding of what binary32 holds. -/
theorem binaryRounding : Obligations.BinaryRounding := by
  refine ⟨fun num den hden => ?_, fun w nan hw => ?_⟩
  · obtain ⟨hbelow, habove, htie⟩ := divNearestEven_nearest num hden
    rw [Int.mul_assoc 2 (den : Int), ← Int.natCast_mul]
    omega
  · have hword := sign_or_mod w
    rcases ofBits32_cases w with hnan | ⟨hinf, hmag⟩ | ⟨hzero, hmag⟩ | ⟨m, e, hfin, hholds, hmag⟩
    · exact absurd hnan hw
    · rw [hmag] at hword
      rw [hinf]
      refine Eq.trans ?_ hword
      cases w.getLsbD 31 <;> rfl
    · rw [hmag] at hword
      rw [hzero]
      exact hword
    · rw [hfin, convert, roundFin_of_holds hholds, toBits32, if_neg hholds.ne_zero, hmag, hword]

end Sys2Proof.Machine

/-! Vertex dequantizers and VTX_PACK (45_vertex.md R280 to R295). -/

namespace Sys2Proof.Machine

/-! DEQ_QUANT (R280 to R283). -/

theorem quantMaxCode_eq (bits : Nat) : quantMaxCode bits = 2 ^ min bits 32 - 1 := by
  unfold quantMaxCode
  split
  case isTrue h => rw [Nat.min_eq_right h]
  case isFalse h => rw [Nat.min_eq_left (Nat.le_of_not_le h)]

/-- Each value is the evaluation of its code, with its own NaN draw. -/
theorem getD_quantValues (field : OpenField) (mn d2 : Word) (maxCode : Nat) {codes : List Word} (draw : Nat) {i : Nat}
    (hi : i < codes.length) :
    (quantValues field mn d2 maxCode draw codes).getD i 0 =
      quantEval field (draw + i) mn d2 maxCode (codes.getD i 0) := by
  induction codes generalizing draw i with
  | nil => exact absurd hi (Nat.not_lt_zero i)
  | cons raw rest ih =>
    cases i with
    | zero => rfl
    | succ i =>
      rw [Nat.add_comm i 1, ← Nat.add_assoc, Nat.add_comm 1 i]
      exact ih (draw + 1) (Nat.lt_of_succ_lt_succ hi)

theorem execDeqQuant_of_bits_zero {s : State} (h : s.larg2 = 0) (a b : SlotNo) :
    execDeqQuant a b s = failWith s .range [b] :=
  if_pos h

theorem execDeqQuant_of_bits_ne_zero {s : State} (h : s.larg2 ≠ 0) (a b : SlotNo) :
    execDeqQuant a b s =
      .next ((State.setSlot { s with draws := s.draws + (s.slot a).length + 1 } b
        (quantValues s.params.quantEval s.larg0 (quantSpan s.draws s.larg0 s.larg1) (2 ^ min s.larg2.toNat 32 - 1)
          (s.draws + 1) (s.slot a))).complete 0 (u32 (s.slot a).length)) := by
  rw [← quantMaxCode_eq]
  exact if_neg h

/-- Settles O51: the values of the codes, in index order. -/
theorem deqQuantCompletes : Obligations.DeqQuantCompletes := by
  intro s a b hbits
  refine ⟨quantValues s.params.quantEval s.larg0 (quantSpan s.draws s.larg0 s.larg1) (2 ^ min s.larg2.toNat 32 - 1)
    (s.draws + 1) (s.slot a), ?_, quantValues_length .., fun href i hi => ?_⟩
  · rw [quantValues_length]
    exact execDeqQuant_of_bits_ne_zero hbits a b
  · rw [getD_quantValues _ _ _ _ _ hi, href]
    rfl

/-- Settles O52: with 32 bits or more the greatest code is that of 32 bits. -/
theorem deqQuantBits : Obligations.DeqQuantBits := by
  intro s a b
  refine ⟨fun hzero => execDeqQuant_of_bits_zero hzero a b, fun t hbits ht => ?_⟩
  have hne : s.larg2 ≠ 0 := by
    intro hzero
    simp [hzero] at hbits
  have hrun := execDeqQuant_of_bits_ne_zero hne a b
  rw [Nat.min_eq_right hbits] at hrun
  obtain rfl := Host.Outcome.next.inj (hrun.symm.trans ht)
  exact execDeqQuant_of_bits_ne_zero (s := { s with larg2 := 32 }) (by decide : (32 : Word) ≠ 0) a b

/-! DEQ_EXPMANT (R285, R286). -/

theorem expMantValue_toNat (e m : Word) : (expMantValue e m).toNat = e.toNat * 2 ^ 23 % 2 ^ 32 ||| m.toNat := by
  rw [expMantValue, BitVec.toNat_or, BitVec.toNat_shiftLeft, Nat.shiftLeft_eq]

/-- Settles O54: the lists are combined element by element. -/
theorem deqExpmant : Obligations.DeqExpmant := by
  intro s a b c
  refine ⟨fun hlen => ?_, fun hlen => if_pos hlen⟩
  have hzip : (List.zipWith expMantValue (s.slot a) (s.slot b)).length = (s.slot a).length := by
    rw [List.length_zipWith, ← hlen, Nat.min_self]
  refine ⟨_, ?_, hzip, fun i hi => ?_⟩
  · rw [hzip]
    exact if_neg (not_not_intro hlen)
  · have ha : i < (s.slot a).length := hi.trans_eq hzip
    have hb : i < (s.slot b).length := ha.trans_eq hlen
    rw [List.getD_eq_getElem _ _ hi, List.getD_eq_getElem _ _ ha, List.getD_eq_getElem _ _ hb, List.getElem_zipWith,
      expMantValue_toNat]

/-! DEQ_DEERING (R288 to R293). -/

/-- A legal code quadruple at `bpn` bits per normal: a sextant, an octant, and two table indices (R290). -/
def DeeringLegal (bpn : Nat) (sx oc th ps : Word) : Prop :=
  sx.toNat ≤ 5 ∧ oc.toNat ≤ 7 ∧ th.toNat * 2 ^ (13 - bpn) ≤ 8192 ∧ ps.toNat * 2 ^ (13 - bpn) ≤ 8192

/-- The normal of a legal code quadruple: the base in the order of its sextant, signed by its octant. -/
def deeringValue (p : Params) (bpn draw : Nat) (sx oc th ps : Word) : Word × Word × Word :=
  let base := deeringBase draw (deeringEntry p.deeringTable (th.toNat * 2 ^ (13 - bpn)))
    (deeringEntry p.deeringTable (ps.toNat * 2 ^ (13 - bpn)))
  let order := sextantPerm p.sextantPerm sx.toNat
  (octantSign (oc.getLsbD 2) base[order.1], octantSign (oc.getLsbD 1) base[order.2.1],
    octantSign (oc.getLsbD 0) base[order.2.2])

theorem not_deeringLegal {bpn : Nat} {sx oc th ps : Word} :
    ¬ DeeringLegal bpn sx oc th ps ↔ 5 < sx.toNat ∨ 7 < oc.toNat ∨ 8192 < th.toNat * 2 ^ (13 - bpn) ∨
      8192 < ps.toNat * 2 ^ (13 - bpn) := by
  simp only [DeeringLegal, not_and_or, Nat.not_le]

/-- A signed range check from 0 is the unsigned one. -/
theorem toInt_out_of_range_iff {x : Word} {n : Nat} (hn : n < 2 ^ 31) :
    x.toInt < 0 ∨ (n : Int) < x.toInt ↔ n < x.toNat := by
  rw [BitVec.toInt_eq_toNat_cond]
  split <;> omega

/-- A negative code, read unsigned and shifted, is past the table. -/
theorem past_table_of_toInt_neg {x : Word} (h : x.toInt < 0) (k : Nat) : 8192 < x.toNat * 2 ^ k := by
  have hx : 8192 < x.toNat := by
    rw [BitVec.toInt_eq_toNat_cond] at h
    split at h <;> omega
  exact hx.trans_le (Nat.le_mul_of_pos_right _ (Nat.two_pow_pos k))

/-- The two range checks of an element together say that its codes are legal. -/
theorem deeringLegal_iff {bpn : Nat} {sx oc th ps : Word} :
    DeeringLegal bpn sx oc th ps ↔
      ¬ (sx.toInt < 0 ∨ 5 < sx.toInt ∨ oc.toInt < 0 ∨ 7 < oc.toInt ∨ th.toInt < 0 ∨ ps.toInt < 0) ∧
        ¬ (8192 < th.toNat * 2 ^ (13 - bpn) ∨ 8192 < ps.toNat * 2 ^ (13 - bpn)) := by
  have hsx := toInt_out_of_range_iff (x := sx) (n := 5) (by decide)
  have hoc := toInt_out_of_range_iff (x := oc) (n := 7) (by decide)
  have hth := fun h => past_table_of_toInt_neg (x := th) h (13 - bpn)
  have hps := fun h => past_table_of_toInt_neg (x := ps) h (13 - bpn)
  push_cast at hsx hoc
  unfold DeeringLegal
  omega

theorem deeringNormal_of_legal {p : Params} {bpn : Nat} {sx oc th ps : Word} (h : DeeringLegal bpn sx oc th ps)
    (draw : Nat) : deeringNormal p bpn draw sx oc th ps = some (deeringValue p bpn draw sx oc th ps) := by
  obtain ⟨hsigned, htable⟩ := deeringLegal_iff.1 h
  exact (if_neg hsigned).trans (if_neg htable)

theorem deeringNormal_eq_none {p : Params} {bpn : Nat} {sx oc th ps : Word} (h : ¬ DeeringLegal bpn sx oc th ps)
    (draw : Nat) : deeringNormal p bpn draw sx oc th ps = none := by
  unfold deeringNormal
  split_ifs with hsigned htable
  · rfl
  · rfl
  · exact absurd (deeringLegal_iff.2 ⟨hsigned, htable⟩) h

section

variable {p : Params} {bpn : Nat} {sxs ocs ths pss : List Word}

/-- Lists of legal quadruples give one normal for each, two NaN draws apart. -/
theorem deeringNormals_of_legal (draw : Nat) (hoc : ocs.length = sxs.length) (hth : ths.length = sxs.length)
    (hps : pss.length = sxs.length)
    (hlegal : ∀ i, i < sxs.length → DeeringLegal bpn (sxs.getD i 0) (ocs.getD i 0) (ths.getD i 0) (pss.getD i 0)) :
    ∃ ns, deeringNormals p bpn draw sxs ocs ths pss = some ns ∧ ns.length = sxs.length ∧
      ∀ i, i < sxs.length → ns.getD i (0, 0, 0) =
        deeringValue p bpn (draw + 2 * i) (sxs.getD i 0) (ocs.getD i 0) (ths.getD i 0) (pss.getD i 0) := by
  induction sxs generalizing draw ocs ths pss with
  | nil => exact ⟨[], rfl, rfl, fun i hi => absurd hi (Nat.not_lt_zero i)⟩
  | cons sx sxs ih =>
    match ocs, ths, pss, hoc, hth, hps with
    | oc :: ocs, th :: ths, ps :: pss, hoc, hth, hps =>
      obtain ⟨ns, hns, hlen, hval⟩ := ih (draw + 2) (Nat.succ.inj hoc) (Nat.succ.inj hth) (Nat.succ.inj hps)
        fun i hi => hlegal (i + 1) (Nat.succ_lt_succ hi)
      have hhead : DeeringLegal bpn sx oc th ps := hlegal 0 (Nat.zero_lt_succ _)
      refine ⟨deeringValue p bpn draw sx oc th ps :: ns, ?_, congrArg Nat.succ hlen, fun i hi => ?_⟩
      · rw [deeringNormals, deeringNormal_of_legal hhead, hns]
        rfl
      · cases i with
        | zero => rfl
        | succ i =>
          rw [Nat.mul_add_one, Nat.add_comm (2 * i), ← Nat.add_assoc]
          exact hval i (Nat.lt_of_succ_lt_succ hi)

/-- One quadruple that is not legal, and there are no normals. -/
theorem deeringNormals_eq_none (draw : Nat) (hoc : ocs.length = sxs.length) (hth : ths.length = sxs.length)
    (hps : pss.length = sxs.length) {i : Nat} (hi : i < sxs.length)
    (hillegal : ¬ DeeringLegal bpn (sxs.getD i 0) (ocs.getD i 0) (ths.getD i 0) (pss.getD i 0)) :
    deeringNormals p bpn draw sxs ocs ths pss = none := by
  induction sxs generalizing draw ocs ths pss i with
  | nil => exact absurd hi (Nat.not_lt_zero i)
  | cons sx sxs ih =>
    match ocs, ths, pss, hoc, hth, hps with
    | oc :: ocs, th :: ths, ps :: pss, hoc, hth, hps =>
      rw [deeringNormals]
      by_cases hhead : DeeringLegal bpn sx oc th ps
      · rw [deeringNormal_of_legal hhead]
        cases i with
        | zero => exact absurd hhead hillegal
        | succ i =>
          rw [ih (draw + 2) (Nat.succ.inj hoc) (Nat.succ.inj hth) (Nat.succ.inj hps) (Nat.lt_of_succ_lt_succ hi)
            hillegal]
          rfl
      · rw [deeringNormal_eq_none hhead]

end

/-- LARG0 and M name three distinct destinations and a legal number of bits (R290). -/
structure DeeringOperands (larg0 : Word) (m : BitVec 4) : Prop where
  bits : m.toNat ≤ 13
  reserved : deeringReserved larg0 = 0
  x_ne_y : deeringX larg0 ≠ deeringY larg0
  y_ne_z : deeringY larg0 ≠ deeringZ larg0
  x_ne_z : deeringX larg0 ≠ deeringZ larg0

theorem DeeringOperands.distinct {larg0 : Word} {m : BitVec 4} (h : DeeringOperands larg0 m) :
    ¬ (deeringX larg0 = deeringY larg0 ∨ deeringY larg0 = deeringZ larg0 ∨ deeringX larg0 = deeringZ larg0) :=
  not_or.2 ⟨h.x_ne_y, not_or.2 ⟨h.y_ne_z, h.x_ne_z⟩⟩

section

variable {s : State} {a b c d : SlotNo} {m : BitVec 4}

/-- The first check of R290. -/
theorem execDeqDeering_of_operands_bad (h : ¬ DeeringOperands s.larg0 m) :
    execDeqDeering a b c d m s = failWith s .badArg [deeringX s.larg0, deeringY s.larg0, deeringZ s.larg0] := by
  unfold execDeqDeering
  by_cases hbits : 13 < m.toNat
  · exact if_pos hbits
  refine (if_neg hbits).trans ?_
  by_cases hreserved : deeringReserved s.larg0 ≠ 0
  · exact if_pos hreserved
  refine (if_neg hreserved).trans (if_pos ?_)
  by_contra hdistinct
  obtain ⟨hxy, hyz, hxz⟩ : _ ∧ _ ∧ _ := by simpa only [not_or] using hdistinct
  exact h ⟨Nat.not_lt.1 hbits, not_not.1 hreserved, hxy, hyz, hxz⟩

/-- The second check of R290. -/
theorem execDeqDeering_of_lengths_ne (h : DeeringOperands s.larg0 m)
    (hlen : (s.slot b).length ≠ (s.slot a).length ∨ (s.slot c).length ≠ (s.slot a).length ∨
      (s.slot d).length ≠ (s.slot a).length) :
    execDeqDeering a b c d m s = failWith s .count [deeringX s.larg0, deeringY s.larg0, deeringZ s.larg0] := by
  simp only [execDeqDeering, if_neg (Nat.not_lt.2 h.bits), if_neg (not_not_intro h.reserved), if_neg h.distinct,
    if_pos hlen]

/-- Past these checks DEQ_DEERING writes the normals, or some code is out of range. -/
theorem execDeqDeering_of_lengths_eq (h : DeeringOperands s.larg0 m) (hb : (s.slot b).length = (s.slot a).length)
    (hc : (s.slot c).length = (s.slot a).length) (hd : (s.slot d).length = (s.slot a).length) :
    execDeqDeering a b c d m s =
      (deeringNormals s.params m.toNat s.draws (s.slot a) (s.slot b) (s.slot c) (s.slot d)).elim
        (failWith s .range [deeringX s.larg0, deeringY s.larg0, deeringZ s.larg0]) fun ns =>
          .next ((State.setNormals { s with draws := s.draws + 2 * (s.slot a).length } (deeringX s.larg0)
            (deeringY s.larg0) (deeringZ s.larg0) ns).complete 0 (u32 (s.slot a).length)) := by
  have hlen : ¬ ((s.slot b).length ≠ (s.slot a).length ∨ (s.slot c).length ≠ (s.slot a).length ∨
      (s.slot d).length ≠ (s.slot a).length) := by simp [hb, hc, hd]
  simp only [execDeqDeering, if_neg (Nat.not_lt.2 h.bits), if_neg (not_not_intro h.reserved), if_neg h.distinct,
    if_neg hlen]
  cases deeringNormals s.params m.toNat s.draws (s.slot a) (s.slot b) (s.slot c) (s.slot d) <;> rfl

end

theorem sextantPerm_reference :
    (List.range 6).map (sextantPerm .reference) =
      [(0, 1, 2), (0, 2, 1), (1, 0, 2), (1, 2, 0), (2, 0, 1), (2, 1, 0)] := rfl

/-- The entries R289 lists. -/
theorem deeringEntry_reference :
    deeringEntry .reference 0 = (0x00000000, 0x3F800000) ∧
      deeringEntry .reference 4096 = (0x3E9B166C, 0x3F73F929) ∧
      deeringEntry .reference 8192 = (0x3F13CD3A, 0x3F5105EB) := by decide +kernel

/-- Settles O55: the reference values, the three checks in R290's order, and the normals of legal codes. -/
theorem deqDeeringCompletes : Obligations.DeqDeeringCompletes := by
  refine ⟨⟨sextantPerm_reference, deeringEntry_reference⟩, ?errors, ?completes⟩
  case errors =>
    rintro s a b c d m _ _ _ rfl rfl rfl
    refine ⟨fun hbad => ?_, fun hbits hreserved hxy hyz hxz => ?_⟩
    · refine execDeqDeering_of_operands_bad fun hops => ?_
      rcases hbad with hbits | hreserved | hequal
      · exact absurd hops.bits (Nat.not_le.2 hbits)
      · exact hreserved hops.reserved
      · exact hops.distinct hequal
    · have hops : DeeringOperands s.larg0 m := ⟨hbits, hreserved, hxy, hyz, hxz⟩
      refine ⟨fun hlen => execDeqDeering_of_lengths_ne hops hlen, fun i hb hc hd hi hrange => ?_⟩
      have hnone := deeringNormals_eq_none (p := s.params) s.draws hb hc hd hi (not_deeringLegal.2 hrange)
      refine (execDeqDeering_of_lengths_eq hops hb hc hd).trans ?_
      rw [hnone]
      rfl
  case completes =>
    intro s a b c d m hbits hreserved hxy hyz hxz hb hc hd hlegal
    have hops : DeeringOperands s.larg0 m := ⟨hbits, hreserved, hxy, hyz, hxz⟩
    obtain ⟨ns, hns, hlen, hval⟩ := deeringNormals_of_legal (p := s.params) s.draws hb hc hd hlegal
    refine ⟨ns.map fun n => n.1, ns.map fun n => n.2.1, ns.map fun n => n.2.2, ?_, by rw [List.length_map, hlen],
      by rw [List.length_map, hlen], by rw [List.length_map, hlen], fun i hi => ?_⟩
    · refine (execDeqDeering_of_lengths_eq hops hb hc hd).trans ?_
      rw [hns]
      rfl
    · have hget {f : Word × Word × Word → Word} (hf : f (0, 0, 0) = 0) :
          (ns.map f).getD i 0 = f (ns.getD i (0, 0, 0)) :=
        (congrArg ((ns.map f).getD i) hf.symm).trans (List.getD_map ..)
      rw [hget rfl, hget rfl, hget rfl, hval i hi]
      exact ⟨rfl, rfl, rfl⟩

/-! VTX_PACK (R295). -/

section

variable {xs ys zs : List Word}

theorem interleave_length (hy : ys.length = xs.length) (hz : zs.length = xs.length) :
    (interleave xs ys zs).length = 3 * xs.length := by
  induction xs generalizing ys zs with
  | nil => rfl
  | cons x xs ih =>
    match ys, zs, hy, hz with
    | y :: ys, z :: zs, hy, hz =>
      simp only [interleave, List.length_cons]
      rw [ih (Nat.succ.inj hy) (Nat.succ.inj hz)]
      omega

/-- Element `i` of each component stands at `3 * i`, `3 * i + 1`, `3 * i + 2`. -/
theorem getD_interleave (hy : ys.length = xs.length) (hz : zs.length = xs.length) {i : Nat} (hi : i < xs.length) :
    (interleave xs ys zs).getD (3 * i) 0 = xs.getD i 0 ∧ (interleave xs ys zs).getD (3 * i + 1) 0 = ys.getD i 0 ∧
      (interleave xs ys zs).getD (3 * i + 2) 0 = zs.getD i 0 := by
  induction xs generalizing ys zs i with
  | nil => exact absurd hi (Nat.not_lt_zero i)
  | cons x xs ih =>
    match ys, zs, hy, hz, i with
    | _ :: _, _ :: _, _, _, 0 => exact ⟨rfl, rfl, rfl⟩
    | y :: ys, z :: zs, hy, hz, i + 1 =>
      exact ih (Nat.succ.inj hy) (Nat.succ.inj hz) (Nat.lt_of_succ_lt_succ hi)

end

/-- Settles O56: the errors in their order, then the interleaving. -/
theorem vtxPack : Obligations.VtxPack := by
  intro s a b c d
  refine ⟨fun hlen => if_pos hlen, fun hb hc => ?_⟩
  have hlen : ¬ ((s.slot b).length ≠ (s.slot a).length ∨ (s.slot c).length ≠ (s.slot a).length) := by
    rintro (h | h)
    · exact h hb
    · exact h hc
  have hrun : exec (.vtxPack a b c d) s =
      if s.params.slotCap < 3 * (s.slot a).length then failWith s .capacity [d]
      else .next ((s.setSlot d (interleave (s.slot a) (s.slot b) (s.slot c))).complete 0
        (u32 (3 * (s.slot a).length))) := if_neg hlen
  refine ⟨fun hcap => hrun.trans (if_pos hcap), fun hcap => ⟨_, ?_, interleave_length hb hc, fun i hi =>
    getD_interleave hb hc hi⟩⟩
  rw [hrun, if_neg (Nat.not_lt.2 hcap), interleave_length hb hc]

end Sys2Proof.Machine

/-! Single steps of a TOPO_RUN (46_topology.md): where a sequence goes on, what a stream read and the start of an
activation give, and how the command ends. -/

namespace Sys2Proof.Machine

/-! How the command ends (R310, R342). -/

theorem exec_topoRun_of_ok {s : State} {m : Mesh} (h : topoRun s.topoEnv = .ok m) :
    exec .topoRun s = .next ((s.setMesh m).complete (u32 m.vertices.length) (u32 m.faces.length)) := by
  show execTopoRun s = _
  unfold execTopoRun
  rw [h]

theorem topoFails_of_error {s : State} {c : ErrCode} {i : Nat}
    (h : topoRun s.topoEnv = .error (.error { code := c, info := i })) : s.TopoFails c (u32 i) := by
  show execTopoRun s = _
  unfold execTopoRun
  rw [h]
  rfl

/-- A TOPO_RUN that leaves a valid MESH leaves that of its run. -/
theorem topoRun_of_exec {s t : State} (h : exec .topoRun s = .next t) (hvalid : t.meshValid = true) :
    topoRun s.topoEnv = .ok t.mesh := by
  cases exec_ending h with
  | done ws draws r0 r1 hi => exact absurd rfl hi
  | error c x hi => exact absurd rfl hi
  | mesh m r0 r1 hi hm => exact hm
  | meshError c x hi => exact nomatch hvalid

/-! Sequences and stream reads (R312). -/

section
variable {α β : Type} {m : TopoM α} {t u : Topo}

/-- A sequence goes on where its first half ends. -/
theorem TopoM.bind_of_ok {a : α} (h : m t = .ok (a, u)) (f : α → TopoM β) : (m >>= f) t = f a u := by
  simp only [bind, StateT.bind, h, Except.bind]

/-- A sequence fails as its first half does. -/
theorem TopoM.bind_of_error {x : TopoStop} (h : m t = .error x) (f : α → TopoM β) : (m >>= f) t = .error x :=
  TopoM.bind_error.2 (.inl h)

theorem TopoM.get_bind (f : Topo → TopoM β) : (get >>= f) t = f t t := rfl

end

/-- One more element of role `r` is read (R312). -/
def Topo.moveOn (t : Topo) (r : Role) : Topo :=
  { t with cursors := t.cursors.set r.val (t.cursors[r] + 1) r.isLt }

theorem Topo.cursors_moveOn (t : Topo) (r q : Role) :
    (t.moveOn r).cursors[q] = t.cursors[q] + if q = r then 1 else 0 := by
  by_cases hqr : q = r
  · subst hqr
    simp [Topo.moveOn]
  · simp [Topo.moveOn, hqr, Fin.val_ne_of_ne (Ne.symm hqr)]

@[simp] theorem Topo.aq_moveOn (t : Topo) (r : Role) : (t.moveOn r).aq = t.aq := rfl

theorem toInt_eq_toNat_of_nonneg {x : Word} (h : 0 ≤ x.toInt) : x.toInt = x.toNat := by
  rw [BitVec.toInt_eq_toNat_bmod] at h ⊢
  have := x.isLt
  rw [Int.bmod_def] at h ⊢
  omega

/-- The roles of the degree streams come before the others (R33). -/
theorem roleDegree_val_lt (c : Nat) : (roleDegree c).val < 8 := Nat.mod_lt _ (by decide)

theorem roleDegree_ne {c : Nat} {r : Role} (h : 8 ≤ r.val) : r ≠ roleDegree c := by
  rintro rfl
  exact absurd (roleDegree_val_lt c) (Nat.not_lt.2 h)

theorem Topo.cursors_moveOn_degree {t : Topo} {c : Nat} {r : Role} (h : 8 ≤ r.val) :
    (t.moveOn (roleDegree c)).cursors[r] = t.cursors[r] := by
  rw [Topo.cursors_moveOn, if_neg (roleDegree_ne h), Nat.add_zero]

section
variable {e : TopoEnv} {t : Topo}

theorem topoRead_of_some {r : Role} {x : Word} (h : (e.stream r)[t.cursors[r]]? = some x) :
    topoRead e r t = .ok (x, t.moveOn r) := by
  unfold topoRead
  rw [h]
  rfl

theorem topoRead_of_none {r : Role} (h : (e.stream r)[t.cursors[r]]? = none) :
    topoRead e r t = .error (.error { code := .topoStream, info := r.val }) := by
  unfold topoRead
  rw [h]

/-! The start of an activation (R330, R331). -/

theorem activateF_of_read {v j : Nat} {d : Word}
    (h : (e.stream (roleDegree (topoCtx t v)))[t.cursors[roleDegree (topoCtx t v)]]? = some d) :
    activateF e v j t =
      (if 0 < d.toInt then
        if d.toInt < 2 ∨ (e.params.maxDegree : Int) < d.toInt then topoRaise .topoValue 2
        else newFace e d.toNat >>= fun f => topLink v j f 0
      else if d.toInt = 0 then activateSplit e v j
      else topoRaise .topoValue 2) (t.moveOn (roleDegree (topoCtx t v))) := by
  unfold activateF
  rw [TopoM.get_bind, TopoM.bind_of_ok (topoRead_of_some h)]

theorem activateF_of_zero {v j : Nat}
    (h : (e.stream (roleDegree (topoCtx t v)))[t.cursors[roleDegree (topoCtx t v)]]? = some 0) :
    activateF e v j t = activateSplit e v j (t.moveOn (roleDegree (topoCtx t v))) := activateF_of_read h

/-- The offset of a split counts back from the end of the active-face queue (R331). -/
theorem activateSplit_of_offset_bad {v j : Nat} {off : Word}
    (hoff : (e.stream roleSplitFace)[t.cursors[roleSplitFace]]? = some off)
    (hbad : off.toInt < 0 ∨ (t.aq.length : Int) ≤ off.toInt) :
    activateSplit e v j t = .error (.error { code := .topoSplit, info := 1 }) := by
  unfold activateSplit
  rw [TopoM.bind_of_ok (topoRead_of_some hoff), TopoM.get_bind, Topo.aq_moveOn, if_pos hbad]
  rfl

end

end Sys2Proof.Machine

/-! TOPO_RUN on empty streams, and how its first vertex and face can fail (46_topology.md). -/

namespace Sys2Proof.Machine

/-! The streams of the environment (R311, R312). -/

@[simp] theorem State.params_topoEnv (s : State) : s.topoEnv.params = s.params := rfl

theorem State.streams_topoEnv (s : State) {r : Role} (h : r.val ≤ 14) : s.topoEnv.streams[r] = s.roleStream r := by
  simp [State.topoEnv, h]

theorem State.streams_topoEnv_degree (s : State) (c : Nat) :
    s.topoEnv.streams[roleDegree c] = s.roleStream (roleDegree c) :=
  s.streams_topoEnv ((roleDegree_val_lt c).le.trans (by decide))

section
variable {e : TopoEnv} {t : Topo} {r : Role}

theorem topoRead_of_cons {x : Word} {xs : List Word} (h : e.streams[r] = some (x :: xs)) (hz : t.cursors[r] = 0) :
    topoRead e r t = .ok (x, t.moveOn r) :=
  topoRead_of_some (by simp [TopoEnv.stream, h, hz])

theorem topoRead_of_empty (h : e.streams[r].getD [] = []) :
    topoRead e r t = .error (.error { code := .topoStream, info := r.val }) :=
  topoRead_of_none (by rw [TopoEnv.stream, h, List.getElem?_nil])

theorem topoReadOr0_of_assigned (h : e.streams[r].isSome = true) : topoReadOr0 e r = topoRead e r := if_pos h

theorem topoReadOr0_of_empty (h : e.streams[r] = some []) :
    topoReadOr0 e r t = .error (.error { code := .topoStream, info := r.val }) := by
  rw [topoReadOr0_of_assigned (by rw [h]; rfl)]
  exact topoRead_of_empty (by rw [h]; rfl)

/-- An optional role that is not assigned an empty stream gives its first element, or 0 (R311). -/
theorem topoReadOr0_first (h : e.streams[r] ≠ some []) (hz : t.cursors[r] = 0) :
    ∃ x u, topoReadOr0 e r t = .ok (x, u) ∧ (u = t ∨ u = t.moveOn r) := by
  cases hr : e.streams[r] with
  | none => exact ⟨0, t, by simp [topoReadOr0, TopoEnv.assigned, hr], .inl rfl⟩
  | some ys =>
    cases ys with
    | nil => exact absurd hr h
    | cons y ys =>
      refine ⟨y, t.moveOn r, ?_, .inr rfl⟩
      rw [topoReadOr0_of_assigned (by rw [hr]; rfl)]
      exact topoRead_of_cons hr hz

end

/-! The end check (R340). -/

/-- Role `r` is assigned and has elements left (R340). -/
def Topo.leftOver (e : TopoEnv) (t : Topo) (r : Role) : Bool :=
  e.assigned r = true ∧ t.cursors[r] ≠ (e.stream r).length

theorem leftoverRole_eq_find? (e : TopoEnv) (t : Topo) (rs : List Role) :
    leftoverRole e t rs = rs.find? (t.leftOver e) := by
  induction rs with
  | nil => rfl
  | cons r rs ih =>
    unfold leftoverRole
    rw [List.find?_cons, ih]
    by_cases h : e.assigned r = true ∧ t.cursors[r] ≠ (e.stream r).length
    · rw [if_pos h, show t.leftOver e r = true from decide_eq_true h]
    · rw [if_neg h, show t.leftOver e r = false from decide_eq_false h]

theorem Topo.cursors_start (r : Role) : Topo.start.cursors[r] = 0 := by simp [Topo.start]

theorem Topo.leftOver_start (e : TopoEnv) (r : Role) : Topo.start.leftOver e r = true ↔ e.stream r ≠ [] := by
  have hstart : Topo.start.cursors[r] = 0 := Topo.cursors_start r
  unfold Topo.leftOver TopoEnv.assigned TopoEnv.stream
  rw [decide_eq_true_iff, hstart]
  cases e.streams[r] with
  | none => simp
  | some xs => cases xs <;> simp

theorem mem_inputRoles {r : Role} : r ∈ inputRoles ↔ r.val ≤ 14 := by
  revert r
  decide

theorem inputRoles_getElem_val : ∀ (i : Nat) (h : i < inputRoles.length), inputRoles[i].val = i := by decide

/-- With every input stream empty nothing is left over. -/
theorem leftoverRole_start_eq_none {e : TopoEnv} (h : ∀ r : Role, r.val ≤ 14 → e.stream r = []) :
    leftoverRole e Topo.start inputRoles = none := by
  rw [leftoverRole_eq_find?, List.find?_eq_none]
  intro r hr hleft
  exact (Topo.leftOver_start e r).1 hleft (h r (mem_inputRoles.1 hr))

/-- The lowest role with elements is the first one left over. -/
theorem leftoverRole_start_eq_some {e : TopoEnv} {r : Role} (hr : r.val ≤ 14) (hne : e.stream r ≠ [])
    (hlow : ∀ q : Role, q.val < r.val → e.stream q = []) : leftoverRole e Topo.start inputRoles = some r := by
  have hlen : r.val < inputRoles.length := Nat.lt_of_le_of_lt hr (by decide)
  rw [leftoverRole_eq_find?, List.find?_eq_some_iff_getElem]
  refine ⟨(Topo.leftOver_start e r).2 hne, r.val, hlen, Fin.ext (inputRoles_getElem_val _ hlen), fun j hj => ?_⟩
  rw [Bool.not_eq_true', ← Bool.not_eq_true, Topo.leftOver_start, not_not]
  exact hlow _ (by rwa [inputRoles_getElem_val])

section
variable {e : TopoEnv}

/-- With no VALENCE element the run is its end check (R310). -/
theorem topoProgram_of_no_valence (h : e.stream roleValence = []) :
    topoProgram e Topo.start = endCheck e Topo.start := by
  have hleft : Topo.start.left e roleValence = 0 := by simp [Topo.left, h]
  have hrun : runComponents e 1 Topo.start = .ok ((), Topo.start) := by
    unfold runComponents
    rw [TopoM.get_bind, hleft, if_neg (Nat.lt_irrefl 0), TopoM.pure_eq]
  unfold topoProgram
  rw [TopoM.get_bind, hleft, TopoM.bind_of_ok hrun]

theorem topoRun_of_all_empty (h : ∀ r : Role, r.val ≤ 14 → e.stream r = []) : topoRun e = .ok Mesh.empty := by
  have hcheck : endCheck e Topo.start = .ok ((), Topo.start) := by
    unfold endCheck
    rw [TopoM.get_bind, leftoverRole_start_eq_none h]
    rfl
  unfold topoRun
  rw [topoProgram_of_no_valence (h _ (by decide)), hcheck]
  rfl

theorem topoRun_of_left_over {r : Role} (hval : e.stream roleValence = []) (hr : r.val ≤ 14) (hne : e.stream r ≠ [])
    (hlow : ∀ q : Role, q.val < r.val → e.stream q = []) :
    topoRun e = .error (.error { code := .topoStream, info := r.val }) := by
  have hcheck : endCheck e Topo.start = .error (.error { code := .topoStream, info := r.val }) := by
    unfold endCheck
    rw [TopoM.get_bind, leftoverRole_start_eq_some hr hne hlow]
    rfl
  unfold topoRun
  rw [topoProgram_of_no_valence hval, hcheck]

/-! The first component (R310, R314, R315). -/

/-- A run with a VALENCE element fails as its first component does. -/
theorem topoRun_of_component_error {x : TopoStop} (hval : e.stream roleValence ≠ [])
    (h : runComponent e Topo.start = .error x) : topoRun e = .error x := by
  have hleft : 0 < Topo.start.left e roleValence := by
    simpa [Topo.left, Topo.start, List.length_pos_iff] using hval
  have hrun : runComponents e (Topo.start.left e roleValence + 1) Topo.start = .error x := by
    unfold runComponents
    rw [TopoM.get_bind, if_pos hleft]
    exact TopoM.bind_of_error h _
  have hprog : topoProgram e Topo.start = .error x := by
    unfold topoProgram
    rw [TopoM.get_bind, TopoM.bind_of_error hrun]
  unfold topoRun
  rw [hprog]

/-- No table has an entry, and only the streams of vertices, roles 8 to 10, have been read. -/
structure Topo.VertexRead (t : Topo) : Prop where
  vertices : t.vertices = []
  faces : t.faces = []
  aq : t.aq = []
  unread : ∀ r : Role, r.val < 8 ∨ 10 < r.val → t.cursors[r] = 0

theorem Topo.VertexRead.start : Topo.start.VertexRead := ⟨rfl, rfl, rfl, fun r _ => Topo.cursors_start r⟩

theorem Topo.VertexRead.moveOn {t : Topo} (h : t.VertexRead) {r : Role} (hr : 8 ≤ r.val ∧ r.val ≤ 10) :
    (t.moveOn r).VertexRead where
  vertices := h.vertices
  faces := h.faces
  aq := h.aq
  unread := fun q hq => by
    have hne : q ≠ r := by
      rintro rfl
      omega
    rw [Topo.cursors_moveOn, if_neg hne, Nat.add_zero]
    exact h.unread q hq

/-- VALENCE is read first (R314). -/
theorem topoRead_valence_start {x : Word} {xs : List Word} (hval : e.streams[roleValence] = some (x :: xs)) :
    topoRead e roleValence Topo.start = .ok (x, Topo.start.moveOn roleValence) :=
  topoRead_of_cons hval (Topo.cursors_start _)

theorem vtxInit_of_group_empty {x : Word} {xs : List Word} (hval : e.streams[roleValence] = some (x :: xs))
    (hgrp : e.streams[roleGroup] = some []) :
    vtxInit e Topo.start = .error (.error { code := .topoStream, info := 9 }) := by
  unfold vtxInit
  rw [TopoM.bind_of_ok (topoRead_valence_start hval), TopoM.bind_of_error (topoReadOr0_of_empty hgrp)]
  rfl

theorem vtxInit_of_flags_empty {x : Word} {xs : List Word} (hval : e.streams[roleValence] = some (x :: xs))
    (hgrp : e.streams[roleGroup] ≠ some []) (hflg : e.streams[roleFlags] = some []) :
    vtxInit e Topo.start = .error (.error { code := .topoStream, info := 10 }) := by
  obtain ⟨grp, t, hgrpRead, -⟩ := topoReadOr0_first hgrp (t := Topo.start.moveOn roleValence) (by decide)
  unfold vtxInit
  rw [TopoM.bind_of_ok (topoRead_valence_start hval), TopoM.bind_of_ok hgrpRead,
    TopoM.bind_of_error (topoReadOr0_of_empty hflg)]
  rfl

/-- The first vertex, once its elements are read: the checks in order, or the new vertex (R314, R315, R348). -/
theorem vtxInit_start {x : Word} {xs : List Word} (hval : e.streams[roleValence] = some (x :: xs))
    (hgrp : e.streams[roleGroup] ≠ some []) (hflg : e.streams[roleFlags] ≠ some []) :
    ∃ (u : Topo) (grp flg : Word), u.VertexRead ∧ vtxInit e Topo.start =
      if x.toInt < 2 ∨ (e.params.maxValence : Int) < x.toInt then .error (.error { code := .topoValue, info := 1 })
      else if 0 = e.params.maxVtx then .error (.error { code := .capacity, info := 1 })
      else if e.params.maxIncid < x.toNat then .error (.error { code := .capacity, info := 3 })
      else .ok (0, u.addVertex x.toNat grp flg) := by
  have h0 : (Topo.start.moveOn roleValence).VertexRead := Topo.VertexRead.start.moveOn (by decide)
  obtain ⟨grp, t, hgrpRead, ht⟩ := topoReadOr0_first hgrp (t := Topo.start.moveOn roleValence) (by decide)
  obtain ⟨flg, u, hflgRead, hu⟩ := topoReadOr0_first hflg (t := t) (by rcases ht with rfl | rfl <;> decide)
  have ht' : t.VertexRead := by
    rcases ht with rfl | rfl
    · exact h0
    · exact h0.moveOn (by decide)
  have hu' : u.VertexRead := by
    rcases hu with rfl | rfl
    · exact ht'
    · exact ht'.moveOn (by decide)
  refine ⟨u, grp, flg, hu', ?_⟩
  unfold vtxInit
  rw [TopoM.bind_of_ok (topoRead_valence_start hval), TopoM.bind_of_ok hgrpRead, TopoM.bind_of_ok hflgRead]
  split
  · rfl
  · rw [TopoM.get_bind, hu'.vertices, List.length_nil]
    split
    · rfl
    · rw [show sumValence [] + x.toNat = x.toNat from Nat.zero_add _]
      split <;> rfl

/-! The first face (R310, R318, R319, R330). -/

/-- One vertex of valence `n` with no face, no face at all, and only the streams of vertices read. -/
structure Topo.Seed (n : Nat) (t : Topo) : Prop where
  ring : t.vring 0 = List.replicate n none
  faces : t.faces = []
  aq : t.aq = []
  unread : ∀ r : Role, r.val < 8 ∨ 10 < r.val → t.cursors[r] = 0

theorem Topo.VertexRead.seed {u : Topo} (h : u.VertexRead) (n k : Nat) (grp flg : Word) :
    Topo.Seed n { u.addVertex n grp flg with ncomp := k } where
  ring := (Topo.vring_addVertex u n grp flg 0).trans (if_pos (by rw [h.vertices]; rfl))
  faces := h.faces
  aq := h.aq
  unread := h.unread

/-- A seed's slots fail as the first of them does. -/
theorem Topo.Seed.activateSlots_error {n : Nat} {t : Topo} {x : TopoStop} (hs : t.Seed n) (hn : 0 < n)
    (h : activateF e 0 0 t = .error x) : activateSlots e 0 (List.range (t.valenceOf 0)) t = .error x := by
  obtain ⟨k, rfl⟩ : ∃ k, n = k + 1 := ⟨n - 1, by omega⟩
  have hempty : ringGet (t.vring 0) 0 = none := by rw [hs.ring]; rfl
  rw [Topo.valenceOf, hs.ring, List.length_replicate, List.range_succ_eq_map]
  unfold activateSlots
  rw [TopoM.get_bind, if_pos hempty, TopoM.bind_of_error h]

/-- A component fails as the activation of its seed's first slot does. -/
theorem runComponent_of_activateF_error {u : Topo} {n : Nat} {grp flg : Word} {x : TopoStop} (hu : u.VertexRead)
    (hn : 0 < n) (hinit : vtxInit e Topo.start = .ok (0, u.addVertex n grp flg))
    (h : ∀ t : Topo, t.Seed n → activateF e 0 0 t = .error x) : runComponent e Topo.start = .error x := by
  have hs := hu.seed n (u.ncomp + 1) grp flg
  unfold runComponent
  rw [TopoM.bind_of_ok hinit, TopoM.bind_of_ok (TopoM.modify_eq _ _), TopoM.get_bind]
  exact TopoM.bind_of_error (hs.activateSlots_error hn (h _ hs)) _

/-- With no known face the middle context of the valence is chosen (R318). -/
theorem Topo.Seed.ctx {n : Nat} {t : Topo} (h : t.Seed n) :
    topoCtx t 0 = if n = 3 then 1 else if n = 4 then 4 else if n = 5 then 6 else 7 := by
  have hfaces : knownFaces (List.replicate n none) = 0 := by simp [knownFaces, List.countP_replicate]
  have hdegrees : knownDegrees t (List.replicate n none) = 0 := by simp [knownDegrees]
  simp only [topoCtx, Topo.valenceOf, h.ring, hfaces, hdegrees, List.length_replicate]
  rfl

section
variable {t : Topo}

/-- What the first face asks once its mask is read (R319, R320, R348). -/
theorem newFace_first {deg mask : Nat} {u : Topo} (h : readMask e deg t = .ok (mask, u)) (hfaces : u.faces = []) :
    newFace e deg t =
      if 2 ^ deg ≤ mask then .error (.error { code := .topoAttr, info := 1 })
      else if 0 = e.params.maxFace then .error (.error { code := .capacity, info := 2 })
      else if e.params.maxIncid < deg then .error (.error { code := .capacity, info := 3 })
      else .ok (0, u.addFace deg (maskBits mask deg)) := by
  unfold newFace
  rw [TopoM.bind_of_ok h]
  split
  · rfl
  · rw [TopoM.get_bind, hfaces, List.length_nil]
    split
    · rfl
    · rw [show sumDegree [] + deg = deg from Nat.zero_add _]
      split <;> rfl

theorem readMask_of_unassigned (h : e.streams[roleAmask0] = none) (deg : Nat) : readMask e deg t = .ok (0, t) := by
  have hno : ¬ e.assigned roleAmask0 = true := by rw [TopoEnv.assigned, h]; simp
  unfold readMask
  rw [if_neg hno, TopoM.pure_eq]

theorem readMask_of_assigned (h : e.assigned roleAmask0 = true) (deg : Nat) :
    readMask e deg t = (topoRead e roleAmask0 >>= fun x =>
      if 32 < deg ∧ e.assigned roleAmask1 = true then do
        let rest ← maskWords e (ceilDiv32 (deg - 32)) 1
        pure (x.toNat + rest)
      else pure x.toNat) t := by
  unfold readMask
  rw [if_pos h]

theorem readMask_of_empty (h : e.streams[roleAmask0] = some []) (deg : Nat) :
    readMask e deg t = .error (.error { code := .topoStream, info := 11 }) := by
  rw [readMask_of_assigned (by rw [TopoEnv.assigned, h]; rfl), TopoM.bind_of_error (topoRead_of_empty (by rw [h]; rfl))]
  rfl

/-- Up to degree 32 the mask is the word of AMASK0 (R319). -/
theorem readMask_of_cons {m : Word} {ms : List Word} (h : e.streams[roleAmask0] = some (m :: ms))
    (hz : t.cursors[roleAmask0] = 0) {deg : Nat} (hdeg : deg ≤ 32) :
    readMask e deg t = .ok (m.toNat, t.moveOn roleAmask0) := by
  rw [readMask_of_assigned (by rw [TopoEnv.assigned, h]; rfl), TopoM.bind_of_ok (topoRead_of_cons h hz),
    if_neg (by omega), TopoM.pure_eq]

/-- With a legal degree an activation fails as its new face does (R330). -/
theorem activateF_of_face_error {v j : Nat} {d : Word} {x : TopoStop}
    (h : (e.stream (roleDegree (topoCtx t v)))[t.cursors[roleDegree (topoCtx t v)]]? = some d) (h2 : 2 ≤ d.toInt)
    (hmax : d.toInt ≤ e.params.maxDegree)
    (hface : newFace e d.toNat (t.moveOn (roleDegree (topoCtx t v))) = .error x) : activateF e v j t = .error x := by
  rw [activateF_of_read h, if_pos (by omega), if_neg (by omega)]
  exact TopoM.bind_of_error hface _

theorem activateF_of_degree_bad {v j : Nat} {d : Word}
    (h : (e.stream (roleDegree (topoCtx t v)))[t.cursors[roleDegree (topoCtx t v)]]? = some d)
    (hbad : d.toInt < 0 ∨ d.toInt = 1 ∨ (e.params.maxDegree : Int) < d.toInt) :
    activateF e v j t = .error (.error { code := .topoValue, info := 2 }) := by
  rw [activateF_of_read h]
  by_cases hpos : 0 < d.toInt
  · rw [if_pos hpos, if_pos (by omega)]
    rfl
  · rw [if_neg hpos, if_neg (by omega)]
    rfl

theorem activateF_of_degree_none {v j : Nat} (h : e.streams[roleDegree (topoCtx t v)].getD [] = []) :
    activateF e v j t = .error (.error { code := .topoStream, info := (roleDegree (topoCtx t v)).val }) := by
  unfold activateF
  rw [TopoM.get_bind]
  exact TopoM.bind_of_error (topoRead_of_empty h) _

theorem activateSplit_of_no_offset {v j : Nat} (h : e.streams[roleSplitFace].getD [] = []) :
    activateSplit e v j t = .error (.error { code := .topoStream, info := 13 }) := by
  unfold activateSplit
  exact TopoM.bind_of_error (topoRead_of_empty h) _

/-- With an empty queue no offset reaches a face (R331). -/
theorem activateSplit_of_no_face {v j : Nat} (haq : t.aq = []) (hz : t.cursors[roleSplitFace] = 0)
    (h : e.streams[roleSplitFace].getD [] ≠ []) :
    activateSplit e v j t = .error (.error { code := .topoSplit, info := 1 }) := by
  obtain ⟨off, offs, hoff⟩ := List.exists_cons_of_ne_nil h
  refine activateSplit_of_offset_bad (off := off) (by rw [TopoEnv.stream, hoff, hz]; rfl) ?_
  rw [haq]
  exact lt_or_ge _ _

end

/-! The activation of the seed's first slot. -/

theorem Topo.Seed.roleDegree_ctx {x : Word} {t : Topo} (h : t.Seed x.toNat) :
    roleDegree (topoCtx t 0) = if x = 3 then 1 else if x = 4 then 4 else if x = 5 then 6 else 7 := by
  have hx (k : Word) : x.toNat = k.toNat ↔ x = k := BitVec.toNat_inj
  rw [h.ctx]
  simp only [show x.toNat = 3 ↔ x = 3 from hx 3, show x.toNat = 4 ↔ x = 4 from hx 4,
    show x.toNat = 5 ↔ x = 5 from hx 5, apply_ite roleDegree]
  rfl

section
variable {t : Topo} {n : Nat} {d : Word} {ds : List Word}

/-- The degree is read from a stream of its own. -/
theorem Topo.Seed.unread_moveOn (h : t.Seed n) {c : Nat} {r : Role} (hr : 11 ≤ r.val) :
    (t.moveOn (roleDegree c)).cursors[r] = 0 := by
  rw [Topo.cursors_moveOn_degree (by omega)]
  exact h.unread r (.inr hr)

theorem Topo.Seed.degree_read (h : t.Seed n) {c : Nat} (hdeg : e.streams[roleDegree c] = some (d :: ds)) :
    (e.stream (roleDegree c))[t.cursors[roleDegree c]]? = some d := by
  rw [h.unread _ (.inl (roleDegree_val_lt c)), TopoEnv.stream, hdeg]
  rfl

end

end

/-! The errors of a run (R342, R343). -/

section
variable {s : State} {x : Word} {xs : List Word} {c : ErrCode} {i : Nat}

theorem topoFails_of_component (hval : s.topoEnv.streams[roleValence] = some (x :: xs))
    (h : runComponent s.topoEnv Topo.start = .error (.error { code := c, info := i })) : s.TopoFails c (u32 i) :=
  topoFails_of_error (topoRun_of_component_error (by rw [TopoEnv.stream, hval]; exact List.cons_ne_nil _ _) h)

theorem topoFails_of_vtxInit (hval : s.topoEnv.streams[roleValence] = some (x :: xs))
    (h : vtxInit s.topoEnv Topo.start = .error (.error { code := c, info := i })) : s.TopoFails c (u32 i) :=
  topoFails_of_component hval (TopoM.bind_of_error h _)

end

/-- The first vertex of a run, of valence `x`, passes its checks, and its first degree is read from role `c` (R314,
R315, R318). -/
structure State.FirstVertex (s : State) (x : Word) (c : Role) : Prop where
  valence : ∃ xs, s.topoEnv.streams[roleValence] = some (x :: xs)
  group : s.topoEnv.streams[roleGroup] ≠ some []
  flags : s.topoEnv.streams[roleFlags] ≠ some []
  two_le : 2 ≤ x.toInt
  le_max : x.toInt ≤ s.params.maxValence
  room : 0 < s.params.maxVtx
  slots : x.toNat ≤ s.params.maxIncid
  role : c = if x = 3 then 1 else if x = 4 then 4 else if x = 5 then 6 else 7

section
variable {s : State} {x d : Word} {ds : List Word} {c : Role} {code : ErrCode} {i : Nat}

/-- A run whose first vertex passes its checks fails as the activation of the vertex's first slot does. -/
theorem State.FirstVertex.fails (h : s.FirstVertex x c)
    (hact : ∀ t : Topo, t.Seed x.toNat → roleDegree (topoCtx t 0) = c →
      activateF s.topoEnv 0 0 t = .error (.error { code := code, info := i })) : s.TopoFails code (u32 i) := by
  obtain ⟨xs, hval⟩ := h.valence
  obtain ⟨u, grp, flg, hu, hinit⟩ := vtxInit_start hval h.group h.flags
  rw [s.params_topoEnv, if_neg (not_or.2 ⟨not_lt.2 h.two_le, not_lt.2 h.le_max⟩), if_neg h.room.ne,
    if_neg (not_lt.2 h.slots)] at hinit
  have hpos : 0 < x.toNat := by
    have htwo := h.two_le
    have hnat := toInt_eq_toNat_of_nonneg (x := x) (by omega)
    omega
  exact topoFails_of_component hval (runComponent_of_activateF_error hu hpos hinit fun t ht =>
    hact t ht (ht.roleDegree_ctx.trans h.role.symm))

theorem State.FirstVertex.fails_of_no_degree (h : s.FirstVertex x c) (hnone : (s.roleStream c).getD [] = []) :
    s.TopoFails .topoStream (u32 c.val) := by
  refine h.fails ?_
  rintro t - rfl
  exact activateF_of_degree_none (by rwa [s.streams_topoEnv_degree])

theorem State.FirstVertex.fails_of_degree_bad (h : s.FirstVertex x c) (hd : s.roleStream c = some (d :: ds))
    (hbad : d.toInt < 0 ∨ d.toInt = 1 ∨ (s.params.maxDegree : Int) < d.toInt) : s.TopoFails .topoValue 2 := by
  refine h.fails (i := 2) ?_
  rintro t ht rfl
  rw [← s.streams_topoEnv_degree] at hd
  exact activateF_of_degree_bad (ht.degree_read hd) hbad

/-- A first degree of 0 fails as a split on an empty queue does. -/
theorem State.FirstVertex.fails_of_split (h : s.FirstVertex x c) (hd : s.roleStream c = some (0 :: ds))
    (hsplit : ∀ t : Topo, t.aq = [] → t.cursors[roleSplitFace] = 0 →
      activateSplit s.topoEnv 0 0 t = .error (.error { code := code, info := i })) : s.TopoFails code (u32 i) := by
  refine h.fails ?_
  rintro t ht rfl
  rw [← s.streams_topoEnv_degree] at hd
  rw [activateF_of_zero (ht.degree_read hd)]
  exact hsplit _ ht.aq (ht.unread_moveOn (by decide))

/-- With a legal first degree a run fails as its first face does. -/
theorem State.FirstVertex.fails_of_face (h : s.FirstVertex x c) (hd : s.roleStream c = some (d :: ds))
    (h2 : 2 ≤ d.toInt) (hmax : d.toInt ≤ s.params.maxDegree)
    (hface : ∀ t : Topo, t.faces = [] → t.cursors[roleAmask0] = 0 →
      newFace s.topoEnv d.toNat t = .error (.error { code := code, info := i })) : s.TopoFails code (u32 i) := by
  refine h.fails ?_
  rintro t ht rfl
  rw [← s.streams_topoEnv_degree] at hd
  exact activateF_of_face_error (ht.degree_read hd) h2 hmax (hface _ ht.faces (ht.unread_moveOn (by decide)))

end

/-- Settles O57. With no valence the run is its end check; with one it fails where its first vertex, that vertex's first
activation, or the face of that activation does. -/
theorem topoRunOnEmptyStreams : Obligations.TopoRunOnEmptyStreams := by
  intro s
  have hstream (r : Role) (hr : r.val ≤ 14) : s.topoEnv.stream r = (s.roleStream r).getD [] := by
    rw [TopoEnv.stream, s.streams_topoEnv hr]
  refine ⟨fun hval => ⟨fun hall => ?_, fun r hr hne hlow => ?_⟩, fun x xs hval => ⟨fun hgrp => ?_, fun hgrp hflg => ?_,
    fun hgrp hflg => ⟨fun hx => ?_, fun h2 hmax hvtx => ?_, fun h2 hmax hvtx hincid => ?_,
      fun c h2 hmax hvtx hincid hc => ?_⟩⟩⟩
  · exact exec_topoRun_of_ok (topoRun_of_all_empty fun r hr => (hstream r hr).trans (hall r hr))
  · refine topoFails_of_error (topoRun_of_left_over ((hstream _ (by decide)).trans hval) hr ?_ fun q hq => ?_)
    · rwa [hstream r hr]
    · rw [hstream q (by omega)]
      exact hlow q hq
  all_goals rw [← s.streams_topoEnv (by decide)] at hval hgrp
  · exact topoFails_of_vtxInit hval (vtxInit_of_group_empty hval hgrp)
  all_goals rw [← s.streams_topoEnv (by decide)] at hflg
  · exact topoFails_of_vtxInit hval (vtxInit_of_flags_empty hval hgrp hflg)
  all_goals obtain ⟨u, grp, flg, hu, hinit⟩ := vtxInit_start hval hgrp hflg
  · exact topoFails_of_vtxInit (i := 1) hval (hinit.trans (if_pos hx))
  all_goals rw [s.params_topoEnv, if_neg (not_or.2 ⟨not_lt.2 h2, not_lt.2 hmax⟩)] at hinit
  · exact topoFails_of_vtxInit (i := 1) hval (hinit.trans (if_pos hvtx.symm))
  · rw [if_neg hvtx.ne] at hinit
    exact topoFails_of_vtxInit (i := 3) hval (hinit.trans (if_pos hincid))
  · have hfirst : s.FirstVertex x c := ⟨⟨xs, hval⟩, hgrp, hflg, h2, hmax, hvtx, hincid, hc⟩
    refine ⟨hfirst.fails_of_no_degree, fun d ds hd => ⟨hfirst.fails_of_degree_bad hd, ?_, ?_, fun hd2 hdmax => ?_⟩⟩
    · rintro rfl hsplit
      rw [← s.streams_topoEnv (by decide)] at hsplit
      exact hfirst.fails_of_split (i := 13) hd fun t _ _ => activateSplit_of_no_offset hsplit
    · rintro rfl hsplit
      rw [← s.streams_topoEnv (by decide)] at hsplit
      exact hfirst.fails_of_split (i := 1) hd fun t haq hz => activateSplit_of_no_face haq hz hsplit
    · rw [← s.streams_topoEnv (by decide)]
      refine ⟨fun hmask => ?_, fun m ms hmask h32 hbig => ?_, fun hmask hcap => ?_, fun hmask hcap hslots => ?_⟩
      · exact hfirst.fails_of_face (i := 11) hd hd2 hdmax fun t _ _ => TopoM.bind_of_error (readMask_of_empty hmask _) _
      · refine hfirst.fails_of_face (i := 1) hd hd2 hdmax fun t hf hz => ?_
        have hdeg := toInt_eq_toNat_of_nonneg (x := d) (by omega)
        rw [newFace_first (readMask_of_cons hmask hz (by omega)) hf, if_pos hbig]
      · refine hfirst.fails_of_face (i := 2) hd hd2 hdmax fun t hf _ => ?_
        rw [newFace_first (readMask_of_unassigned hmask _) hf, s.params_topoEnv, if_neg (by simp), if_pos hcap.symm]
      · refine hfirst.fails_of_face (i := 3) hd hd2 hdmax fun t hf _ => ?_
        rw [newFace_first (readMask_of_unassigned hmask _) hf, s.params_topoEnv, if_neg (by simp), if_neg hcap.ne,
          if_pos hslots]

end Sys2Proof.Machine

/-! TOPO_RUN on given streams (46_topology.md): the worked meshes and their errors, the compression contexts, the split
of an active face, and the attribute ids. -/

namespace Sys2Proof.Machine

/-! Runs on closed streams (R346, R347, R365, R343). -/

/-- What a TOPO_RUN reads with the reference parameters and exactly the streams of the list. -/
def referenceEnv (l : List (Role × List Word)) : TopoEnv :=
  { params := Params.reference, streams := Vector.ofFn fun r => if r.val ≤ 14 then l.lookup r else none }

/-- The run of `e` succeeds, and its mesh meets `P`. -/
def TopoEnv.builds (e : TopoEnv) (P : Mesh → Bool) : Bool :=
  match topoRun e with
  | .ok m => P m
  | .error _ => false

theorem TopoEnv.builds_iff {e : TopoEnv} {P : Mesh → Bool} :
    e.builds P = true ↔ ∃ m, topoRun e = .ok m ∧ P m = true := by
  unfold TopoEnv.builds
  cases topoRun e <;> simp

section
variable {s : State} {l : List (Role × List Word)}

theorem State.RoleStreams.topoEnv_reference (h : s.RoleStreams l) (hp : s.params = Params.reference) :
    s.topoEnv = referenceEnv l := by
  rw [h.topoEnv_eq, hp, referenceEnv]

/-- A run on closed streams that succeeds, carried to every state with those streams. -/
theorem State.RoleStreams.completes (h : s.RoleStreams l) (hp : s.params = Params.reference) {nv nf : Nat}
    {P : Mesh → Prop} [DecidablePred P]
    (hrun : (referenceEnv l).builds fun m => m.vertices.length = nv ∧ m.faces.length = nf ∧ P m) :
    ∃ m, exec .topoRun s = .next ((s.setMesh m).complete (u32 nv) (u32 nf)) ∧ P m := by
  obtain ⟨m, hm, hP⟩ := TopoEnv.builds_iff.1 hrun
  obtain ⟨hnv, hnf, hP⟩ := of_decide_eq_true hP
  exact ⟨m, hnv ▸ hnf ▸ exec_topoRun_of_ok (h.topoEnv_reference hp ▸ hm), hP⟩

/-- A run on closed streams that fails, carried to every state with those streams. -/
theorem State.RoleStreams.fails (h : s.RoleStreams l) (hp : s.params = Params.reference) {c : ErrCode} {i : Nat}
    (hrun : topoRun (referenceEnv l) = .error (.error { code := c, info := i })) : s.TopoFails c (u32 i) :=
  topoFails_of_error (h.topoEnv_reference hp ▸ hrun)

end

theorem referenceEnv_tetrahedron : (referenceEnv [(8, [3, 3, 3, 3]), (0, [3, 3, 3]), (1, [3])]).builds fun m =>
    m.vertices.length = 4 ∧ m.faces.length = 4 ∧
      m.faces.map Face.fvtx = filledRings [[0, 2, 3], [0, 3, 1], [0, 1, 2], [1, 3, 2]] ∧
      m.vertices.map Vertex.vface = filledRings [[0, 1, 2], [2, 1, 3], [2, 3, 0], [3, 1, 0]] ∧
      m.attrCounter = 0 ∧ m.ncomp = 1 := by decide +kernel

theorem referenceEnv_twoTetrahedra :
    (referenceEnv [(8, [3, 3, 3, 3, 3, 3, 3, 3]), (0, [3, 3, 3, 3, 3, 3]), (1, [3, 3])]).builds fun m =>
      m.vertices.length = 8 ∧ m.faces.length = 8 ∧
        m.faces.map Face.fvtx = filledRings [[0, 2, 3], [0, 3, 1], [0, 1, 2], [1, 3, 2], [4, 6, 7], [4, 7, 5],
          [4, 5, 6], [5, 7, 6]] ∧ m.ncomp = 2 := by decide +kernel

/-- The torus of R347, with its two splits. -/
theorem referenceEnv_torus :
    (referenceEnv [(8, [4, 4, 4, 4, 4, 4, 4, 4, 4]), (4, [4, 4, 4, 4, 4, 4, 4, 4, 4, 0, 0]), (13, [4, 3]),
        (14, [1, 2])]).builds fun m =>
      m.vertices.length = 9 ∧ m.faces.length = 9 ∧
        m.faces.map Face.fvtx = filledRings [[0, 3, 7, 8], [0, 8, 6, 5], [0, 5, 4, 1], [0, 1, 2, 3], [1, 4, 6, 8],
          [1, 8, 7, 2], [2, 7, 6, 4], [2, 4, 5, 3], [3, 5, 6, 7]] ∧
        m.vertices.map Vertex.vface = filledRings [[0, 1, 2, 3], [3, 2, 4, 5], [3, 5, 6, 7], [3, 7, 8, 0],
          [7, 6, 4, 2], [7, 2, 1, 8], [8, 1, 4, 6], [8, 6, 5, 0], [5, 4, 1, 0]] ∧ m.ncomp = 1 := by decide +kernel

theorem referenceEnv_masks :
    (referenceEnv [(8, [3, 3, 3, 3]), (0, [3, 3, 3]), (1, [3]), (11, [5, 0, 1, 7])]).builds fun m =>
      m.vertices.length = 4 ∧ m.faces.length = 4 ∧
        m.faces.map Face.amask = [[true, false, true], [false, false, false], [true, false, false],
          [true, true, true]] ∧
        m.faces.map Face.attrBase = [0, 2, 2, 3] ∧ m.attrCounter = 6 := by decide +kernel

/-! The compression contexts (R318). -/

theorem Topo.vring_of_getElem? {t : Topo} {v : Nat} {x : Vertex} (h : t.vertices[v]? = some x) :
    t.vring v = x.vface := by
  simp [Topo.vring, h]

theorem knownFaces_eq_length (ring : List (Option Nat)) : knownFaces ring = (ring.filterMap id).length := by
  induction ring with
  | nil => rfl
  | cons y ys ih => cases y <;> simp_all [knownFaces]

theorem knownDegrees_eq_sum (t : Topo) (ring : List (Option Nat)) :
    knownDegrees t ring = ((ring.filterMap id).map t.degreeOf).sum := by
  induction ring with
  | nil => rfl
  | cons y ys ih => cases y <;> simp_all [knownDegrees]

/-- `degreeBucket` on the known faces of a ring. -/
theorem topoCtx_of_ring {t : Topo} {v : Nat} {x : Vertex} {ds : List Nat} (hx : t.vertices[v]? = some x)
    (hds : ds = (x.vface.filterMap id).map fun f => (t.fring f).length) :
    topoCtx t v =
      if x.vface.length = 3 then degreeBucket 0 6 ds.sum ds.length
      else if x.vface.length = 4 then degreeBucket 3 4 ds.sum ds.length
      else if x.vface.length = 5 then 6
      else 7 := by
  have hnk : knownFaces x.vface = ds.length := by rw [knownFaces_eq_length, hds, List.length_map]
  have htot : knownDegrees t x.vface = ds.sum := by rw [knownDegrees_eq_sum, hds]; rfl
  simp only [topoCtx, Topo.valenceOf, Topo.vring_of_getElem? hx, hnk, htot]

/-! The split of an active face (R330, R331). -/

/-- The degree, the offset and the position of a split are read (R330, R331). -/
def Topo.splitRead (t : Topo) (c : Role) : Topo := ((t.moveOn c).moveOn roleSplitFace).moveOn roleSplitPos

theorem Topo.cursors_splitRead (t : Topo) (c : Nat) (q : Role) :
    (t.splitRead (roleDegree c)).cursors[q] =
      t.cursors[q] + if q = roleDegree c ∨ q = roleSplitFace ∨ q = roleSplitPos then 1 else 0 := by
  have hface : roleSplitFace ≠ roleDegree c := roleDegree_ne (by decide)
  have hpos : roleSplitPos ≠ roleDegree c := roleDegree_ne (by decide)
  simp only [Topo.splitRead, Topo.cursors_moveOn]
  by_cases hc : q = roleDegree c
  · subst hc
    simp [hface.symm, hpos.symm]
  · by_cases hq : q = roleSplitFace
    · subst hq
      simp [hc, show roleSplitFace ≠ roleSplitPos by decide]
    · simp [hc, hq]

section
variable {e : TopoEnv} {t : Topo}

theorem activateSplit_of_offset {v j f : Nat} {off pos : Word}
    (hoff : (e.stream roleSplitFace)[t.cursors[roleSplitFace]]? = some off)
    (hpos : (e.stream roleSplitPos)[t.cursors[roleSplitPos]]? = some pos)
    (hnonneg : 0 ≤ off.toInt) (hf : t.aq.reverse[off.toNat]? = some f) :
    activateSplit e v j t =
      (if pos.toInt < 0 ∨ ((t.fring f).length : Int) ≤ pos.toInt then topoRaise .topoSplit 2
      else if ringGet (t.fring f) pos.toNat ≠ none then topoRaise .topoSplit 3
      else topLink v j f pos.toNat) ((t.moveOn roleSplitFace).moveOn roleSplitPos) := by
  obtain ⟨hlt, hget⟩ := List.getElem?_eq_some_iff.1 hf
  rw [List.length_reverse] at hlt
  have hgood : ¬ (off.toInt < 0 ∨ (t.aq.length : Int) ≤ off.toInt) := by
    rw [toInt_eq_toNat_of_nonneg hnonneg]
    omega
  have hface : t.aq.getD (t.aq.length - 1 - off.toNat) 0 = f := by
    rw [List.getElem_reverse] at hget
    rw [List.getD_eq_getElem _ _ (by omega), hget]
  have hpos' : (e.stream roleSplitPos)[(t.moveOn roleSplitFace).cursors[roleSplitPos]]? = some pos := by
    rw [Topo.cursors_moveOn, if_neg (by decide), Nat.add_zero, hpos]
  unfold activateSplit
  rw [TopoM.bind_of_ok (topoRead_of_some hoff), TopoM.get_bind, Topo.aq_moveOn, if_neg hgood, hface,
    TopoM.bind_of_ok (topoRead_of_some hpos')]
  rfl

/-- An activation whose degree is 0, with the offset and the position of the split in hand (R330, R331). -/
theorem activateF_of_split {v j f : Nat} {off pos : Word}
    (hdeg : (e.stream (roleDegree (topoCtx t v)))[t.cursors[roleDegree (topoCtx t v)]]? = some 0)
    (hoff : (e.stream roleSplitFace)[t.cursors[roleSplitFace]]? = some off)
    (hpos : (e.stream roleSplitPos)[t.cursors[roleSplitPos]]? = some pos)
    (hnonneg : 0 ≤ off.toInt) (hf : t.aq.reverse[off.toNat]? = some f) :
    activateF e v j t =
      (if pos.toInt < 0 ∨ ((t.fring f).length : Int) ≤ pos.toInt then topoRaise .topoSplit 2
      else if ringGet (t.fring f) pos.toNat ≠ none then topoRaise .topoSplit 3
      else topLink v j f pos.toNat) (t.splitRead (roleDegree (topoCtx t v))) := by
  rw [activateF_of_zero hdeg]
  exact activateSplit_of_offset (by rwa [Topo.cursors_moveOn_degree (by decide)])
    (by rwa [Topo.cursors_moveOn_degree (by decide)]) hnonneg hf

theorem activateF_of_split_offset_bad {v j : Nat} {off : Word}
    (hdeg : (e.stream (roleDegree (topoCtx t v)))[t.cursors[roleDegree (topoCtx t v)]]? = some 0)
    (hoff : (e.stream roleSplitFace)[t.cursors[roleSplitFace]]? = some off)
    (hbad : off.toInt < 0 ∨ (t.aq.length : Int) ≤ off.toInt) :
    activateF e v j t = .error (.error { code := .topoSplit, info := 1 }) := by
  rw [activateF_of_zero hdeg]
  exact activateSplit_of_offset_bad (by rwa [Topo.cursors_moveOn_degree (by decide)]) hbad

/-- A position that is not negative and finds a slot is inside its ring. -/
theorem ring_position_ok {ring : List (Option Nat)} {pos : Word} {y : Option Nat} (h0 : 0 ≤ pos.toInt)
    (h : ring[pos.toNat]? = some y) :
    ¬ (pos.toInt < 0 ∨ (ring.length : Int) ≤ pos.toInt) ∧ ringGet ring pos.toNat = y := by
  have hlt := (List.getElem?_eq_some_iff.1 h).1
  rw [toInt_eq_toNat_of_nonneg h0, ringGet, h]
  exact ⟨by omega, rfl⟩

end

/-! The attribute ids (R317, R319, R320). -/

/-- The faces' attribute records: one mask bit per corner, ids that start where those of the faces before end, the
counter at the total. -/
structure Topo.Attributed (t : Topo) : Prop where
  counter : t.attrCounter = (t.faces.map Face.nattr).sum
  face : ∀ i f, t.faces[i]? = some f →
    f.amask.length = f.fvtx.length ∧ f.fflags = 0 ∧ f.attrBase = ((t.faces.map Face.nattr).take i).sum

/-- A predicate that every step of a run keeps: links, stream reads, new vertices, new faces with one mask bit per slot,
and changes of the component count and of the active-face queue. -/
structure RunStable (P : Topo → Prop) : Prop extends LinkStable P where
  cursors : ∀ {t : Topo} (c : Vector Nat 17), P t → P { t with cursors := c }
  addVertex : ∀ {t : Topo} (val : Nat) (grp flg : Word), P t → P (t.addVertex val grp flg)
  addFace : ∀ {t : Topo} (mask deg : Nat), P t → P (t.addFace deg (maskBits mask deg))
  ncomp : ∀ {t : Topo} (n : Nat), P t → P { t with ncomp := n }
  aq : ∀ {t : Topo} (q : List Nat), P t → P { t with aq := q }

section
variable {P : Topo → Prop} {t : Topo} (e : TopoEnv)

theorem RunStable.maskWords_keeps (hP : RunStable P) (n w : Nat) (h : P t) :
    TopoM.Ensures (maskWords e n w) t fun _ u => P u := by
  induction n generalizing t w with
  | zero => exact TopoM.ensures_pure h
  | succ n ih =>
    exact (topoRead_keeps e hP.cursors _ h).bind fun _ _ h => (ih _ h).bind fun _ _ h => TopoM.ensures_pure h

theorem RunStable.readMask_keeps (hP : RunStable P) (deg : Nat) (h : P t) :
    TopoM.Ensures (readMask e deg) t fun _ u => P u := by
  unfold readMask
  split
  · refine (topoRead_keeps e hP.cursors _ h).bind fun _ _ h => ?_
    split
    · exact (hP.maskWords_keeps e _ _ h).bind fun _ _ h => TopoM.ensures_pure h
    · exact TopoM.ensures_pure h
  · exact TopoM.ensures_pure h

theorem RunStable.newFace_keeps (hP : RunStable P) (deg : Nat) (h : P t) :
    TopoM.Ensures (newFace e deg) t fun _ u => P u := by
  refine (hP.readMask_keeps e deg h).bind fun mask u h => ?_
  split
  · exact TopoM.ensures_raise _ _
  · refine TopoM.ensures_get_bind ?_
    split
    · exact TopoM.ensures_raise _ _
    · split
      · exact TopoM.ensures_raise _ _
      · exact TopoM.ensures_set_bind (TopoM.ensures_pure (hP.addFace mask deg h))

theorem RunStable.activateSplit_keeps (hP : RunStable P) (v j : Nat) (h : P t) :
    TopoM.Ensures (activateSplit e v j) t fun _ u => P u := by
  refine (topoRead_keeps e hP.cursors _ h).bind fun off _ h => TopoM.ensures_get_bind ?_
  split
  · exact TopoM.ensures_raise _ _
  · refine (topoRead_keeps e hP.cursors _ h).bind fun pos _ h => ?_
    split
    · exact TopoM.ensures_raise _ _
    · split
      · exact TopoM.ensures_raise _ _
      · exact topLink_keeps hP.toLinkStable _ _ _ _ h

theorem RunStable.activateF_keeps (hP : RunStable P) (v j : Nat) (h : P t) :
    TopoM.Ensures (activateF e v j) t fun _ u => P u := by
  refine TopoM.ensures_get_bind <| (topoRead_keeps e hP.cursors _ h).bind fun deg _ h => ?_
  split
  · split
    · exact TopoM.ensures_raise _ _
    · exact (hP.newFace_keeps e _ h).bind fun f _ h => topLink_keeps hP.toLinkStable v j f 0 h
  · split
    · exact hP.activateSplit_keeps e v j h
    · exact TopoM.ensures_raise _ _

theorem RunStable.activateSlots_keeps (hP : RunStable P) (v : Nat) (js : List Nat) (h : P t) :
    TopoM.Ensures (activateSlots e v js) t fun _ u => P u := by
  induction js generalizing t with
  | nil => exact TopoM.ensures_pure h
  | cons j js ih =>
    refine TopoM.ensures_get_bind ?_
    split
    · exact (hP.activateF_keeps e v j h).bind fun _ _ h => ih h
    · exact ih h

theorem RunStable.vtxInit_keeps (hP : RunStable P) (h : P t) : TopoM.Ensures (vtxInit e) t fun _ u => P u := by
  refine (topoRead_keeps e hP.cursors _ h).bind fun val _ h => (topoReadOr0_keeps e hP.cursors _ h).bind fun grp _ h =>
    (topoReadOr0_keeps e hP.cursors _ h).bind fun flg u h => ?_
  split
  · exact TopoM.ensures_raise _ _
  · refine TopoM.ensures_get_bind ?_
    split
    · exact TopoM.ensures_raise _ _
    · split
      · exact TopoM.ensures_raise _ _
      · exact TopoM.ensures_set_bind (TopoM.ensures_pure (hP.addVertex _ _ _ h))

theorem RunStable.completeVLoop_keeps (hP : RunStable P) (f fuel : Nat) (h : P t) :
    TopoM.Ensures (completeVLoop e f fuel) t fun _ u => P u := by
  induction fuel generalizing t with
  | zero => exact TopoM.ensures_stuck
  | succ fuel ih =>
    refine TopoM.ensures_get_bind ?_
    split
    · exact TopoM.ensures_pure h
    · have hactivateV (s : Nat) : TopoM.Ensures (activateV e f s) t fun _ u => P u :=
        (hP.vtxInit_keeps e h).bind fun v _ h => (topLink_keeps hP.toLinkStable v 0 f s h).bind
          fun _ _ h => TopoM.ensures_pure h
      exact (hactivateV _).bind fun v _ h =>
        TopoM.Ensures.bind (TopoM.ensures_get_bind (hP.activateSlots_keeps e v _ h)) fun _ _ h => ih h

theorem RunStable.componentLoop_keeps (hP : RunStable P) (fuel : Nat) (h : P t) :
    TopoM.Ensures (componentLoop e fuel) t fun _ u => P u := by
  induction fuel generalizing t with
  | zero => exact TopoM.ensures_stuck
  | succ fuel ih =>
    refine TopoM.ensures_get_bind ?_
    split
    · exact TopoM.ensures_pure h
    · exact (TopoM.ensures_get_bind (hP.completeVLoop_keeps e _ _ h)).bind fun _ _ h =>
        TopoM.ensures_modify_bind (ih (hP.aq _ h))

theorem RunStable.runComponent_keeps (hP : RunStable P) (h : P t) : TopoM.Ensures (runComponent e) t fun _ u => P u :=
  (hP.vtxInit_keeps e h).bind fun v _ h => TopoM.ensures_modify_bind <| TopoM.ensures_get_bind <|
    (hP.activateSlots_keeps e v _ (hP.ncomp _ h)).bind fun _ _ h =>
      TopoM.ensures_get_bind (hP.componentLoop_keeps e _ h)

theorem RunStable.runComponents_keeps (hP : RunStable P) (fuel : Nat) (h : P t) :
    TopoM.Ensures (runComponents e fuel) t fun _ u => P u := by
  induction fuel generalizing t with
  | zero => exact TopoM.ensures_stuck
  | succ fuel ih =>
    refine TopoM.ensures_get_bind ?_
    split
    · exact (hP.runComponent_keeps e h).bind fun _ _ h => ih h
    · exact TopoM.ensures_pure h

/-- What every step of a run keeps holds of the whole run. -/
theorem RunStable.topoProgram_keeps (hP : RunStable P) (h : P t) : TopoM.Ensures (topoProgram e) t fun _ u => P u := by
  refine TopoM.ensures_get_bind <| (hP.runComponents_keeps e _ h).bind fun _ _ h => TopoM.ensures_get_bind ?_
  split
  · exact TopoM.ensures_pure h
  · exact TopoM.ensures_raise _ _

end

/-- A link changes no face's mask, flags and first id, and no ring's length (R324). -/
theorem Topo.Attributed.fill {t : Topo} (h : t.Attributed) (v j f s : Nat) : (t.fill v j f s).Attributed := by
  have hget (i : Nat) : (t.fill v j f s).faces[i]? =
      (t.faces[i]?).map fun x => if f = i then { x with fvtx := x.fvtx.set s (some v) } else x := by
    simp only [Topo.fill, Topo.setFvtx, Topo.setVface, List.getElem?_modify]
    split <;> simp
  have hnattr : (t.fill v j f s).faces.map Face.nattr = t.faces.map Face.nattr := by
    refine List.ext_getElem? fun i => ?_
    simp only [List.getElem?_map, hget, Option.map_map]
    congr 1
    funext x
    simp only [Function.comp_apply]
    split <;> rfl
  refine ⟨hnattr ▸ h.counter, fun i y hy => ?_⟩
  rw [hget] at hy
  obtain ⟨x, hx, rfl⟩ := Option.map_eq_some_iff.1 hy
  obtain ⟨hlen, hflags, hbase⟩ := h.face i x hx
  rw [hnattr]
  split
  · exact ⟨by simpa using hlen, hflags, hbase⟩
  · exact ⟨hlen, hflags, hbase⟩

/-- A new face starts at the counter (R320). -/
theorem Topo.Attributed.addFace {t : Topo} (h : t.Attributed) (mask deg : Nat) :
    (t.addFace deg (maskBits mask deg)).Attributed where
  counter := by simp [Topo.addFace, Face.nattr, h.counter]
  face := fun i f hf => by
    simp only [Topo.addFace] at hf ⊢
    rcases lt_trichotomy i t.faces.length with hi | rfl | hi
    · rw [List.getElem?_append_left hi] at hf
      rw [List.map_append, List.take_append_of_le_length (by simpa using hi.le)]
      exact h.face i f hf
    · obtain rfl : _ = f := by simpa using hf
      simp [maskBits, h.counter]
    · rw [List.getElem?_eq_none (by simp; omega)] at hf
      exact nomatch hf

theorem Topo.Attributed.runStable : RunStable Topo.Attributed where
  setWork := fun _ h => ⟨h.counter, h.face⟩
  fill := fun h _ _ _ _ => h.fill _ _ _ _
  cursors := fun _ h => ⟨h.counter, h.face⟩
  addVertex := fun _ _ _ h => ⟨h.counter, h.face⟩
  addFace := fun mask deg h => h.addFace mask deg
  ncomp := fun _ h => ⟨h.counter, h.face⟩
  aq := fun _ h => ⟨h.counter, h.face⟩

theorem Topo.start_attributed : Topo.start.Attributed where
  counter := rfl
  face := fun _ _ h => nomatch h

/-- The mesh of a run that succeeds is the working state's tables (R310). -/
theorem topoRun_attributed {e : TopoEnv} {m : Mesh} (h : topoRun e = .ok m) :
    ∃ t : Topo, t.Attributed ∧ t.toMesh = m := by
  unfold topoRun at h
  split at h
  · next u hrun =>
    cases h
    exact ⟨u, Topo.Attributed.runStable.topoProgram_keeps e Topo.start_attributed _ _ hrun, rfl⟩
  · exact nomatch h

/-- Settles O58. The worked meshes and the error streams are closed runs; the contexts, the split and the attribute ids
are general. -/
theorem topoRunWorkedMeshes : Obligations.TopoRunWorkedMeshes := by
  refine ⟨fun s hp => ⟨fun h => h.completes hp referenceEnv_tetrahedron, fun h => h.completes hp referenceEnv_masks,
    fun h => h.completes hp referenceEnv_twoTetrahedra, fun h => h.completes hp referenceEnv_torus,
    fun h => h.fails hp (i := 0) (by decide +kernel), fun h => h.fails hp (i := 8) (by decide +kernel),
    fun h => h.fails hp (i := 1) (by decide +kernel), fun h => h.fails hp (i := 3) (by decide +kernel),
    fun h => h.fails hp (i := 2) (by decide +kernel), fun h => h.fails hp (i := 1) (by decide +kernel),
    fun h => h.fails hp (i := 2) (by decide +kernel), fun h => h.fails hp (i := 1) (by decide +kernel),
    fun h => h.fails hp (i := 12) (by decide +kernel), fun h => h.fails hp (i := 1) (by decide +kernel),
    fun h => h.fails hp (i := 4) (by decide +kernel)⟩, ?_, ?_, ?_⟩
  · intro t v x ds hx hds
    rw [topoCtx_of_ring hx hds]
    refine ⟨fun h => by rw [h]; rfl, fun h => by rw [h]; rfl, fun h => by rw [h]; rfl, fun h => ?_⟩
    simp only [List.mem_cons, List.not_mem_nil, or_false, not_or] at h
    obtain ⟨h3, h4, h5⟩ := h
    rw [if_neg h3, if_neg h4, if_neg h5]
  · rintro e t v j _ off pos rfl hdeg hoff hpos
    refine ⟨activateF_of_split_offset_bad hdeg hoff, fun f hnonneg hf => ?_⟩
    have hrun := activateF_of_split (v := v) (j := j) hdeg hoff hpos hnonneg hf
    refine ⟨fun hbad => hrun.trans (by rw [if_pos hbad]; rfl), fun u h0 hu => hrun.trans ?_, fun h0 hu =>
      ⟨_, hrun.trans ?_, rfl, Topo.cursors_splitRead t _⟩⟩
    · obtain ⟨hgood, hget⟩ := ring_position_ok h0 hu
      rw [if_neg hgood, hget, if_pos (by simp)]
      rfl
    · obtain ⟨hgood, hget⟩ := ring_position_ok h0 hu
      rw [if_neg hgood, hget, if_neg (by simp)]
      rfl
  · intro s t h hvalid
    obtain ⟨u, hu, hmesh⟩ := topoRun_attributed (topoRun_of_exec h hvalid)
    rw [← hmesh]
    refine ⟨hu.counter, fun i f hf => ?_⟩
    rw [List.map_take]
    exact hu.face i f hf

end Sys2Proof.Machine

/-! TOPO_EMIT (47_emit.md): the attribute index of a corner, and the corner arrays. -/

namespace Sys2Proof.Machine

/-! The rotation to an owning corner (R363). -/

/-- A corner that owns an attribute is its own owner. -/
theorem rotateToOwner_of_owner {mask : List Bool} {t : Nat} (h : mask.getD t false = true) (fuel : Nat) :
    rotateToOwner mask fuel t = t := by
  cases fuel with
  | zero => rfl
  | succ fuel => exact if_pos h

/-- The search from a corner without an attribute goes on at the corner before it. -/
theorem rotateToOwner_succ_of_not_owner {mask : List Bool} {t : Nat} (h : mask.getD t false = false) (fuel : Nat) :
    rotateToOwner mask (fuel + 1) t = rotateToOwner mask fuel ((t + (mask.length - 1)) % mask.length) :=
  if_neg (ne_true_of_eq_false h)

/-- Once an owning corner stands fewer than `fuel` places back in ring order, more fuel changes nothing. -/
theorem rotateToOwner_succ_of_owner_behind {mask : List Bool} {j i fuel : Nat} (hj : mask.getD j false = true)
    (hlt : j < mask.length) (hi : i < fuel) :
    rotateToOwner mask (fuel + 1) ((j + i) % mask.length) = rotateToOwner mask fuel ((j + i) % mask.length) := by
  induction fuel generalizing i with
  | zero => exact absurd hi (Nat.not_lt_zero i)
  | succ fuel ih =>
    cases hown : mask.getD ((j + i) % mask.length) false with
    | true => rw [rotateToOwner_of_owner hown, rotateToOwner_of_owner hown]
    | false =>
      cases i with
      | zero =>
        rw [Nat.add_zero, Nat.mod_eq_of_lt hlt, hj] at hown
        exact nomatch hown
      | succ i =>
        have hback : ((j + (i + 1)) % mask.length + (mask.length - 1)) % mask.length = (j + i) % mask.length := by
          rw [Nat.mod_add_mod, show j + (i + 1) + (mask.length - 1) = j + i + mask.length by omega, Nat.add_mod_right]
        rw [rotateToOwner_succ_of_not_owner hown, rotateToOwner_succ_of_not_owner hown, hback]
        exact ih (Nat.lt_of_succ_lt_succ hi)

/-- Seen from the corner before `k`, every other corner is fewer than `n - 1` places back. -/
theorem exists_steps_back {n k j : Nat} (hk : k < n) (hj : j < n) (hne : j ≠ k) :
    ∃ i, i < n - 1 ∧ (j + i) % n = (k + (n - 1)) % n := by
  rcases Nat.lt_or_gt_of_ne hne with h | h
  · exact ⟨k - 1 - j, by omega, by
      rw [show k + (n - 1) = j + (k - 1 - j) + n by omega, Nat.add_mod_right]⟩
  · exact ⟨k + (n - 1) - j, by omega, by rw [show j + (k + (n - 1) - j) = k + (n - 1) by omega]⟩

/-- A corner without an attribute has the owner of the corner before it, if any corner owns one. -/
theorem rotateToOwner_of_not_owner {mask : List Bool} {k : Nat} (hk : k < mask.length)
    (hown : mask.getD k false = false) (hsome : 0 < mask.countP id) :
    rotateToOwner mask mask.length k =
      rotateToOwner mask mask.length ((k + (mask.length - 1)) % mask.length) := by
  obtain ⟨b, hmem, hb⟩ := List.countP_pos_iff.1 hsome
  obtain ⟨j, hj, rfl⟩ := List.getElem_of_mem hmem
  have hjown : mask.getD j false = true := by simpa [hj] using hb
  have hne : j ≠ k := by
    rintro rfl
    exact absurd (hjown.symm.trans hown) (by decide)
  obtain ⟨i, hi, hplace⟩ := exists_steps_back hk hj hne
  have hlen : mask.length - 1 + 1 = mask.length := Nat.sub_add_cancel (Nat.one_le_of_lt hk)
  have hfuel := rotateToOwner_succ_of_owner_behind hjown hj hi
  rw [hplace, hlen] at hfuel
  calc rotateToOwner mask mask.length k
      = rotateToOwner mask (mask.length - 1 + 1) k := by rw [hlen]
    _ = rotateToOwner mask (mask.length - 1) ((k + (mask.length - 1)) % mask.length) :=
        rotateToOwner_succ_of_not_owner hown _
    _ = _ := hfuel.symm

/-! `VtxFaceAttr` (R363). -/

theorem vtxFaceAttr_of_no_attributes {f : Face} (h : f.nattr = 0) (k : Nat) : vtxFaceAttr f k = -1 := if_pos h

theorem vtxFaceAttr_of_attributes {f : Face} (h : 0 < f.nattr) (k : Nat) :
    vtxFaceAttr f k = u32 (f.attrBase + (f.amask.take (rotateToOwner f.amask f.amask.length k)).countP id) :=
  if_neg h.ne'

/-- A face with an owning corner has attributes. -/
theorem Face.nattr_pos_of_owner {f : Face} {k : Nat} (h : f.amask.getD k false = true) : 0 < f.nattr := by
  rcases lt_or_ge k f.amask.length with hk | hk
  · exact List.countP_pos_iff.2 ⟨f.amask[k], List.getElem_mem hk, by simpa [hk] using h⟩
  · rw [List.getD_eq_default _ _ hk] at h
    exact nomatch h

/-- Settles O60: the three clauses follow the search, which stops at an owner or goes on at the corner before. -/
theorem vtxFaceAttrRotation : Obligations.VtxFaceAttrRotation := by
  intro f k hlen hk
  refine ⟨fun hnone => vtxFaceAttr_of_no_attributes hnone k, fun hown => ?_, fun hown hsome => ?_⟩
  · rw [vtxFaceAttr_of_attributes (Face.nattr_pos_of_owner hown), rotateToOwner_of_owner hown]
  · rw [vtxFaceAttr_of_attributes hsome, vtxFaceAttr_of_attributes hsome, ← hlen,
      rotateToOwner_of_not_owner (hlen ▸ hk) hown hsome]

/-! The corner arrays (R362). -/

/-- An array with `degree` elements per face holds element `k` of face `i` after the degrees of the faces before. -/
theorem getElem?_flatMap_corner {g : Face → List Word} (hg : ∀ f : Face, (g f).length = f.degree) {fs : List Face}
    {i k : Nat} {face : Face} (hface : fs[i]? = some face) (hk : k < face.degree) :
    (fs.flatMap g)[sumDegree (fs.take i) + k]? = (g face)[k]? := by
  induction fs generalizing i with
  | nil => exact nomatch hface
  | cons x fs ih =>
    cases i with
    | zero =>
      obtain rfl : x = face := by simpa using hface
      rw [List.flatMap_cons, show sumDegree ((x :: fs).take 0) + k = k from Nat.zero_add k,
        List.getElem?_append_left ((hg x).symm ▸ hk)]
    | succ i =>
      have hplace : sumDegree ((x :: fs).take (i + 1)) + k = (g x).length + (sumDegree (fs.take i) + k) := by
        rw [hg, ← Nat.add_assoc]
        rfl
      rw [List.flatMap_cons, hplace, List.getElem?_append_right (Nat.le_add_right ..), Nat.add_sub_cancel_left]
      exact ih hface

@[simp] theorem cornerVertices_length (f : Face) : (cornerVertices f).length = f.degree := List.length_map _

@[simp] theorem cornerAttributes_length (f : Face) : (cornerAttributes f).length = f.degree := by
  simp [cornerAttributes]

theorem cornerVertices_getElem? {f : Face} {k : Nat} (hk : k < f.degree) :
    (cornerVertices f)[k]? = some (slotElement (f.fvtx.getD k none)) := by
  have hk : k < f.fvtx.length := hk
  simp [cornerVertices, hk]

theorem cornerAttributes_getElem? {f : Face} {k : Nat} (hk : k < f.degree) :
    (cornerAttributes f)[k]? = some (vtxFaceAttr f k) := by
  simp [cornerAttributes, hk]

/-! The command (R360, R361). -/

section

variable {s : State} {cv : SlotNo}

theorem execTopoEmit_of_roles_bad
    (h : s.roleSlot roleCornerVtx = none ∨ s.roleSlot roleCornerVtx = s.roleSlot roleCornerAttr) :
    execTopoEmit s = failWith s .badArg s.emitSlots := by
  unfold execTopoEmit
  cases hcv : s.roleSlot roleCornerVtx with
  | none => rfl
  | some cv =>
    obtain h | h := h
    · exact nomatch hcv.symm.trans h
    · exact if_pos (h.symm.trans hcv)

/-- With both roles in order, the mesh decides. -/
theorem execTopoEmit_of_roles (hcv : s.roleSlot roleCornerVtx = some cv) (hca : s.roleSlot roleCornerAttr ≠ some cv) :
    execTopoEmit s =
      if s.meshValid = false then failWith s .state s.emitSlots
      else if s.params.slotCap < sumDegree s.mesh.faces then failWith s .capacity s.emitSlots
      else .next (((s.setSlot cv (s.mesh.faces.flatMap cornerVertices)).setCornerAttr (s.roleSlot roleCornerAttr)
        (s.mesh.faces.flatMap cornerAttributes)).complete (u32 (sumDegree s.mesh.faces)) (u32 s.mesh.attrCounter)) := by
  unfold execTopoEmit
  rw [hcv]
  exact if_neg hca

end

/-- Settles O59: the errors in their order, then the two arrays element by element. -/
theorem topoEmitCorners : Obligations.TopoEmitCorners := by
  intro s
  refine ⟨fun hbad => execTopoEmit_of_roles_bad hbad, fun hassigned hdistinct => ?_, fun cv hcv hca hvalid hcap => ?_⟩
  · obtain ⟨cv, hcv⟩ := Option.ne_none_iff_exists'.1 hassigned
    have hrun := execTopoEmit_of_roles hcv fun hca => hdistinct (hcv.trans hca.symm)
    refine ⟨fun hvalid => hrun.trans (if_pos hvalid), fun hvalid hcap => hrun.trans ?_⟩
    rw [if_neg (by simp [hvalid]), if_pos hcap]
    rfl
  · refine ⟨s.mesh.faces.flatMap cornerVertices, s.mesh.faces.flatMap cornerAttributes, ?_,
      flatMap_cornerVertices_length _, flatMap_cornerAttributes_length _, fun f face k hface hk => ⟨?_, ?_⟩⟩
    · refine (execTopoEmit_of_roles hcv hca).trans ?_
      rw [if_neg (by simp [hvalid]), if_neg (Nat.not_lt.2 hcap)]
      cases s.roleSlot roleCornerAttr <;> rfl
    · rw [getElem?_flatMap_corner cornerVertices_length hface hk, cornerVertices_getElem? hk]
      rfl
    · rw [getElem?_flatMap_corner cornerAttributes_length hface hk, cornerAttributes_getElem? hk]

end Sys2Proof.Machine

/-! The resets, what BUSY refuses, ACCERR, and the completion of every accepted command
(70_reset_and_hazards.md R440 to R461). -/

namespace Sys2Proof.Machine

/-! Where the registers stand (10_state.md R21). -/

/-- The device offset of a register, from the table of R21. -/
def Csr.offset : Csr → Nat
  | .id => 0x000
  | .ctrl => 0x004
  | .status => 0x008
  | .errCode => 0x00C
  | .errInfo => 0x010
  | .cmd => 0x014
  | .arg0 => 0x018
  | .arg1 => 0x01C
  | .arg2 => 0x020
  | .result0 => 0x024
  | .result1 => 0x028
  | .inLen => 0x02C
  | .nv => 0x030
  | .nf => 0x034
  | .ncorner => 0x038
  | .nattr => 0x03C
  | .ncomp => 0x040
  | .roleMap r => 0x080 + 4 * r.val
  | .slotSel => 0x100
  | .slotLen => 0x104
  | .slotIdx => 0x108
  | .slotData => 0x10C

/-- No two offsets address one register. -/
theorem Csr.offset_of_csrAt {off : Nat} {r : Csr} (h : csrAt off = some r) : r.offset = off := by
  unfold csrAt at h
  split at h
  · cases h
    simp only [Csr.offset]
    omega
  · split at h
    case h_22 => exact nomatch h
    all_goals
      cases h
      rfl

/-- Every offset that R61 maps below the IN window holds a register. -/
theorem exists_csr_of_mapped {off : Nat} (h : Mapped 0 .w32 off) : ∃ r, csrAt off = some r := by
  have table : ∀ k < 68, k ≤ 16 ∨ 32 ≤ k ∧ k ≤ 48 ∨ 64 ≤ k → (csrAt (4 * k)).isSome = true := by decide
  obtain ⟨-, halign, hrange⟩ | ⟨hwidth, -⟩ | ⟨-, -, hlow, hhigh⟩ := h
  · obtain ⟨k, rfl⟩ := Nat.dvd_of_mod_eq_zero halign
    exact Option.isSome_iff_exists.1 (table k (by omega) (by omega))
  · exact nomatch hwidth
  · omega

/-- A register is reached by 32-bit accesses at its offset only (R61, R63). -/
theorem target_eq_csr {s : State} {width : Width} {off : Nat} {r : Csr} (h : s.target width off = .csr r) :
    width = .w32 ∧ csrAt off = some r := by
  unfold State.target at h
  split at h
  · split at h
    · next hr =>
      cases h
      exact ⟨rfl, hr⟩
    · exact nomatch h
  · split at h
    · split at h <;> exact nomatch h
    · exact nomatch h
    · split at h <;> exact nomatch h

/-! Reset (R440, R441). -/

/-- The machine invariant holds after reset: no byte of IN is written, no slot holds an element, no flag is set. -/
theorem State.Inv.reset : State.reset.Inv where
  mem := ⟨Memory.wf_reset, fun _ hc => nomatch hc⟩
  slots := fun k => by simp
  len := ⟨Nat.zero_le _, Nat.zero_le _⟩
  flags := ⟨fun hd => Bool.false_ne_true hd.1, fun hb => (Bool.false_ne_true hb).elim⟩
  errs := ⟨fun _ => ⟨rfl, rfl⟩, fun he => (Bool.false_ne_true he).elim⟩
  meshEmpty := fun _ => rfl

/-- Settles O15: the two MESH invariants speak of a valid MESH only. -/
theorem invariantsAtReset : Obligations.InvariantsAtReset :=
  ⟨State.Inv.reset, fun hv => (Bool.false_ne_true hv).elim, fun hv => (Bool.false_ne_true hv).elim, rfl, rfl⟩

/-- After power-on reset every flag of STATUS is 0 (R23, R440). -/
theorem powerOnReset_statusWord (s : State) : s.powerOnReset.statusWord = 0 := by
  simp [State.statusWord, flagBit, State.reset]

/-- After power-on reset every role map entry is 0 (R33, R440). -/
theorem powerOnReset_roleMap_getElem (s : State) (r : Role) :
    s.powerOnReset.roleMap[r] = { slot := 0, valid := false } := by
  simp [State.reset]

/-- After power-on reset no role is assigned (R33, R440). -/
theorem powerOnReset_roleSlot (s : State) (r : Role) : s.powerOnReset.roleSlot r = none := by
  rw [State.roleSlot, powerOnReset_roleMap_getElem]
  rfl

/-- Settles O19, register by register. -/
theorem powerOnReset : Obligations.PowerOnReset := by
  intro s
  exact ⟨s.powerOnReset, rfl, rfl, rfl, powerOnReset_statusWord s, rfl, rfl, rfl, rfl, rfl, rfl, rfl, rfl, rfl, rfl,
    rfl, rfl, rfl, rfl, powerOnReset_roleMap_getElem s, powerOnReset_roleSlot s, rfl, rfl, s.slot_powerOnReset, rfl,
    rfl, rfl, rfl, rfl, rfl, rfl, fun _ => rfl⟩

/-- SOFT_RESET wins over GO on the idle device (R441). -/
theorem writeCtrl_softReset {s : State} {v : Word} (hb : s.busy = false) (hreset : v.getLsbD 1 = true) :
    s.writeCtrl v = s.softReset := by
  simp only [State.writeCtrl, hb, hreset, Bool.false_eq_true, if_false, if_true]

/-- Settles O20: the write reaches CTRL, which resets the idle device and refuses SOFT_RESET while busy. -/
theorem softReset : Obligations.SoftReset := by
  intro s v hreset
  rw [host_write_csr s (r := .ctrl) rfl, State.writeCsr]
  refine ⟨fun hb => ?_, fun hb => ?_⟩
  · rw [writeCtrl_softReset hb hreset]
    rfl
  · simp [writeCtrl_busy hb, State.writeCtrlBusy, hreset]

/-! What BUSY refuses (R452). -/

/-- While BUSY = 1 every write at an offset of the IN window is refused: for BUSY, or as no access of R62. -/
theorem host_write_window_busy {s : State} (hb : s.busy = true) (width : Width) {off : Word}
    (hwin : inWindow ≤ off.toNat) (v : Word) : s.host (.write width off v) = .next s.refuse := by
  rw [State.host_eq, State.hostAccess, State.hostWrite]
  congr 1
  split
  · next r htarget => exact absurd (csrAt_lt_inWindow (target_eq_csr htarget).2) (Nat.not_lt.2 hwin)
  · exact s.unlessBusy_busy hb _
  · exact s.unlessBusy_busy hb _
  · rfl

/-- The read of a register does not change BUSY. -/
theorem readCsr_busy (s : State) (r : Csr) : (s.readCsr r).busy = s.busy :=
  readCsr_keeps (P := fun t => t.busy = s.busy) ⟨fun _ h => h, fun h => h, fun h => h⟩ rfl r

theorem readSlotLen_accepted {s : State} (h : s.busy = false ∨ s.params.busySlotRead = .valueBefore) :
    s.readSlotLen = s.returnData (u32 (s.slot s.slotSel).length) := s.readSlot_accepted h _

/-- Where R69 and R450 are followed, a SLOT_LEN read does not depend on BUSY. -/
theorem readSlotLen_withBusy {s : State} (hp : s.params.busySlotRead = .valueBefore) (b : Bool) :
    State.readSlotLen { s with busy := b } = { s.readSlotLen with busy := b } := by
  rw [readSlotLen_accepted (.inr hp)]
  exact readSlotLen_accepted (s := { s with busy := b }) (.inr hp)

/-- Where R69 and R450 are followed, a SLOT_DATA read does not depend on BUSY. -/
theorem readSlotData_withBusy {s : State} (hp : s.params.busySlotRead = .valueBefore) (b : Bool) :
    State.readSlotData { s with busy := b } = { s.readSlotData with busy := b } := by
  cases hx : (s.slot s.slotSel)[s.slotIdx.toNat]? with
  | some x =>
    rw [readSlotData_inside (.inr hp) hx]
    exact readSlotData_inside (s := { s with busy := b }) (.inr hp) hx
  | none =>
    have hout := List.getElem?_eq_none_iff.1 hx
    rw [readSlotData_outside (.inr hp) hout]
    exact readSlotData_outside (s := { s with busy := b }) (.inr hp) hout

/-- A register other than STATUS and the two that read a slot reads the same whatever BUSY is, and its read changes
nothing else. -/
theorem readCsr_withBusy (s : State) {r : Csr} (hstatus : r ≠ .status) (hlen : r ≠ .slotLen) (hdata : r ≠ .slotData)
    (b : Bool) : ∃ x, s.readCsr r = s.returnData x ∧
      State.readCsr { s with busy := b } r = State.returnData { s with busy := b } x := by
  cases r with
  | status => exact absurd rfl hstatus
  | slotLen => exact absurd rfl hlen
  | slotData => exact absurd rfl hdata
  | _ => exact ⟨_, rfl, rfl⟩

/-- STATUS reads BUSY at bit 0 (10_state.md R23). -/
theorem statusWord_getLsbD_zero (s : State) : s.statusWord.getLsbD 0 = s.busy := by
  have flag_zero (b : Bool) : (flagBit b 0).getLsbD 0 = b := by cases b <;> rfl
  have flag_above (b : Bool) (n : Nat) : (flagBit b (n + 1)).getLsbD 0 = false := by cases b <;> simp [flagBit]
  simp only [State.statusWord, BitVec.getLsbD_or, flag_zero, flag_above, Bool.or_false]

/-- Settles O26, region by region and register by register. -/
theorem busyRefusals : Obligations.BusyRefusals := by
  intro s off v hb
  have refused {o : Word} {r : Csr} (ho : csrAt o.toNat = some r) (hr : s.writeCsr r v = s.refuse) :
      s.host (.write .w32 o v) = .next { s with accErr := true } := (host_write_csr s ho v).trans (congrArg _ hr)
  have write (o : Word) (r : Csr) (ho : csrAt o.toNat = some r) := host_write_csr s ho v
  have len : csrAt (0x104#32).toNat = some .slotLen := by decide
  have data : csrAt (0x10C#32).toNat = some .slotData := by decide
  refine ⟨fun width hwin => host_write_window_busy hb width hwin v, fun hwin hin => ?_, ?_,
    write 0x008 .status (by decide), ?_, fun r => refused (csrAt_roleMap r) (s.unlessBusy_busy hb _), ?_,
    write 0x014 .cmd (by decide), write 0x018 .arg0 (by decide), write 0x01C .arg1 (by decide),
    write 0x020 .arg2 (by decide), fun hmapped hlen hdata hstatus => ?_, s.statusWord,
    host_read_csr s (r := .status) (by decide), (statusWord_getLsbD_zero s).trans hb⟩
  · exact host_read_w8 s hwin (by unfold inWindow; omega)
  · exact (write 0x004 .ctrl (by decide)).trans (congrArg _ (writeCtrl_busy hb v))
  · simp only [List.forall_mem_cons]
    exact ⟨refused (r := .inLen) (by decide) (s.unlessBusy_busy hb _),
      refused (r := .slotSel) (by decide) (s.unlessBusy_busy hb _), refused len (s.unlessBusy_busy hb _),
      refused (r := .slotIdx) (by decide) (s.unlessBusy_busy hb _), refused data (s.unlessBusy_busy hb _), by simp⟩
  · simp only [List.forall_mem_cons]
    refine ⟨⟨fun hp => ?_, fun hp => ⟨_, host_read_csr s len, (readCsr_busy s _).trans hb, ?_⟩⟩,
      ⟨fun hp => ?_, fun hp => ⟨_, host_read_csr s data, (readCsr_busy s _).trans hb, ?_⟩⟩, by simp⟩
    · exact (host_read_csr s len).trans (congrArg _ (s.readSlot_refused hb hp _))
    · exact (host_read_csr _ len).trans (congrArg _ (readSlotLen_withBusy hp false))
    · exact (host_read_csr s data).trans (congrArg _ (s.readSlot_refused hb hp _))
    · exact (host_read_csr _ data).trans (congrArg _ (readSlotData_withBusy hp false))
  · obtain ⟨r, hr⟩ := exists_csr_of_mapped hmapped
    have ne_of_offset {q : Csr} {o : Word} (hne : off ≠ o) (ho : q.offset = o.toNat) : r ≠ q := by
      rintro rfl
      exact hne (BitVec.eq_of_toNat_eq ((Csr.offset_of_csrAt hr).symm.trans ho))
    obtain ⟨x, hbusy, hidle⟩ := readCsr_withBusy s (ne_of_offset hstatus rfl) (ne_of_offset hlen rfl)
      (ne_of_offset hdata rfl) false
    exact ⟨x, (host_read_csr s hr).trans (congrArg _ hbusy), (host_read_csr _ hr).trans (congrArg _ hidle)⟩

/-! ACCERR (R453). -/

/-- From `s` to `t` the coming moves stay and ACCERR is not cleared. -/
structure State.KeepsAccErr (s t : State) : Prop where
  inputs : t.inputs = s.inputs
  accErr : s.accErr = true → t.accErr = true

theorem State.KeepsAccErr.readStable (s : State) : ReadStable s.KeepsAccErr where
  returnData := fun _ h => ⟨h.inputs, h.accErr⟩
  refuse := fun h => ⟨h.inputs, fun _ => rfl⟩
  nextIdx := fun h => ⟨h.inputs, h.accErr⟩

section
variable {s t : State}

theorem State.KeepsAccErr.refl : s.KeepsAccErr s := ⟨rfl, id⟩

theorem State.KeepsAccErr.refuse : s.KeepsAccErr s.refuse := (State.KeepsAccErr.readStable s).refuse .refl

theorem State.KeepsAccErr.unlessBusy (h : s.KeepsAccErr t) : s.KeepsAccErr (s.unlessBusy t) := by
  unfold State.unlessBusy
  split
  · exact .refuse
  · exact h

/-- A CTRL write, an accepted GO included, does not clear ACCERR, but for a soft reset. -/
theorem writeCtrl_keepsAccErr (s : State) (v : Word) :
    s.KeepsAccErr (s.writeCtrl v) ∨ (s.busy = false ∧ v.getLsbD 1 = true ∧ s.writeCtrl v = s.softReset) := by
  unfold State.writeCtrl
  split
  · exact .inl ⟨rfl, fun h => by simp [h]⟩
  · next hb =>
    split
    · next hv => exact .inr ⟨by simpa using hb, hv, rfl⟩
    · split <;> exact .inl ⟨rfl, id⟩

theorem writeCsr_keepsAccErr (s : State) {r : Csr} (hctrl : r ≠ .ctrl) (hstatus : r ≠ .status) (v : Word) :
    s.KeepsAccErr (s.writeCsr r v) := by
  cases r with
  | ctrl => exact absurd (rfl) hctrl
  | status => exact absurd (rfl) hstatus
  | inLen => exact State.KeepsAccErr.unlessBusy ⟨rfl, id⟩
  | roleMap i => exact State.KeepsAccErr.unlessBusy ⟨rfl, id⟩
  | slotSel => exact State.KeepsAccErr.unlessBusy ⟨rfl, id⟩
  | slotIdx => exact State.KeepsAccErr.unlessBusy ⟨rfl, id⟩
  | slotLen =>
    refine State.KeepsAccErr.unlessBusy ?_
    unfold State.writeSlotLen
    split
    · exact .refuse
    · exact ⟨rfl, id⟩
  | slotData =>
    refine State.KeepsAccErr.unlessBusy ?_
    unfold State.writeSlotData
    split
    · exact ⟨rfl, id⟩
    · exact (State.KeepsAccErr.readStable s).nextIdx .refuse
  | _ => exact ⟨rfl, id⟩

/-- All a host access can do to ACCERR and the coming moves: it keeps both, or it is a STATUS write, or it is a CTRL
write that resets the idle device. -/
theorem hostAccess_keepsAccErr (s : State) (a : HostAccess) :
    s.KeepsAccErr (s.hostAccess a) ∨
      (∃ v, a = .write .w32 0x008 v ∧ s.hostAccess a = s.writeStatus v) ∨
      (s.busy = false ∧ ∃ v, a = .write .w32 0x004 v ∧ v.getLsbD 1 = true ∧ s.hostAccess a = s.softReset) := by
  cases a with
  | read width off => exact .inl (hostRead_keeps (State.KeepsAccErr.readStable s) .refl width off.toNat)
  | write width off v =>
    simp only [State.hostAccess, State.hostWrite]
    split
    · next r hr =>
      obtain ⟨rfl, hcsr⟩ := target_eq_csr hr
      have hoff := Csr.offset_of_csrAt hcsr
      by_cases hctrl : r = .ctrl
      · subst hctrl
        obtain rfl : off = 0x004 := BitVec.eq_of_toNat_eq hoff.symm
        exact (writeCtrl_keepsAccErr s v).imp_right fun ⟨hb, hv, h⟩ => .inr ⟨hb, v, rfl, hv, h⟩
      · by_cases hstatus : r = .status
        · subst hstatus
          obtain rfl : off = 0x008 := BitVec.eq_of_toNat_eq hoff.symm
          exact .inr (.inl ⟨v, rfl, rfl⟩)
        · exact .inl (writeCsr_keepsAccErr s hctrl hstatus v)
    · exact .inl (State.KeepsAccErr.unlessBusy ⟨rfl, id⟩)
    · exact .inl (State.KeepsAccErr.unlessBusy ⟨rfl, id⟩)
    · exact .inl .refuse

/-- The engine's turn leaves the device idle, and changes nothing of the host's side (20_memory.md R73). -/
theorem engineStep_end (h : engineStep s = .next t) : t.busy = false ∧ t.accErr = s.accErr ∧ t.inputs = s.inputs := by
  have of_end (he : EngineEnd s t) : t.busy = false ∧ t.accErr = s.accErr ∧ t.inputs = s.inputs :=
    ⟨he.busy_eq, he.sameHostState.accErr, he.sameHostState.inputs⟩
  rcases engineStep_cases h with ⟨hb, rfl⟩ | ⟨-, i, -, hexec⟩ | ⟨-, r, -, rfl⟩
  · exact ⟨hb, rfl, rfl⟩
  · exact of_end (exec_ending hexec).engineEnd
  · exact of_end (rejectCommand_engineEnd s r)

end

/-- Settles O28, by the cases of a step: the engine never writes ACCERR, and of the host's accesses only a STATUS
write of bit 3 and a soft reset clear it. -/
theorem accErrSticky : Obligations.AccErrSticky := by
  intro s t hset hstep hclear
  have changed (h : t.accErr = s.accErr) : False := Bool.false_ne_true (hclear.symm.trans (h.trans hset))
  rcases step_cases hstep with ⟨-, he⟩ | ⟨rest, -, he⟩ | ⟨a, rest, hin, rfl⟩ | ⟨rest, hin, -⟩
  · obtain ⟨-, haccErr, -⟩ := engineStep_end he
    exact (changed haccErr).elim
  · obtain ⟨-, haccErr, -⟩ := engineStep_end he
    exact (changed haccErr).elim
  · rcases hostAccess_keepsAccErr { s with inputs := rest } a with h | ⟨v, rfl, h⟩ | ⟨hb, v, rfl, hv, -⟩
    · exact (Bool.false_ne_true (hclear.symm.trans (h.accErr hset))).elim
    · rw [h, State.writeStatus_accErr, hset] at hclear
      exact .inr (.inl ⟨v, rest, hin, by simpa [w1c] using hclear⟩)
    · exact .inr (.inr ⟨v, rest, hin, hv, hb⟩)
  · exact .inl ⟨rest, hin⟩

/-! Completion (R461). -/

/-- The engine's turn is never a fault or a refusal (40_commands.md R127). -/
theorem safe_engineStep (s : State) : Safe (engineStep s) := by
  unfold engineStep
  split
  · split
    · exact everyCommandTerminates _ s
    · exact ⟨_, rfl⟩
  · exact ⟨s, rfl⟩

theorem hostAccess_inputs (s : State) (a : HostAccess) : (s.hostAccess a).inputs = s.inputs := by
  rcases hostAccess_keepsAccErr s a with h | ⟨v, -, h⟩ | ⟨-, v, -, -, h⟩
  · exact h.inputs
  · rw [h, State.writeStatus_inputs]
  · rw [h, State.softReset_inputs]

/-- A step takes one coming move, whatever it is. -/
theorem step_takes_move {s : State} {i : Input} {rest : List Input} (hin : s.inputs = i :: rest) :
    ∃ t, step s = .next t ∧ t.inputs = rest := by
  cases i with
  | access a => exact ⟨_, by rw [step, hin], hostAccess_inputs _ a⟩
  | engineTurn =>
    obtain ⟨t, ht⟩ := safe_engineStep { s with inputs := rest }
    obtain ⟨-, -, hinputs⟩ := engineStep_end ht
    exact ⟨t, (step_of_engineTurn hin).trans ht, hinputs⟩
  | powerOn => exact ⟨_, by rw [step, hin], State.powerOnReset_inputs _⟩

theorem run_succ_of_step {M : Host.Core} {k : Nat} {s t : M.State} (h : M.step s = .next t) :
    M.run (k + 1) s = M.run k t := by
  rw [Host.Core.run, h]

/-- Settles O9, by induction on the coming moves; when none is left, the engine's turn leaves the device idle. -/
theorem acceptedCommandCompletes : Obligations.AcceptedCommandCompletes := by
  intro s
  induction hin : s.inputs generalizing s with
  | nil =>
    obtain ⟨t, ht⟩ := safe_engineStep s
    obtain ⟨hidle, -, -⟩ := engineStep_end ht
    exact ⟨t, run_succ_of_step (M := Sys2Proof.core) ((step_of_nil hin).trans ht), hidle⟩
  | cons i rest ih =>
    obtain ⟨t, hstep, hrest⟩ := step_takes_move hin
    obtain ⟨u, hrun, hidle⟩ := ih t hrest
    exact ⟨u, (run_succ_of_step (M := Sys2Proof.core) hstep).trans hrun, hidle⟩

end Sys2Proof.Machine
